-- ==== Sys2Proof/Word.lean ====
section
/-! DEFINITION. The word types of the Pelmarc 7460 (spec/00_scope.md, section 1.4). -/

namespace Sys2Proof

/-- One byte of host memory. -/
abbrev Byte := BitVec 8

/-- A 32-bit quantity: register, counter, id, tag. -/
abbrev Word := BitVec 32

/-- A position along the ribbon, in pu, wrapping at 2^32 (section 1.4). -/
abbrev Pos := BitVec 32

/-- A line number, wrapping at 2^24 (section 1.4). -/
abbrev Line := BitVec 24

/-- A host address (R178, R194). -/
abbrev Addr := BitVec 64

/-- A channel number, 0 to 15 from the operator side (R16). -/
abbrev Ch := Fin 16

/-- A half-open range [a, b) across the ribbon in pu, or of columns. -/
abbrev Ivl := Nat × Nat

end Sys2Proof
end

