-- ==== Sys2Proof/Syntax.lean ====
section
/-! DEFINITION. The commands of the 7460: one constructor for each row of spec/opcode_table.json. -/

namespace Sys2Proof

/-- A write the host has made to its own memory: consecutive bytes from an address (log 4). -/
structure HostWrite where
  addr : Nat
  bytes : List Byte
  deriving DecidableEq, Repr

/-- How the exchange-area accesses of an attach end (R178, R182; log 9). -/
inductive AccessError where
  /-- every access completes -/
  | ok
  /-- a read of the header ends in an error -/
  | read
  /-- a write of the part id or of the mirror words ends in an error -/
  | write
  deriving DecidableEq, Repr

/-- The commands, in the order of the table. Operands: `ien` the IEN bit of the EXCTL write; `host` what the host has
written to its memory since EXU last read it (log 4); `ch` the channel whose link reports. -/
inductive Instr where
  | powerOnReset
  | pinReset
  | softReset
  | softResetWithKeep
  | attach (ien : Bool) (host : List HostWrite) (err : AccessError)
  | detach (ien : Bool)
  | deferredDetach
  | ien (value : Bool)
  | excause (value : Word)
  | expoll (value : Word)
  | exbl (value : Word)
  | exbh (value : Word)
  | registerWrite (offset : Nat) (value : Word)
  | forwardCount
  | reverseCount
  | lineTrigger
  | speedWindowEnd
  | scanWord (ch : Ch) (word : BitVec 64)
  | headStatus (ch : Ch) (code : Byte)
  | lossOfSignal (ch : Ch)
  | returnOfSignal (ch : Ch)
  | lineAssembly
  | gradingEvent
  | placement
  | cutStrobe
  | cinhChange (asserted : Bool)
  | cdone
  | confirmWindowExpiry
  | gateEvent
  | rowRetirement
  | endOfDrain
  | poll (host : List HostWrite)
  | setup
  | start
  | stop
  | cut
  | cancel
  | channel
  | loadMask
  | loadClasses
  | loadSpec
  | closeShift
  | pageRecordWrite
  | pageFlush
  | busError
  | resetPinRelease
  deriving DecidableEq, Repr

end Sys2Proof
end

