-- ==== Sys2Proof/Config.lean ====
section
/-! DEFINITION. What the spec leaves to the implementation: the free values, and the values the model names where
the spec gives none. -/

namespace Sys2Proof

/-- A free value: nothing constrains it (log 28). It is used for the first-record time in the head of a page that
is closed with no record in it (R192 gives no value there). DESIGN CHOICE: the spec states no value. -/
opaque Config.freeWord : Nat → Word

/-- A free value: nothing constrains it (log 8). It is how many word writes of an event complete before the access that
ends in an error (R174, R178 say which accesses can fail, not which one does). DESIGN CHOICE: the spec leaves it open. -/
opaque Config.busWrites : Nat → Nat

/-- What a byte of host memory reads as before anything has written it. DESIGN CHOICE, unsafe (log 5). -/
def Config.hostByte : Byte := 0#8

/-- The level of CINH when the model starts. DESIGN CHOICE, unsafe (log 13). -/
def Config.cinhAtStart : Bool := false

/-- The links that report loss of signal when the model starts. DESIGN CHOICE, unsafe (log 13). -/
def Config.linkLostAtStart : BitVec 16 := 0#16

end Sys2Proof
end

