-- ==== Sys2Proof/Machine/State.lean ====
section
/-! DEFINITION. The state of the 7460, block by block, as plain data, and its value after power-on reset. -/

namespace Sys2Proof.Machine

/-! ## Why a step can stop -/

/-- No command of this block faults the machine: the part's own FAULT is a part state (R174). The one constructor is
raised by nothing (safe: no step answers it). -/
inductive Fault where
  /-- Raised by no command. -/
  | never
  deriving DecidableEq, Repr

/-- Why a command has no meaning. -/
inductive Refusal where
  /-- Raised only by an arm of `exec` whose command has no meaning yet; no arm is left so (safe). -/
  | notModelled (mnemonic : String)
  deriving DecidableEq, Repr

/-! ## Host memory -/

/-- Host memory as EXU reads and writes it (R178, R195): the listed bytes, in canonical form (`Memory.wf`). An
unlisted byte reads `Config.hostByte` (log 5). -/
structure Memory where
  cells : List Host.Cell
  deriving DecidableEq, Repr

/-- The canonical form: addresses strictly rising and below 2^64, no entry equal to what an unlisted address reads. -/
abbrev Memory.wf (m : Memory) : Prop :=
  m.cells.Pairwise (fun a b => a.1 < b.1) ∧ ∀ c ∈ m.cells, c.1 < 2 ^ 64 ∧ c.2 ≠ Config.hostByte

/-! ## The part as a whole (Chapter 10) -/

/-- Table 10-1. -/
inductive PartState where
  | detached | idle | running | draining | fault
  deriving DecidableEq, Repr

/-- Reset cause of EXSTS (Table 11-2). -/
inductive ResetCause where
  | powerOn | pin | soft | softKeep
  deriving DecidableEq, Repr

/-- Attach error of EXSTS (Table 11-2). -/
inductive AttachError where
  | none | badMarker | badVersion | badPages | bus
  deriving DecidableEq, Repr

/-- Fault cause of EXSTS (Table 11-2). -/
inductive FaultCause where
  | none | bus | header
  deriving DecidableEq, Repr

/-- What EXSTS shows (R179): the part state (R165) and the three causes. -/
structure Status where
  state : PartState
  resetCause : ResetCause
  attachError : AttachError
  faultCause : FaultCause
  deriving DecidableEq, Repr

/-- Levels that other controllers hold on the part's inputs (R18, R31, R120; log 13). -/
structure Inputs where
  /-- CINH asserted. -/
  cinh : Bool
  /-- Bit c: link c reports loss of signal. -/
  linkLost : BitVec 16
  deriving DecidableEq, Repr

/-- Geometry of one channel (R16). -/
structure Geometry where
  installed : Bool
  x0 : Nat
  /-- Column pitch in 1/256 pu. -/
  cp : Nat
  n : Nat
  deriving DecidableEq, Repr

/-- The setup held: every field of Table 10-3, clamped and converted to pu as R166 to R169 give (net_width and
runway_warn stay in mm, R77). -/
structure Setup where
  scale : Word
  invert : Bool
  pitch : Nat
  maxSpeed : Nat
  geom : List Geometry
  settleLines : Nat
  deadline : Nat
  joinTol : Nat
  closeGap : Nat
  maxBlobLines : Nat
  minArea : Nat
  liveFlaws : Bool
  netLeft : Nat
  netWidth : Nat
  runwayWarn : Nat
  dGc : Nat
  dCommit : Nat
  dLead : Nat
  dConfirm : Nat
  dCg : Nat
  stripMin : Nat
  stripMax : Nat
  rowMin : Nat
  rowMax : Nat
  fallbackLen : Nat
  cutoutMargin : Nat
  maxCutouts : Nat
  ports : BitVec 4
  scrapCode : BitVec 3
  flushTime : Nat
  deriving DecidableEq, Repr

/-! ## POS (Table 1-1) -/

/-- The Position Unit. -/
structure Position where
  /-- Integer part of the position counter. -/
  p : Pos
  /-- Fraction of the position counter, in 1/65,536 pu. -/
  frac : BitVec 16
  debt : BitVec 16
  y0 : Pos
  l0 : Line
  lt : Line
  nextTrigger : Pos
  lastSpeed : Word
  windowTime : Word
  windowP : Pos
  overLimit : Bool
  excess : Bool
  /-- The microsecond counter. -/
  us : Word
  /-- The line number last carried on LTRIG, and the pulses so far (the model's view of the pin, log 17). -/
  ltrigLine : Option Line
  ltrigCount : Nat
  deriving DecidableEq, Repr

/-! ## SLI (Table 2-1) -/

/-- Table 2-3. -/
inductive ChanState where
  | off | settling | active | lapsed | faulted
  deriving DecidableEq, Repr

/-- The cause with which a channel entered FAULTED (R18, R33). -/
inductive ChanFault where
  | head (code : Byte) | linkLost
  deriving DecidableEq, Repr

/-- A scan word by kind (R17, R199). -/
inductive ScanWord where
  | lineStart (line : Line)
  | run (first last : Nat) (mode : BitVec 2) (peak : Nat)
  | lineEnd (line : Line) (count : Nat)
  | headStatus (code : Byte)
  deriving DecidableEq, Repr

/-- One channel of the Scan Link Intake. -/
structure Channel where
  state : ChanState
  why : Option ChanFault
  settle : Nat
  dropping : Bool
  cutLine : Option Line
  staleLine : Option Line
  /-- Oldest word first. -/
  queue : List ScanWord
  deriving DecidableEq, Repr

/-- Origin of a mask entry (Table 2-5). -/
inductive MaskOrigin where
  | setup | run
  deriving DecidableEq, Repr

/-- A valid column mask entry (Table 2-5); the table holds `none` where an entry is not valid. -/
structure MaskEntry where
  channel : Nat
  first : Nat
  last : Nat
  origin : MaskOrigin
  deriving DecidableEq, Repr

/-- The Scan Link Intake: sixteen channels, the next line to assemble, the 32-entry column mask table. Pending
disables stand in the order table (R32, R74). -/
structure Intake where
  chans : List Channel
  la : Line
  mask : List (Option MaskEntry)
  deriving DecidableEq, Repr

/-! ## FAS (Table 3-1) -/

/-- A blob record (Table 3-2). `id` is the table index; `xr` is none for a continuation that no run has joined
(R44). -/
structure Blob where
  id : Nat
  first : Line
  last : Line
  xr : Option Ivl
  lastFront : List Ivl
  curFront : List Ivl
  area : Nat
  peak : Nat
  modes : BitVec 3
  chset : BitVec 16
  runs : Nat
  contFrom : Option Word
  segment : Bool
  deriving DecidableEq, Repr

/-- A class entry (Table 3-4). -/
structure ClassEntry where
  enabled : Bool
  required : BitVec 3
  excluded : BitVec 3
  sizeMin : Nat
  sizeMax : Nat
  contrastMin : Nat
  elongMin : Nat
  deriving DecidableEq, Repr

/-- The Flaw Assembler. `blobs` holds the entries of the open-blob table that are not free, by rising id. -/
structure Assembler where
  blobs : List Blob
  dense : Option Blob
  classes : List ClassEntry
  nextFlaw : Word
  smallDiscarded : Word
  yFin : Pos
  deriving DecidableEq, Repr

/-! ## RBM (Table 4-1) -/

/-- Where retirement assigns a flaw (R66). -/
inductive Assignment where
  | unassigned
  | plate (row : Word) (lane : Nat)
  | strip (row : Word)
  | trim (row : Word)
  deriving DecidableEq, Repr

/-- A flaw record (Table 3-3). -/
structure Flaw where
  id : Word
  first : Line
  last : Line
  yTop : Pos
  yBottom : Pos
  length : Nat
  yCenter : Pos
  xLeft : Nat
  xRight : Nat
  width : Nat
  xCenter : Nat
  size : Nat
  area : Nat
  peak : Nat
  modes : BitVec 3
  chset : BitVec 16
  runs : Nat
  contFrom : Option Word
  segment : Bool
  cls : Nat
  assignment : Assignment
  deriving DecidableEq, Repr

/-- Cause of an unseen interval (Table 4-2). -/
inductive UnseenCause where
  | settling | lapsed | off | fault | masked | saturated
  deriving DecidableEq, Repr

/-- An unseen interval (Table 4-2); channel none is ALL. -/
structure Interval where
  channel : Option Nat
  xa : Nat
  xb : Nat
  yStart : Pos
  yEnd : Pos
  cause : UnseenCause
  folded : Nat
  capReported : Bool
  deriving DecidableEq, Repr

/-- The Ribbon Map. -/
structure RibbonMap where
  flaws : List Flaw
  unseen : List Interval
  retiredEdge : Pos
  folding : Bool
  fullReported : Bool
  installedWidth : Ivl
  deriving DecidableEq, Repr

/-! ## Orders (Table 5-1) -/

/-- Grades, in the code order of Table 12-1 from 1. -/
inductive Grade where
  | a | b | c | reject | uninspected | merged | scrap
  deriving DecidableEq, Repr

/-- A lane of a CUT order or of an ORDER row (R79, Table 6-2). -/
structure Lane where
  width : Nat
  xl : Nat
  xr : Nat
  spec : Nat
  minGrade : Grade
  port : Nat
  deriving DecidableEq, Repr

/-- Table 5-4, less the final states, which leave the table. -/
inductive CutOrderState where
  | queued | current | placed
  deriving DecidableEq, Repr

/-- What ORU keeps for a CUT order (Table 5-3); lengths in mm and in pu. -/
structure CutOrder where
  state : CutOrderState
  standing : Bool
  rowCount : Nat
  remaining : Nat
  rowMm : Nat
  rowPu : Nat
  lanes : List Lane
  superseded : Bool
  cutShort : Bool
  rowsPlaced : Word
  stripsPlaced : Word
  outstanding : Nat
  meeting : Word
  below : Word
  deriving DecidableEq, Repr

/-- The work of an order in the table (R74). -/
inductive Work where
  | cut (o : CutOrder)
  | channel (disable : BitVec 16) (effect : Line)
  | closeShift
  | stop
  deriving DecidableEq, Repr

/-- An entry of the order table (R74), with the block its status is written into. -/
structure Entry where
  tag : Word
  take : Word
  addr : Addr
  notify : Bool
  work : Work
  deriving DecidableEq, Repr

/-- The Order Unit; runway none is UNBOUNDED. -/
structure OrderUnit where
  table : List Entry
  nextTake : Word
  runway : Option Nat
  low : Bool
  deriving DecidableEq, Repr

/-! ## RPL (Table 6-1) -/

/-- Row kinds (R94). -/
inductive RowKind where
  | order | strip | fallback
  deriving DecidableEq, Repr

/-- Cut states (Table 7-2). -/
inductive CutState where
  | armed | strobed | cut | missed | inhibited
  deriving DecidableEq, Repr

/-- Grade states of a row (Table 6-2). -/
inductive GradeState where
  | pending | graded | late
  deriving DecidableEq, Repr

/-- Gate states of a row (Table 6-2). -/
inductive GateState where
  | waiting | fired | suppressed
  deriving DecidableEq, Repr

/-- Grade causes (R141). -/
inductive GradeCause where
  | none | oversize | dense | saturated | limit | unseen | score
  deriving DecidableEq, Repr

/-- The grading result of one lane plate (R145). -/
structure LaneResult where
  grade : Grade
  cause : GradeCause
  score : Nat
  unseenPm : Nat
  plateArea : Nat
  unseenArea : Nat
  deriving DecidableEq, Repr

/-- A row record (Table 6-2). `ref` is the tag and take number; `isFirst` marks the first row after START (R112,
R153); `results` is none until the row has a computed grade (R144). -/
structure Row where
  id : Word
  kind : RowKind
  f : Pos
  t : Pos
  ref : Option (Word × Word)
  lanes : List Lane
  shiftTag : Word
  blind : Bool
  preGrades : List Grade
  cutOuts : Nat
  gradeState : GradeState
  results : Option (List LaneResult)
  lead : CutState
  trail : CutState
  gate : GateState
  merged : Bool
  gateFault : Bool
  codes : List (BitVec 3)
  isFirst : Bool
  deriving DecidableEq, Repr

/-- The Row Planner. -/
structure Planner where
  rows : List Row
  frontier : Pos
  headPos : Pos
  headState : CutState
  nextRow : Word
  cutOutCount : Nat
  cutOutOrder : Option Word
  inFallback : Bool
  fallbackRows : Word
  drainEnd : Pos
  /-- A row has been placed since START (R98, R114). -/
  placedAny : Bool
  deriving DecidableEq, Repr

/-! ## CGC (Table 7-1) -/

/-- An armed cut, named by the row whose trailing cut it is; row 0 is the head cut (R96, R118). -/
structure ArmedCut where
  pos : Pos
  row : Word
  deriving DecidableEq, Repr

/-- A strobed cut awaiting confirmation (R119, R121). -/
structure OutCut where
  pos : Pos
  row : Word
  strobeTime : Word
  windowEnd : Pos
  deriving DecidableEq, Repr

/-- The Cut and Gate Controller. The next-cut pointer is the head of `armed`; the next-gate pointer is computed from
the row list. `cstb` and `gateStrobes` count pulses (log 17). -/
structure Cutter where
  armed : List ArmedCut
  outstanding : List OutCut
  ports : List (BitVec 3)
  cstb : Nat
  gateStrobes : List Nat
  deriving DecidableEq, Repr

/-! ## GRD (Table 8-1) -/

/-- A loaded quality spec (Table 8-2). -/
structure Spec where
  weight : List Nat
  limit : List Nat
  b1 : Nat
  b2 : Nat
  b3 : Nat
  e : Nat
  ze : Nat
  zc : Nat
  u : Nat
  ta : Nat
  tb : Nat
  tc : Nat
  /-- Codes for A, B, C, REJECT, UNINSPECTED. -/
  codes : List Nat
  deriving DecidableEq, Repr

/-- The Grader: eight specs, none where not loaded. The next-grade pointer is computed from the row list (R144). -/
structure Grader where
  specs : List (Option Spec)
  deriving DecidableEq, Repr

/-! ## STU (Table 9-1) -/

/-- A tally (Table 9-2). Lists are indexed by grade A to SCRAP, by class 0 to 15, and by destination plate,
strip/fallback, trim. -/
structure Tally where
  shiftId : Word
  startBoundary : Pos
  endBoundary : Option Pos
  startTime : Word
  endTime : Option Word
  /-- ORDER, STRIP, FALLBACK. -/
  rows : List Word
  plates : List Word
  areas : List (BitVec 64)
  flawsByClass : List (BitVec 64)
  flawsTo : List (BitVec 64)
  folded : BitVec 64
  unplaced : BitVec 64
  flawsLost : BitVec 64
  /-- CUT, MISSED, INHIBITED. -/
  cuts : List Word
  unexpected : Word
  gateFaults : Word
  lateGrades : Word
  cutOuts : Word
  unseenArea : BitVec 64
  maxSpeed : Word
  rowsLost : Word
  deriving DecidableEq, Repr

/-- The Shift Tally Unit. -/
structure TallyUnit where
  current : Tally
  closing : Option Tally
  interrupted : Bool
  deriving DecidableEq, Repr

/-! ## Report records (R198) -/

/-- Cause field of a CHANNEL record (Table 12-16). -/
inductive ChanCause where
  | none | absent | incomplete | mismatch | corrupt | head (code : Byte) | linkLost
  deriving DecidableEq, Repr

/-- A CHANNEL record (R33). -/
structure ChannelRec where
  channel : Nat
  old : ChanState
  new : ChanState
  cause : ChanCause
  line : Line
  deriving DecidableEq, Repr

/-- The NOTICE subkinds (Tables 11-5, 12-18) with their words. -/
inductive Notice where
  | reverseExcess (p : Pos)
  | overspeed (speed : Word) (maxSpeed : Nat) (p : Pos)
  | intakeOverflow (channel : Nat) (line : Option Line) (la : Line)
  | staleWords (channel : Nat) (line : Option Line) (la : Line)
  | blobTableFull (la : Line) (y : Pos) (blobs : Nat)
  | lateFlaw (id : Word) (yCenter edge : Pos)
  | mapFull (id : Word) (yCenter : Pos) (held : Nat)
  | unseenListFull (y : Pos) (held : Nat)
  | foldCountCapped (yStart : Pos)
  | unexpectedConfirm (p : Pos)
  | gateFault (row : Word) (pos : Pos) (cutRow : Word) (outcome : CutState)
  | lateGrade (row : Word) (f t yFin : Pos)
  | reportLoss (drops : Word)
  deriving DecidableEq, Repr

/-- RUNWAY subkinds (Table 12-17). -/
inductive RunwayKind where
  | low | ok | fallbackStart | fallbackEnd
  deriving DecidableEq, Repr

/-- A RUNWAY record (R90, R101, R102). -/
structure RunwayRec where
  kind : RunwayKind
  runway : Option Nat
  warn : Nat
  cutOrders : Nat
  f : Pos
  rows : Word
  deriving DecidableEq, Repr

/-- A ROW record (Table 6-4). -/
structure RowRec where
  row : Word
  kind : RowKind
  f : Pos
  t : Pos
  tag : Word
  take : Word
  shiftTag : Word
  blind : Bool
  preGrades : List Grade
  cutOuts : Nat
  deriving DecidableEq, Repr

/-- Inhibit cause of a CUT record (R119). -/
inductive InhibitCause where
  | none | cinh | listFull
  deriving DecidableEq, Repr

/-- A CUT record (Table 7-4). -/
structure CutRec where
  row : Word
  pos : Pos
  outcome : CutState
  inhibit : InhibitCause
  strobeTime : Word
  merged : List Word
  deriving DecidableEq, Repr

/-- A listed flaw of a PLATE record (Table 12-15). -/
structure ListedFlaw where
  id : Word
  cls : Nat
  points : Nat
  xCenter : Nat
  yCenter : Pos
  size : Nat
  deriving DecidableEq, Repr

/-- A PLATE record (Table 8-3, R149); lane none is ALL. -/
structure PlateRec where
  row : Word
  lane : Option Nat
  spec : Option Nat
  final : Grade
  computed : Option Grade
  tag : Word
  take : Word
  shiftTag : Word
  f : Pos
  t : Pos
  xl : Nat
  xr : Nat
  cause : GradeCause
  code : Option (BitVec 3)
  blind : Bool
  late : Bool
  merged : Bool
  gateFault : Bool
  partialGrade : Bool
  score : Nat
  unseenPm : Nat
  flawCount : Nat
  plateArea : Nat
  listed : List ListedFlaw
  deriving DecidableEq, Repr

/-- A report record less its stamp (R198). -/
inductive Report where
  | plate (r : PlateRec)
  | shift (t : Tally) (interrupted : Bool)
  | channel (r : ChannelRec)
  | notice (n : Notice)
  | runway (r : RunwayRec)
  | flaw (f : Flaw)
  | row (r : RowRec)
  | cut (r : CutRec)
  deriving DecidableEq, Repr

/-- A record in staging with its stamp (R189). -/
structure Staged where
  time : Word
  body : Report
  deriving DecidableEq, Repr

/-! ## Order blocks (R187, R196, R197) -/

/-- One mask entry of a SETUP or LOAD MASK body (Table 12-7). -/
structure MaskSpec where
  channel : Nat
  first : Nat
  last : Nat
  deriving DecidableEq, Repr

/-- A SETUP body as carried (Table 12-11): distances in mm, nothing clamped. -/
structure SetupBody where
  scale : Nat
  pitch : Nat
  maxSpeed : Nat
  invert : Bool
  liveFlaws : Bool
  ports : BitVec 4
  scrapCode : Nat
  settleLines : Nat
  deadline : Nat
  joinTol : Nat
  closeGap : Nat
  maxBlobLines : Nat
  minArea : Nat
  netLeft : Nat
  netWidth : Nat
  flushTime : Nat
  runwayWarn : Nat
  dGc : Nat
  dCommit : Nat
  dLead : Nat
  dConfirm : Nat
  dCg : Nat
  stripMin : Nat
  stripMax : Nat
  rowMin : Nat
  rowMax : Nat
  fallbackLen : Nat
  cutoutMargin : Nat
  maxCutouts : Nat
  geom : List Geometry
  masks : List MaskSpec
  deriving DecidableEq, Repr

/-- A lane slot of a CUT body (Table 12-8). -/
structure LaneBody where
  width : Nat
  spec : Nat
  minGrade : Nat
  port : Nat
  deriving DecidableEq, Repr

/-- A CUT body (Table 12-8), always with four lane slots. -/
structure CutBody where
  rowMm : Nat
  rowCount : Nat
  standing : Bool
  laneCount : Nat
  lanes : List LaneBody
  deriving DecidableEq, Repr

/-- The ten order kinds with their bodies (R196). -/
inductive OrderBody where
  | setup (b : SetupBody)
  | start
  | stop
  | cut (b : CutBody)
  | cancel (target : Word)
  | channel (enable disable : BitVec 16)
  | loadMask (entries : List MaskSpec)
  | loadClasses (entries : List ClassEntry)
  | loadSpec (id : Nat) (spec : Spec)
  | closeShift (shiftId : Word)
  deriving DecidableEq, Repr

/-- An order block that EXU has read (R187). -/
structure Block where
  addr : Addr
  tag : Word
  notify : Bool
  body : OrderBody
  deriving DecidableEq, Repr

/-! ## EXU (Table 11-1) -/

/-- How far a poll in progress has come (R184, R185; log 6). -/
inductive PollPhase where
  /-- no poll in progress -/
  | idle
  /-- step 2 has read a block, which waits for its taking -/
  | order (b : Block)
  /-- step 2 is done; steps 3 and 4 are to come -/
  | finishing
  deriving DecidableEq, Repr

/-- The page being filled (R191, R192), with the flush_time in force when it was opened (R169). -/
structure FillingPage where
  index : Nat
  addr : Addr
  written : Nat
  count : Nat
  firstTime : Option Word
  flushMs : Nat
  deriving DecidableEq, Repr

/-- The Exchange Unit, less the part state. EXCAUSE: bit 0 PAGE, 1 ORDER, 2 ALERT, 3 FAULT. `messages` counts the
interrupt messages sent (log 17). -/
structure Exchange where
  exbl : Word
  exbh : Word
  ien : Bool
  causes : BitVec 4
  expoll : Word
  base : Addr
  marker : Word
  detachPending : Bool
  /-- ATTACH was written 0 in IDLE while a poll was in progress (R183). -/
  detachDeferred : Bool
  stockAddr : Addr
  pageCount : Nat
  pageSize : Nat
  cursor : Option Addr
  pollTimer : Word
  staging : List Staged
  dropDroppable : Word
  dropEssential : Word
  lossReported : Bool
  lossPending : Bool
  filling : Option FillingPage
  pageSeq : Word
  phase : PollPhase
  messages : Nat
  deriving DecidableEq, Repr

/-! ## The whole part -/

/-- The machine state: the queue of waiting commands, what surrounds the part, and its ten blocks. -/
structure State where
  pending : List Instr
  sts : Status
  pinHeld : Bool
  inputs : Inputs
  setup : Option Setup
  pos : Position
  sli : Intake
  fas : Assembler
  rbm : RibbonMap
  oru : OrderUnit
  rpl : Planner
  cgc : Cutter
  grd : Grader
  stu : TallyUnit
  exu : Exchange
  host : Memory
  /-- How many free values have been handed out (the model's own, logs 8 and 28). -/
  free : Nat
  deriving DecidableEq, Repr

/-! ## Values after power-on reset -/

/-- Table 1-4. -/
def Position.reset : Position where
  p := 0
  frac := 0
  debt := 0
  y0 := 0
  l0 := 0
  lt := 0
  nextTrigger := 0
  lastSpeed := 0
  windowTime := 0
  windowP := 0
  overLimit := false
  excess := false
  us := 0
  ltrigLine := none
  ltrigCount := 0

/-- Table 2-6, one channel. -/
def Channel.reset : Channel where
  state := .off
  why := none
  settle := 0
  dropping := false
  cutLine := none
  staleLine := none
  queue := []

/-- Table 2-6. -/
def Intake.reset : Intake where
  chans := List.replicate 16 Channel.reset
  la := 0
  mask := List.replicate 32 none

/-- A disabled class entry (R52). -/
def ClassEntry.reset : ClassEntry where
  enabled := false
  required := 0
  excluded := 0
  sizeMin := 0
  sizeMax := 0
  contrastMin := 0
  elongMin := 0

/-- Table 3-6. -/
def Assembler.reset : Assembler where
  blobs := []
  dense := none
  classes := List.replicate 14 ClassEntry.reset
  nextFlaw := 1
  smallDiscarded := 0
  yFin := 0

/-- R72. -/
def RibbonMap.reset : RibbonMap where
  flaws := []
  unseen := []
  retiredEdge := 0
  folding := false
  fullReported := false
  installedWidth := (0, 0)

/-- R92. -/
def OrderUnit.reset : OrderUnit where
  table := []
  nextTake := 1
  runway := some 0
  low := false

/-- Table 6-7. -/
def Planner.reset : Planner where
  rows := []
  frontier := 0
  headPos := 0
  headState := .armed
  nextRow := 1
  cutOutCount := 0
  cutOutOrder := none
  inFallback := false
  fallbackRows := 0
  drainEnd := 0
  placedAny := false

/-- Table 7-5. -/
def Cutter.reset : Cutter where
  armed := []
  outstanding := []
  ports := List.replicate 4 0
  cstb := 0
  gateStrobes := List.replicate 4 0

/-- Table 8-7. -/
def Grader.reset : Grader where
  specs := List.replicate 8 none

/-- A tally as opened (R151): its id, boundary and time, every count, area and speed at 0. -/
def Tally.opened (shiftId : Word) (boundary : Pos) (time : Word) : Tally where
  shiftId := shiftId
  startBoundary := boundary
  endBoundary := none
  startTime := time
  endTime := none
  rows := List.replicate 3 0
  plates := List.replicate 7 0
  areas := List.replicate 7 0
  flawsByClass := List.replicate 16 0
  flawsTo := List.replicate 3 0
  folded := 0
  unplaced := 0
  flawsLost := 0
  cuts := List.replicate 3 0
  unexpected := 0
  gateFaults := 0
  lateGrades := 0
  cutOuts := 0
  unseenArea := 0
  maxSpeed := 0
  rowsLost := 0

/-- R163. -/
def TallyUnit.reset : TallyUnit where
  current := Tally.opened 0 0 0
  closing := none
  interrupted := false

/-- Table 11-2 and R177; the values set anew by every attach are 0, none or clear (log 15). -/
def Exchange.reset : Exchange where
  exbl := 0
  exbh := 0
  ien := false
  causes := 0
  expoll := 1000
  base := 0
  marker := 0
  detachPending := false
  detachDeferred := false
  stockAddr := 0
  pageCount := 0
  pageSize := 0
  cursor := none
  pollTimer := 0
  staging := []
  dropDroppable := 0
  dropEssential := 0
  lossReported := false
  lossPending := false
  filling := none
  pageSeq := 0
  phase := .idle
  messages := 0

/-- The part right after power-on reset (R176, R177): DETACHED, no setup held, every block at its reset values,
nothing queued and nothing in host memory. -/
def State.reset : State where
  pending := []
  sts := ⟨.detached, .powerOn, .none, .none⟩
  pinHeld := false
  inputs := ⟨Config.cinhAtStart, Config.linkLostAtStart⟩
  setup := none
  pos := Position.reset
  sli := Intake.reset
  fas := Assembler.reset
  rbm := RibbonMap.reset
  oru := OrderUnit.reset
  rpl := Planner.reset
  cgc := Cutter.reset
  grd := Grader.reset
  stu := TallyUnit.reset
  exu := Exchange.reset
  host := ⟨[]⟩
  free := 0

end Sys2Proof.Machine
end

