-- ==== Sys2Proof/Machine/Ops.lean ====
section
/-! DEFINITION. The named operations the meanings share: positions and lines, saturating counts, host memory. -/

namespace Sys2Proof.Machine

/-! ## Positions and lines (section 1.4, R5, R10) -/

/-- p reaches q: (p - q) mod 2^32 is less than 2^31 (section 1.4). -/
def reaches (p q : Pos) : Bool := (p - q).toNat < 2 ^ 31

/-- p lies before q: it does not reach q. -/
def before (p q : Pos) : Bool := !reaches p q

/-- The earlier of two positions. -/
def earlierPos (p q : Pos) : Pos := if reaches q p then p else q

/-- The later of two positions. -/
def laterPos (p q : Pos) : Pos := if reaches q p then q else p

/-- v lies in [a, b): it reaches a and does not reach b (R57). -/
def liesIn (v a b : Pos) : Bool := reaches v a && before v b

/-- A distance of n pu as a position difference. -/
def pu (n : Nat) : Pos := BitVec.ofNat 32 n

/-- Line m is after line n: (m - n) mod 2^24 lies from 1 to 2^23 - 1 (section 1.4, R10). -/
def lineAfter (m n : Line) : Bool := 1 ≤ (m - n).toNat && (m - n).toNat ≤ 2 ^ 23 - 1

/-- y(L) = Y0 + ((L - L0) mod 2^24) × pitch, mod 2^32 (R9). -/
def yOf (pos : Position) (pitch : Nat) (l : Line) : Pos :=
  pos.y0 + pu ((l - pos.l0).toNat * pitch)

/-! ## Counts -/

/-- A 32-bit count that saturates at FFFF_FFFFH (R79, R156, R189). -/
def satAdd (c : Word) (n : Nat) : Word := BitVec.ofNat 32 (min (c.toNat + n) (2 ^ 32 - 1))

/-- An id counter that skips 0: from FFFF_FFFFH it advances to 1 (R48, R75, R96). -/
def nextId (c : Word) : Word := if c = 0xFFFFFFFF#32 then 1#32 else c + 1#32

/-- Apply f to the entry at index i of a list. -/
def modifyAt {α : Type} (i : Nat) (f : α → α) : List α → List α
  | [] => []
  | x :: xs =>
    match i with
    | 0 => f x :: xs
    | i + 1 => x :: modifyAt i f xs

/-! ## Byte order (R194) -/

/-- The n low bytes of v, least significant first. -/
def leBytes : Nat → Nat → List Byte
  | 0, _ => []
  | n + 1, v => BitVec.ofNat 8 v :: leBytes n (v / 256)

/-- The number that bytes spell, least significant first. -/
def leVal : List Byte → Nat
  | [] => 0
  | b :: bs => b.toNat + 256 * leVal bs

/-- The number in the n bytes at an offset of a structure. -/
def field (bs : List Byte) (off n : Nat) : Nat := leVal ((bs.drop off).take n)

/-- A one-bit flag: bit 0 of its byte (R194). -/
def flagAt (bs : List Byte) (off : Nat) : Bool := field bs off 1 % 2 = 1

/-! ## Host memory (R178) -/

/-- The byte a list of cells holds at an address. -/
def cellAt (a : Nat) : List Host.Cell → Byte
  | [] => Config.hostByte
  | (k, v) :: cs => if k = a then v else cellAt a cs

/-- Put a byte at an address, keeping the canonical form. -/
def setCell (a : Nat) (v : Byte) : List Host.Cell → List Host.Cell
  | [] => if v = Config.hostByte then [] else [(a, v)]
  | (k, w) :: cs =>
    if a < k then (if v = Config.hostByte then (k, w) :: cs else (a, v) :: (k, w) :: cs)
    else if a = k then (if v = Config.hostByte then cs else (a, v) :: cs)
    else (k, w) :: setCell a v cs

/-- Read one byte of host memory. -/
def Memory.read (m : Memory) (a : Addr) : Byte := cellAt a.toNat m.cells

/-- Write one byte of host memory. -/
def Memory.write (m : Memory) (a : Addr) (v : Byte) : Memory := ⟨setCell a.toNat v m.cells⟩

/-- Read n bytes from an address upward; addresses wrap at 2^64 (log 32). -/
def Memory.readBytes (m : Memory) (a : Addr) : Nat → List Byte
  | 0 => []
  | n + 1 => m.read a :: m.readBytes (a + 1#64) n

/-- Write bytes from an address upward. -/
def Memory.writeBytes (m : Memory) (a : Addr) : List Byte → Memory
  | [] => m
  | b :: bs => (m.write a b).writeBytes (a + 1#64) bs

/-- Read a little-endian 32-bit word. -/
def Memory.readWord (m : Memory) (a : Addr) : Word := BitVec.ofNat 32 (leVal (m.readBytes a 4))

/-- Read a little-endian 64-bit quantity. -/
def Memory.readAddr (m : Memory) (a : Addr) : Addr := BitVec.ofNat 64 (leVal (m.readBytes a 8))

/-- Write a 32-bit word, little-endian. -/
def Memory.writeWord (m : Memory) (a : Addr) (v : Nat) : Memory := m.writeBytes a (leBytes 4 v)

/-- The host's own writes, in order (log 4). -/
def Memory.hostWrites (m : Memory) (ws : List HostWrite) : Memory :=
  ws.foldl (fun m w => m.writeBytes (BitVec.ofNat 64 w.addr) w.bytes) m

/-- An 8-byte aligned address: the low 3 bits are ignored (R186, R191). -/
def aligned8 (a : Addr) : Addr := a &&& ~~~7#64

/-! ## The part state (R165) -/

/-- IDLE, RUNNING or DRAINING: attached and not in FAULT. -/
def PartState.live : PartState → Bool
  | .idle | .running | .draining => true
  | .detached | .fault => false

/-- RUNNING or DRAINING: a run is on. -/
def PartState.run : PartState → Bool
  | .running | .draining => true
  | .detached | .idle | .fault => false

/-- An event is taken unless the reset pin is held, when the part takes none (R176). -/
def State.taken (s t : State) : Host.Outcome State Fault Refusal := .next (if s.pinHeld then s else t)

end Sys2Proof.Machine
end

