-- ==== Sys2Proof/Machine/Records.lean ====
section
/-! DEFINITION. Report records as bytes (R198, Tables 12-12 to 12-19), their sizes, classes and causes (Tables 11-4, 11-5). -/

namespace Sys2Proof.Machine

/-- Grade codes (Table 12-1). -/
def Grade.code : Grade → Nat
  | .a => 1 | .b => 2 | .c => 3 | .reject => 4 | .uninspected => 5 | .merged => 6 | .scrap => 7

/-- Cut outcome codes (Table 12-1). -/
def CutState.code : CutState → Nat
  | .armed => 0 | .strobed => 1 | .cut => 2 | .missed => 3 | .inhibited => 4

/-- Channel state codes (Table 12-1). -/
def ChanState.code : ChanState → Nat
  | .off => 0 | .settling => 1 | .active => 2 | .lapsed => 3 | .faulted => 4

/-- Channel cause codes (Table 12-16). -/
def ChanCause.code : ChanCause → Nat
  | .none => 0 | .absent => 1 | .incomplete => 2 | .mismatch => 3 | .corrupt => 4 | .head _ => 5 | .linkLost => 6

/-- Grade cause codes (Table 12-15). -/
def GradeCause.code : GradeCause → Nat
  | .none => 0 | .oversize => 1 | .dense => 2 | .saturated => 3 | .limit => 4 | .unseen => 5 | .score => 6

/-- Row kind codes (Table 12-13). -/
def RowKind.code : RowKind → Nat
  | .order => 0 | .strip => 1 | .fallback => 2

/-- Inhibit cause codes (Table 12-14). -/
def InhibitCause.code : InhibitCause → Nat
  | .none => 0 | .cinh => 1 | .listFull => 2

/-- RUNWAY subkinds (Table 12-17). -/
def RunwayKind.code : RunwayKind → Nat
  | .low => 1 | .ok => 2 | .fallbackStart => 3 | .fallbackEnd => 4

/-- A bit as a number. -/
def bit (b : Bool) : Nat := if b then 1 else 0

/-- A line, or FFFF_FFFFH for none (R194). -/
def lineCode : Option Line → Nat
  | none => 0xFFFFFFFF
  | some l => l.toNat

/-- Subkind and words w0 to w3 of a NOTICE (Table 12-18); a line in them has no y beside it (log 50). -/
def Notice.words : Notice → Nat × List Nat
  | .reverseExcess p => (1, [p.toNat, 0, 0, 0])
  | .overspeed v m p => (2, [v.toNat, m, p.toNat, 0])
  | .intakeOverflow c l la => (3, [c, lineCode l, la.toNat, 0])
  | .staleWords c l la => (4, [c, lineCode l, la.toNat, 0])
  | .blobTableFull la y n => (5, [la.toNat, y.toNat, n, 0])
  | .lateFlaw i y e => (6, [i.toNat, y.toNat, e.toNat, 0])
  | .mapFull i y n => (7, [i.toNat, y.toNat, n, 0])
  | .unseenListFull y n => (8, [y.toNat, n, 0, 0])
  | .foldCountCapped y => (9, [y.toNat, 0, 0, 0])
  | .unexpectedConfirm p => (10, [p.toNat, 0, 0, 0])
  | .gateFault r p c o => (11, [r.toNat, p.toNat, c.toNat, o.code])
  | .lateGrade r f t y => (12, [r.toNat, f.toNat, t.toNat, y.toNat])
  | .reportLoss n => (13, [n.toNat, 0, 0, 0])

/-- A NOTICE of the fault class (Table 11-5). -/
def Notice.faultClass : Notice → Bool
  | .reverseExcess _ | .mapFull _ _ _ | .gateFault _ _ _ _ | .reportLoss _ => true
  | _ => false

/-- Table 12-12. -/
def Flaw.bytes (f : Flaw) : List Byte :=
  leBytes 4 f.id.toNat ++ leBytes 4 f.first.toNat ++ leBytes 4 f.last.toNat ++
  leBytes 4 f.yTop.toNat ++ leBytes 4 f.yBottom.toNat ++ leBytes 4 f.length ++ leBytes 4 f.yCenter.toNat ++
  leBytes 4 f.xLeft ++ leBytes 4 f.xRight ++ leBytes 4 f.width ++ leBytes 4 f.xCenter ++
  leBytes 4 f.size ++ leBytes 4 f.area ++
  leBytes 1 f.peak ++ leBytes 1 f.modes.toNat ++ leBytes 2 f.chset.toNat ++
  leBytes 2 f.runs ++ leBytes 1 f.cls ++ leBytes 1 (bit f.segment) ++
  leBytes 4 ((f.contFrom.map BitVec.toNat).getD 0)

/-- The code of entry i of a grade list, 0 beyond its end. -/
def gradeCodeAt (gs : List Grade) (i : Nat) : Nat := ((gs[i]?).map Grade.code).getD 0

/-- Table 12-13. -/
def RowRec.bytes (r : RowRec) : List Byte :=
  leBytes 4 r.row.toNat ++ leBytes 1 r.kind.code ++ leBytes 1 (bit r.blind) ++ leBytes 1 r.preGrades.length ++
  leBytes 1 r.cutOuts ++ leBytes 4 r.f.toNat ++ leBytes 4 r.t.toNat ++
  leBytes 4 r.tag.toNat ++ leBytes 4 r.take.toNat ++ leBytes 4 r.shiftTag.toNat ++
  leBytes 1 (gradeCodeAt r.preGrades 0) ++ leBytes 1 (gradeCodeAt r.preGrades 1) ++
  leBytes 1 (gradeCodeAt r.preGrades 2) ++ leBytes 1 (gradeCodeAt r.preGrades 3)

/-- Table 12-14. -/
def CutRec.bytes (r : CutRec) : List Byte :=
  leBytes 4 r.row.toNat ++ leBytes 4 r.pos.toNat ++ leBytes 1 r.outcome.code ++ leBytes 1 r.inhibit.code ++
  leBytes 1 r.merged.length ++ leBytes 1 0 ++ leBytes 4 r.strobeTime.toNat ++
  r.merged.flatMap (fun i => leBytes 4 i.toNat)

/-- One listed flaw of Table 12-15. -/
def ListedFlaw.bytes (l : ListedFlaw) : List Byte :=
  leBytes 4 l.id.toNat ++ leBytes 1 l.cls ++ leBytes 1 0 ++ leBytes 2 l.points ++
  leBytes 4 l.xCenter ++ leBytes 4 l.yCenter.toNat ++ leBytes 4 l.size

/-- The flags byte of a PLATE record (Table 12-15). -/
def PlateRec.flags (r : PlateRec) : Nat :=
  bit r.blind + 2 * bit r.late + 4 * bit r.merged + 8 * bit r.gateFault + 16 * bit r.partialGrade

/-- Table 12-15. -/
def PlateRec.bytes (r : PlateRec) : List Byte :=
  leBytes 4 r.row.toNat ++ leBytes 1 (r.lane.getD 0xFF) ++ leBytes 1 (r.spec.getD 0xFF) ++
  leBytes 1 r.final.code ++ leBytes 1 ((r.computed.map Grade.code).getD 0) ++
  leBytes 4 r.tag.toNat ++ leBytes 4 r.take.toNat ++ leBytes 4 r.shiftTag.toNat ++
  leBytes 4 r.f.toNat ++ leBytes 4 r.t.toNat ++ leBytes 4 r.xl ++ leBytes 4 r.xr ++
  leBytes 1 r.cause.code ++ leBytes 1 ((r.code.map BitVec.toNat).getD 0xFF) ++ leBytes 1 r.flags ++
  leBytes 1 r.listed.length ++ leBytes 2 r.score ++ leBytes 2 r.unseenPm ++ leBytes 4 r.flawCount ++
  leBytes 8 r.plateArea ++ r.listed.flatMap ListedFlaw.bytes

/-- Table 12-16, whose line has no y beside it (log 50). -/
def ChannelRec.bytes (r : ChannelRec) : List Byte :=
  leBytes 1 r.channel ++ leBytes 1 r.old.code ++ leBytes 1 r.new.code ++ leBytes 1 r.cause.code ++
  leBytes 4 r.line.toNat ++
  leBytes 1 (match r.cause with | .head c => c.toNat | _ => 0) ++ leBytes 3 0

/-- Table 12-17. -/
def RunwayRec.bytes (r : RunwayRec) : List Byte :=
  leBytes 8 (r.runway.getD (2 ^ 64 - 1)) ++ leBytes 4 r.warn ++ leBytes 4 r.cutOrders ++
  leBytes 4 r.f.toNat ++ leBytes 4 r.rows.toNat

/-- Entry i of a list of counts as n bytes, 0 beyond its end. -/
def countBytes {w : Nat} (n : Nat) (cs : List (BitVec w)) (i : Nat) : List Byte :=
  leBytes n (((cs[i]?).map BitVec.toNat).getD 0)

/-- A position or time, or FFFF_FFFFH for none (R194). -/
def wordOrNone (p : Option Word) : List Byte := leBytes 4 ((p.map BitVec.toNat).getD 0xFFFFFFFF)

/-- Table 12-19. -/
def Tally.bytes (t : Tally) (interrupted : Bool) : List Byte :=
  leBytes 4 t.shiftId.toNat ++ leBytes 4 (bit interrupted) ++
  leBytes 4 t.startBoundary.toNat ++ wordOrNone t.endBoundary ++ leBytes 4 t.startTime.toNat ++ wordOrNone t.endTime ++
  (List.range 3).flatMap (countBytes 4 t.rows) ++
  (List.range 7).flatMap (countBytes 4 t.plates) ++
  (List.range 3).flatMap (countBytes 4 t.cuts) ++
  leBytes 4 t.unexpected.toNat ++ leBytes 4 t.gateFaults.toNat ++ leBytes 4 t.lateGrades.toNat ++
  leBytes 4 t.cutOuts.toNat ++ leBytes 4 t.maxSpeed.toNat ++ leBytes 4 t.rowsLost.toNat ++
  leBytes 4 0 ++
  (List.range 7).flatMap (countBytes 8 t.areas) ++
  (List.range 16).flatMap (countBytes 8 t.flawsByClass) ++
  (List.range 3).flatMap (countBytes 8 t.flawsTo) ++
  leBytes 8 t.folded.toNat ++ leBytes 8 t.unplaced.toNat ++ leBytes 8 t.flawsLost.toNat ++ leBytes 8 t.unseenArea.toNat

/-- Kind code (R198). -/
def Report.kind : Report → Nat
  | .plate _ => 1 | .shift _ _ => 2 | .channel _ => 3 | .notice _ => 4
  | .runway _ => 5 | .flaw _ => 6 | .row _ => 7 | .cut _ => 8

/-- Subkind, 0 where the kind has none (R198). -/
def Report.subkind : Report → Nat
  | .notice n => n.words.1
  | .runway r => r.kind.code
  | _ => 0

/-- The body of a record. -/
def Report.body : Report → List Byte
  | .plate r => r.bytes
  | .shift t i => t.bytes i
  | .channel r => r.bytes
  | .notice n => n.words.2.flatMap (leBytes 4)
  | .runway r => r.bytes
  | .flaw f => f.bytes
  | .row r => r.bytes
  | .cut r => r.bytes

/-- The size of a record, head included: fixed by its kind and, for PLATE and CUT, by its list (Tables 12-12 to 12-19). -/
def Report.size : Report → Nat
  | .plate r => 64 + 20 * r.listed.length
  | .shift _ _ => 352
  | .channel _ => 20
  | .notice _ => 24
  | .runway _ => 32
  | .flaw _ => 72
  | .row _ => 40
  | .cut r => 24 + 4 * r.merged.length

/-- A record as written into a page: the 8-byte head of R198 and the body. -/
def Staged.bytes (r : Staged) : List Byte :=
  leBytes 1 r.body.kind ++ leBytes 1 r.body.subkind ++ leBytes 2 r.body.size ++ leBytes 4 r.time.toNat ++ r.body.body

/-- A droppable kind (Table 11-4); every other kind is essential. -/
def Report.droppable : Report → Bool
  | .flaw _ | .row _ | .cut _ => true
  | _ => false

/-- A record whose writing closes the page: SHIFT, or a NOTICE of the fault class (R192). -/
def Report.closesPage : Report → Bool
  | .shift _ _ => true
  | .notice n => n.faultClass
  | _ => false

/-- A record raised with the ALERT cause (R193): RUNWAY LOW and FALLBACK_START, NOTICE GATE_FAULT and MAP_FULL, and
a channel entering FAULTED (R33: not one that only changes its cause there). -/
def Report.alerts : Report → Bool
  | .runway r => r.kind = .low || r.kind = .fallbackStart
  | .notice (.mapFull _ _ _) | .notice (.gateFault _ _ _ _) => true
  | .channel r => r.new = .faulted && r.old ≠ .faulted
  | _ => false

end Sys2Proof.Machine
end

