-- ==== Sys2Proof/Machine/Flags.lean ====
section
/-! DEFINITION. Status and cause bits: EXSTS, EXCTL and EXCAUSE (R179, R180, R193), record staging with its drop
counts and causes (R189, R190), order status writes (R188, R197), and the entry into FAULT (R174). -/

namespace Sys2Proof.Machine

/-! ## Interrupt causes (R193) -/

/-- Cause bit numbers of EXCAUSE (Table 11-2). -/
def causePage : Nat := 0
/-- ORDER. -/
def causeOrder : Nat := 1
/-- ALERT. -/
def causeAlert : Nat := 2
/-- FAULT. -/
def causeFault : Nat := 3

/-- Set a cause bit; a bit going from 0 to 1 while IEN is set sends one message (R193). -/
def Exchange.raise (c : Nat) (e : Exchange) : Exchange :=
  if e.causes.getLsbD c then e
  else { e with causes := e.causes ||| (1#4 <<< c), messages := e.messages + bit e.ien }

/-! ## Staging (R189, R190) -/

/-- Bytes held by records. -/
def stagedBytes : List Staged → Nat
  | [] => 0
  | r :: rs => r.body.size + stagedBytes rs

/-- Bytes held by essential records. -/
def essentialBytes : List Staged → Nat
  | [] => 0
  | r :: rs => (if r.body.droppable then 0 else r.body.size) + essentialBytes rs

/-- Staging holds up to 16,384 bytes; the last 4096 are for essential records (R189). -/
def stagingLimit : Nat := 16384
/-- The bound for droppable records. -/
def droppableLimit : Nat := 12288

/-- Evict droppable records, oldest first, until `excess` bytes are free; answers what stays and how many went. -/
def evict : Nat → List Staged → List Staged × Nat
  | _, [] => ([], 0)
  | excess, r :: rs =>
    if excess = 0 then (r :: rs, 0)
    else if r.body.droppable then
      let k := evict (excess - r.body.size) rs
      (k.1, k.2 + 1)
    else
      let k := evict excess rs
      (r :: k.1, k.2)

/-- Append an essential record after evicting what it needs; the caller has checked that it then fits. -/
def Exchange.appendEssential (us : Word) (r : Report) (e : Exchange) : Exchange :=
  let k := evict (stagedBytes e.staging + r.size - stagingLimit) e.staging
  { e with staging := k.1 ++ [⟨us, r⟩], dropDroppable := satAdd e.dropDroppable k.2 }

/-- Whether an essential record of n bytes fits by R189, droppable records evicted if need be. -/
def Exchange.fitsEssential (n : Nat) (e : Exchange) : Bool := essentialBytes e.staging + n ≤ stagingLimit

/-- While loss pending is set, stage NOTICE REPORT_LOSS as soon as it fits (R190). -/
def Exchange.tryLoss (us : Word) (e : Exchange) : Exchange :=
  if e.lossPending && e.fitsEssential (Report.notice (.reportLoss e.dropEssential)).size then
    { e.appendEssential us (.notice (.reportLoss e.dropEssential)) with lossPending := false, lossReported := true }
  else e

/-- Stage one record by R189 and R190. -/
def Exchange.put (us : Word) (r : Report) (e : Exchange) : Exchange :=
  if r.droppable then
    if stagedBytes e.staging + r.size ≤ droppableLimit then { e with staging := e.staging ++ [⟨us, r⟩] }
    else { e with dropDroppable := satAdd e.dropDroppable 1 }
  else if e.fitsEssential r.size then e.appendEssential us r
  else
    let k := evict (stagedBytes e.staging + r.size - stagingLimit) e.staging
    Exchange.tryLoss us
      { e with staging := k.1, dropDroppable := satAdd e.dropDroppable k.2,
               dropEssential := satAdd e.dropEssential 1, lossPending := e.lossPending || !e.lossReported }

/-- Stage a record and raise the ALERT cause that goes with it, whether or not the record is dropped (R189). -/
def Exchange.stage (us : Word) (e : Exchange) (r : Report) : Exchange :=
  let e := e.put us r
  if r.alerts then e.raise causeAlert else e

/-- Stage records in order, each stamped with the microsecond counter (R11). -/
def State.report (rs : List Report) (s : State) : State :=
  { s with exu := rs.foldl (Exchange.stage s.pos.us) s.exu }

/-! ## Order status (R188, R197) -/

/-- A status write that falls due: block, NOTIFY, status, refusal reason, words 0 to 4. -/
structure StatusWrite where
  addr : Addr
  notify : Bool
  status : Nat
  reason : Nat
  words : List Nat
  deriving DecidableEq, Repr

/-- Status codes (Table 12-5). -/
def statusTaken : Nat := 1
/-- DONE. -/
def statusDone : Nat := 2
/-- REFUSED. -/
def statusRefused : Nat := 3
/-- CANCELLED. -/
def statusCancelled : Nat := 4

/-- The refusal reasons of R196. -/
inductive Reason where
  | badKind | badLength | wrongState | badValue | inUse | shiftBusy | noSuchOrder | tooLate | notCancellable
  | rowLength | layout | noSetup | setupSpan
  deriving DecidableEq, Repr

/-- Refusal reason codes (R196). -/
def Reason.code : Reason → Nat
  | .badKind => 1 | .badLength => 2 | .wrongState => 3 | .badValue => 4 | .inUse => 5 | .shiftBusy => 6
  | .noSuchOrder => 7 | .tooLate => 8 | .notCancellable => 9 | .rowLength => 10 | .layout => 11
  | .noSetup => 12 | .setupSpan => 13

/-- Write words 0 to 4, then the status word at 10H (R197). -/
def Memory.writeStatus (m : Memory) (w : StatusWrite) : Memory :=
  ((((((m.writeWord (w.addr + 0x14#64) (w.words.getD 0 0)).writeWord (w.addr + 0x18#64) (w.words.getD 1 0)).writeWord
    (w.addr + 0x1C#64) (w.words.getD 2 0)).writeWord (w.addr + 0x20#64) (w.words.getD 3 0)).writeWord
    (w.addr + 0x24#64) (w.words.getD 4 0))).writeBytes (w.addr + 0x10#64)
    (leBytes 1 w.status ++ leBytes 1 w.reason ++ leBytes 2 0)

/-- Issue a status write; a final status of a block with NOTIFY then sets ORDER, TAKEN sets no cause (R188). -/
def State.writeStatus (s : State) (w : StatusWrite) : State :=
  { s with host := s.host.writeStatus w,
           exu := if w.notify && w.status ≠ statusTaken then s.exu.raise causeOrder else s.exu }

/-- Issue status writes in order. -/
def State.writeStatuses (ws : List StatusWrite) (s : State) : State := ws.foldl State.writeStatus s

/-- An event of another block, with the status writes that EXU issues after everything else it does (R188). -/
def State.issue (e : State × List StatusWrite) : State := e.1.writeStatuses e.2

/-- TAKEN, with the take number and reason 0 (log 56). -/
def Block.taken (b : Block) (take : Word) : StatusWrite := ⟨b.addr, b.notify, statusTaken, 0, [take.toNat]⟩

/-- DONE of an order without result words, with reason 0 (log 56). -/
def Block.done (b : Block) : StatusWrite := ⟨b.addr, b.notify, statusDone, 0, []⟩

/-- REFUSED with its reason. -/
def Block.refused (b : Block) (r : Reason) : StatusWrite := ⟨b.addr, b.notify, statusRefused, r.code, []⟩

/-- DONE of an entry without result words, with reason 0 (log 56). -/
def Entry.done (e : Entry) : StatusWrite := ⟨e.addr, e.notify, statusDone, 0, []⟩

/-! ## FAULT (R174) -/

/-- Enter FAULT from IDLE, RUNNING or DRAINING: EXSTS shows the state and the cause, the FAULT cause is set, the poll
in progress and the filling page are abandoned (R184, R192). In any other state nothing changes. -/
def State.enterFault (cause : FaultCause) (s : State) : State :=
  if s.sts.state.live then
    { s with sts := { s.sts with state := .fault, faultCause := cause },
             exu := { s.exu with phase := .idle, filling := none, detachDeferred := false }.raise causeFault }
  else s

/-! ## The port, access by access (R178) -/

/-- What EXU does through the port in the order its rules give: the write of one 32-bit word, or a cause that is set once
the writes before it have been issued (R178, R188). -/
inductive PortOp where
  | write (addr : Addr) (bytes : List Byte)
  | cause (c : Nat)
  deriving DecidableEq, Repr

/-- Bytes from an address upward as writes of 32-bit words (R178). -/
def wordOps : Addr → List Byte → List PortOp
  | a, w :: x :: y :: z :: bs => .write a [w, x, y, z] :: wordOps (a + 4#64) bs
  | _, [] => []
  | a, bs => [.write a bs]

/-- A status write, word by word: words 0 to 4, the word at 10H, then the cause (R188, R197). -/
def StatusWrite.ops (w : StatusWrite) : List PortOp :=
  wordOps (w.addr + 0x14#64) ((List.range 5).flatMap (fun i => leBytes 4 (w.words.getD i 0))) ++
  wordOps (w.addr + 0x10#64) (leBytes 1 w.status ++ leBytes 1 w.reason ++ leBytes 2 0) ++
  (if w.notify && w.status ≠ statusTaken then [.cause causeOrder] else [])

/-- Status writes in order, word by word. -/
def statusOps (ws : List StatusWrite) : List PortOp := ws.flatMap StatusWrite.ops

/-- Do what stands in a list while word writes complete, n of them at most: the state then, and how many more would
complete, or none where the write after the n-th ends in an error (R178). -/
def State.attempt : Nat → List PortOp → State → State × Option Nat
  | n, [], s => (s, some n)
  | n, .cause c :: ops, s => State.attempt n ops { s with exu := s.exu.raise c }
  | 0, .write _ _ :: _, s => (s, none)
  | n + 1, .write a bs :: ops, s => State.attempt n ops { s with host := s.host.writeBytes a bs }

/-- The state in which the write after the n-th ends in an error; none where all of them complete. -/
def State.cutAt (n : Nat) (ops : List PortOp) (s : State) : Option State :=
  match s.attempt n ops with
  | (u, none) => some u
  | (_, some _) => none

/-! ## Register views (R178 to R180) -/

/-- EXSTS state codes (Table 11-2). -/
def PartState.code : PartState → Nat
  | .detached => 0 | .idle => 1 | .running => 2 | .draining => 3 | .fault => 4

/-- EXSTS reset cause codes. -/
def ResetCause.code : ResetCause → Nat
  | .powerOn => 1 | .pin => 2 | .soft => 3 | .softKeep => 4

/-- EXSTS attach error codes. -/
def AttachError.code : AttachError → Nat
  | .none => 0 | .badMarker => 1 | .badVersion => 2 | .badPages => 3 | .bus => 4

/-- EXSTS fault cause codes. -/
def FaultCause.code : FaultCause → Nat
  | .none => 0 | .bus => 1 | .header => 2

/-- EXSTS as it reads: state in bits 2-0, reset cause in 6-4, attach error in 11-8, fault cause in 13-12. -/
def Status.word (t : Status) : Word :=
  BitVec.ofNat 32 (t.state.code + 16 * t.resetCause.code + 256 * t.attachError.code + 4096 * t.faultCause.code)

/-- ATTACH as it reads: 1 while the part is attached with no detach pending (R180; in FAULT see log 11). -/
def State.attachBit (s : State) : Bool := s.sts.state ≠ .detached && !s.exu.detachPending

/-- What the host reads at an offset of the memory window; a read changes nothing (R178, R179, R180; log 41). -/
def registerRead (s : State) (offset : Nat) : Word :=
  match offset with
  | 0x00 => s.exu.exbl
  | 0x04 => s.exu.exbh
  | 0x08 => BitVec.ofNat 32 (bit s.attachBit + 2 * bit s.exu.ien)
  | 0x0C => s.sts.word
  | 0x10 => s.exu.causes.zeroExtend 32
  | 0x14 => s.exu.expoll
  | _ => 0

end Sys2Proof.Machine
end

