-- ==== Sys2Proof/Machine/Operands.lean ====
section
/-! DEFINITION. Operand forms: the scan word (R199), the encoder transition (R1), channel geometry (R16), ranges across
the ribbon, and order blocks as EXU reads them (R187, R196, R197). -/

namespace Sys2Proof.Machine

/-! ## Scan words (R17, R199) -/

/-- Bits hi to lo of a scan word as a number. -/
def bitsOf (w : BitVec 64) (hi lo : Nat) : Nat := w.toNat / 2 ^ lo % 2 ^ (hi - lo + 1)

/-- The scan word that 64 bits carry (Table 12-20). -/
def decodeScanWord (w : BitVec 64) : ScanWord :=
  match bitsOf w 63 62 with
  | 0 => .lineStart (BitVec.ofNat 24 (bitsOf w 23 0))
  | 1 => .run (bitsOf w 13 0) (bitsOf w 29 16) (BitVec.ofNat 2 (bitsOf w 33 32)) (bitsOf w 47 40)
  | 2 => .lineEnd (BitVec.ofNat 24 (bitsOf w 23 0)) (bitsOf w 47 32)
  | _ => .headStatus (BitVec.ofNat 8 (bitsOf w 7 0))

/-- A RUN word. -/
def ScanWord.isRun : ScanWord → Bool
  | .run _ _ _ _ => true
  | _ => false

/-- A LINE_END word. -/
def ScanWord.isLineEnd : ScanWord → Bool
  | .lineEnd _ _ => true
  | _ => false

/-- A RUN whose first column exceeds its last, whose last column is n_c or more, or whose mode is the fourth code (R17). -/
def ScanWord.malformed (n : Nat) : ScanWord → Bool
  | .run a b m _ => a > b || b ≥ n || m = 3#2
  | _ => false

/-! ## The encoder pair (R1) -/

/-- Place of a level pair in the cycle 00, 01, 11, 10, in which the pair steps when the ribbon moves downstream with
invert clear. The naming of the two signals is a DESIGN CHOICE (log 16). -/
def quadPhase (ab : BitVec 2) : Nat :=
  match ab.toNat with
  | 0 => 0 | 1 => 1 | 3 => 2 | _ => 3

/-- The direction of one transition: some true for a forward count, some false for a reverse count, none where nothing
changes or both signals change together (R1). -/
def decodeTransition (invert : Bool) (old new : BitVec 2) : Option Bool :=
  match (quadPhase new + 4 - quadPhase old) % 4 with
  | 1 => some (!invert)
  | 3 => some invert
  | _ => none

/-- The command that a transition of the encoder pair is (R1): counts are discarded while no setup is held. -/
def encoderCommand (s : State) (old new : BitVec 2) : Option Instr :=
  match s.setup with
  | none => none
  | some c => (decodeTransition c.invert old new).map (fun f => if f then .forwardCount else .reverseCount)

/-! ## Channel geometry (R16) -/

/-- Width of one column in pu. -/
def Geometry.pitch (g : Geometry) : Nat := g.cp / 256

/-- x(k) = x0_c + floor(k × cp_c / 256). -/
def Geometry.x (g : Geometry) (k : Nat) : Nat := g.x0 + k * g.cp / 256

/-- x1_c = x(n_c - 1) + floor(cp_c / 256). -/
def Geometry.x1 (g : Geometry) : Nat := g.x (g.n - 1) + g.pitch

/-- The x range of the columns [a, b) of a channel, b excluded (R28, R37). -/
def Geometry.xRange (g : Geometry) (cols : Ivl) : Ivl := (g.x cols.1, g.x (cols.2 - 1) + g.pitch)

/-- The geometry of a channel number; one not installed beyond the list. -/
def geomAt (gs : List Geometry) (k : Nat) : Geometry := gs.getD k ⟨false, 0, 0, 0⟩

/-- The installed channels with their numbers, left to right (R16). -/
def installedFrom : Nat → List Geometry → List (Nat × Geometry)
  | _, [] => []
  | k, g :: gs => if g.installed then (k, g) :: installedFrom (k + 1) gs else installedFrom (k + 1) gs

/-- The installed channels with their numbers. -/
def installedChans (gs : List Geometry) : List (Nat × Geometry) := installedFrom 0 gs

/-- [x0 of the lowest-numbered installed channel, x1 of the highest-numbered installed channel) (Table 4-1, R77). -/
def installedSpan (gs : List Geometry) : Ivl :=
  match installedChans gs with
  | [] => (0, 0)
  | (_, g) :: rest => (g.x0, ((rest.getLast?).map (fun h => h.2.x1)).getD g.x1)

/-! ## Ranges -/

/-- The parts of [a, b) outside [c, d). -/
def ivlMinus (r c : Ivl) : List Ivl :=
  (if r.1 < min r.2 c.1 then [(r.1, min r.2 c.1)] else []) ++
  (if max r.1 c.2 < r.2 then [(max r.1 c.2, r.2)] else [])

/-- The parts of some ranges outside one range; an empty range removes nothing. -/
def ivlsMinus1 (rs : List Ivl) (c : Ivl) : List Ivl :=
  if c.1 < c.2 then rs.flatMap (fun r => ivlMinus r c) else rs

/-- The parts of some ranges outside several. -/
def ivlsMinus (rs cs : List Ivl) : List Ivl := cs.foldl ivlsMinus1 rs

/-- Insert a range into disjoint ranges in rising order, joining what it overlaps or touches. -/
def ivlInsert (r : Ivl) : List Ivl → List Ivl
  | [] => [r]
  | c :: cs =>
    if r.2 < c.1 then r :: c :: cs
    else if c.2 < r.1 then c :: ivlInsert r cs
    else ivlInsert (min r.1 c.1, max r.2 c.2) cs

/-- The union of ranges as maximal disjoint ranges in rising order. -/
def ivlUnion (rs : List Ivl) : List Ivl := rs.foldl (fun acc r => ivlInsert r acc) []

/-! ## Order blocks (R187, R197) -/

/-- A mask entry (Table 12-7). -/
def parseMask (b : List Byte) (off : Nat) : MaskSpec :=
  ⟨field b off 1, field b (off + 2) 2, field b (off + 4) 2⟩

/-- A mode set: the low three bits of a byte. -/
def parseModes (b : List Byte) (off : Nat) : BitVec 3 := BitVec.ofNat 3 (field b off 1)

/-- Table 12-6, LOAD MASK. -/
def parseLoadMask (b : List Byte) : List MaskSpec :=
  (List.range (field b 0 1)).map (fun i => parseMask b (4 + 8 * i))

/-- Table 12-8. -/
def parseCut (b : List Byte) : CutBody where
  rowMm := field b 0 2
  rowCount := field b 2 2
  standing := flagAt b 4
  laneCount := field b 5 1
  lanes := (List.range 4).map (fun i =>
    ⟨field b (0x08 + 8 * i) 2, field b (0x0A + 8 * i) 1, field b (0x0B + 8 * i) 1, field b (0x0C + 8 * i) 1⟩)

/-- Table 12-9. -/
def parseClasses (b : List Byte) : List ClassEntry :=
  (List.range 14).map (fun j =>
    { enabled := flagAt b (16 * j)
      required := parseModes b (16 * j + 1)
      excluded := parseModes b (16 * j + 2)
      contrastMin := field b (16 * j + 3) 1
      sizeMin := field b (16 * j + 4) 4
      sizeMax := field b (16 * j + 8) 4
      elongMin := field b (16 * j + 12) 2 })

/-- Table 12-10, less the spec id. -/
def parseSpec (b : List Byte) : Spec where
  weight := (List.range 16).map (fun i => field b (0x04 + i) 1)
  limit := (List.range 16).map (fun i => field b (0x14 + i) 1)
  b1 := field b 0x24 4
  b2 := field b 0x28 4
  b3 := field b 0x2C 4
  e := field b 0x30 4
  ze := field b 0x34 1
  zc := field b 0x35 1
  u := field b 0x36 2
  ta := field b 0x38 2
  tb := field b 0x3A 2
  tc := field b 0x3C 2
  codes := (List.range 5).map (fun i => field b (0x40 + i) 1)

/-- Table 12-11. -/
def parseSetup (b : List Byte) : SetupBody where
  scale := field b 0x00 4
  pitch := field b 0x04 2
  maxSpeed := field b 0x06 2
  invert := flagAt b 0x08
  liveFlaws := flagAt b 0x09
  ports := BitVec.ofNat 4 (field b 0x0A 1)
  scrapCode := field b 0x0B 1
  settleLines := field b 0x0C 2
  deadline := field b 0x0E 2
  joinTol := field b 0x10 2
  closeGap := field b 0x12 2
  maxBlobLines := field b 0x14 2
  minArea := field b 0x16 2
  netLeft := field b 0x18 4
  netWidth := field b 0x1C 2
  flushTime := field b 0x1E 2
  runwayWarn := field b 0x20 4
  dGc := field b 0x24 2
  dCommit := field b 0x26 2
  dLead := field b 0x28 2
  dConfirm := field b 0x2A 2
  dCg := field b 0x2C 2
  stripMin := field b 0x2E 2
  stripMax := field b 0x30 2
  rowMin := field b 0x32 2
  rowMax := field b 0x34 2
  fallbackLen := field b 0x36 2
  cutoutMargin := field b 0x38 2
  maxCutouts := field b 0x3A 1
  geom := (List.range 16).map (fun c =>
    ⟨flagAt b (0x40 + 12 * c), field b (0x44 + 12 * c) 4, field b (0x48 + 12 * c) 4, field b (0x42 + 12 * c) 2⟩)
  masks := (List.range (field b 0x3B 1)).map (fun i => parseMask b (0x100 + 8 * i))

/-- The body length that R197 requires of a kind, from the entry count byte where the kind has one; none where the count
is above 32. Kinds outside 1 to 10 have none. -/
def requiredLength (kind : Nat) (count : Nat) : Option Nat :=
  match kind with
  | 1 => if count ≤ 32 then some (256 + 8 * count) else none
  | 2 => some 0
  | 3 => some 0
  | 4 => some 40
  | 5 => some 4
  | 6 => some 4
  | 7 => if count ≤ 32 then some (4 + 8 * count) else none
  | 8 => some 224
  | 9 => some 72
  | 10 => some 4
  | _ => none

/-- Where the entry count byte of a kind lies in its body (R197). -/
def countOffset (kind : Nat) : Nat := if kind = 1 then 0x3B else 0

/-- The order a body of a known kind and right length carries. -/
def parseBody (kind : Nat) (b : List Byte) : OrderBody :=
  match kind with
  | 1 => .setup (parseSetup b)
  | 2 => .start
  | 3 => .stop
  | 4 => .cut (parseCut b)
  | 5 => .cancel (BitVec.ofNat 32 (field b 0 4))
  | 6 => .channel (BitVec.ofNat 16 (field b 0 2)) (BitVec.ofNat 16 (field b 2 2))
  | 7 => .loadMask (parseLoadMask b)
  | 8 => .loadClasses (parseClasses b)
  | 9 => .loadSpec (field b 0 1) (parseSpec b)
  | _ => .closeShift (BitVec.ofNat 32 (field b 0 4))

/-- What EXU makes of the block at an address: the order, or its own refusal (R187), with NOTIFY. -/
def readBlock (m : Memory) (a : Addr) : Block ⊕ StatusWrite :=
  let head := m.readBytes a 0x10
  let kind := field head 0x08 1
  let notify := flagAt head 0x09
  let len := field head 0x0A 2
  let tag := BitVec.ofNat 32 (field head 0x0C 4)
  if kind < 1 || kind > 10 then .inr ⟨a, notify, statusRefused, Reason.badKind.code, []⟩
  else
    let count := (m.read (a + 0x28#64 + BitVec.ofNat 64 (countOffset kind))).toNat
    if requiredLength kind count = some len then
      .inl ⟨a, tag, notify, parseBody kind (m.readBytes (a + 0x28#64) len)⟩
    else .inr ⟨a, notify, statusRefused, Reason.badLength.code, []⟩

end Sys2Proof.Machine
end

