-- ==== Sys2Proof/Machine/Pos.lean ====
section
/-! DEFINITION. The Position Unit (Chapter 1): counts, line triggers, the microsecond counter, the speed window. -/

namespace Sys2Proof.Machine

/-! ## Counts (R1 to R3) -/

/-- P plus scale: the fractions add, a carry adds 1 to the integer part, which wraps at 2^32 (R2). -/
def Position.advance (scale : Word) (pos : Position) : Position :=
  let sum : BitVec 48 := (pos.p ++ pos.frac) + scale.zeroExtend 48
  { pos with p := sum.extractLsb' 16 32, frac := sum.extractLsb' 0 16 }

/-- A forward count: it repays one count of debt, or adds scale to P (R2). -/
def Position.forward (scale : Word) (pos : Position) : Position :=
  if pos.debt = 0 then pos.advance scale else { pos with debt := pos.debt - 1 }

/-- A forward count, discarded while no setup is held (R1). -/
def forwardCount (s : State) : State :=
  match s.setup with
  | none => s
  | some c => { s with pos := s.pos.forward c.scale }

/-- A reverse count: it raises debt, or finds debt at its cap and is discarded; the first such count since START in
IDLE, RUNNING or DRAINING stages NOTICE REVERSE_EXCESS (R3). -/
def reverseCount (s : State) : State :=
  match s.setup with
  | none => s
  | some _ =>
    if s.pos.debt.toNat < 65535 then { s with pos := { s.pos with debt := s.pos.debt + 1 } }
    else if s.sts.state.live && !s.pos.excess then
      State.report [.notice (.reverseExcess s.pos.p)] { s with pos := { s.pos with excess := true } }
    else s

/-- FORWARD_COUNT (R2). -/
def execForwardCount (s : State) : Host.Outcome State Fault Refusal := s.taken (forwardCount s)

/-- REVERSE_COUNT (R3). -/
def execReverseCount (s : State) : Host.Outcome State Fault Refusal := s.taken (reverseCount s)

/-! ## Line triggers (R7 to R9) -/

/-- The drain condition: y_fin reaches the drain end (R172). -/
def State.drainCondition (s : State) : Bool := reaches s.fas.yFin s.rpl.drainEnd

/-- Triggers run in RUNNING, and in DRAINING until the drain condition is met (R8). -/
def State.triggersRun (s : State) : Bool :=
  match s.sts.state with
  | .running => true
  | .draining => !s.drainCondition
  | _ => false

/-- Move the line origin forward when L_t is 2^23 lines past L0 (R9). -/
def Position.moveOrigin (pitch : Nat) (pos : Position) : Position :=
  if (pos.lt - pos.l0).toNat = 2 ^ 23 then
    { pos with l0 := pos.l0 + BitVec.ofNat 24 (2 ^ 22), y0 := pos.y0 + pu (2 ^ 22 * pitch) }
  else pos

/-- Issue one trigger carrying L_t (R7), then move the origin when it is due (R9). -/
def Position.trigger (pitch : Nat) (pos : Position) : Position :=
  Position.moveOrigin pitch
    { pos with ltrigLine := some pos.lt, ltrigCount := pos.ltrigCount + 1, lt := pos.lt + 1#24,
               nextTrigger := pos.nextTrigger + pu pitch }

/-- A line trigger is due: triggers run and P reaches the next trigger position (R7, R8). -/
def State.triggerDue (s : State) : Bool := s.triggersRun && reaches s.pos.p s.pos.nextTrigger

/-- A line trigger, when it is due (log 2). -/
def lineTrigger (s : State) : State :=
  match s.setup with
  | none => s
  | some c => if s.triggerDue then { s with pos := s.pos.trigger c.pitch } else s

/-- LINE_TRIGGER (R7). -/
def execLineTrigger (s : State) : Host.Outcome State Fault Refusal := s.taken (lineTrigger s)

/-! ## The speed window (R12 to R14) -/

/-- The window has run for 10,000 µs (R12). -/
def Position.windowDue (pos : Position) : Bool := 10000 ≤ (pos.us - pos.windowTime).toNat

/-- Last speed and the new window (R12). -/
def Position.endWindow (pos : Position) : Position :=
  { pos with lastSpeed := pos.p - pos.windowP, windowTime := pos.windowTime + 10000#32, windowP := pos.p }

/-- The overspeed test while a setup is held (R13). -/
def overspeedTest (s : State) : State :=
  match s.setup with
  | none => s
  | some c =>
    if c.maxSpeed < s.pos.lastSpeed.toNat then
      if s.pos.overLimit then s
      else
        let t := { s with pos := { s.pos with overLimit := true } }
        if s.sts.state.live then
          State.report [.notice (.overspeed s.pos.lastSpeed c.maxSpeed s.pos.p)] t
        else t
    else { s with pos := { s.pos with overLimit := false } }

/-- STU raises the maximum speed of its current tally (R14, R155). -/
def Tally.raiseSpeed (v : Word) (t : Tally) : Tally :=
  if t.maxSpeed.toNat < v.toNat then { t with maxSpeed := v } else t

/-- Last speed is handed to STU in RUNNING and DRAINING (R14). -/
def handSpeed (s : State) : State :=
  if s.sts.state.run then { s with stu := { s.stu with current := s.stu.current.raiseSpeed s.pos.lastSpeed } } else s

/-- The end of a speed window, when it is due (log 2). -/
def speedWindowEnd (s : State) : State :=
  if s.pos.windowDue then handSpeed (overspeedTest { s with pos := s.pos.endWindow }) else s

/-- SPEED_WINDOW_END (R12). -/
def execSpeedWindowEnd (s : State) : Host.Outcome State Fault Refusal := s.taken (speedWindowEnd s)

/-- One microsecond passes: the µs counter advances, unless the reset pin is held, when it stays at 0 (R11, R176). This
is what a step does on an empty queue (log 1). -/
def State.tick (s : State) : State :=
  if s.pinHeld then s else { s with pos := { s.pos with us := s.pos.us + 1#32 } }

end Sys2Proof.Machine
end

