-- ==== Sys2Proof/Machine/Sli.lean ====
section
/-! DEFINITION. The Scan Link Intake (Chapter 2): link events, channel queues, the line gate's judgment, unseen spans. -/

namespace Sys2Proof.Machine

/-- Channel k of the intake. -/
def Intake.chan (i : Intake) (k : Nat) : Channel := i.chans.getD k Channel.reset

/-- Replace channel k. -/
def Intake.setChan (i : Intake) (k : Nat) (c : Channel) : Intake := { i with chans := i.chans.set k c }

/-- SETTLING, ACTIVE or LAPSED: the channel takes words (R19). -/
def ChanState.takesWords : ChanState → Bool
  | .settling | .active | .lapsed => true
  | .off | .faulted => false

/-! ## Link events (R18) -/

/-- The CHANNEL record cause of a fault (R33). -/
def ChanFault.cause : ChanFault → ChanCause
  | .head code => .head code
  | .linkLost => .linkLost

/-- A channel entering FAULTED: its queue is emptied, dropping cleared, the cut line set to none (R18). -/
def Channel.toFaulted (why : ChanFault) (c : Channel) : Channel :=
  { c with state := .faulted, why := some why, queue := [], dropping := false, cutLine := none }

/-- A channel becoming OFF: its queue is emptied, and with it the cut line (R16, R20, R32; dropping stays, log 22). -/
def Channel.toOff (c : Channel) : Channel :=
  { c with state := .off, why := none, queue := [], cutLine := none }

/-- A fault event at channel k, taken in IDLE, RUNNING and DRAINING by a channel that takes words (R18). -/
def channelFault (k : Nat) (why : ChanFault) (s : State) : State :=
  let c := s.sli.chan k
  if s.sts.state.live && c.state.takesWords then
    State.report [.channel ⟨k, c.state, .faulted, why.cause, s.sli.la⟩]
      { s with sli := s.sli.setChan k (c.toFaulted why) }
  else s

/-- A HEAD_STATUS word: code 0 is discarded (R18). -/
def headStatus (k : Nat) (code : Byte) (s : State) : State :=
  if code = 0 then s else channelFault k (.head code) s

/-- The level each link reports is kept apart from the channel state (log 13). -/
def Inputs.setLost (k : Nat) (v : Bool) (i : Inputs) : Inputs :=
  { i with linkLost := if v then i.linkLost ||| (1#16 <<< k) else i.linkLost &&& ~~~(1#16 <<< k) }

/-- HEAD_STATUS (R18). -/
def execHeadStatus (ch : Ch) (code : Byte) (s : State) : Host.Outcome State Fault Refusal :=
  s.taken (headStatus ch code s)

/-- LOSS_OF_SIGNAL (R18). The level is the link's own and follows even while the part takes no event. -/
def execLossOfSignal (ch : Ch) (s : State) : Host.Outcome State Fault Refusal :=
  let s := { s with inputs := s.inputs.setLost ch true }
  s.taken (channelFault ch .linkLost s)

/-- RETURN_OF_SIGNAL (R18): no state of the part changes; the link's reported level does (log 13). -/
def execReturnOfSignal (ch : Ch) (s : State) : Host.Outcome State Fault Refusal :=
  .next { s with inputs := s.inputs.setLost ch false }

/-! ## Channel queues (R19 to R21) -/

/-- The line of the last LINE_START entered in a queue. -/
def lastLineStart : List ScanWord → Option Line
  | [] => none
  | w :: q =>
    match lastLineStart q with
    | some l => some l
    | none => match w with
      | .lineStart l => some l
      | _ => none

/-- A channel queue holds up to 512 words (R19). -/
def queueLimit : Nat := 512

/-- An overflow that cuts a line: the channel, and the line to report (R20), unless dropping is set and that line is the
cut line already (log 47). Nothing but the cut line as it stands is remembered: a line cut again once dropping was cleared,
or once another line or none has taken its place, is reported again (log 60). -/
def Channel.overflow (line : Option Line) (c : Channel) : Channel × Option (Option Line) :=
  ({ c with dropping := true, cutLine := line },
   if c.dropping && c.cutLine = line then none else some line)

/-- A LINE_START, RUN or LINE_END arriving at a channel that takes words (R19, R20); answers the line cut when
INTAKE_OVERFLOW is to be staged. -/
def Channel.arrive (w : ScanWord) (c : Channel) : Channel × Option (Option Line) :=
  match w with
  | .lineStart l =>
    if c.queue.length < queueLimit then ({ c with dropping := false, queue := c.queue ++ [w] }, none)
    else c.overflow (some l)
  | _ =>
    if c.dropping then (c, none)
    else if c.queue.length < queueLimit then ({ c with queue := c.queue ++ [w] }, none)
    else c.overflow (lastLineStart c.queue)

/-- A STALE_WORDS notice is due: the stale notice line is none or 1024 or more lines before L_a (R21), counted mod 2^24
and so with no end at 2^23 (log 59). -/
def staleDue (la : Line) : Option Line → Bool
  | none => true
  | some l => 1024 ≤ (la - l).toNat

/-- The line of a stale word at the head: some where the word is to be discarded; inside, none for a RUN (R21). -/
def staleLineOf (la : Line) : ScanWord → Option (Option Line)
  | .lineStart l => if lineAfter la l then some (some l) else none
  | .lineEnd l _ => some (some l)
  | .run _ _ _ _ => some none
  | .headStatus _ => some none

/-- Discard stale words as each comes to the head (R21): the queue left, the stale notice line, the notices. -/
def dropStale (k : Nat) (la : Line) : List ScanWord → Option Line → List ScanWord × Option Line × List Report
  | [], st => ([], st, [])
  | w :: q, st =>
    match staleLineOf la w with
    | none => (w :: q, st, [])
    | some l =>
      if staleDue la st then
        let r := dropStale k la q (some la)
        (r.1, r.2.1, .notice (.staleWords k l la) :: r.2.2)
      else dropStale k la q st

/-- The head discard of one channel (R21). It keeps the cut line, whether or not the queue is empty then (log 52). -/
def Channel.discardStale (k : Nat) (la : Line) (c : Channel) : Channel × List Report :=
  let r := dropStale k la c.queue c.staleLine
  ({ c with queue := r.1, staleLine := r.2.1 }, r.2.2)

/-- The head discards of all channels, in channel order (log 23). -/
def discardStaleFrom (la : Line) : Nat → List Channel → List Channel × List Report
  | _, [] => ([], [])
  | k, c :: cs =>
    let r := c.discardStale k la
    let rest := discardStaleFrom la (k + 1) cs
    (r.1 :: rest.1, r.2 ++ rest.2)

/-- A LINE_START, RUN or LINE_END word arriving on link k (R19): queued, dropped or discarded. -/
def queueWord (k : Nat) (w : ScanWord) (s : State) : State :=
  let c := s.sli.chan k
  if s.sts.state.run && c.state.takesWords then
    let a := c.arrive w
    let d := a.1.discardStale k s.sli.la
    let notice := match a.2 with
      | none => []
      | some line => [Report.notice (.intakeOverflow k line s.sli.la)]
    State.report (notice ++ d.2) { s with sli := s.sli.setChan k d.1 }
  else s

/-- A scan word arriving on link k: a HEAD_STATUS word is not queued (R18, R19). -/
def scanWord (k : Nat) (w : ScanWord) (s : State) : State :=
  match w with
  | .headStatus code => headStatus k code s
  | w => queueWord k w s

/-- SCAN_WORD (R19). -/
def execScanWord (ch : Ch) (word : BitVec 64) (s : State) : Host.Outcome State Fault Refusal :=
  s.taken (scanWord ch (decodeScanWord word) s)

/-! ## Line conditions and the gate (R22, R23) -/

/-- The line conditions of R22. -/
inductive LineCond where
  | complete | mismatch | corrupt | incomplete | absent
  deriving DecidableEq, Repr

/-- The RUN words at the front of a queue and what follows them. -/
def splitRuns : List ScanWord → List ScanWord × List ScanWord
  | [] => ([], [])
  | w :: q => if w.isRun then (w :: (splitRuns q).1, (splitRuns q).2) else ([], w :: q)

/-- The line condition of a channel with n columns for line L_a, tested in the order of R22. -/
def Channel.cond (n : Nat) (la : Line) (c : Channel) : LineCond :=
  match c.queue with
  | .lineStart l :: q =>
    if l = la then
      let runs := (splitRuns q).1
      let isCut := c.cutLine = some la
      let bad := runs.any (ScanWord.malformed n)
      match (splitRuns q).2 with
      | .lineEnd l' count :: _ =>
        if l' = la && !isCut && count ≠ runs.length then .mismatch
        else if l' = la && !isCut && !bad then .complete
        else .corrupt
      | _ :: _ => .corrupt
      | [] => if bad || isCut then .corrupt else .incomplete
    else .absent
  | _ => .absent

/-- A channel is settled for L_a: COMPLETE, MISMATCH or CORRUPT, or ABSENT with a later line's LINE_START at its head
(R22). -/
def Channel.settledFor (n : Nat) (la : Line) (c : Channel) : Bool :=
  match c.cond n la with
  | .complete | .mismatch | .corrupt => true
  | .incomplete => false
  | .absent => match c.queue with
    | .lineStart l :: _ => lineAfter l la
    | _ => false

/-- Every channel in a state is settled for L_a. -/
def allSettled (st : ChanState) (la : Line) (chans : List Channel) (gs : List Geometry) : Bool :=
  (chans.zip gs).all (fun p => p.1.state ≠ st || p.1.settledFor p.2.n la)

/-- The wait set is settled: every ACTIVE channel or, when none is ACTIVE, every LAPSED channel (R23). -/
def waitSetSettled (la : Line) (chans : List Channel) (gs : List Geometry) : Bool :=
  if chans.any (fun c => c.state = .active) then allSettled .active la chans gs
  else allSettled .lapsed la chans gs

/-- The lines triggered and not yet assembled (R10, R23). -/
def State.backlog (s : State) : Nat := (s.pos.lt - s.sli.la).toNat

/-- The line gate may assemble L_a (R23, R34): a line is triggered and its wait set is settled or, while triggers run,
the deadline is met (log 39). -/
def State.gateReady (c : Setup) (s : State) : Bool :=
  s.sts.state.run && 1 ≤ s.backlog &&
  (waitSetSettled s.sli.la s.sli.chans c.geom || (s.triggersRun && c.deadline ≤ s.backlog))

/-! ## Judgment (R24, R25) -/

/-- Remove the head segment of a line from a queue: its LINE_START, its RUN words, and a LINE_END after them (R24). -/
def consumeSegment (q : List ScanWord) : List ScanWord :=
  match (splitRuns q).2 with
  | w :: rest => if w.isLineEnd then rest else w :: rest
  | [] => []

/-- Consume line L_a from a channel (R24). Consuming another line than the cut line keeps it, empty queue or not (log 52). -/
def Channel.consume (la : Line) (c : Channel) : Channel :=
  let cutLine := if c.cutLine = some la then none else c.cutLine
  match c.queue with
  | .lineStart l :: q =>
    if l = la then { c with queue := consumeSegment q, cutLine := cutLine } else { c with cutLine := cutLine }
  | _ => { c with cutLine := cutLine }

/-- The RUN words of the head segment of L_a. -/
def Channel.runsOf (c : Channel) : List ScanWord :=
  match c.queue with
  | _ :: q => (splitRuns q).1
  | [] => []

/-- The record cause of a line condition (R33). -/
def LineCond.cause : LineCond → ChanCause
  | .complete => .none
  | .mismatch => .mismatch
  | .corrupt => .corrupt
  | .incomplete => .incomplete
  | .absent => .absent

/-- What the judgment of one channel gives: the channel after it, whether it contributes, its runs, its records. -/
structure Judgment where
  chan : Channel
  contributes : Bool
  runs : List ScanWord
  records : List Report
  deriving DecidableEq, Repr

/-- The judgment of channel k for L_a (R24). -/
def Channel.judge (k n : Nat) (la : Line) (c : Channel) : Judgment :=
  let done := c.consume la
  match c.state with
  | .off | .faulted => ⟨c, false, [], []⟩
  | .settling => ⟨done, false, [], []⟩
  | .active =>
    match c.cond n la with
    | .complete => ⟨done, true, c.runsOf, []⟩
    | w => ⟨{ done with state := .lapsed }, false, [], [.channel ⟨k, .active, .lapsed, w.cause, la⟩]⟩
  | .lapsed =>
    match c.cond n la with
    | .complete => ⟨{ done with state := .active }, true, c.runsOf, [.channel ⟨k, .lapsed, .active, .none, la⟩]⟩
    | _ => ⟨done, false, [], []⟩

/-- Judge the channels (R24), by rising channel number (log 51). -/
def judgeFrom (la : Line) : Nat → List Channel → List Geometry → List Judgment
  | _, [], _ => []
  | k, c :: cs, gs => c.judge k (geomAt gs 0).n la :: judgeFrom la (k + 1) cs gs.tail

/-- After the line's unseen span is handed on, a SETTLING channel counts the line and becomes ACTIVE as of the next
line when its count is at or above settle_lines (R25). -/
def Channel.settleLine (settleLines k : Nat) (la : Line) (c : Channel) : Channel × List Report :=
  if c.state = .settling then
    if settleLines ≤ c.settle + 1 then
      ({ c with state := .active, settle := c.settle + 1 }, [.channel ⟨k, .settling, .active, .none, la + 1#24⟩])
    else ({ c with settle := c.settle + 1 }, [])
  else (c, [])

/-- Count the line in every SETTLING channel (R25), by rising channel number (log 51). -/
def settleFrom (settleLines : Nat) (la : Line) : Nat → List Channel → List Channel × List Report
  | _, [] => ([], [])
  | k, c :: cs =>
    let r := c.settleLine settleLines k la
    let rest := settleFrom settleLines la (k + 1) cs
    (r.1 :: rest.1, r.2 ++ rest.2)

/-! ## Turning channels OFF (R16, R32) -/

/-- Turn OFF the channels that a predicate on their numbers names and that are not OFF; the record carries the line given
(R33). The records stand by rising channel number (log 51). -/
def turnOffFrom (names : Nat → Bool) (line : Line) : Nat → List Channel → List Channel × List Report
  | _, [] => ([], [])
  | k, c :: cs =>
    let rest := turnOffFrom names line (k + 1) cs
    if names k && c.state ≠ .off then
      (c.toOff :: rest.1, .channel ⟨k, c.state, .off, .none, line⟩ :: rest.2)
    else (c :: rest.1, rest.2)

/-- Membership of a channel set (R194). -/
def inSet (v : BitVec 16) (k : Nat) : Bool := v.getLsbD k

/-- Turn OFF the channels of several sets in turn. -/
def turnOffSets (line : Line) (chans : List Channel) : List (BitVec 16) → List Channel × List Report
  | [] => (chans, [])
  | d :: ds =>
    let r := turnOffFrom (inSet d) line 0 chans
    let rest := turnOffSets line r.1 ds
    (rest.1, r.2 ++ rest.2)

/-! ## The column mask table (R29, R30) -/

/-- Put entries into the free places of the table from the lowest index upward. -/
def fillMask : List (Option MaskEntry) → List MaskEntry → List (Option MaskEntry)
  | [], _ => []
  | m :: ms, [] => m :: fillMask ms []
  | some m :: ms, es => some m :: fillMask ms es
  | none :: ms, e :: es => some e :: fillMask ms es

/-- The table with every entry of an origin cleared. -/
def clearMask (o : MaskOrigin) (ms : List (Option MaskEntry)) : List (Option MaskEntry) :=
  ms.map (fun m => match m with
    | some e => if e.origin = o then none else some e
    | none => none)

/-- The valid entries of a table. -/
def validMasks (ms : List (Option MaskEntry)) : List MaskEntry := ms.filterMap id

/-- A mask entry that names an installed channel and columns in range (R29). -/
def maskOk (gs : List Geometry) (m : MaskSpec) : Bool :=
  let g := geomAt gs m.channel
  g.installed && m.first ≤ m.last && m.last < g.n

/-- Masked columns of channel k: the union of its valid entries, clipped to the n columns it has (R28). -/
def maskedColumns (ms : List (Option MaskEntry)) (k n : Nat) : List Ivl :=
  ivlUnion (((validMasks ms).filter (fun m => m.channel = k && m.first < n)).map
    (fun m => (m.first, min (m.last + 1) n)))

/-! ## Runs handed to FAS (R26) -/

/-- A run as handed to FAS: channel, columns [first, last + 1), mode, peak. -/
structure HandedRun where
  channel : Nat
  cols : Ivl
  mode : BitVec 2
  peak : Nat
  deriving DecidableEq, Repr

/-- The unmasked pieces of one RUN word, in column order (R26). -/
def clipRun (k : Nat) (masked : List Ivl) : ScanWord → List HandedRun
  | .run a b m p => (ivlsMinus [(a, b + 1)] masked).map (fun c => ⟨k, c, m, p⟩)
  | _ => []

/-- The runs of the contributing channels, in channel order (R26). -/
def handedRunsFrom (ms : List (Option MaskEntry)) : Nat → List Judgment → List Geometry → List HandedRun
  | _, [], _ => []
  | k, j :: js, gs =>
    (if j.contributes then j.runs.flatMap (clipRun k (maskedColumns ms k (geomAt gs 0).n)) else []) ++
    handedRunsFrom ms (k + 1) js gs.tail

/-! ## Unseen spans (R27, R28) -/

/-- An unseen span of one line: channel, x range, cause. -/
structure Span where
  channel : Nat
  x : Ivl
  cause : UnseenCause
  deriving DecidableEq, Repr

/-- The cause that a channel's state gives its exclusive span (R27). -/
def ChanState.unseenCause : ChanState → UnseenCause
  | .off => .off
  | .settling => .settling
  | .faulted => .fault
  | .active | .lapsed => .lapsed

/-- What a channel has to say about a line: its number, geometry, whether it contributes, its state after judgment. -/
structure Side where
  k : Nat
  g : Geometry
  contributes : Bool
  state : ChanState
  deriving DecidableEq, Repr

/-- The installed channels of a line, left to right. -/
def sidesOf (gs : List Geometry) (js : List Judgment) : List Side :=
  (installedChans gs).map (fun p =>
    let j := js.getD p.1 ⟨Channel.reset, false, [], []⟩
    ⟨p.1, p.2, j.contributes, j.chan.state⟩)

/-- The x ranges that a channel's unmasked columns cover (R28, log 19). -/
def Side.seen (ms : List (Option MaskEntry)) (d : Side) : List Ivl :=
  (ivlsMinus [(0, d.g.n)] (maskedColumns ms d.k d.g.n)).map d.g.xRange

/-- The spans that one channel hands: its exclusive span when it does not contribute (R27), the pieces of its masked
columns that no contributing neighbour covers when it does (R28). `prev` is the lower-numbered immediate neighbour with
the spans it handed, `next` the higher-numbered one. -/
def Side.spans (ms : List (Option MaskEntry)) (prev : Option (Side × List Span)) (next : Option Side) (d : Side) :
    List Span :=
  let own : List Ivl := [(d.g.x0, d.g.x1)]
  if d.contributes then
    let masked := (maskedColumns ms d.k d.g.n).map d.g.xRange
    let left := match prev with
      | some (p, handed) => if p.contributes then p.seen ms ++ handed.map Span.x else []
      | none => []
    let right := match next with
      | some q => if q.contributes then q.seen ms else []
      | none => []
    (ivlsMinus (ivlsMinus masked left) right).map (fun x => ⟨d.k, x, .masked⟩)
  else
    let left := match prev with
      | some (p, handed) => if p.contributes || !handed.isEmpty then [(p.g.x0, p.g.x1)] else []
      | none => []
    let right := match next with
      | some q => if q.contributes then [(q.g.x0, q.g.x1)] else []
      | none => []
    (ivlsMinus (ivlsMinus own left) right).map (fun x => ⟨d.k, x, d.state.unseenCause⟩)

/-- The spans of a line, by channel and then by x (R27, R28; log 18). -/
def spansFrom (ms : List (Option MaskEntry)) : Option (Side × List Span) → List Side → List Span
  | _, [] => []
  | prev, d :: ds =>
    let mine := d.spans ms prev ds.head?
    mine ++ spansFrom ms (some (d, mine)) ds

/-- The unseen spans of a line (R26). -/
def unseenSpans (ms : List (Option MaskEntry)) (gs : List Geometry) (js : List Judgment) : List Span :=
  spansFrom ms none (sidesOf gs js)

end Sys2Proof.Machine
end

