-- ==== Sys2Proof/Machine/Fas.lean ====
section
/-! DEFINITION. The Flaw Assembler (Chapter 3): blobs, joining, closing, splitting, flaw records, classes, y_fin. -/

namespace Sys2Proof.Machine

/-! ## Fronts (R39) -/

/-- A front holds up to 8 intervals (R39). -/
def frontLimit : Nat := 8

/-- The gap between two disjoint intervals (R39). -/
def ivlGap (r c : Ivl) : Nat := if r.2 ≤ c.1 then c.1 - r.2 else r.1 - c.2

/-- The interval of a front nearest to r; of two equally near, the one at lower x (R39). -/
def nearestIvl (r : Ivl) : List Ivl → Option Ivl
  | [] => none
  | c :: cs =>
    match nearestIvl r cs with
    | none => some c
    | some d => if ivlGap r c ≤ ivlGap r d then some c else some d

/-- r overlaps or touches an interval of a front (R39). -/
def touchesFront (r : Ivl) (front : List Ivl) : Bool := front.any (fun c => r.1 ≤ c.2 && c.1 ≤ r.2)

/-- Add an interval to a front (R39). -/
def addFront (r : Ivl) (front : List Ivl) : List Ivl :=
  if touchesFront r front || front.length < frontLimit then ivlInsert r front
  else
    match nearestIvl r front with
    | none => [r]
    | some c => ivlInsert (min r.1 c.1, max r.2 c.2) (front.filter (fun d => d ≠ c))

/-- Add every interval of a list to a front (R41), from low to high x (log 54). -/
def addFronts (rs front : List Ivl) : List Ivl := rs.foldl (fun f r => addFront r f) front

/-! ## Runs and blobs (R37, R38) -/

/-- A run placed in x (R37). -/
structure PlacedRun where
  channel : Nat
  x : Ivl
  pixels : Nat
  mode : BitVec 2
  peak : Nat
  deriving DecidableEq, Repr

/-- Place a run by the geometry of its channel (R37). -/
def placeRun (gs : List Geometry) (r : HandedRun) : PlacedRun :=
  ⟨r.channel, (geomAt gs r.channel).xRange r.cols, r.cols.2 - r.cols.1, r.mode, r.peak⟩

/-- Area is held at 2^24 - 1 (Table 3-2). -/
def areaLimit : Nat := 2 ^ 24 - 1

/-- Run count is held at 65,535 (Table 3-2). -/
def runLimit : Nat := 65535

/-- The mode set holding one mode. -/
def modeSet (m : BitVec 2) : BitVec 3 := 1#3 <<< m.toNat

/-- The channel set holding one channel. -/
def chanSet (k : Nat) : BitVec 16 := 1#16 <<< k

/-- The smallest range covering both. -/
def coverIvl (a b : Option Ivl) : Option Ivl :=
  match a, b with
  | none, b => b
  | a, none => a
  | some a, some b => some (min a.1 b.1, max a.2 b.2)

/-- A blob begun on a line by a run (R38, R42). -/
def Blob.begin (id : Nat) (la : Line) (r : PlacedRun) : Blob where
  id := id
  first := la
  last := la
  xr := some r.x
  lastFront := []
  curFront := [r.x]
  area := min r.pixels areaLimit
  peak := r.peak
  modes := modeSet r.mode
  chset := chanSet r.channel
  runs := 1
  contFrom := none
  segment := false

/-- Take a run's extent, pixels, peak, mode and channel (R38, R42). -/
def Blob.take (b : Blob) (r : PlacedRun) : Blob :=
  { b with xr := coverIvl b.xr (some r.x), area := min (b.area + r.pixels) areaLimit, peak := max b.peak r.peak,
           modes := b.modes ||| modeSet r.mode, chset := b.chset ||| chanSet r.channel,
           runs := min (b.runs + 1) runLimit }

/-- Join a run to a blob of the table (R38). -/
def Blob.join (b : Blob) (r : PlacedRun) : Blob := { b.take r with curFront := addFront r.x b.curFront }

/-- A run is near a blob (R40). -/
def Blob.near (joinTol closeGap : Nat) (la : Line) (r : PlacedRun) (b : Blob) : Bool :=
  let w : Ivl := (r.x.1 - joinTol, r.x.2 + joinTol)
  let meets (front : List Ivl) : Bool := front.any (fun c => w.1 < c.2 && c.1 < w.2)
  ((la - b.last).toNat ≤ closeGap + 1 && meets b.lastFront) || meets b.curFront

/-! ## Merging (R41) -/

/-- The blob with the earliest first line, the lowest id among equals (R41); blobs stand by rising id. -/
def earliestBlob : Blob → List Blob → Blob
  | b, [] => b
  | b, c :: cs => earliestBlob (if lineAfter b.first c.first then c else b) cs

/-- Merge a blob into the survivor (R41); continued-from is settled by `survivorLink`. -/
def Blob.absorb (s b : Blob) : Blob :=
  { s with first := if lineAfter s.first b.first then b.first else s.first,
           last := if lineAfter b.last s.last then b.last else s.last,
           xr := coverIvl s.xr b.xr, lastFront := addFronts b.lastFront s.lastFront,
           curFront := addFronts b.curFront s.curFront,
           area := min (s.area + b.area) areaLimit, peak := max s.peak b.peak, modes := s.modes ||| b.modes,
           chset := s.chset ||| b.chset, runs := min (s.runs + b.runs) runLimit }

/-- The survivor's own continued-from, or that of the merged blob with the earliest first line that has one (R41). -/
def survivorLink (s : Blob) (others : List Blob) : Option Word :=
  match s.contFrom with
  | some n => some n
  | none => match others.filter (fun b => b.contFrom.isSome) with
    | [] => none
    | b :: bs => (earliestBlob b bs).contFrom

/-- Merge several near blobs into one (R41): first the survivor, then the others by rising id (log 20). -/
def mergeBlobs (b : Blob) (bs : List Blob) : Blob :=
  let s := earliestBlob b bs
  let others := (b :: bs).filter (fun c => c.id ≠ s.id)
  { others.foldl Blob.absorb s with contFrom := survivorLink s others }

/-! ## The table (R38, R41, R42) -/

/-- The table has 256 entries (R38). -/
def blobLimit : Nat := 256

/-- The lowest free index from n upward, in blobs by rising id (R38). -/
def freeIndex : Nat → List Blob → Nat
  | n, [] => n
  | n, b :: bs => if b.id = n then freeIndex (n + 1) bs else n

/-- Put a blob in its place by id. -/
def insertBlob (b : Blob) : List Blob → List Blob
  | [] => [b]
  | c :: cs => if b.id < c.id then b :: c :: cs else c :: insertBlob b cs

/-- A run that finds no free entry goes to the dense record (R42). -/
def Assembler.toDense (la : Line) (y : Pos) (r : PlacedRun) (f : Assembler) : Assembler × List Report :=
  match f.dense with
  | none =>
    ({ f with dense := some { Blob.begin blobLimit la r with curFront := [] } },
     [.notice (.blobTableFull la y f.blobs.length)])
  | some d => ({ f with dense := some { d.take r with last := la } }, [])

/-- Dispose of one run of line L_a by the number of blobs it is near (R41). -/
def Assembler.takeRun (c : Setup) (la : Line) (y : Pos) (f : Assembler) (r : PlacedRun) : Assembler × List Report :=
  match f.blobs.filter (Blob.near c.joinTol c.closeGap la r) with
  | [] =>
    if f.blobs.length < blobLimit then
      ({ f with blobs := insertBlob (Blob.begin (freeIndex 0 f.blobs) la r) f.blobs }, [])
    else f.toDense la y r
  | [b] => ({ f with blobs := f.blobs.map (fun x => if x.id = b.id then b.join r else x) }, [])
  | b :: bs =>
    let m := (mergeBlobs b bs).join r
    let gone := (b :: bs).map Blob.id
    ({ f with blobs := insertBlob m (f.blobs.filter (fun x => !gone.contains x.id)) }, [])

/-- Take the runs of a line in the order handed (R40). -/
def Assembler.takeRuns (c : Setup) (la : Line) (y : Pos) : Assembler → List HandedRun → Assembler × List Report
  | f, [] => (f, [])
  | f, r :: rs =>
    let a := f.takeRun c la y (placeRun c.geom r)
    let rest := Assembler.takeRuns c la y a.1 rs
    (rest.1, a.2 ++ rest.2)

/-! ## The end of a line (R43 to R45) -/

/-- What the end of a line does with a blob. -/
inductive Fate where
  | stays | gap | split
  deriving DecidableEq, Repr

/-- The front step of R43. -/
def Blob.endLine (la : Line) (b : Blob) : Blob :=
  if b.curFront.isEmpty then b else { b with lastFront := b.curFront, curFront := [], last := la }

/-- The front step of every blob of the table; the dense record keeps no front (R43). -/
def Assembler.frontStep (la : Line) (f : Assembler) : Assembler := { f with blobs := f.blobs.map (Blob.endLine la) }

/-- The fate of a blob after its front step (R43, R44). -/
def Blob.fate (c : Setup) (la : Line) (b : Blob) : Fate :=
  if c.closeGap + 1 ≤ (la - b.last).toNat then .gap
  else if c.maxBlobLines ≤ ((la - b.first).toNat + 1) % 2 ^ 24 then .split
  else .stays

/-- The continuation opened in the entry of a segment (R44); its continued-from is set when the segment has its id. -/
def Blob.continuation (la : Line) (b : Blob) : Blob :=
  { b with first := la + 1#24, last := la, xr := none, curFront := [], area := 0, peak := 0, modes := 0, chset := 0,
           runs := 0, contFrom := none, segment := false }

/-- A closed blob: whether it is the dense record, and the blob with segment set when closed by split. -/
structure Closed where
  dense : Bool
  blob : Blob
  deriving DecidableEq, Repr

/-- Older closed blobs first: by first line, then blob id, the dense record last (R45). -/
def Closed.isBefore (la : Line) (a b : Closed) : Bool :=
  let x := (la - a.blob.first).toNat
  let y := (la - b.blob.first).toNat
  y < x || (x = y && (!a.dense && (b.dense || a.blob.id < b.blob.id)))

/-- Insert a closed blob in the order of R45. -/
def insertClosed (la : Line) (a : Closed) : List Closed → List Closed
  | [] => [a]
  | b :: bs => if a.isBefore la b then a :: b :: bs else b :: insertClosed la a bs

/-- What is closed of one blob; a continuation that closes by gap with no run is freed without finalization (R44). -/
def Blob.closed (c : Setup) (la : Line) (dense : Bool) (b : Blob) : List Closed :=
  match b.fate c la with
  | .stays => []
  | .gap => if b.runs = 0 then [] else [⟨dense, b⟩]
  | .split => [⟨dense, { b with segment := true }⟩]

/-- What stays in the entry of a blob: the blob, its continuation, or nothing (R43 to R45). -/
def Blob.remains (c : Setup) (la : Line) (b : Blob) : Option Blob :=
  match b.fate c la with
  | .stays => some b
  | .gap => none
  | .split => some (b.continuation la)

/-- The closed blobs of a line in the order of R45. -/
def Assembler.closedSet (c : Setup) (la : Line) (f : Assembler) : List Closed :=
  ((f.blobs.flatMap (Blob.closed c la false)) ++
    (match f.dense with
      | none => []
      | some d => d.closed c la true)).foldl (fun acc x => insertClosed la x acc) []

/-- The table and dense record after the end of a line, before finalization. -/
def Assembler.afterLine (c : Setup) (la : Line) (f : Assembler) : Assembler :=
  { f with
    blobs := f.blobs.filterMap (Blob.remains c la)
    dense := match f.dense with
      | none => none
      | some d => if d.fate c la = .stays then some d else none }

/-! ## Classification (R51) -/

/-- Elongation, held at 65,535 (R51). -/
def elongation (length width : Nat) : Nat := min (16 * max length width / max 1 (min length width)) 65535

/-- A class entry matches a mode set, size, peak and elongation (Table 3-4). -/
def ClassEntry.admits (modes : BitVec 3) (size peak elong : Nat) (e : ClassEntry) : Bool :=
  e.enabled && (e.required &&& modes) = e.required && (e.excluded &&& modes) = 0 &&
  e.sizeMin ≤ size && size ≤ e.sizeMax && e.contrastMin ≤ peak && e.elongMin ≤ elong

/-- The index of the first entry that matches, from index n; 14, UNCLASSIFIED, when none does (R51). -/
def classify (modes : BitVec 3) (size peak elong : Nat) : Nat → List ClassEntry → Nat
  | _, [] => 14
  | n, e :: es => if e.admits modes size peak elong then n else classify modes size peak elong (n + 1) es

/-! ## Flaw records (R46 to R48) -/

/-- A closed blob that is discarded: closed by gap, no continued-from, area below min_area (R46). -/
def Closed.discarded (c : Setup) (x : Closed) : Bool :=
  !x.blob.segment && x.blob.contFrom.isNone && x.blob.area < c.minArea

/-- The flaw record of a closed blob (Table 3-3). A blob without x range does not reach finalization (log 25). -/
def Closed.flaw (c : Setup) (pos : Position) (classes : List ClassEntry) (id : Word) (x : Closed) : Flaw :=
  let b := x.blob
  let length := ((b.last - b.first).toNat + 1) * c.pitch
  let xs := b.xr.getD (0, 0)
  let width := xs.2 - xs.1
  let size := max length width
  { id := id, first := b.first, last := b.last
    yTop := yOf pos c.pitch b.first
    yBottom := yOf pos c.pitch b.last + pu c.pitch
    length := length
    yCenter := yOf pos c.pitch b.first + pu (length / 2)
    xLeft := xs.1, xRight := xs.2, width := width, xCenter := (xs.1 + xs.2) / 2
    size := size, area := b.area, peak := b.peak, modes := b.modes, chset := b.chset, runs := b.runs
    contFrom := b.contFrom, segment := b.segment
    cls := if x.dense then 15 else classify b.modes size b.peak (elongation length width) 0 classes
    assignment := .unassigned }

/-! ## The finality frontier (R50) -/

/-- The earlier of two lines (R50). -/
def earlierLine (m n : Line) : Line := if lineAfter m n then n else m

/-- The earliest among L_a and the first lines of every open blob and of the dense record (R50). -/
def Assembler.frontLine (la : Line) (f : Assembler) : Line :=
  (f.blobs ++ f.dense.toList).foldl (fun m b => earlierLine m b.first) la

/-- Set y_fin anew (R50). -/
def Assembler.setYFin (pos : Position) (pitch : Nat) (la : Line) (f : Assembler) : Assembler :=
  { f with yFin := yOf pos pitch (f.frontLine la) }

end Sys2Proof.Machine
end

