-- ==== Sys2Proof/Machine/Rbm.lean ====
section
/-! DEFINITION. The Ribbon Map (Chapter 4): flaw list, unseen list, queries, assignment; and the counts of a tally it
feeds (Chapter 9, R152, R154). -/

namespace Sys2Proof.Machine

/-! ## The unseen list (R60 to R63, R69) -/

/-- The flaw list holds up to 4096 flaws (R57). -/
def flawLimit : Nat := 4096
/-- The unseen list holds up to 256 intervals (R61). -/
def unseenLimit : Nat := 256
/-- A folded count is held at 65,535 (Table 4-2). -/
def foldLimit : Nat := 65535

/-- Put an interval in its place by y_start, after the intervals with the same y_start (R61). -/
def insertInterval (i : Interval) : List Interval → List Interval
  | [] => [i]
  | j :: js => if before i.yStart j.yStart then i :: j :: js else j :: insertInterval i js

/-- Replace the interval at an index; one whose y_start moved earlier is moved to its place (R61). -/
def replaceInterval (n : Nat) (old new : Interval) (l : List Interval) : List Interval :=
  if new.yStart = old.yStart then l.set n new else insertInterval new (l.eraseIdx n)

/-- The index of the last interval that a test picks, with the interval. -/
def lastWhere (p : Interval → Bool) : List Interval → Option (Nat × Interval)
  | [] => none
  | i :: is =>
    match lastWhere p is with
    | some (n, j) => some (n + 1, j)
    | none => if p i then some (0, i) else none

/-- Two intervals merged into one (R63): `old` is the newest of the list, `new` the one to be entered. -/
def Interval.merge (old new : Interval) : Interval where
  channel := if old.channel = new.channel then old.channel else none
  xa := min old.xa new.xa
  xb := max old.xb new.xb
  yStart := earlierPos old.yStart new.yStart
  yEnd := laterPos old.yEnd new.yEnd
  cause := if old.cause = .saturated || new.cause = .saturated then .saturated else .lapsed
  folded := min (old.folded + new.folded) foldLimit
  capReported := old.capReported || new.capReported || foldLimit < old.folded + new.folded

/-- Enter an interval: in its place while the list holds fewer than 256, else merged into the last one (R62, R63). -/
def RibbonMap.enter (i : Interval) (m : RibbonMap) : RibbonMap × List Report :=
  if m.unseen.length < unseenLimit then ({ m with unseen := insertInterval i m.unseen }, [])
  else
    match m.unseen.getLast? with
    | none => (m, [])
    | some old =>
      let new := old.merge i
      let capped := foldLimit < old.folded + i.folded && !old.capReported && !i.capReported
      ({ m with unseen := replaceInterval (m.unseen.length - 1) old new m.unseen, fullReported := true },
       (if capped then [.notice (.foldCountCapped new.yStart)] else []) ++
       (if m.fullReported then [] else [.notice (.unseenListFull i.yStart unseenLimit)]))

/-- Take an unseen span of a line whose y is given (R62). -/
def RibbonMap.takeSpan (y : Pos) (pitch : Nat) (m : RibbonMap) (sp : Span) : RibbonMap × List Report :=
  let yEnd := y + pu pitch
  if reaches m.retiredEdge yEnd then (m, [])
  else
    match lastWhere (fun i => i.channel = some sp.channel && i.cause = sp.cause && i.xa = sp.x.1 && i.xb = sp.x.2 &&
        i.yEnd = y) m.unseen with
    | some (n, i) => ({ m with unseen := m.unseen.set n { i with yEnd := yEnd } }, [])
    | none => m.enter ⟨some sp.channel, sp.x.1, sp.x.2, y, yEnd, sp.cause, 0, false⟩

/-- Take the spans of a line in order (R26). -/
def RibbonMap.takeSpans (y : Pos) (pitch : Nat) : RibbonMap → List Span → RibbonMap × List Report
  | m, [] => (m, [])
  | m, sp :: sps =>
    let a := m.takeSpan y pitch sp
    let rest := RibbonMap.takeSpans y pitch a.1 sps
    (rest.1, a.2 ++ rest.2)

/-! ## The flaw list (R58 to R60) -/

/-- Insert a flaw after every flaw whose y_center it reaches (R58). -/
def insertFlaw (f : Flaw) : List Flaw → List Flaw
  | [] => [f]
  | g :: gs => if reaches f.yCenter g.yCenter then g :: insertFlaw f gs else f :: g :: gs

/-- Fold a flaw into a SATURATED interval (R60, R69). -/
def RibbonMap.fold (f : Flaw) (m : RibbonMap) : RibbonMap × List Report :=
  let entered : RibbonMap × List Report :=
    match lastWhere (fun i => i.cause = .saturated && reaches i.yEnd f.yTop && reaches f.yBottom i.yStart) m.unseen with
    | some (n, i) =>
      let capped := foldLimit < i.folded + 1 && !i.capReported
      let j := { i with yStart := earlierPos i.yStart f.yTop, yEnd := laterPos i.yEnd f.yBottom,
                        folded := min (i.folded + 1) foldLimit, capReported := i.capReported || capped }
      ({ m with unseen := replaceInterval n i j m.unseen }, if capped then [.notice (.foldCountCapped j.yStart)] else [])
    | none => m.enter ⟨none, m.installedWidth.1, m.installedWidth.2, f.yTop, f.yBottom, .saturated, 1, false⟩
  if m.folding then entered
  else ({ entered.1 with folding := true }, entered.2 ++ [.notice (.mapFull f.id f.yCenter flawLimit)])

/-- A flaw whose y_center lies before the retired edge is late (R58). -/
def RibbonMap.late (m : RibbonMap) (f : Flaw) : Bool := before f.yCenter m.retiredEdge

/-- Take a finalized flaw: late, inserted or folded (R58 to R60). The count of late flaws is the caller's (R59). -/
def RibbonMap.takeFlaw (f : Flaw) (m : RibbonMap) : RibbonMap × List Report :=
  if m.late f then (m, [.notice (.lateFlaw f.id f.yCenter m.retiredEdge)])
  else if m.flaws.length < flawLimit then ({ m with flaws := insertFlaw f m.flaws, folding := false }, [])
  else m.fold f

/-! ## Queries (R64, R65) -/

/-- The flaw query for [F, T) (R64). -/
def RibbonMap.flawsIn (m : RibbonMap) (f t : Pos) : List Flaw := m.flaws.filter (fun w => liesIn w.yCenter f t)

/-- The interval query for [F, T): y_start lies before T and F lies before y_end (R65). -/
def RibbonMap.unseenIn (m : RibbonMap) (f t : Pos) : List Interval :=
  m.unseen.filter (fun i => before i.yStart t && before f i.yEnd)

/-! ## Retirement (R66, R67) -/

/-- The number of the lane whose x span holds an x, from lane n upward (R66). -/
def laneOf (x : Nat) : Nat → List Lane → Option Nat
  | _, [] => none
  | n, l :: ls => if l.xl ≤ x && x < l.xr then some n else laneOf x (n + 1) ls

/-- The assignment that a row's retirement gives a flaw (R66). -/
def Row.assign (r : Row) (f : Flaw) : Assignment :=
  match r.kind with
  | .order => match laneOf f.xCenter 0 r.lanes with
    | some n => .plate r.id n
    | none => .trim r.id
  | .strip | .fallback => .strip r.id

/-- The flaws of a row's span with their assignments, in list order (R66, R67). -/
def RibbonMap.assigned (m : RibbonMap) (r : Row) : List Flaw :=
  (m.flawsIn r.f r.t).map (fun f => { f with assignment := r.assign f })

/-- The intervals that a retirement removes: those whose y_end T reaches (R67). -/
def RibbonMap.leaving (m : RibbonMap) (t : Pos) : List Interval := m.unseen.filter (fun i => reaches t i.yEnd)

/-- The map after a row's retirement (R67). -/
def RibbonMap.retire (r : Row) (m : RibbonMap) : RibbonMap :=
  { m with flaws := m.flaws.filter (fun w => !liesIn w.yCenter r.f r.t)
           unseen := m.unseen.filter (fun i => !reaches r.t i.yEnd)
           retiredEdge := r.t }

/-! ## Counts of a tally (R154, R155) -/

/-- n more of a 64-bit count, wrapping (R156). -/
def add64 (c : BitVec 64) (n : Nat) : BitVec 64 := c + BitVec.ofNat 64 n

/-- The place of a destination in `flawsTo`. -/
def Assignment.dest : Assignment → Nat
  | .plate _ _ => 0
  | .strip _ => 1
  | .trim _ => 2
  | .unassigned => 2

/-- A flaw retired (R154). -/
def Tally.addFlaw (t : Tally) (f : Flaw) : Tally :=
  { t with flawsByClass := modifyAt f.cls (fun c => add64 c 1) t.flawsByClass
           flawsTo := modifyAt f.assignment.dest (fun c => add64 c 1) t.flawsTo }

/-- n flaws folded (R154). -/
def Tally.addFolded (n : Nat) (t : Tally) : Tally := { t with folded := add64 t.folded n }

/-- n flaws unplaced (R154). -/
def Tally.addUnplaced (n : Nat) (t : Tally) : Tally := { t with unplaced := add64 t.unplaced n }

/-- n flaws lost to reset (R154). -/
def Tally.addLost (n : Nat) (t : Tally) : Tally := { t with flawsLost := add64 t.flawsLost n }

/-- Contribute to the current tally (R152). -/
def TallyUnit.toCurrent (f : Tally → Tally) (u : TallyUnit) : TallyUnit := { u with current := f u.current }

/-- Contribute to the tally whose shift id equals a row's shift tag (R152). -/
def TallyUnit.toTag (tag : Word) (f : Tally → Tally) (u : TallyUnit) : TallyUnit :=
  if u.current.shiftId = tag then { u with current := f u.current }
  else match u.closing with
    | some t => if t.shiftId = tag then { u with closing := some (f t) } else u
    | none => u

/-! ## Finalization of a line's closed blobs (R45 to R49) -/

/-- What finalization works on: FAS, RBM, STU and the records so far. -/
structure Bench where
  fas : Assembler
  rbm : RibbonMap
  stu : TallyUnit
  out : List Report
  deriving DecidableEq, Repr

/-- Give the continuation in a segment's entry its continued-from (R44). -/
def linkContinuation (x : Closed) (id : Word) (blobs : List Blob) : List Blob :=
  if x.blob.segment && !x.dense then
    blobs.map (fun b => if b.id = x.blob.id then { b with contFrom := some id } else b)
  else blobs

/-- Finalize one closed blob: discard it, or make its flaw record, stage FLAW, and hand it to RBM (R46 to R49). -/
def Bench.finalize (c : Setup) (pos : Position) (b : Bench) (x : Closed) : Bench :=
  if x.discarded c then { b with fas := { b.fas with smallDiscarded := b.fas.smallDiscarded + 1#32 } }
  else
    let id := b.fas.nextFlaw
    let f := x.flaw c pos b.fas.classes id
    let m := b.rbm.takeFlaw f
    { fas := { b.fas with nextFlaw := nextId id, blobs := linkContinuation x id b.fas.blobs }
      rbm := m.1
      stu := if b.rbm.late f then b.stu.toCurrent (Tally.addUnplaced 1) else b.stu
      out := b.out ++ (if c.liveFlaws then [.flaw f] else []) ++ m.2 }

/-- The end of line L_a in FAS: fronts, closing, splitting, and the finalization of what closed (R43 to R45). -/
def Bench.endLine (c : Setup) (pos : Position) (la : Line) (b : Bench) : Bench :=
  let f := b.fas.frontStep la
  (f.closedSet c la).foldl (Bench.finalize c pos) { b with fas := f.afterLine c la }

end Sys2Proof.Machine
end

