-- ==== Sys2Proof/Machine/Oru.lean ====
section
/-! DEFINITION. The Order Unit (Chapter 5): the order table, row requests, completion, the runway, and the CUT and CANCEL
orders. -/

namespace Sys2Proof.Machine

/-! ## The table (R74, R75) -/

/-- The order table has 16 entries (R74). -/
def tableLimit : Nat := 16

/-- The CUT order of an entry. -/
def Entry.cut? (e : Entry) : Option CutOrder :=
  match e.work with
  | .cut o => some o
  | _ => none

/-- The CUT orders of the table. -/
def OrderUnit.cutOrders (o : OrderUnit) : List CutOrder := o.table.filterMap Entry.cut?

/-- Enter an order at the end of the table with the next take number (R74, R75). -/
def OrderUnit.enter (b : Block) (w : Work) (o : OrderUnit) : OrderUnit :=
  { o with table := o.table ++ [⟨b.tag, o.nextTake, b.addr, b.notify, w⟩], nextTake := nextId o.nextTake }

/-- Apply f to the CUT order of the entry with a take number. -/
def OrderUnit.updateCut (take : Word) (f : CutOrder → CutOrder) (o : OrderUnit) : OrderUnit :=
  { o with table := o.table.map (fun e => if e.take = take then
      (match e.work with
        | .cut c => { e with work := .cut (f c) }
        | _ => e) else e) }

/-! ## The runway (R89, R90) -/

/-- A STANDING order in QUEUED or CURRENT that is not superseded. -/
def CutOrder.unbounded (c : CutOrder) : Bool := c.standing && !c.superseded && c.state ≠ .placed

/-- The runway of the table: none is UNBOUNDED (R89). -/
def OrderUnit.runwayNow (o : OrderUnit) : Option Nat :=
  if o.cutOrders.any CutOrder.unbounded then none
  else some ((o.cutOrders.map (fun c => c.remaining * c.rowMm)).sum)

/-- A runway is below the threshold; UNBOUNDED never is (R90). -/
def runwayBelow (warn : Nat) : Option Nat → Bool
  | none => false
  | some r => r < warn

/-- Compute the runway and, while a setup is held, compare it with runway_warn (R89, R90). -/
def OrderUnit.computeRunway (setup : Option Setup) (o : OrderUnit) : OrderUnit × List Report :=
  let o := { o with runway := o.runwayNow }
  match setup with
  | none => (o, [])
  | some c =>
    let below := runwayBelow c.runwayWarn o.runway
    let rec' (k : RunwayKind) : List Report := [.runway ⟨k, o.runway, c.runwayWarn, o.cutOrders.length, 0, 0⟩]
    if below && !o.low then ({ o with low := true }, rec' .low)
    else if !below && o.low then ({ o with low := false }, rec' .ok)
    else (o, [])

/-! ## Row requests and reports (R80 to R83) -/

/-- QUEUED or CURRENT with rows remaining (R80). -/
def CutOrder.servable (c : CutOrder) : Bool := c.state ≠ .placed && 0 < c.remaining

/-- The serving order: the oldest CUT order in QUEUED or CURRENT with rows remaining (R80). -/
def OrderUnit.serving (o : OrderUnit) : Option (Entry × CutOrder) :=
  o.table.findSome? (fun e => match e.work with
    | .cut c => if c.servable then some (e, c) else none
    | _ => none)

/-- An ORDER row placed: remaining decreases; at 0 a STANDING order not superseded is reloaded, any other becomes
PLACED (R81, R83). -/
def CutOrder.orderRowPlaced (c : CutOrder) : CutOrder :=
  let left := c.remaining - 1
  let reload := c.standing && !c.superseded
  { c with
    remaining := if left = 0 && reload then c.rowCount else left
    state := if left = 0 && !reload then .placed else .current
    rowsPlaced := satAdd c.rowsPlaced 1
    outstanding := c.outstanding + 1 }

/-- A STRIP row placed for the order (R81). -/
def CutOrder.stripRowPlaced (c : CutOrder) : CutOrder :=
  { c with state := .current, stripsPlaced := satAdd c.stripsPlaced 1, outstanding := c.outstanding + 1 }

/-! ## Completion (R86) -/

/-- The DONE status of a completed CUT order with its result words (R86), with reason 0 (log 56). -/
def Entry.cutDone (e : Entry) (c : CutOrder) : StatusWrite :=
  ⟨e.addr, e.notify, statusDone, 0,
    [c.rowsPlaced.toNat, c.meeting.toNat, c.below.toNat, c.stripsPlaced.toNat,
     bit c.cutShort + 2 * bit (c.standing && c.superseded)]⟩

/-- PLACED with nothing outstanding (R86). -/
def CutOrder.complete (c : CutOrder) : Bool := c.state = .placed && c.outstanding = 0

/-- The status that completes an entry, when its CUT order is complete. -/
def Entry.completion (e : Entry) : Option StatusWrite :=
  match e.work with
  | .cut c => if c.complete then some (e.cutDone c) else none
  | _ => none

/-- Remove the completed CUT order with a take number; the statuses that fall due (R86). -/
def OrderUnit.completeCut (take : Word) (o : OrderUnit) : OrderUnit × List StatusWrite :=
  ({ o with table := o.table.filter (fun e => !(e.take = take && e.completion.isSome)) },
   (o.table.filter (fun e => e.take = take)).filterMap Entry.completion)

/-! ## Retirement reports (R85) -/

/-- Rank of a grade: A above B above C above the rest. -/
def Grade.rank : Grade → Nat
  | .a => 0 | .b => 1 | .c => 2 | _ => 3

/-- A final reported grade meets a lane's minimum: it is A, B or C and at or above it (R85). -/
def Grade.meets (g minimum : Grade) : Bool := g.rank < 3 && g.rank ≤ minimum.rank

/-- Judge the lanes of a retired ORDER row (R85). -/
def CutOrder.judge (finals : List Grade) (c : CutOrder) : CutOrder :=
  let met := ((c.lanes.zip finals).filter (fun p => p.2.meets p.1.minGrade)).length
  let unmet := ((c.lanes.zip finals).filter (fun p => !p.2.meets p.1.minGrade)).length
  { c with meeting := satAdd c.meeting met, below := satAdd c.below unmet }

/-- A row placed for the order has retired; `finals` is empty for a STRIP row (R85). -/
def CutOrder.rowRetired (finals : List Grade) (c : CutOrder) : CutOrder :=
  { c.judge finals with outstanding := c.outstanding - 1 }

/-! ## The CUT order (R78, R79, R84) -/

/-- The lane slots within the lane count; the others are ignored (Table 5-2). -/
def CutBody.used (b : CutBody) : List LaneBody := b.lanes.take b.laneCount

/-- Minimum grade codes 1 to 3 (R194). -/
def minGradeOf : Nat → Option Grade
  | 1 => some .a
  | 2 => some .b
  | 3 => some .c
  | _ => none

/-- A spec is loaded (R133). -/
def Grader.loaded (g : Grader) (id : Nat) : Bool := ((g.specs[id]?).getD none).isSome

/-- The first refusal condition of R78 that holds. -/
def cutRefusal (s : State) (b : CutBody) : Option Reason :=
  match s.setup with
  | none => some .noSetup
  | some c =>
    if b.laneCount < 1 || b.laneCount > 4 || b.rowCount = 0 || b.used.any (fun l => (minGradeOf l.minGrade).isNone) ||
        b.used.any (fun l => !s.grd.loaded l.spec) then some .badValue
    else if b.rowMm * 100 < c.rowMin || b.rowMm * 100 > c.rowMax then some .rowLength
    else if b.used.any (fun l => l.width = 0) || c.netWidth < (b.used.map LaneBody.width).sum ||
        b.used.any (fun l => !(l.port < 4 && c.ports.getLsbD l.port)) || !(b.used.map LaneBody.port).Nodup then
      some .layout
    else none

/-- Lay out lanes from an x (R79). -/
def layLanes : Nat → List LaneBody → List Lane
  | _, [] => []
  | x, l :: ls =>
    ⟨l.width, x, x + 100 * l.width, l.spec, (minGradeOf l.minGrade).getD .c, l.port⟩ :: layLanes (x + 100 * l.width) ls

/-- The CUT order as it enters the table (R79). -/
def CutBody.order (c : Setup) (b : CutBody) : CutOrder where
  state := .queued
  standing := b.standing
  rowCount := b.rowCount
  remaining := b.rowCount
  rowMm := b.rowMm
  rowPu := b.rowMm * 100
  lanes := layLanes c.netLeft b.used
  superseded := false
  cutShort := false
  rowsPlaced := 0
  stripsPlaced := 0
  outstanding := 0
  meeting := 0
  below := 0

/-- Supersede every STANDING CUT order of the table (R84). -/
def OrderUnit.supersede (o : OrderUnit) : OrderUnit :=
  { o with table := o.table.map (fun e => match e.work with
      | .cut c => { e with work := .cut (if c.standing then { c with superseded := true } else c) }
      | _ => e) }

/-- The taking of a CUT order (R78, R79). -/
def takeCut (blk : Block) (b : CutBody) (s : State) : State × List StatusWrite :=
  match cutRefusal s b, s.setup with
  | some r, _ => (s, [blk.refused r])
  | none, none => (s, [blk.refused .noSetup])
  | none, some c =>
    let take := s.oru.nextTake
    let o := ((s.oru.supersede).enter blk (.cut (b.order c))).computeRunway s.setup
    (State.report o.2 { s with oru := o.1 }, [blk.taken take])

/-! ## The CANCEL order (R87) -/

/-- A CURRENT order ended by a CANCEL (R87). -/
def CutOrder.endShort (c : CutOrder) : CutOrder := { c with remaining := 0, state := .placed, cutShort := true }

/-- What a CANCEL does to the oldest entry with its target tag: the table after it, the statuses of the target, and the
refusal of the CANCEL where there is one (R87); CANCELLED has reason 0 (log 56). -/
def OrderUnit.cancel (target : Word) (o : OrderUnit) : Reason ⊕ (OrderUnit × List StatusWrite) :=
  match o.table.find? (fun e => e.tag = target) with
  | none => .inl .noSuchOrder
  | some e =>
    match e.work with
    | .cut c =>
      match c.state with
      | .queued =>
        .inr ({ o with table := o.table.filter (fun x => x.take ≠ e.take) },
          [⟨e.addr, e.notify, statusCancelled, 0, []⟩])
      | .current => .inr ((o.updateCut e.take CutOrder.endShort).completeCut e.take)
      | .placed => .inl .tooLate
    | _ => .inl .notCancellable

/-- The taking of a CANCEL order (R87). -/
def takeCancel (blk : Block) (target : Word) (s : State) : State × List StatusWrite :=
  match s.oru.cancel target with
  | .inl r => (s, [blk.refused r])
  | .inr (o, ws) =>
    let o := o.computeRunway s.setup
    (State.report o.2 { s with oru := o.1 }, ws ++ [blk.done])

end Sys2Proof.Machine
end

