-- ==== Sys2Proof/Machine/Grd.lean ====
section
/-! DEFINITION. The Grader (Chapter 8): the arithmetic of a plate, pre-grades, the grading event, stacker codes, LOAD SPEC;
and LOAD CLASSES of the Flaw Assembler (R52). -/

namespace Sys2Proof.Machine

/-! ## The arithmetic of a plate (R136 to R142) -/

/-- A plate: [xl, xr) × [f, t) (R136). -/
structure Plate where
  xl : Nat
  xr : Nat
  f : Pos
  t : Pos
  deriving DecidableEq, Repr

/-- A flaw belongs to a plate (R136). -/
def Plate.holds (p : Plate) (w : Flaw) : Bool := liesIn w.yCenter p.f p.t && p.xl ≤ w.xCenter && w.xCenter < p.xr

/-- A flaw larger than b3 is OVERSIZE (R137). -/
def Spec.oversize (q : Spec) (w : Flaw) : Bool := q.b3 < w.size

/-- Class 15, DENSE (R51). -/
def Flaw.isDense (w : Flaw) : Bool := w.cls = 15

/-- The band number for points: 1, 2 or 3, and 3 for OVERSIZE and DENSE flaws (R137, R139). -/
def Spec.band (q : Spec) (w : Flaw) : Nat :=
  if w.isDense then 3 else if w.size ≤ q.b1 then 1 else if w.size ≤ q.b2 then 2 else 3

/-- A flaw lies in the edge zone: its nearest edge is less than e away (R138). -/
def Plate.edgeZone (p : Plate) (e : Nat) (w : Flaw) : Bool :=
  w.xCenter - p.xl < e || p.xr - w.xCenter < e || (w.yCenter - p.f).toNat < e || (p.t - w.yCenter).toNat < e

/-- The points of a flaw: floor(weight × b × z / 8) (R139). -/
def Spec.points (q : Spec) (p : Plate) (w : Flaw) : Nat :=
  q.weight.getD w.cls 0 * q.band w * (if p.edgeZone q.e w then q.ze else q.zc) / 8

/-- The length of the intersection of two ranges (R140). -/
def overlapX (a b : Ivl) : Nat := min a.2 b.2 - max a.1 b.1

/-- The y overlap of an interval with a plate, by the reaches test (R140). -/
def Plate.overlapY (p : Plate) (i : Interval) : Nat :=
  let start := laterPos i.yStart p.f
  let stop := earlierPos i.yEnd p.t
  if reaches stop start then (stop - start).toNat else 0

/-- The x overlap of an interval with a plate. -/
def Plate.overlapWidth (p : Plate) (i : Interval) : Nat := overlapX (i.xa, i.xb) (p.xl, p.xr)

/-- A in pu² (R140). -/
def Plate.area (p : Plate) : Nat := (p.xr - p.xl) * (p.t - p.f).toNat

/-- U in pu², held at A (R140). -/
def Plate.unseen (p : Plate) (is : List Interval) : Nat :=
  min ((is.map (fun i => p.overlapWidth i * p.overlapY i)).sum) p.area

/-- The unseen share in per mille (R140). -/
def Plate.unseenShare (p : Plate) (is : List Interval) : Nat := p.unseen is * 1000 / p.area

/-- A SATURATED interval overlaps the plate in x and in y (R141). -/
def Plate.saturatedBy (p : Plate) (i : Interval) : Bool :=
  i.cause = .saturated && 0 < p.overlapWidth i && 0 < p.overlapY i

/-- For some class a cap is reached (R141). -/
def Spec.limitReached (q : Spec) (ws : List Flaw) : Bool :=
  (List.range 16).any (fun k => q.limit.getD k 0 ≠ 0 && q.limit.getD k 0 ≤ (ws.filter (fun w => w.cls = k)).length)

/-- The score of a plate, held at 65,535 (R139). -/
def Spec.score (q : Spec) (p : Plate) (ws : List Flaw) : Nat := min ((ws.map (q.points p)).sum) 65535

/-- The grade and grade cause of a plate from its flaws and intervals (R141). -/
def Spec.judge (q : Spec) (p : Plate) (ws : List Flaw) (is : List Interval) : Grade × GradeCause :=
  if ws.any q.oversize then (.reject, .oversize)
  else if ws.any Flaw.isDense then (.reject, .dense)
  else if is.any p.saturatedBy then (.reject, .saturated)
  else if q.limitReached ws then (.reject, .limit)
  else if q.u < p.unseenShare is then (.uninspected, .unseen)
  else if q.score p ws ≤ q.ta then (.a, .none)
  else if q.score p ws ≤ q.tb then (.b, .none)
  else if q.score p ws ≤ q.tc then (.c, .none)
  else (.reject, .score)

/-- The result of a plate on the answers to a flaw query and an interval query (R136 to R142). -/
def Spec.grade (q : Spec) (p : Plate) (flaws : List Flaw) (is : List Interval) : LaneResult :=
  let ws := flaws.filter p.holds
  let g := q.judge p ws is
  { grade := g.1, cause := g.2, score := q.score p ws, unseenPm := p.unseenShare is
    plateArea := p.area / 10000, unseenArea := p.unseen is / 10000 }

/-- A spec with every field 0; no lane of a row is graded against one (R133, R135; log 26). -/
def Spec.blank : Spec := ⟨[], [], 0, 0, 0, 0, 0, 0, 0, 0, 0, 0, []⟩

/-- The spec a lane names. -/
def Grader.spec (g : Grader) (id : Nat) : Spec := ((g.specs[id]?).getD none).getD Spec.blank

/-- The plate of a lane on a span. -/
def Lane.plate (l : Lane) (f t : Pos) : Plate := ⟨l.xl, l.xr, f, t⟩

/-- The results of every lane on a span, on the map as it stands (R143, R145). -/
def gradeLanes (g : Grader) (m : RibbonMap) (lanes : List Lane) (f t : Pos) : List LaneResult :=
  lanes.map (fun l => (g.spec l.spec).grade (l.plate f t) (m.flawsIn f t) (m.unseenIn f t))

/-! ## The grading event (R144, R145) -/

/-- An ORDER row without a computed grade. -/
def Row.ungraded (r : Row) : Bool := r.kind = .order && r.results.isNone

/-- The row at the next-grade pointer: the oldest ORDER row without a computed grade (R144). -/
def Planner.nextGrade (p : Planner) : Option Row := p.rows.find? Row.ungraded

/-- A row with its computed grade, on the map as it stands; LATE stays LATE (R145). -/
def Row.graded (g : Grader) (m : RibbonMap) (r : Row) : Row :=
  { r with results := some (gradeLanes g m r.lanes r.f r.t)
           gradeState := if r.gradeState = .pending then .graded else r.gradeState }

/-- Apply f to the row with an id. -/
def Planner.updateRow (id : Word) (f : Row → Row) (p : Planner) : Planner :=
  { p with rows := p.rows.map (fun r => if r.id = id then f r else r) }

/-- A grading event, when it is due: RUNNING or DRAINING, and y_fin reaches the T of the row at the pointer (R144). -/
def gradingEvent (s : State) : State :=
  match s.rpl.nextGrade with
  | none => s
  | some r =>
    if s.sts.state.run && reaches s.fas.yFin r.t then
      { s with rpl := s.rpl.updateRow r.id (Row.graded s.grd s.rbm) }
    else s

/-- GRADING_EVENT (R145). -/
def execGradingEvent (s : State) : Host.Outcome State Fault Refusal := s.taken (gradingEvent s)

/-! ## Stacker codes (R146) -/

/-- The place of a grade's code in a spec: A, B, C, REJECT, UNINSPECTED. -/
def Grade.codeIndex : Grade → Nat
  | .a => 0 | .b => 1 | .c => 2 | .reject => 3 | _ => 4

/-- A stacker code of a spec. -/
def Spec.code (q : Spec) (g : Grade) : BitVec 3 := BitVec.ofNat 3 (q.codes.getD g.codeIndex 0)

/-- The code for each lane of an ORDER row whose gate fires: by computed grade when GRADED, UNINSPECTED otherwise. -/
def Row.laneCodes (g : Grader) (r : Row) : List (BitVec 3) :=
  match r.gradeState, r.results with
  | .graded, some rs => (r.lanes.zip rs).map (fun p => (g.spec p.1.spec).code p.2.grade)
  | _, _ => r.lanes.map (fun l => (g.spec l.spec).code .uninspected)

/-! ## LOAD SPEC (R134, R135) -/

/-- A spec is in use: named by a lane of a CUT order in the table or of a row in the row list (R135). -/
def State.specInUse (s : State) (id : Nat) : Bool :=
  s.oru.cutOrders.any (fun c => c.lanes.any (fun l => l.spec = id)) ||
  s.rpl.rows.any (fun r => r.lanes.any (fun l => l.spec = id))

/-- The fields of a spec are in range (R134). -/
def Spec.valid (q : Spec) : Bool :=
  q.b1 < q.b2 && q.b2 < q.b3 && q.e ≤ 524288 && q.ze ≤ 32 && q.zc ≤ 32 && q.ta ≤ q.tb && q.tb ≤ q.tc &&
  q.u ≤ 1000 && q.codes.all (fun k => k ≤ 7)

/-- The first refusal condition of R134 that holds. -/
def specRefusal (s : State) (id : Nat) (q : Spec) : Option Reason :=
  if id > 7 then some .badValue
  else if !q.valid then some .badValue
  else if s.specInUse id then some .inUse
  else none

/-- The taking of a LOAD SPEC order (R134). -/
def takeLoadSpec (blk : Block) (id : Nat) (q : Spec) (s : State) : State × List StatusWrite :=
  match specRefusal s id q with
  | some r => (s, [blk.refused r])
  | none => ({ s with grd := { s.grd with specs := s.grd.specs.set id (some q) } }, [blk.done])

/-! ## LOAD CLASSES (R52) -/

/-- A class entry passes its check; a disabled one is not checked (R52). -/
def ClassEntry.valid (e : ClassEntry) : Bool :=
  !e.enabled || (e.sizeMin ≤ e.sizeMax && (e.required &&& e.excluded) = 0)

/-- The first refusal condition of R52 that holds. -/
def classesRefusal (s : State) (es : List ClassEntry) : Option Reason :=
  if s.sts.state ≠ .idle then some .wrongState
  else if !es.all ClassEntry.valid then some .badValue
  else none

/-- The taking of a LOAD CLASSES order (R52). -/
def takeLoadClasses (blk : Block) (es : List ClassEntry) (s : State) : State × List StatusWrite :=
  match classesRefusal s es with
  | some r => (s, [blk.refused r])
  | none => ({ s with fas := { s.fas with classes := es } }, [blk.done])

end Sys2Proof.Machine
end

