-- ==== Sys2Proof/Machine/Rpl.lean ====
section
/-! DEFINITION. The Row Planner's placement (Chapter 6, sections 6.1 to 6.8). -/

namespace Sys2Proof.Machine

/-- The row list holds up to 128 rows (R94). -/
def rowLimit : Nat := 128

/-- A placement falls due when P reaches F + D_gc - D_commit, in RUNNING (R99); the list has room (log 27). -/
def State.placementDue (c : Setup) (s : State) : Bool :=
  s.sts.state = .running && reaches s.pos.p (s.rpl.frontier + pu c.dGc - pu c.dCommit) &&
  s.rpl.rows.length < rowLimit

/-! ## The candidate (R103 to R106) -/

/-- A lane fails: REJECT, or A, B or C below the minimum; UNINSPECTED does not fail (R105). -/
def Grade.fails (g minimum : Grade) : Bool :=
  match g with
  | .reject => true
  | .a | .b | .c => minimum.rank < g.rank
  | _ => false

/-- An item of a failing lane: its y_top and y_bottom (R106). -/
structure Item where
  yTop : Pos
  yBottom : Pos
  deriving DecidableEq, Repr

/-- The flaws of a failing lane that are items (R106). -/
def Spec.offends (q : Spec) (p : Plate) (w : Flaw) : Bool :=
  0 < q.points p w || q.oversize w || w.isDense || q.limit.getD w.cls 0 ≠ 0

/-- The items of one lane plate (R106). -/
def laneItems (q : Spec) (p : Plate) (flaws : List Flaw) (is : List Interval) : List Item :=
  ((flaws.filter p.holds).filter (q.offends p)).map (fun w => ⟨w.yTop, w.yBottom⟩) ++
  (is.filter p.saturatedBy).map (fun i => ⟨i.yStart, i.yEnd⟩)

/-- Item a is named before item b: earlier y_top, and among equals later y_bottom (R106). -/
def Item.isBefore (a b : Item) : Bool :=
  if a.yTop = b.yTop then before b.yBottom a.yBottom else before a.yTop b.yTop

/-- The offending item of a list of items (R106). -/
def offendingItem : List Item → Option Item
  | [] => none
  | a :: rest =>
    match offendingItem rest with
    | none => some a
    | some b => if b.isBefore a then some b else some a

/-- The candidate of an answered placement: its pre-grades and, from the failing lanes, its items (R103 to R106). -/
structure Candidate where
  t : Pos
  results : List LaneResult
  failing : Bool
  items : List Item
  deriving DecidableEq, Repr

/-- Form the candidate ORDER row of a CUT order at F and have it pre-graded (R103, R143). -/
def candidate (g : Grader) (m : RibbonMap) (f : Pos) (o : CutOrder) : Candidate :=
  let t := f + pu o.rowPu
  let results := gradeLanes g m o.lanes f t
  let failed := ((o.lanes.zip results).filter (fun p => p.2.grade.fails p.1.minGrade)).map Prod.fst
  { t := t, results := results, failing := !failed.isEmpty
    items := failed.flatMap (fun l => laneItems (g.spec l.spec) (l.plate f t) (m.flawsIn f t) (m.unseenIn f t)) }

/-- The length of the STRIP row that cuts an item out, when it may be placed (R107). -/
def stripLength (c : Setup) (f : Pos) (rowPu : Nat) (i : Item) : Option Nat :=
  let len := max (i.yBottom + pu c.cutoutMargin - f).toNat c.stripMin
  if len ≤ c.stripMax && len ≤ rowPu then some len else none

/-- The length of the STRIP row to place instead of the ORDER row, if any: the candidate fails, the cut-out count is
below max_cutouts, and an offending item gives a strip within its limits (R107). -/
def decideStrip (c : Setup) (f : Pos) (count rowPu : Nat) (k : Candidate) : Option Nat :=
  if k.failing && count < c.maxCutouts then
    match offendingItem k.items with
    | some i => stripLength c f rowPu i
    | none => none
  else none

/-! ## Placing a row (R95, R96, R101, R107 to R111) -/

/-- The state of the cut at F: the trail cut state of the row before, or the head cut (R109). -/
def Planner.leadState (p : Planner) : CutState := ((p.rows.getLast?).map Row.trail).getD p.headState

/-- A row as placed at the frontier (R109). -/
def Planner.newRow (p : Planner) (kind : RowKind) (t : Pos) (ref : Option (Word × Word)) (lanes : List Lane)
    (tag : Word) (yFin : Pos) (pre : List Grade) (cutOuts : Nat) : Row where
  id := p.nextRow
  kind := kind
  f := p.frontier
  t := t
  ref := ref
  lanes := lanes
  shiftTag := tag
  blind := before yFin t
  preGrades := pre
  cutOuts := cutOuts
  gradeState := .pending
  results := none
  lead := p.leadState
  trail := .armed
  gate := .waiting
  merged := false
  gateFault := false
  codes := []
  isFirst := !p.placedAny

/-- Enter a row at the tail, take its id, and move F to its T (R96, R109). -/
def Planner.place (r : Row) (p : Planner) : Planner :=
  { p with rows := p.rows ++ [r], nextRow := nextId p.nextRow, frontier := r.t, placedAny := true }

/-- The ROW record of a placement (R111). -/
def Row.record (r : Row) : Report :=
  .row { row := r.id, kind := r.kind, f := r.f, t := r.t, tag := (r.ref.map Prod.fst).getD 0,
         take := (r.ref.map Prod.snd).getD 0, shiftTag := r.shiftTag, blind := r.blind, preGrades := r.preGrades,
         cutOuts := r.cutOuts }

/-- A RUNWAY record of the Row Planner (R101, R102). -/
def runwayReport (kind : RunwayKind) (c : Setup) (o : OrderUnit) (f : Pos) (rows : Word) : Report :=
  .runway ⟨kind, o.runway, c.runwayWarn, o.cutOrders.length, f, rows⟩

/-- What a placement decides: the row, the planner before the row is entered, ORU after the report, and the RUNWAY record
of the Row Planner when there is one. -/
structure Decision where
  row : Row
  rpl : Planner
  oru : OrderUnit
  /-- A kind of RUNWAY record to stage with the fallback rows it carries. -/
  fallback : Option (RunwayKind × Word)
  deriving DecidableEq, Repr

/-- A placement answered NONE: a FALLBACK row (R101). -/
def decideFallback (c : Setup) (s : State) : Decision where
  row := s.rpl.newRow .fallback (s.rpl.frontier + pu c.fallbackLen) none [] s.stu.current.shiftId s.fas.yFin [] 0
  rpl := { s.rpl with
    inFallback := true
    fallbackRows := if s.rpl.inFallback then satAdd s.rpl.fallbackRows 1 else 1
    cutOutCount := 0
    cutOutOrder := none }
  oru := s.oru
  fallback := if s.rpl.inFallback then none else some (.fallbackStart, 0)

/-- A placement answered with an order: the ORDER row, or a STRIP row (R102 to R108). -/
def decideOrder (c : Setup) (s : State) (e : Entry) (o : CutOrder) : Decision :=
  let f := s.rpl.frontier
  let count := if s.rpl.cutOutOrder = some e.take then s.rpl.cutOutCount else 0
  let k := candidate s.grd s.rbm f o
  let pre := k.results.map LaneResult.grade
  let fb := if s.rpl.inFallback then some (RunwayKind.fallbackEnd, s.rpl.fallbackRows) else none
  let rpl := { s.rpl with inFallback := false, cutOutOrder := some e.take
                          fallbackRows := if s.rpl.inFallback then 0 else s.rpl.fallbackRows }
  match decideStrip c f count o.rowPu k with
  | some len =>
    { row := s.rpl.newRow .strip (f + pu len) (some (e.tag, e.take)) [] s.stu.current.shiftId s.fas.yFin pre (count + 1)
      rpl := { rpl with cutOutCount := count + 1 }
      oru := s.oru.updateCut e.take CutOrder.stripRowPlaced
      fallback := fb }
  | none =>
    { row := s.rpl.newRow .order k.t (some (e.tag, e.take)) o.lanes s.stu.current.shiftId s.fas.yFin pre count
      rpl := { rpl with cutOutCount := 0 }
      oru := s.oru.updateCut e.take CutOrder.orderRowPlaced
      fallback := fb }

/-- What the placement decides (R100, steps 1 to 4). -/
def State.decide (c : Setup) (s : State) : Decision :=
  match s.oru.serving with
  | none => decideFallback c s
  | some (e, o) => decideOrder c s e o

/-- Complete a placement (R100, steps 5 and 6; R109): ORU computes the runway and its record comes first, then the
RUNWAY record of the Row Planner, then the ROW record; the trailing cut is armed and F moves to T. -/
def State.completePlacement (c : Setup) (s : State) (d : Decision) : State :=
  let o := d.oru.computeRunway s.setup
  let fb := match d.fallback with
    | some (kind, rows) => [runwayReport kind c o.1 d.row.f rows]
    | none => []
  State.report (o.2 ++ fb ++ [d.row.record])
    { s with oru := o.1, rpl := d.rpl.place d.row,
             cgc := { s.cgc with armed := s.cgc.armed ++ [⟨d.row.t, d.row.id⟩] } }

/-- A placement, when it is due (R99, R100). -/
def placement (s : State) : State :=
  match s.setup with
  | none => s
  | some c => if s.placementDue c then s.completePlacement c (s.decide c) else s

/-- PLACEMENT (R100). -/
def execPlacement (s : State) : Host.Outcome State Fault Refusal := s.taken (placement s)

end Sys2Proof.Machine
end

