-- ==== Sys2Proof/Machine/Cgc.lean ====
section
/-! DEFINITION. The Cut and Gate Controller (Chapter 7): strobes, confirmation, merged rows, lane gates. -/

namespace Sys2Proof.Machine

/-- At most 8 strobed cuts await confirmation (R119). -/
def outstandingLimit : Nat := 8

/-! ## Writing cut states (R119, R124) -/

/-- Write a cut's state into the trail cut state of its row and the lead outcome of the row after it, or into the head
cut and the first row's lead outcome (R119, R124). -/
def Planner.writeCut (row : Word) (pos : Pos) (st : CutState) (p : Planner) : Planner :=
  { p with
    headState := if row = 0 then st else p.headState
    rows := p.rows.map (fun r =>
      { r with trail := if row ≠ 0 && r.id = row then st else r.trail
               lead := if r.f = pos then st else r.lead }) }

/-! ## Merged rows (R125, R126) -/

/-- A failed cut touches a row: it is the row's trailing cut or its leading cut (R125). -/
def Row.touchedBy (row : Word) (pos : Pos) (r : Row) : Bool := (row ≠ 0 && r.id = row) || r.f = pos

/-- Merging this row is a gate fault: its gate has FIRED and it was not merged before (R126). -/
def Row.faultsOnMerge (r : Row) : Bool := r.gate = .fired && !r.merged

/-- A row set MERGED, with GATE_FAULT where its gate has fired (R125, R126). -/
def Row.merge (r : Row) : Row := { r with merged := true, gateFault := r.gateFault || r.faultsOnMerge }

/-- The rows that a failed cut merges, in list order. -/
def Planner.mergedBy (row : Word) (pos : Pos) (p : Planner) : List Row := p.rows.filter (Row.touchedBy row pos)

/-- Merge the rows on both sides of a failed cut (R125). -/
def Planner.mergeRows (row : Word) (pos : Pos) (p : Planner) : Planner :=
  { p with rows := p.rows.map (fun r => if r.touchedBy row pos then r.merge else r) }

/-- One gate fault (R155). -/
def Tally.addGateFault (t : Tally) : Tally := { t with gateFaults := satAdd t.gateFaults 1 }

/-- One unexpected confirm (R155). -/
def Tally.addUnexpected (t : Tally) : Tally := { t with unexpected := satAdd t.unexpected 1 }

/-- Resolve a cut: write its outcome, merge rows when it failed, hand STU the gate faults, stage the GATE_FAULT notices
and the CUT record (R124 to R126, R129). Notices and merged row ids stand in row-list order (log 55). -/
def State.resolveCut (row : Word) (pos : Pos) (outcome : CutState) (why : InhibitCause) (time : Word) (s : State) : State :=
  let p := s.rpl.writeCut row pos outcome
  if outcome = .cut then
    State.report [.cut ⟨row, pos, outcome, why, time, []⟩] { s with rpl := p }
  else
    let merged := p.mergedBy row pos
    let faulted := merged.filter Row.faultsOnMerge
    State.report
      (faulted.map (fun r => .notice (.gateFault r.id pos row outcome)) ++
        [.cut ⟨row, pos, outcome, why, time, (merged.filter (fun r => !r.merged)).map Row.id⟩])
      { s with rpl := p.mergeRows row pos,
               stu := faulted.foldl (fun u r => u.toTag r.shiftTag Tally.addGateFault) s.stu }

/-! ## The strobe (R118 to R120) -/

/-- A strobe is due: RUNNING or DRAINING, and P reaches T + D_gc - D_lead of the oldest armed cut (R118, R119). -/
def State.strobeDue (c : Setup) (a : ArmedCut) (s : State) : Bool :=
  s.sts.state.run && reaches s.pos.p (a.pos + pu c.dGc - pu c.dLead)

/-- The strobe event of a cut that has left the armed cuts (R119). -/
def State.strobe (c : Setup) (a : ArmedCut) (s : State) : State :=
  if s.inputs.cinh then s.resolveCut a.row a.pos .inhibited .cinh s.pos.us
  else if outstandingLimit ≤ s.cgc.outstanding.length then s.resolveCut a.row a.pos .inhibited .listFull s.pos.us
  else
    { s with
      cgc := { s.cgc with
        cstb := s.cgc.cstb + 1
        outstanding := s.cgc.outstanding ++ [⟨a.pos, a.row, s.pos.us, a.pos + pu c.dGc + pu c.dConfirm⟩] }
      rpl := s.rpl.writeCut a.row a.pos .strobed }

/-- The strobe of the oldest armed cut, when it is due (R119). -/
def cutStrobe (s : State) : State :=
  match s.setup, s.cgc.armed with
  | some c, a :: rest =>
    if s.strobeDue c a then State.strobe c a { s with cgc := { s.cgc with armed := rest } } else s
  | _, _ => s

/-- CUT_STROBE (R119). -/
def execCutStrobe (s : State) : Host.Outcome State Fault Refusal := s.taken (cutStrobe s)

/-- CINH_CHANGE (R120): the level read at the next strobe. The level is the cutter's own and follows even while the part
takes no event (log 13). -/
def execCinhChange (asserted : Bool) (s : State) : Host.Outcome State Fault Refusal :=
  .next { s with inputs := { s.inputs with cinh := asserted } }

/-! ## Confirmation (R121 to R123) -/

/-- A CDONE pulse in IDLE, RUNNING or DRAINING: credited to the oldest outstanding cut, or an unexpected confirm (R122,
R123). -/
def cdone (s : State) : State :=
  if s.sts.state.live then
    match s.cgc.outstanding with
    | o :: rest =>
      State.resolveCut o.row o.pos .cut .none o.strobeTime { s with cgc := { s.cgc with outstanding := rest } }
    | [] =>
      State.report [.notice (.unexpectedConfirm s.pos.p)] { s with stu := s.stu.toCurrent Tally.addUnexpected }
  else s

/-- CDONE (R122). -/
def execCdone (s : State) : Host.Outcome State Fault Refusal := s.taken (cdone s)

/-- The window expiry of the head outstanding cut, when it is due (R123). -/
def confirmWindowExpiry (s : State) : State :=
  match s.cgc.outstanding with
  | o :: rest =>
    if s.sts.state.run && reaches s.pos.p o.windowEnd then
      State.resolveCut o.row o.pos .missed .none o.strobeTime { s with cgc := { s.cgc with outstanding := rest } }
    else s
  | [] => s

/-- CONFIRM_WINDOW_EXPIRY (R123). -/
def execConfirmWindowExpiry (s : State) : Host.Outcome State Fault Refusal := s.taken (confirmWindowExpiry s)

/-! ## Lane gates (R127, R128) -/

/-- Drive one port: its code lines take the code, then one strobe (R127). -/
def Cutter.drive (g : Cutter) (d : Nat × BitVec 3) : Cutter :=
  { g with ports := g.ports.set d.1 d.2, gateStrobes := modifyAt d.1 (· + 1) g.gateStrobes }

/-- The row at the next-gate pointer: the oldest WAITING row (R127). -/
def Planner.nextGate (p : Planner) : Option Row := p.rows.find? (fun r => r.gate = .waiting)

/-- The ports and codes that a row's gate drives (R127, R128): nothing when MERGED, each lane's port for an ORDER row,
every installed port with scrap_code for a STRIP or FALLBACK row. -/
def Row.drives (c : Setup) (g : Grader) (r : Row) : List (Nat × BitVec 3) :=
  if r.merged then []
  else match r.kind with
    | .order => (r.lanes.map Lane.port).zip (r.laneCodes g)
    | .strip | .fallback => ((List.range 4).filter (fun k => c.ports.getLsbD k)).map (fun k => (k, c.scrapCode))

/-- A gate fires LATE: an ORDER row, not MERGED, still PENDING (R128). -/
def Row.gatesLate (r : Row) : Bool := r.kind = .order && !r.merged && r.gradeState = .pending

/-- A row after its gate event (R127, R128). -/
def Row.gated (g : Grader) (r : Row) : Row :=
  { r with
    gate := if r.merged then .suppressed else .fired
    codes := if r.kind = .order && !r.merged then r.laneCodes g else r.codes
    gradeState := if r.gatesLate then .late else r.gradeState }

/-- The gate event of the oldest WAITING row, when it is due: RUNNING or DRAINING, and P reaches F + D_gc + D_cg. -/
def gateEvent (s : State) : State :=
  match s.setup, s.rpl.nextGate with
  | some c, some r =>
    if s.sts.state.run && reaches s.pos.p (r.f + pu c.dGc + pu c.dCg) then
      State.report (if r.gatesLate then [.notice (.lateGrade r.id r.f r.t s.fas.yFin)] else [])
        { s with cgc := (r.drives c s.grd).foldl Cutter.drive s.cgc
                 rpl := s.rpl.updateRow r.id (Row.gated s.grd) }
    else s
  | _, _ => s

/-- GATE_EVENT (R127). -/
def execGateEvent (s : State) : Host.Outcome State Fault Refusal := s.taken (gateEvent s)

end Sys2Proof.Machine
end

