-- ==== Sys2Proof/Machine/Stu.lean ====
section
/-! DEFINITION. The Shift Tally Unit (Chapter 9): what a row brings to a tally, and CLOSE SHIFT. -/

namespace Sys2Proof.Machine

/-! ## A row's contribution (R153) -/

/-- The place of a grade in `plates` and `areas`. -/
def Grade.index : Grade → Nat
  | .a => 0 | .b => 1 | .c => 2 | .reject => 3 | .uninspected => 4 | .merged => 5 | .scrap => 6

/-- One plate of a grade with its area in mm² (R153). -/
def Tally.addPlate (g : Grade) (area : Nat) (t : Tally) : Tally :=
  { t with plates := modifyAt g.index (fun c => satAdd c 1) t.plates
           areas := modifyAt g.index (fun c => add64 c area) t.areas }

/-- The place of a resolved cut's outcome in `cuts`; none where the cut is not resolved. -/
def CutState.outcomeIndex : CutState → Option Nat
  | .cut => some 0
  | .missed => some 1
  | .inhibited => some 2
  | .armed | .strobed => none

/-- One cut of an outcome (R153). -/
def Tally.addCut (o : CutState) (t : Tally) : Tally :=
  match o.outcomeIndex with
  | some i => { t with cuts := modifyAt i (fun c => satAdd c 1) t.cuts }
  | none => t

/-- The place of a row kind in `rows`. -/
def RowKind.index : RowKind → Nat
  | .order => 0 | .strip => 1 | .fallback => 2

/-- What every row brings: its kind, its trailing cut, and the head cut with the first row after START (R153). -/
def Tally.addRowCuts (r : Row) (t : Tally) : Tally :=
  let t := { t with rows := modifyAt r.kind.index (fun c => satAdd c 1) t.rows }
  let t := t.addCut r.trail
  if r.isFirst then t.addCut r.lead else t

/-- What a row brings to its tally: `plates` holds each plate's final reported grade, plate area and unseen area
(R153). -/
def Tally.addRow (r : Row) (plates : List (Grade × Nat × Nat)) (t : Tally) : Tally :=
  let t := t.addRowCuts r
  let t := plates.foldl (fun t p => { t.addPlate p.1 p.2.1 with unseenArea := add64 t.unseenArea p.2.2 }) t
  if r.kind = .order then
    { t with lateGrades := if r.gradeState = .late then satAdd t.lateGrades 1 else t.lateGrades
             cutOuts := satAdd t.cutOuts r.cutOuts }
  else t

/-! ## CLOSE SHIFT (R157 to R159) -/

/-- The closing tally is complete: no row in the row list carries its shift id (R159). -/
def closingComplete (rows : List Row) (t : Tally) : Bool := rows.all (fun r => r.shiftTag ≠ t.shiftId)

/-- Close the current tally at a boundary and open a new one (R158). -/
def TallyUnit.close (newId : Word) (boundary : Pos) (time : Word) (u : TallyUnit) : TallyUnit :=
  { u with closing := some { u.current with endBoundary := some boundary, endTime := some time }
           current := Tally.opened newId boundary time }

/-- When the closing tally is complete: its SHIFT record, and STU without it (R159). -/
def TallyUnit.finish (rows : List Row) (u : TallyUnit) : TallyUnit × List Report :=
  match u.closing with
  | some t =>
    if closingComplete rows t then ({ u with closing := none, interrupted := false }, [.shift t u.interrupted])
    else (u, [])
  | none => (u, [])

/-- An entry is a CLOSE SHIFT order. -/
def Entry.isCloseShift (e : Entry) : Bool :=
  match e.work with
  | .closeShift => true
  | _ => false

/-- The first refusal condition of R157 that holds. -/
def closeShiftRefusal (s : State) (newId : Word) : Option Reason :=
  if s.stu.closing.isSome then some .shiftBusy
  else if newId = s.stu.current.shiftId then some .badValue
  else none

/-- The taking of a CLOSE SHIFT order (R157 to R159). -/
def takeCloseShift (blk : Block) (newId : Word) (s : State) : State × List StatusWrite :=
  match closeShiftRefusal s newId with
  | some r => (s, [blk.refused r])
  | none =>
    let u := s.stu.close newId s.rpl.frontier s.pos.us
    let done := u.finish s.rpl.rows
    if done.1.closing.isNone then
      (State.report done.2 { s with stu := done.1 }, [blk.done])
    else
      ({ s with stu := u, oru := s.oru.enter blk .closeShift }, [blk.taken s.oru.nextTake])

end Sys2Proof.Machine
end

