-- ==== Sys2Proof/Machine/Retire.lean ====
section
/-! DEFINITION. Row retirement (R112, R113, R147 to R149). -/

namespace Sys2Proof.Machine

/-- A cut in CUT, MISSED or INHIBITED is resolved (Table 7-2). -/
def CutState.resolved : CutState → Bool
  | .cut | .missed | .inhibited => true
  | .armed | .strobed => false

/-- A row may retire: its gate is not WAITING and both its cuts are resolved (R112). -/
def Row.retirable (r : Row) : Bool := r.gate ≠ .waiting && r.trail.resolved && r.lead.resolved

/-! ## Grades at retirement (R147) -/

/-- The results of an ORDER row at retirement: computed before, or computed now on the map as it stands (R147). -/
def Row.finalResults (g : Grader) (m : RibbonMap) (r : Row) : List LaneResult :=
  r.results.getD (gradeLanes g m r.lanes r.f r.t)

/-- PARTIAL: the row retires without a computed grade and y_fin does not reach its T (R147). -/
def Row.partialAt (yFin : Pos) (r : Row) : Bool := r.results.isNone && before yFin r.t

/-- The final reported grade of a lane plate (R147). -/
def Row.reported (r : Row) (computed : Grade) : Grade :=
  if r.merged then .merged else if r.gradeState = .late then .uninspected else computed

/-- The final reported grades of an ORDER row, lane by lane. -/
def Row.finals (results : List LaneResult) (r : Row) : List Grade := results.map (fun x => r.reported x.grade)

/-! ## PLATE records (R148, R149) -/

/-- A flaw as a PLATE record lists it. -/
def Flaw.listed (w : Flaw) (points : Nat) : ListedFlaw := ⟨w.id, w.cls, points, w.xCenter, w.yCenter, w.size⟩

/-- Up to 16 flaws are listed (Table 8-3). -/
def listLimit : Nat := 16

/-- The PLATE record of lane n of an ORDER row (R148). -/
def Row.plateRecord (g : Grader) (yFin : Pos) (flaws : List Flaw) (r : Row) (n : Nat) (l : Lane) (x : LaneResult) :
    PlateRec :=
  let mine := flaws.filter (fun w => w.assignment = .plate r.id n)
  { row := r.id, lane := some n, spec := some l.spec
    final := r.reported x.grade, computed := some x.grade
    tag := (r.ref.map Prod.fst).getD 0, take := (r.ref.map Prod.snd).getD 0, shiftTag := r.shiftTag
    f := r.f, t := r.t, xl := l.xl, xr := l.xr, cause := x.cause
    code := if r.gate = .fired then r.codes[n]? else none
    blind := r.blind, late := r.gradeState = .late, merged := r.merged, gateFault := r.gateFault
    partialGrade := r.partialAt yFin
    score := x.score, unseenPm := x.unseenPm, flawCount := mine.length, plateArea := x.plateArea
    listed := (mine.take listLimit).map (fun w => w.listed ((g.spec l.spec).points (l.plate r.f r.t) w)) }

/-- The PLATE records of an ORDER row in lane order, from lane n upward (R148). -/
def Row.plateRecords (g : Grader) (yFin : Pos) (flaws : List Flaw) (r : Row) :
    Nat → List Lane → List LaneResult → List PlateRec
  | n, l :: ls, x :: xs => r.plateRecord g yFin flaws n l x :: Row.plateRecords g yFin flaws r (n + 1) ls xs
  | _, _, _ => []

/-- The plate area of a STRIP or FALLBACK row in mm² (R149). -/
def Row.scrapArea (c : Setup) (r : Row) : Nat := 100 * c.netWidth * (r.t - r.f).toNat / 10000

/-- The one PLATE record of a STRIP or FALLBACK row (R149). -/
def Row.scrapRecord (c : Setup) (flaws : List Flaw) (r : Row) : PlateRec where
  row := r.id
  lane := none
  spec := none
  final := .scrap
  computed := none
  tag := (r.ref.map Prod.fst).getD 0
  take := (r.ref.map Prod.snd).getD 0
  shiftTag := r.shiftTag
  f := r.f
  t := r.t
  xl := c.netLeft
  xr := c.netLeft + 100 * c.netWidth
  cause := .none
  code := if r.gate = .fired then some c.scrapCode else none
  blind := r.blind
  late := false
  merged := r.merged
  gateFault := r.gateFault
  partialGrade := false
  score := 0
  unseenPm := 0
  flawCount := flaws.length
  plateArea := r.scrapArea c
  listed := (flaws.take listLimit).map (fun w => w.listed 0)

/-- What a retirement reports of a row: its PLATE records, each plate's final grade with plate area and unseen area, and
the final grades that ORU judges (R113, steps 2 to 4). -/
structure Retirement where
  plates : List PlateRec
  counted : List (Grade × Nat × Nat)
  finals : List Grade
  deriving DecidableEq, Repr

/-- The reports of a retiring row, from the flaws assigned to it (R113, R147 to R149). -/
def Row.retirement (c : Setup) (g : Grader) (m : RibbonMap) (yFin : Pos) (r : Row) : Retirement :=
  let flaws := m.assigned r
  match r.kind with
  | .order =>
    let results := r.finalResults g m
    { plates := r.plateRecords g yFin flaws 0 r.lanes results
      counted := results.map (fun x => (r.reported x.grade, x.plateArea, x.unseenArea))
      finals := r.finals results }
  | .strip | .fallback =>
    { plates := [r.scrapRecord c flaws], counted := [(.scrap, r.scrapArea c, 0)], finals := [] }

/-! ## The retirement event (R113) -/

/-- The flaw and fold counts of a retirement, for the tally of the row's shift tag (R67). -/
def TallyUnit.retireMap (r : Row) (m : RibbonMap) (u : TallyUnit) : TallyUnit :=
  u.toTag r.shiftTag (fun t =>
    (m.leaving r.t).foldl (fun t i => t.addFolded i.folded) ((m.assigned r).foldl Tally.addFlaw t))

/-- ORU takes the report of a retired row (R85), and completes its order when it is complete (R86). -/
def OrderUnit.retireRow (r : Row) (finals : List Grade) (o : OrderUnit) : OrderUnit × List StatusWrite :=
  match r.ref with
  | some (_, take) => (o.updateCut take (CutOrder.rowRetired finals)).completeCut take
  | none => (o, [])

/-- The retirement of the head row, with the rest of the list (R113); statuses are written after the records (log 29). -/
def State.retire (c : Setup) (r : Row) (rest : List Row) (s : State) : State × List StatusWrite :=
  let x := r.retirement c s.grd s.rbm s.fas.yFin
  let o := s.oru.retireRow r x.finals
  let u := ((s.stu.retireMap r s.rbm).toTag r.shiftTag (Tally.addRow r x.counted)).finish rest
  let closed := if u.2.isEmpty then [] else (o.1.table.filter Entry.isCloseShift).map Entry.done
  let table := if u.2.isEmpty then o.1.table else o.1.table.filter (fun e => !e.isCloseShift)
  (State.report (x.plates.map Report.plate ++ u.2)
    { s with rbm := s.rbm.retire r, stu := u.1, oru := { o.1 with table := table }, rpl := { s.rpl with rows := rest } },
   o.2 ++ closed)

/-- The retirement of the row at the head of the list, when it may retire, in RUNNING and DRAINING (R112). -/
def rowRetirement (s : State) : State :=
  match s.setup, s.rpl.rows with
  | some c, r :: rest => if s.sts.state.run && r.retirable then State.issue (s.retire c r rest) else s
  | _, _ => s

/-- ROW_RETIREMENT (R113). -/
def execRowRetirement (s : State) : Host.Outcome State Fault Refusal := s.taken (rowRetirement s)

end Sys2Proof.Machine
end

