-- ==== Sys2Proof/Machine/Exu.lean ====
section
/-! DEFINITION. The Exchange Unit (Chapter 11): pages, attach and detach, the poll, register writes. -/

namespace Sys2Proof.Machine

/-! ## Report pages (R191, R192) -/

/-- Owner words (Table 12-3). -/
def ownerEmpty : Nat := 0
/-- FILLING. -/
def ownerFilling : Nat := 1
/-- FILLED. -/
def ownerFilled : Nat := 2

/-- The address of descriptor i (R195). -/
def Exchange.descriptor (e : Exchange) (i : Nat) : Addr := e.stockAddr + BitVec.ofNat 64 (16 * i)

/-- The size of the page head area (R195). -/
def pageHeadSize : Nat := 32

/-- The page head (Table 12-4). -/
def Exchange.pageHead (e : Exchange) (p : FillingPage) (first : Word) : List Byte :=
  leBytes 4 (e.pageSeq + 1#32).toNat ++ leBytes 4 p.count ++ leBytes 4 p.written ++
  leBytes 4 e.dropDroppable.toNat ++ leBytes 4 e.dropEssential.toNat ++ leBytes 4 first.toNat ++ leBytes 8 0

/-- The first-record time of a page head. A page closed with no record has none; that word is a free value (log 28). -/
def State.firstRecord (p : FillingPage) (s : State) : Word := p.firstTime.getD (Config.freeWord s.free)

/-- Close the filling page, when there is one: its head, then FILLED, then the PAGE cause (R192). -/
def State.closePage (s : State) : State :=
  match s.exu.filling with
  | none => s
  | some p =>
    { s with
      host := (s.host.writeBytes p.addr (s.exu.pageHead p (s.firstRecord p))).writeWord (s.exu.descriptor p.index)
        ownerFilled
      exu := Exchange.raise causePage
        { s.exu with pageSeq := s.exu.pageSeq + 1#32, dropDroppable := 0, dropEssential := 0, filling := none }
      free := if p.firstTime.isNone then s.free + 1 else s.free }

/-- The page after one more record (R192). -/
def FillingPage.add (us : Word) (size : Nat) (p : FillingPage) : FillingPage :=
  { p with written := p.written + size, count := p.count + 1, firstTime := some (p.firstTime.getD us) }

/-- Where the next record goes in a page (R192). -/
def FillingPage.next (p : FillingPage) : Addr := p.addr + BitVec.ofNat 64 p.written

/-- The record at the head of staging has been written into the page: it leaves staging, the page holds it, and a loss that
waits is tried again (R190, R192). -/
def State.recordWritten (p : FillingPage) (r : Staged) (rest : List Staged) (s : State) : State :=
  { s with
    exu := Exchange.tryLoss s.pos.us
      { s.exu with staging := rest, filling := some (p.add s.pos.us r.body.size) } }

/-- Write the oldest record of staging into the filling page, or close the page when it does not fit (R192). -/
def State.writeRecord (p : FillingPage) (r : Staged) (rest : List Staged) (s : State) : State :=
  if p.written + r.body.size ≤ s.exu.pageSize then
    let t := State.recordWritten p r rest { s with host := s.host.writeBytes p.next r.bytes }
    if r.body.closesPage then t.closePage else t
  else s.closePage

/-- The writing of one record, while a page is filling and staging holds a record (R192). -/
def pageRecordWrite (s : State) : State :=
  match s.exu.filling, s.exu.staging with
  | some p, r :: rest => if s.sts.state.live then s.writeRecord p r rest else s
  | _, _ => s

/-- PAGE_RECORD_WRITE (R192). -/
def execPageRecordWrite (s : State) : Host.Outcome State Fault Refusal := s.taken (pageRecordWrite s)

/-- flush_time has passed since the first record of the page (R192). -/
def FillingPage.flushDue (us : Word) (p : FillingPage) : Bool :=
  match p.firstTime with
  | some t => p.flushMs * 1000 ≤ (us - t).toNat
  | none => false

/-- The flush of the filling page is due (R192). -/
def State.pageFlushDue (s : State) : Bool :=
  match s.exu.filling with
  | some p => s.sts.state.live && p.flushDue s.pos.us
  | none => false

/-- The flush of the filling page, when it is due (R192). -/
def pageFlush (s : State) : State := if s.pageFlushDue then s.closePage else s

/-- PAGE_FLUSH (R192). -/
def execPageFlush (s : State) : Host.Outcome State Fault Refusal := s.taken (pageFlush s)

/-! ## The header (R181, R195) -/

/-- The values of the mirror words, in the order of Table 12-2 from offset 24H, each with its size. -/
def State.mirrorBytes (s : State) : List Byte :=
  leBytes 4 s.sts.state.code ++ leBytes 4 s.pos.p.toNat ++ leBytes 4 s.pos.lastSpeed.toNat ++
  leBytes 4 s.sli.la.toNat ++ leBytes 4 s.fas.yFin.toNat ++ leBytes 4 s.rpl.rows.length ++
  leBytes 4 s.rbm.flaws.length ++ leBytes 4 s.rbm.unseen.length ++ leBytes 4 s.fas.smallDiscarded.toNat ++
  leBytes 8 (s.exu.cursor.getD 0).toNat ++ leBytes 4 s.pos.us.toNat ++ leBytes 12 0

/-- Write the mirror words of the header (R181; the reserved words after them are written 0, log 33). -/
def State.writeMirror (s : State) : State :=
  { s with host := s.host.writeBytes (s.exu.base + 0x24#64) s.mirrorBytes }

/-! ## Attach (R182) -/

/-- The marker the header must hold. -/
def headerMarker : Word := 0x7460C0A5#32

/-- End an attach with an error: DETACHED with the error shown (R182). -/
def State.failAttach (e : AttachError) (s : State) : State := { s with sts := { s.sts with attachError := e } }

/-- The first check of the header that fails (R182). -/
def headerError (m : Memory) (base : Addr) : Option AttachError :=
  let count := (m.readWord (base + 0x18#64)).toNat
  let size := (m.readWord (base + 0x1C#64)).toNat
  if m.readWord base ≠ headerMarker then some .badMarker
  else if m.readWord (base + 0x04#64) ≠ 1#32 then some .badVersion
  else if count < 1 || count > 32 || (size ≠ 4096 && size ≠ 16384) then some .badPages
  else none

/-- What EXU keeps and sets when every check of an attach passes (R182). -/
def Exchange.attached (m : Memory) (e : Exchange) : Exchange :=
  { e with
    marker := m.readWord e.base
    stockAddr := aligned8 (m.readAddr (e.base + 0x10#64))
    pageCount := (m.readWord (e.base + 0x18#64)).toNat
    pageSize := (m.readWord (e.base + 0x1C#64)).toNat
    cursor := none
    pageSeq := 0
    dropDroppable := 0
    dropEssential := 0
    lossReported := false
    lossPending := false
    detachPending := false
    detachDeferred := false }

/-- At an attach that succeeds, an interrupted closing tally is staged INTERRUPTED and removed (R164). -/
def State.reportInterrupted (s : State) : State :=
  match s.stu.closing with
  | some t =>
    if s.stu.interrupted then
      State.report [.shift t true] { s with stu := { s.stu with closing := none, interrupted := false } }
    else s
  | none => s

/-- The part id, at 20H. -/
def partId : Nat := 0x7460

/-- An attach, begun in DETACHED (R182); `err` says how its accesses end (log 9). It is whole: a reset falls before or after
it, with none or all of its writes made (R176, R182; log 61). -/
def State.attach (err : AccessError) (s : State) : State :=
  let s := { s with exu := { s.exu with base := s.exu.exbh ++ s.exu.exbl } }
  if err = .read then s.failAttach .bus
  else
    match headerError s.host s.exu.base with
    | some e => s.failAttach e
    | none =>
      let s := { s with exu := s.exu.attached s.host }
      if err = .write then s.failAttach .bus
      else
        let s := { s with sts := { s.sts with state := .idle, attachError := .none }
                          exu := { s.exu with pollTimer := s.pos.us } }
        State.reportInterrupted
          (State.writeMirror { s with host := s.host.writeWord (s.exu.base + 0x20#64) partId })

/-! ## EXCTL (R180) -/

/-- IEN takes the value written; set from 0 to 1 while a cause bit is 1 it sends one message (R180, R193), in FAULT too
(log 62). -/
def Exchange.setIen (v : Bool) (e : Exchange) : Exchange :=
  { e with ien := v, messages := e.messages + bit (v && !e.ien && e.causes ≠ 0) }

/-- ATTACH written 1 (R180). -/
def State.attachWritten (err : AccessError) (s : State) : State :=
  if s.sts.state = .detached then s.attach err
  else { s with exu := { s.exu with detachPending := false } }

/-- A poll is in progress (R184). -/
def Exchange.polling (e : Exchange) : Bool := e.phase ≠ .idle

/-- A detach: the filling page is closed, detach pending is cleared, the part becomes DETACHED (R183). -/
def State.doDetach (s : State) : State :=
  let s := s.closePage
  { s with sts := { s.sts with state := .detached }
           exu := { s.exu with detachPending := false, detachDeferred := false } }

/-- ATTACH written 0 (R180, R183). -/
def State.detachWritten (s : State) : State :=
  match s.sts.state with
  | .idle => if s.exu.polling then { s with exu := { s.exu with detachDeferred := true } } else s.doDetach
  | .running | .draining => { s with exu := { s.exu with detachPending := true } }
  | .detached | .fault => s

/-- IEN of an EXCTL write. -/
def State.ienWritten (v : Bool) (s : State) : State := { s with exu := s.exu.setIen v }

/-- What the host has written to its own memory (log 4). -/
def State.hostWrites (ws : List HostWrite) (s : State) : State := { s with host := s.host.hostWrites ws }

/-- ATTACH: an EXCTL write with ATTACH 1 and RESET 0 (R180, R182). -/
def execAttach (ien : Bool) (host : List HostWrite) (err : AccessError) (s : State) : Host.Outcome State Fault Refusal :=
  let s := s.hostWrites host
  s.taken (State.attachWritten err (s.ienWritten ien))

/-- DETACH: an EXCTL write with ATTACH 0 and RESET 0 (R180, R183). -/
def execDetach (ien : Bool) (s : State) : Host.Outcome State Fault Refusal := s.taken (s.ienWritten ien).detachWritten

/-- IEN: an EXCTL write that leaves ATTACH as it reads (R180, log 10). -/
def execIen (value : Bool) (s : State) : Host.Outcome State Fault Refusal := s.taken (s.ienWritten value)

/-- A detach that waited for a poll's end is due: it was written in IDLE during the poll, or the part entered IDLE with
detach pending during it (R183, log 12). -/
def State.detachWaits (s : State) : Bool :=
  s.exu.detachDeferred || (s.exu.detachPending && s.sts.state = .idle)

/-- The waiting detach, taken when the poll has ended: in IDLE the part detaches; when an order of the poll has made it
RUNNING, detach pending is set instead (R183). -/
def deferredDetach (s : State) : State :=
  if !s.exu.polling && s.detachWaits then
    match s.sts.state with
    | .idle => s.doDetach
    | .running | .draining => { s with exu := { s.exu with detachPending := true, detachDeferred := false } }
    | .detached | .fault => s
  else s

/-- DEFERRED_DETACH (R183). -/
def execDeferredDetach (s : State) : Host.Outcome State Fault Refusal := s.taken (deferredDetach s)

/-! ## Other registers (R179) -/

/-- A write to EXCAUSE clears each bit written as 1 (R179). -/
def excause (value : Word) (s : State) : State :=
  { s with exu := { s.exu with causes := s.exu.causes &&& ~~~(value.extractLsb' 0 4) } }

/-- A write to EXPOLL, clamped to 50 to 10,000 µs (R179). -/
def expoll (value : Word) (s : State) : State :=
  { s with exu := { s.exu with expoll := BitVec.ofNat 32 (max 50 (min 10000 value.toNat)) } }

/-- A write to EXBL, in DETACHED; bits 11-0 are ignored (R179). -/
def exbl (value : Word) (s : State) : State :=
  if s.sts.state = .detached then { s with exu := { s.exu with exbl := value &&& 0xFFFFF000#32 } } else s

/-- A write to EXBH, in DETACHED (R179). -/
def exbh (value : Word) (s : State) : State :=
  if s.sts.state = .detached then { s with exu := { s.exu with exbh := value } } else s

/-- EXCAUSE (R179). -/
def execExcause (value : Word) (s : State) : Host.Outcome State Fault Refusal := s.taken (excause value s)

/-- EXPOLL (R179). -/
def execExpoll (value : Word) (s : State) : Host.Outcome State Fault Refusal := s.taken (expoll value s)

/-- EXBL (R179). -/
def execExbl (value : Word) (s : State) : Host.Outcome State Fault Refusal := s.taken (exbl value s)

/-- EXBH (R179). -/
def execExbh (value : Word) (s : State) : Host.Outcome State Fault Refusal := s.taken (exbh value s)

/-! ## The poll (R184 to R187, R191) -/

/-- The first descriptor from index i, of n, that is EMPTY with a page address other than 0 (R191). -/
def findPage (m : Memory) (e : Exchange) : Nat → Nat → Option (Nat × Addr)
  | _, 0 => none
  | i, n + 1 =>
    let page := aligned8 (m.readAddr (e.descriptor i + 8#64))
    if m.readWord (e.descriptor i) = BitVec.ofNat 32 ownerEmpty && page ≠ 0 then some (i, page)
    else findPage m e (i + 1) n

/-- flush_time in force: 20 while no setup is held (R167). -/
def State.flushTime (s : State) : Nat := (s.setup.map Setup.flushTime).getD 20

/-- The descriptor and the page that step 3 of a poll takes: looked for when staging holds a record and no page is filling
(R185, R191), in the page stock, of which there is none at address 0 (R194; log 57). -/
def State.pageFound (s : State) : Option (Nat × Addr) :=
  if s.exu.filling.isNone && !s.exu.staging.isEmpty && s.exu.stockAddr ≠ 0 then
    findPage s.host s.exu 0 s.exu.pageCount
  else none

/-- Step 3 of a poll: take the page found, if there is one (R185, R191). -/
def State.pageStep (s : State) : State :=
  match s.pageFound with
  | some (i, page) =>
    { s with host := s.host.writeWord (s.exu.descriptor i) ownerFilling
             exu := { s.exu with filling := some ⟨i, page, pageHeadSize, 0, none, s.flushTime⟩ } }
  | none => s

/-- Steps 3 and 4, and the poll ends (R185). -/
def State.finishPoll (s : State) : State :=
  let s := s.pageStep.writeMirror
  { s with exu := { s.exu with phase := .idle } }

/-- The next link of the chain: the chain start word while the cursor is none, else the link word of the block at the
cursor (R186; log 7). -/
def State.nextLink (s : State) : Addr :=
  match s.exu.cursor with
  | none => s.host.readAddr (s.exu.base + 0x08#64)
  | some a => s.host.readAddr a

/-- Step 2 of a poll (R185 to R187): with room in the order table, read the next link and the block it names. A block
that EXU refuses is passed over with its status; a block with an order is held for its taking. -/
def State.chainStep (s : State) : State :=
  if s.oru.table.length < tableLimit && s.nextLink ≠ 0 then
    match readBlock s.host (aligned8 s.nextLink) with
    | .inl b => { s with exu := { s.exu with phase := .order b } }
    | .inr w =>
      State.finishPoll (State.writeStatus { s with exu := { s.exu with cursor := some (aligned8 s.nextLink) } } w)
  else s.finishPoll

/-- A poll begins (R184, R185): the poll timer is set; another marker enters FAULT; else step 2 follows. -/
def State.beginPoll (s : State) : State :=
  let s := { s with exu := { s.exu with pollTimer := s.pos.us } }
  if s.host.readWord s.exu.base ≠ s.exu.marker then s.enterFault .header else s.chainStep

/-- A poll falls due (R184); it does not begin while a detach waits (R183). -/
def State.pollDue (s : State) : Bool := s.exu.expoll.toNat ≤ (s.pos.us - s.exu.pollTimer).toNat && !s.detachWaits

/-- The poll: it begins when it is due, and ends by its steps 3 and 4 once its order has been taken (R184, R185; log 6). -/
def poll (s : State) : State :=
  if s.sts.state.live then
    match s.exu.phase with
    | .idle => if s.pollDue then s.beginPoll else s
    | .order _ => s
    | .finishing => s.finishPoll
  else s

/-- POLL (R185). -/
def execPoll (host : List HostWrite) (s : State) : Host.Outcome State Fault Refusal :=
  let s := s.hostWrites host
  s.taken (poll s)

/-! ## Taking the order in hand (R185 to R188) -/

/-- The block in hand leaves the poll's step 2: the chain cursor moves to it (R186). -/
def State.cursorTo (b : Block) (s : State) : State :=
  { s with exu := { s.exu with cursor := some b.addr, phase := .finishing } }

/-- Take the order in hand when the poll holds one of the kind that `pick` picks out; it is judged in the part state as
it stands (R165, R185). Otherwise nothing is taken. -/
def State.takeOrder {α : Type} (pick : OrderBody → Option α) (act : Block → α → State → State × List StatusWrite)
    (s : State) : State :=
  match s.exu.phase with
  | .order b =>
    if s.sts.state.live then
      match pick b.body with
      | some x => State.issue (act b x (s.cursorTo b))
      | none => s
    else s
  | _ => s

end Sys2Proof.Machine
end

