-- ==== Sys2Proof/Machine/Line.lean ====
section
/-! DEFINITION. The assembly of one line (R23 to R26, R32), the LOAD MASK order (R30) and the CHANNEL order (R31, R32). -/

namespace Sys2Proof.Machine

/-! ## Pending disables (R32) -/

/-- The disable set and effect line of an entry that is a CHANNEL order. -/
def Entry.disable? (e : Entry) : Option (BitVec 16 × Line) :=
  match e.work with
  | .channel d l => some (d, l)
  | _ => none

/-- The disable sets of a list of entries whose effect line is L_a, in table order. -/
def effectSets (la : Line) (table : List Entry) : List (BitVec 16) :=
  ((table.filterMap Entry.disable?).filter (fun p => p.2 = la)).map Prod.fst

/-- The disable sets of every CHANNEL order of a list of entries, in table order. -/
def disableSets (table : List Entry) : List (BitVec 16) := (table.filterMap Entry.disable?).map Prod.fst

/-- A CHANNEL order completes with the assembly of line L_a: its effect line E gives E + close_gap + 1 = L_a (R32). -/
def Entry.disableDone (closeGap : Nat) (la : Line) (e : Entry) : Bool :=
  match e.disable? with
  | some (_, l) => l + BitVec.ofNat 24 (closeGap + 1) = la
  | none => false

/-! ## One assembly (R24 to R26, R50) -/

/-- What the assembly of L_a works out: the channels when the line is over, the blocks it feeds, the records in the order
staged, and the CHANNEL orders it completes. -/
structure Assembly where
  chans : List Channel
  fas : Assembler
  rbm : RibbonMap
  stu : TallyUnit
  records : List Report
  completed : List Entry
  deriving DecidableEq, Repr

/-- The assembly of L_a (R24, R26, R32), in this order: the disables whose effect line it is; the judgment of each
channel; the words that the consumption brings to the head; the runs and the end of the line at FAS; the unseen spans at
RBM; the settle counts; the words that the advance of L_a makes stale; y_fin (logs 23 and 30). -/
def State.assemble (c : Setup) (s : State) : Assembly :=
  let la := s.sli.la
  let y := yOf s.pos c.pitch la
  let off := turnOffSets la s.sli.chans (effectSets la s.oru.table)
  let js := judgeFrom la 0 off.1 c.geom
  let heads := discardStaleFrom la 0 (js.map Judgment.chan)
  let runs := s.fas.takeRuns c la y (handedRunsFrom s.sli.mask 0 js c.geom)
  let bench := Bench.endLine c s.pos la ⟨runs.1, s.rbm, s.stu, []⟩
  let map := bench.rbm.takeSpans y c.pitch (unseenSpans s.sli.mask c.geom js)
  let settled := settleFrom c.settleLines la 0 heads.1
  let stale := discardStaleFrom (la + 1#24) 0 settled.1
  { chans := stale.1
    fas := bench.fas.setYFin s.pos c.pitch (la + 1#24)
    rbm := map.1
    stu := bench.stu
    records := off.2 ++ js.flatMap Judgment.records ++ heads.2 ++ runs.2 ++ bench.out ++ map.2 ++ settled.2 ++ stale.2
    completed := s.oru.table.filter (Entry.disableDone c.closeGap la) }

/-- The state after an assembly: L_a advances by 1, and the CHANNEL orders that complete leave the table DONE. -/
def State.assembled (c : Setup) (s : State) : State × List StatusWrite :=
  let a := s.assemble c
  (State.report a.records
    { s with sli := { s.sli with chans := a.chans, la := s.sli.la + 1#24 }
             fas := a.fas, rbm := a.rbm, stu := a.stu
             oru := { s.oru with table := s.oru.table.filter (fun e => !e.disableDone c.closeGap s.sli.la) } },
   a.completed.map Entry.done)

/-- The assembly of the next line, when the gate may assemble it (R23, log 2). -/
def lineAssembly (s : State) : State :=
  match s.setup with
  | none => s
  | some c => if s.gateReady c then State.issue (s.assembled c) else s

/-- LINE_ASSEMBLY (R24). -/
def execLineAssembly (s : State) : Host.Outcome State Fault Refusal := s.taken (lineAssembly s)

/-! ## LOAD MASK (R30) -/

/-- The geometry held; no channel is installed while no setup is held (R31). -/
def State.geom (s : State) : List Geometry := (s.setup.map Setup.geom).getD []

/-- A mask entry as the table keeps it. -/
def MaskSpec.entry (o : MaskOrigin) (m : MaskSpec) : MaskEntry := ⟨m.channel, m.first, m.last, o⟩

/-- The valid SETUP entries of the table. -/
def Intake.setupMasks (i : Intake) : List MaskEntry := (validMasks i.mask).filter (fun m => m.origin = .setup)

/-- LOAD MASK is refused BAD_VALUE (R30). -/
def maskRefused (s : State) (es : List MaskSpec) : Bool :=
  s.setup.isNone || !es.all (maskOk s.geom) || 32 < s.sli.setupMasks.length + es.length

/-- The taking of a LOAD MASK order (R30). -/
def takeLoadMask (blk : Block) (es : List MaskSpec) (s : State) : State × List StatusWrite :=
  if maskRefused s es then (s, [blk.refused .badValue])
  else
    ({ s with sli := { s.sli with mask := fillMask (clearMask .run s.sli.mask) (es.map (MaskSpec.entry .run)) } },
     [blk.done])

/-! ## CHANNEL (R31, R32) -/

/-- A channel as it enters SETTLING, or ACTIVE when settle_lines is 0 (R25, R31). -/
def Channel.toSettling (settleLines : Nat) (c : Channel) : Channel :=
  { c with state := if settleLines = 0 then .active else .settling, why := none, settle := 0 }

/-- The enable of channel k, whose link may report loss of signal: the channel after it and its record (R31, R33); one
that enters FAULTED loses its queue, dropping and cut line (R18). -/
def Channel.enable (settleLines k : Nat) (lost : Bool) (la : Line) (c : Channel) : Channel × List Report :=
  if c.state.takesWords then (c, [])
  else if lost then
    if c.state = .faulted && c.why = some .linkLost then (c, [])
    else (c.toFaulted .linkLost, [.channel ⟨k, c.state, .faulted, .linkLost, la⟩])
  else
    let d := c.toSettling settleLines
    (d, [.channel ⟨k, c.state, d.state, .none, la⟩])

/-- The enables of a set, in channel order. -/
def enableFrom (settleLines : Nat) (set lost : BitVec 16) (la : Line) : Nat → List Channel → List Channel × List Report
  | _, [] => ([], [])
  | k, c :: cs =>
    let rest := enableFrom settleLines set lost la (k + 1) cs
    if inSet set k then
      let r := c.enable settleLines k (inSet lost k) la
      (r.1 :: rest.1, r.2 ++ rest.2)
    else (c :: rest.1, rest.2)

/-- CHANNEL is refused BAD_VALUE: a channel in both sets, or one not installed (R31). -/
def channelRefused (s : State) (enable disable : BitVec 16) : Bool :=
  (enable &&& disable) ≠ 0 ||
  (List.range 16).any (fun k => inSet (enable ||| disable) k && !(geomAt s.geom k).installed)

/-- The disable set of an accepted CHANNEL order, after its enables (R32): at once in IDLE, as a pending order with
effect line L_a in RUNNING and DRAINING, and nothing when it is empty (R31). -/
def takeDisable (blk : Block) (disable : BitVec 16) (s : State) : State × List StatusWrite :=
  if disable = 0 then (s, [blk.done])
  else if s.sts.state.run then
    ({ s with oru := s.oru.enter blk (.channel disable s.sli.la) }, [blk.taken s.oru.nextTake])
  else
    let off := turnOffFrom (inSet disable) s.sli.la 0 s.sli.chans
    (State.report off.2 { s with sli := { s.sli with chans := off.1 } }, [blk.done])

/-- The taking of a CHANNEL order (R31, R32); the records of its enables come before those of its disables (log 51). -/
def takeChannel (blk : Block) (enable disable : BitVec 16) (s : State) : State × List StatusWrite :=
  if channelRefused s enable disable then (s, [blk.refused .badValue])
  else
    let on := enableFrom ((s.setup.map Setup.settleLines).getD 0) enable s.inputs.linkLost s.sli.la 0 s.sli.chans
    takeDisable blk disable (State.report on.2 { s with sli := { s.sli with chans := on.1 } })

end Sys2Proof.Machine
end

