-- ==== Sys2Proof/Machine/Run.lean ====
section
/-! DEFINITION. The orders of Chapter 10: SETUP (R166 to R169), START (R170), STOP (R171), and the end of a drain
(R172, R173); and the taking of each order kind that a poll holds. -/

namespace Sys2Proof.Machine

/-! ## SETUP: the checks (R166 to R168) -/

/-- The fields of POS pass R4. -/
def SetupBody.posOk (b : SetupBody) : Bool :=
  5 ≤ b.pitch && b.pitch ≤ 100 && 0x4000 ≤ b.scale && b.scale ≤ b.pitch * 0x10000 &&
  100 ≤ b.maxSpeed && b.maxSpeed ≤ 1000

/-- Two successive installed channels pass R16. -/
def pairOk (a b : Geometry) : Bool := a.x0 < b.x0 && a.x1 < b.x1 && b.x0 ≤ a.x1

/-- Installed channels, left to right, overlap as R16 allows. -/
def orderOk : List Geometry → Bool
  | a :: b :: c :: rest => pairOk a b && a.x1 ≤ c.x0 && orderOk (b :: c :: rest)
  | [a, b] => pairOk a b
  | _ => true

/-- One installed channel passes R16. -/
def Geometry.ok (g : Geometry) : Bool :=
  512 ≤ g.cp && g.cp ≤ 25600 && 1 ≤ g.n && g.n ≤ 16384 && g.x1 ≤ 524288

/-- The fields of SLI pass R16 and R29. -/
def SetupBody.sliOk (b : SetupBody) : Bool :=
  let gs := (installedChans b.geom).map Prod.snd
  !gs.isEmpty && gs.all Geometry.ok && orderOk gs && b.masks.all (maskOk b.geom)

/-- The fields of FAS pass R36. -/
def SetupBody.fasOk (b : SetupBody) : Bool := 1 ≤ b.minArea && b.minArea ≤ 255

/-- The fields of ORU pass R77. -/
def SetupBody.oruOk (b : SetupBody) : Bool :=
  b.netWidth ≠ 0 && (installedSpan b.geom).1 ≤ b.netLeft &&
  b.netLeft + 100 * b.netWidth ≤ (installedSpan b.geom).2 && b.runwayWarn ≤ 200000

/-- The installed ports and the scrap code pass R117. -/
def SetupBody.cgcOk (b : SetupBody) : Bool := b.ports ≠ 0 && b.scrapCode ≤ 7

/-- The distances pass Table 10-4 (R167). -/
def SetupBody.distancesOk (b : SetupBody) : Bool :=
  3000 ≤ b.dGc && b.dGc ≤ 40000 && 300 ≤ b.dCommit && b.dCommit + 500 ≤ b.dGc && b.dLead + 100 ≤ b.dCommit &&
  10 ≤ b.dConfirm && b.dConfirm ≤ 1000 && 500 ≤ b.dCg && b.dCg ≤ 20000 &&
  150 ≤ b.stripMin && b.stripMin ≤ 1000 && b.stripMin ≤ b.stripMax && b.stripMax ≤ 2000 &&
  b.stripMin ≤ b.rowMin && b.rowMin ≤ 6000 && b.rowMin ≤ b.rowMax && b.rowMax ≤ 12000 &&
  b.rowMin ≤ b.fallbackLen && b.fallbackLen ≤ b.rowMax && 10 ≤ b.cutoutMargin && b.cutoutMargin ≤ 500 &&
  b.maxCutouts ≤ 3

/-- Every field passes its own check (R166). -/
def SetupBody.fieldsOk (b : SetupBody) : Bool :=
  b.posOk && b.sliOk && b.fasOk && b.oruOk && b.cgcOk && b.distancesOk

/-- N of the span check (R168). -/
def SetupBody.span (b : SetupBody) : Nat :=
  (b.dCommit + max b.dCg (b.dConfirm + b.rowMax) + (b.stripMin - 1)) / b.stripMin + 2

/-- The first refusal condition of R166 that holds. -/
def setupRefusal (s : State) (b : SetupBody) : Option Reason :=
  if s.sts.state ≠ .idle then some .wrongState
  else if !s.oru.cutOrders.isEmpty then some .inUse
  else if !b.fieldsOk then some .badValue
  else if 128 ≤ b.span then some .setupSpan
  else none

/-! ## SETUP: the clamped fields (R16, R36, R167) -/

/-- K: 0 selects 16, and 4 to 64 otherwise (R16). -/
def clampK (k : Nat) : Nat := if k = 0 then 16 else max 4 (min 64 k)

/-- settle_lines: FFFFH selects 64, at most 4095 (R16). -/
def clampSettle (n : Nat) : Nat := if n = 0xFFFF then 64 else min n 4095

/-- join_tol: FFFFH selects 50, at most 2000 (R36). -/
def clampJoinTol (n : Nat) : Nat := if n = 0xFFFF then 50 else min n 2000

/-- close_gap: FFFFH selects 2, at most 15 (R36). -/
def clampCloseGap (n : Nat) : Nat := if n = 0xFFFF then 2 else min n 15

/-- max_blob_lines: 0 selects 20,000, at least 256 (R36). -/
def clampBlobLines (n : Nat) : Nat := if n = 0 then 20000 else max n 256

/-- flush_time: 0 selects 20, at most 1000 (R167). -/
def clampFlush (n : Nat) : Nat := if n = 0 then 20 else min n 1000

/-- The setup that a body gives when it is accepted: clamped, and its distances in pu (R16, R36, R97, R117, R167). -/
def SetupBody.setup (b : SetupBody) : Setup where
  scale := BitVec.ofNat 32 b.scale
  invert := b.invert
  pitch := b.pitch
  maxSpeed := b.maxSpeed
  geom := b.geom
  settleLines := clampSettle b.settleLines
  deadline := clampK b.deadline
  joinTol := clampJoinTol b.joinTol
  closeGap := clampCloseGap b.closeGap
  maxBlobLines := clampBlobLines b.maxBlobLines
  minArea := b.minArea
  liveFlaws := b.liveFlaws
  netLeft := b.netLeft
  netWidth := b.netWidth
  runwayWarn := b.runwayWarn
  dGc := b.dGc * 100
  dCommit := b.dCommit * 100
  dLead := b.dLead * 100
  dConfirm := b.dConfirm * 100
  dCg := b.dCg * 100
  stripMin := b.stripMin * 100
  stripMax := b.stripMax * 100
  rowMin := b.rowMin * 100
  rowMax := b.rowMax * 100
  fallbackLen := b.fallbackLen * 100
  cutoutMargin := b.cutoutMargin * 100
  maxCutouts := b.maxCutouts
  ports := b.ports
  scrapCode := BitVec.ofNat 3 b.scrapCode
  flushTime := clampFlush b.flushTime

/-! ## SETUP: its taking (R169) -/

/-- The code lines of each port that a setup does not install become 0 (R117). -/
def Cutter.setPorts (installed : BitVec 4) (g : Cutter) : Cutter :=
  { g with ports := g.ports.mapIdx (fun k v => if installed.getLsbD k then v else 0) }

/-- The mask table that a SETUP leaves: its entries from index 0 upward, and nothing else (R29). -/
def SetupBody.maskTable (b : SetupBody) : List (Option MaskEntry) :=
  fillMask (List.replicate 32 none) (b.masks.map (MaskSpec.entry .setup))

/-- An accepted SETUP is applied (R169). -/
def State.applySetup (b : SetupBody) (s : State) : State :=
  let off := turnOffFrom (fun k => !(geomAt b.geom k).installed) s.sli.la 0 s.sli.chans
  State.report off.2
    { s with setup := some b.setup
             sli := { s.sli with chans := off.1, mask := b.maskTable }
             cgc := s.cgc.setPorts b.ports }

/-- The taking of a SETUP order (R166, R169). -/
def takeSetup (blk : Block) (b : SetupBody) (s : State) : State × List StatusWrite :=
  match setupRefusal s b with
  | some r => (s, [blk.refused r])
  | none => (s.applySetup b, [blk.done])

/-! ## START (R170) -/

/-- P rounded up to a multiple of pitch, as an unsigned number, mod 2^32 (R6). -/
def roundUp (pitch : Nat) (p : Pos) : Pos := pu ((p.toNat + pitch - 1) / pitch * pitch)

/-- POS at START (R6). -/
def Position.start (pitch : Nat) (pos : Position) : Position :=
  { pos with y0 := roundUp pitch pos.p, l0 := 0, lt := 0, nextTrigger := roundUp pitch pos.p, debt := 0,
             excess := false, overLimit := false }

/-- SLI at START (R34). -/
def Intake.start (i : Intake) : Intake :=
  { i with la := 0, chans := i.chans.map (fun c => { c with staleLine := none, cutLine := none }) }

/-- RPL at START (R98). -/
def Planner.start (y0 : Pos) (p : Planner) : Planner :=
  { p with frontier := y0, headPos := y0, headState := .armed, cutOutCount := 0, cutOutOrder := none,
           placedAny := false }

/-- RBM at START (R71). -/
def RibbonMap.start (y0 : Pos) (gs : List Geometry) (m : RibbonMap) : RibbonMap :=
  { m with retiredEdge := y0, folding := false, fullReported := false, installedWidth := installedSpan gs }

/-- An accepted START (R170): POS sets the line origin first, and the other blocks take Y0 from it. -/
def State.startRun (c : Setup) (s : State) : State :=
  let pos := s.pos.start c.pitch
  { s with
    sts := { s.sts with state := .running }
    pos := pos
    sli := s.sli.start
    fas := { s.fas with yFin := pos.y0 }
    rbm := s.rbm.start pos.y0 c.geom
    rpl := s.rpl.start pos.y0
    cgc := { s.cgc with armed := s.cgc.armed ++ [⟨pos.y0, 0⟩] } }

/-- The taking of a START order (R170). -/
def takeStart (blk : Block) (s : State) : State × List StatusWrite :=
  if s.sts.state ≠ .idle then (s, [blk.refused .wrongState])
  else
    match s.setup with
    | none => (s, [blk.refused .noSetup])
    | some c => (s.startRun c, [blk.done])

/-! ## The end of a drain (R172, R173) -/

/-- An entry is a STOP order. -/
def Entry.isStop (e : Entry) : Bool :=
  match e.work with
  | .stop => true
  | _ => false

/-- SLI empties a queue and clears dropping and the cut line (R34). -/
def Channel.drained (c : Channel) : Channel := { c with queue := [], dropping := false, cutLine := none }

/-- FAS at the end of a drain (R54). -/
def Assembler.drained (yLa : Pos) (f : Assembler) : Assembler := { f with blobs := [], dense := none, yFin := yLa }

/-- RBM at the end of a drain (R70). -/
def RibbonMap.drained (m : RibbonMap) : RibbonMap := { m with flaws := [], unseen := [], folding := false }

/-- How many flaws an emptied map hands to a tally: each flaw, and each folded count (R70). -/
def RibbonMap.held (m : RibbonMap) : Nat := m.flaws.length + (m.unseen.map Interval.folded).sum

/-- The end of the drain is due (R172). -/
def State.drainEnded (s : State) : Bool := s.drainCondition && s.rpl.rows.isEmpty

/-- The end of a drain (R173): the CHANNEL and STOP orders of the table complete. A channel that its pending disable has
turned OFF at line E and that was enabled again since is not OFF, and is turned OFF (R32; log 53). -/
def State.endDrain (s : State) : State × List StatusWrite :=
  let off := turnOffSets s.sli.la (s.sli.chans.map Channel.drained) (disableSets s.oru.table)
  let channels := s.oru.table.filter (fun e => e.disable?.isSome)
  let stops := s.oru.table.filter Entry.isStop
  (State.report off.2
    { s with
      sts := { s.sts with state := .idle }
      sli := { s.sli with chans := off.1 }
      fas := s.fas.drained (yOf s.pos ((s.setup.map Setup.pitch).getD 0) s.sli.la)
      rbm := s.rbm.drained
      stu := s.stu.toCurrent (Tally.addUnplaced s.rbm.held)
      oru := { s.oru with table := s.oru.table.filter (fun e => e.disable?.isNone && !e.isStop) } },
   channels.map Entry.done ++ stops.map Entry.done)

/-- A detach pending when the part enters IDLE is due, unless a poll is in progress (R173, R183; log 12). -/
def State.detachDue (s : State) : Bool := s.exu.detachPending && !s.exu.polling

/-- A detach pending when the part enters IDLE is taken (R173, R183). -/
def State.pendingDetach (s : State) : State := if s.detachDue then s.doDetach else s

/-- The end of a drain is an event now (R172). -/
def State.drainOver (s : State) : Bool := s.sts.state = .draining && s.drainEnded

/-- The end of a drain, when it is due (R172, R173; log 2). -/
def endOfDrain (s : State) : State :=
  if s.drainOver then (State.issue s.endDrain).pendingDetach else s

/-- END_OF_DRAIN (R173). -/
def execEndOfDrain (s : State) : Host.Outcome State Fault Refusal := s.taken (endOfDrain s)

/-! ## STOP (R114, R171) -/

/-- A STOP with no row placed since START withdraws the head cut (R114, R118). -/
def Cutter.withdrawHead (placedAny : Bool) (g : Cutter) : Cutter :=
  if placedAny then g else { g with armed := g.armed.filter (fun a => a.row ≠ 0) }

/-- The part as a STOP makes it DRAINING (R171). -/
def State.stopped (s : State) : State :=
  { s with sts := { s.sts with state := .draining }
           rpl := { s.rpl with drainEnd := s.rpl.frontier }
           cgc := s.cgc.withdrawHead s.rpl.placedAny }

/-- The taking of a STOP order (R171): it enters the table, or ends the drain at once. -/
def takeStop (blk : Block) (s : State) : State × List StatusWrite :=
  if s.sts.state ≠ .running then (s, [blk.refused .wrongState])
  else
    let t := s.stopped
    if t.drainEnded then (t.endDrain.1, t.endDrain.2 ++ [blk.done])
    else ({ t with oru := t.oru.enter blk .stop }, [blk.taken t.oru.nextTake])

/-! ## The ten order kinds (R185 to R188) -/

/-- The body of a SETUP. -/
def OrderBody.setup? : OrderBody → Option SetupBody
  | .setup b => some b
  | _ => none

/-- A START carries no field. -/
def OrderBody.start? : OrderBody → Option Unit
  | .start => some ()
  | _ => none

/-- A STOP carries no field. -/
def OrderBody.stop? : OrderBody → Option Unit
  | .stop => some ()
  | _ => none

/-- The body of a CUT. -/
def OrderBody.cut? : OrderBody → Option CutBody
  | .cut b => some b
  | _ => none

/-- The target tag of a CANCEL. -/
def OrderBody.cancel? : OrderBody → Option Word
  | .cancel t => some t
  | _ => none

/-- The enable and disable sets of a CHANNEL. -/
def OrderBody.channel? : OrderBody → Option (BitVec 16 × BitVec 16)
  | .channel e d => some (e, d)
  | _ => none

/-- The entries of a LOAD MASK. -/
def OrderBody.loadMask? : OrderBody → Option (List MaskSpec)
  | .loadMask es => some es
  | _ => none

/-- The entries of a LOAD CLASSES. -/
def OrderBody.loadClasses? : OrderBody → Option (List ClassEntry)
  | .loadClasses es => some es
  | _ => none

/-- The spec id and spec of a LOAD SPEC. -/
def OrderBody.loadSpec? : OrderBody → Option (Nat × Spec)
  | .loadSpec i q => some (i, q)
  | _ => none

/-- The new shift id of a CLOSE SHIFT. -/
def OrderBody.closeShift? : OrderBody → Option Word
  | .closeShift n => some n
  | _ => none

/-- SETUP (R166). -/
def execSetup (s : State) : Host.Outcome State Fault Refusal := s.taken (s.takeOrder OrderBody.setup? takeSetup)

/-- START (R170). -/
def execStart (s : State) : Host.Outcome State Fault Refusal :=
  s.taken (s.takeOrder OrderBody.start? (fun b _ => takeStart b))

/-- STOP (R171). -/
def execStop (s : State) : Host.Outcome State Fault Refusal :=
  s.taken (s.takeOrder OrderBody.stop? (fun b _ => takeStop b))

/-- CUT (R78). -/
def execCut (s : State) : Host.Outcome State Fault Refusal := s.taken (s.takeOrder OrderBody.cut? takeCut)

/-- CANCEL (R87). -/
def execCancel (s : State) : Host.Outcome State Fault Refusal := s.taken (s.takeOrder OrderBody.cancel? takeCancel)

/-- CHANNEL (R31). -/
def execChannel (s : State) : Host.Outcome State Fault Refusal :=
  s.taken (s.takeOrder OrderBody.channel? (fun b p => takeChannel b p.1 p.2))

/-- LOAD MASK (R30). -/
def execLoadMask (s : State) : Host.Outcome State Fault Refusal := s.taken (s.takeOrder OrderBody.loadMask? takeLoadMask)

/-- LOAD CLASSES (R52). -/
def execLoadClasses (s : State) : Host.Outcome State Fault Refusal :=
  s.taken (s.takeOrder OrderBody.loadClasses? takeLoadClasses)

/-- LOAD SPEC (R134). -/
def execLoadSpec (s : State) : Host.Outcome State Fault Refusal :=
  s.taken (s.takeOrder OrderBody.loadSpec? (fun b p => takeLoadSpec b p.1 p.2))

/-- CLOSE SHIFT (R157). -/
def execCloseShift (s : State) : Host.Outcome State Fault Refusal :=
  s.taken (s.takeOrder OrderBody.closeShift? takeCloseShift)

end Sys2Proof.Machine
end

