-- ==== Sys2Proof/Machine/Bus.lean ====
section
/-! DEFINITION. BUS_ERROR (R174, R178, R183): an access of the exchange area that ends in an error, within the event of the
next command in the queue or between two events (log 8). Each function here answers the state in which the access after the
n-th completed word write of an event fails, and none where the event is not due or has no such access. -/

namespace Sys2Proof.Machine

/-! ## Writes of a page and of a poll, word by word -/

/-- The writes that close a page: its head, then FILLED in its descriptor (R192). -/
def State.closeOps (p : FillingPage) (s : State) : List PortOp :=
  wordOps p.addr (s.exu.pageHead p (s.firstRecord p)) ++ [.write (s.exu.descriptor p.index) (leBytes 4 ownerFilled)]

/-- Within the close of the filling page, when there is one (R192). -/
def State.cutClose (n : Nat) (s : State) : Option State :=
  match s.exu.filling with
  | none => none
  | some p => s.cutAt n (s.closeOps p)

/-- Within the writing of one record (R192): a record that is not whole in the page stays in staging; one that is whole has
left it when the close that follows fails. -/
def State.cutRecord (n : Nat) (s : State) : Option State :=
  match s.exu.filling, s.exu.staging with
  | some p, r :: rest =>
    if s.sts.state.live then
      if p.written + r.body.size ≤ s.exu.pageSize then
        match s.attempt n (wordOps p.next r.bytes) with
        | (u, none) => some u
        | (u, some k) => if r.body.closesPage then (u.recordWritten p r rest).cutClose k else none
      else s.cutClose n
    else none
  | _, _ => none

/-- Within the flush of a page (R192). -/
def State.cutFlush (n : Nat) (s : State) : Option State := if s.pageFlushDue then s.cutClose n else none

/-- The writes of steps 3 and 4 of a poll: FILLING where a page is found, then the mirror words (R181, R185, R191). -/
def State.finishOps (s : State) : List PortOp :=
  (match s.pageFound with
    | some (i, _) => [.write (s.exu.descriptor i) (leBytes 4 ownerFilling)]
    | none => []) ++ wordOps (s.exu.base + 0x24#64) s.mirrorBytes

/-- Within step 2 of a poll and what follows it (R184 to R187): the cursor moves to a block that EXU refuses once its status
is whole. -/
def State.cutChain (n : Nat) (s : State) : Option State :=
  if s.oru.table.length < tableLimit && s.nextLink ≠ 0 then
    match readBlock s.host (aligned8 s.nextLink) with
    | .inl _ => none
    | .inr w =>
      match s.attempt n w.ops with
      | (u, none) => some u
      | (u, some k) =>
        let v := { u with exu := { u.exu with cursor := some (aligned8 s.nextLink) } }
        v.cutAt k v.finishOps
  else s.cutAt n s.finishOps

/-- Within a poll that is due (R184, R185): the poll timer is set, and with no write done the first read fails. -/
def State.cutBegin (n : Nat) (s : State) : Option State :=
  let t := { s with exu := { s.exu with pollTimer := s.pos.us } }
  if n = 0 then some t
  else if t.host.readWord t.exu.base ≠ t.exu.marker then none
  else t.cutChain n

/-- Within a poll, or the end of one. -/
def State.cutPoll (n : Nat) (s : State) : Option State :=
  if s.sts.state.live then
    match s.exu.phase with
    | .idle => if s.pollDue then s.cutBegin n else none
    | .order _ => none
    | .finishing => s.cutAt n s.finishOps
  else none

/-! ## Writes of the other events -/

/-- Within the taking of the order in hand: the block is not taken, and the cursor stays (R184; log 58). -/
def State.cutOrder {α : Type} (pick : OrderBody → Option α) (act : Block → α → State → State × List StatusWrite)
    (n : Nat) (s : State) : Option State :=
  match s.exu.phase with
  | .order b =>
    if s.sts.state.live then
      match pick b.body with
      | some x => s.cutAt n (statusOps (act b x (s.cursorTo b)).2)
      | none => none
    else none
  | _ => none

/-- Within the statuses of an event of another block: what the event itself does stands (R174, R188; log 58). -/
def State.cutStatuses (n : Nat) (e : State × List StatusWrite) : Option State := e.1.cutAt n (statusOps e.2)

/-- Within the assembly of a line. -/
def State.cutAssembly (n : Nat) (s : State) : Option State :=
  match s.setup with
  | none => none
  | some c => if s.gateReady c then State.cutStatuses n (s.assembled c) else none

/-- Within the retirement of a row. -/
def State.cutRetirement (n : Nat) (s : State) : Option State :=
  match s.setup, s.rpl.rows with
  | some c, r :: rest => if s.sts.state.run && r.retirable then State.cutStatuses n (s.retire c r rest) else none
  | _, _ => none

/-- Within the end of a drain, in its statuses or in the close of the page by the detach that follows: the drain has ended
then, and the part is not detached (R173, R183). -/
def State.cutDrain (n : Nat) (s : State) : Option State :=
  if s.drainOver then
    match s.endDrain.1.attempt n (statusOps s.endDrain.2) with
    | (u, none) => some u
    | (u, some k) => if u.detachDue then u.cutClose k else none
  else none

/-- Within a detach written in IDLE: IEN is taken, the page does not close, and the part is not detached (R183). -/
def State.cutDetach (ien : Bool) (n : Nat) (s : State) : Option State :=
  if s.sts.state = .idle && !s.exu.polling then (s.ienWritten ien).cutClose n else none

/-- Within a detach that waited for a poll (R183). -/
def State.cutDeferred (n : Nat) (s : State) : Option State :=
  if !s.exu.polling && s.detachWaits && s.sts.state = .idle then s.cutClose n else none

/-- Within a detach written by way of the memory window: EXCTL at offset 08H, with RESET and ATTACH 0 (R178, R180). -/
def State.cutWindow (off : Nat) (v : Word) (n : Nat) (s : State) : Option State :=
  if off = 0x08 && !v.getLsbD 2 && !v.getLsbD 0 then s.cutDetach (v.getLsbD 1) n else none

/-! ## The command -/

/-- The state in which an access of a command's event fails after n completed word writes; none where the command's event
makes no such access. The host's writes that a POLL carries land with the POLL itself (log 8). -/
def State.cutEvent (c : Instr) (n : Nat) (s : State) : Option State :=
  match c with
  | .poll _ => s.cutPoll n
  | .setup => s.cutOrder OrderBody.setup? takeSetup n
  | .start => s.cutOrder OrderBody.start? (fun b _ => takeStart b) n
  | .stop => s.cutOrder OrderBody.stop? (fun b _ => takeStop b) n
  | .cut => s.cutOrder OrderBody.cut? takeCut n
  | .cancel => s.cutOrder OrderBody.cancel? takeCancel n
  | .channel => s.cutOrder OrderBody.channel? (fun b p => takeChannel b p.1 p.2) n
  | .loadMask => s.cutOrder OrderBody.loadMask? takeLoadMask n
  | .loadClasses => s.cutOrder OrderBody.loadClasses? takeLoadClasses n
  | .loadSpec => s.cutOrder OrderBody.loadSpec? (fun b p => takeLoadSpec b p.1 p.2) n
  | .closeShift => s.cutOrder OrderBody.closeShift? takeCloseShift n
  | .lineAssembly => s.cutAssembly n
  | .rowRetirement => s.cutRetirement n
  | .endOfDrain => s.cutDrain n
  | .pageRecordWrite => s.cutRecord n
  | .pageFlush => s.cutFlush n
  | .detach ien => s.cutDetach ien n
  | .registerWrite off v => s.cutWindow off v n
  | .deferredDetach => s.cutDeferred n
  | .powerOnReset | .pinReset | .softReset | .softResetWithKeep | .resetPinRelease => none
  | .attach _ _ _ | .ien _ | .excause _ | .expoll _ | .exbl _ | .exbh _ => none
  | .forwardCount | .reverseCount | .lineTrigger | .speedWindowEnd => none
  | .scanWord _ _ | .headStatus _ _ | .lossOfSignal _ | .returnOfSignal _ => none
  | .gradingEvent | .placement | .cutStrobe | .cinhChange _ | .cdone | .confirmWindowExpiry | .gateEvent => none
  | .busError => none

/-- The state in which the access fails (log 8): within the event of the command that waits next, after a free number of
its word writes; between two events where that one makes no such access. -/
def State.failing (s : State) : State :=
  match s.pending with
  | [] => s
  | c :: _ =>
    match s.cutEvent c (Config.busWrites s.free) with
    | some t => { t with free := s.free + 1 }
    | none => s

/-- A bus error (R174): the access is abandoned, and the part enters FAULT with cause BUS from IDLE, RUNNING and DRAINING.
In DETACHED and FAULT it makes no access (an attach's own errors are its operand, log 9). -/
def busError (s : State) : State := s.failing.enterFault .bus

/-- BUS_ERROR (R174). -/
def execBusError (s : State) : Host.Outcome State Fault Refusal := s.taken (busError s)

end Sys2Proof.Machine
end

