-- ==== Sys2Proof/Machine/Resets.lean ====
section
/-! DEFINITION. The resets (R15, R35, R55, R72, R92, R115, R132, R150, R163, R164, R176, R177), the release of the reset
pin, and a write anywhere in the memory window (R178 to R180). -/

namespace Sys2Proof.Machine

/-! ## The blocks after a reset -/

/-- POS after a power-on, pin or soft reset (Table 1-4); the pulse counter is the model's own and stays (log 17). -/
def Position.cleared (pos : Position) : Position :=
  { Position.reset with ltrigLine := pos.ltrigLine, ltrigCount := pos.ltrigCount }

/-- POS after a soft reset with KEEP (Table 1-4): P, its fraction and the µs counter stay, the window starts now. -/
def Position.kept (pos : Position) : Position :=
  { pos.cleared with p := pos.p, frac := pos.frac, us := pos.us, windowTime := pos.us, windowP := pos.p }

/-- CGC after any reset (Table 7-5); the pulse counters stay (log 17). -/
def Cutter.cleared (g : Cutter) : Cutter := { Cutter.reset with cstb := g.cstb, gateStrobes := g.gateStrobes }

/-- EXU after a power-on or pin reset (Table 11-2, R177); the message counter stays (log 17). -/
def Exchange.cleared (e : Exchange) : Exchange := { Exchange.reset with messages := e.messages }

/-- EXU after a soft reset: EXBL, EXBH and EXPOLL stay (Table 11-2). -/
def Exchange.softCleared (e : Exchange) : Exchange :=
  { e.cleared with exbl := e.exbl, exbh := e.exbh, expoll := e.expoll }

/-- The whole part after a power-on, pin or soft reset with a cause (R177); what surrounds it, the queue of commands
and the supply of free values stay. -/
def State.cleared (cause : ResetCause) (exu : Exchange) (s : State) : State :=
  { State.reset with
    pending := s.pending, pinHeld := s.pinHeld, inputs := s.inputs, host := s.host, free := s.free
    sts := ⟨.detached, cause, .none, .none⟩
    pos := s.pos.cleared
    cgc := s.cgc.cleared
    exu := exu }

/-! ## Power-on, pin and soft reset (R176, R177) -/

/-- A power-on reset (R176). The reset pin is another controller's and stays as it is (log 14). -/
def powerOnReset (s : State) : State := s.cleared .powerOn s.exu.cleared

/-- The assertion of the reset pin (R176): the part is reset and takes no event until the pin is released. -/
def pinReset (s : State) : State := { s.cleared .pin s.exu.cleared with pinHeld := true }

/-- A soft reset (R176). -/
def softReset (s : State) : State := s.cleared .soft s.exu.softCleared

/-- POWER_ON_RESET (R176): taken in any part state. -/
def execPowerOnReset (s : State) : Host.Outcome State Fault Refusal := .next (powerOnReset s)

/-- PIN_RESET (R176): taken in any part state. -/
def execPinReset (s : State) : Host.Outcome State Fault Refusal := .next (pinReset s)

/-- SOFT_RESET (R176, R180). -/
def execSoftReset (s : State) : Host.Outcome State Fault Refusal := s.taken (softReset s)

/-- RESET_PIN_RELEASE (R176): the part takes events again. -/
def execResetPinRelease (s : State) : Host.Outcome State Fault Refusal := .next { s with pinHeld := false }

/-! ## Soft reset with KEEP (R164, R177) -/

/-- The row of a list whose span holds a position (R72). -/
def rowAt (rows : List Row) (y : Pos) : Option Row := rows.find? (fun r => liesIn y r.f r.t)

/-- n flaws lost to reset, for the tally of the row that holds y, else for the current tally (R72). -/
def TallyUnit.loseAt (rows : List Row) (y : Pos) (n : Nat) (u : TallyUnit) : TallyUnit :=
  match rowAt rows y with
  | some r => u.toTag r.shiftTag (Tally.addLost n)
  | none => u.toCurrent (Tally.addLost n)

/-- One row lost to reset (R115). -/
def Tally.addRowLost (t : Tally) : Tally := { t with rowsLost := satAdd t.rowsLost 1 }

/-- STU takes the losses of the map and of the row list, and is interrupted when a closing tally is present (R164,
R177). -/
def TallyUnit.takeLosses (m : RibbonMap) (rows : List Row) (u : TallyUnit) : TallyUnit :=
  let u := m.flaws.foldl (fun u w => u.loseAt rows w.yCenter 1) u
  let u := m.unseen.foldl (fun u i => u.loseAt rows i.yStart i.folded) u
  let u := rows.foldl (fun u r => u.toTag r.shiftTag Tally.addRowLost) u
  { u with interrupted := u.closing.isSome }

/-- A soft reset with KEEP (R177, Table 10-6). -/
def softResetWithKeep (s : State) : State :=
  { s.cleared .softKeep s.exu.softCleared with
    setup := s.setup
    pos := s.pos.kept
    sli := { Intake.reset with mask := s.sli.mask }
    fas := { Assembler.reset with classes := s.fas.classes, nextFlaw := s.fas.nextFlaw,
                                  smallDiscarded := s.fas.smallDiscarded }
    rpl := { Planner.reset with nextRow := s.rpl.nextRow }
    grd := s.grd
    stu := s.stu.takeLosses s.rbm s.rpl.rows }

/-- SOFT_RESET_WITH_KEEP (R177). -/
def execSoftResetWithKeep (s : State) : Host.Outcome State Fault Refusal := s.taken (softResetWithKeep s)

/-! ## A write in the memory window (R178 to R180) -/

/-- A write of EXCTL as one value (R180): bit 0 ATTACH, bit 1 IEN, bit 2 RESET, bit 3 KEEP. -/
def exctl (value : Word) (s : State) : State :=
  if value.getLsbD 2 then (if value.getLsbD 3 then softResetWithKeep s else softReset s)
  else
    let t := s.ienWritten (value.getLsbD 1)
    if value.getLsbD 0 then t.attachWritten .ok else t.detachWritten

/-- A 32-bit write at an offset of the memory window: EXSTS and every offset without a register ignore it (R178, R179);
a register takes it by its own rule (log 43). -/
def registerWrite (offset : Nat) (value : Word) (s : State) : State :=
  match offset with
  | 0x00 => exbl value s
  | 0x04 => exbh value s
  | 0x08 => exctl value s
  | 0x10 => excause value s
  | 0x14 => expoll value s
  | _ => s

/-- REGISTER_WRITE (R178, R179). -/
def execRegisterWrite (offset : Nat) (value : Word) (s : State) : Host.Outcome State Fault Refusal :=
  s.taken (registerWrite offset value s)

end Sys2Proof.Machine
end

