-- ==== Sys2Proof/Machine/Dispatch.lean ====
section
/-! DEFINITION. The meaning of each command: one call for each row of spec/opcode_table.json. -/

namespace Sys2Proof.Machine

/-- The effect of a command on everything but the queue. -/
def exec (i : Instr) (s : State) : Host.Outcome State Fault Refusal :=
  match i with
  | .powerOnReset => Sys2Proof.Machine.execPowerOnReset s
  | .pinReset => Sys2Proof.Machine.execPinReset s
  | .softReset => Sys2Proof.Machine.execSoftReset s
  | .softResetWithKeep => Sys2Proof.Machine.execSoftResetWithKeep s
  | .attach ien host err => Sys2Proof.Machine.execAttach ien host err s
  | .detach ien => Sys2Proof.Machine.execDetach ien s
  | .deferredDetach => Sys2Proof.Machine.execDeferredDetach s
  | .ien value => Sys2Proof.Machine.execIen value s
  | .excause value => Sys2Proof.Machine.execExcause value s
  | .expoll value => Sys2Proof.Machine.execExpoll value s
  | .exbl value => Sys2Proof.Machine.execExbl value s
  | .exbh value => Sys2Proof.Machine.execExbh value s
  | .registerWrite offset value => Sys2Proof.Machine.execRegisterWrite offset value s
  | .forwardCount => Sys2Proof.Machine.execForwardCount s
  | .reverseCount => Sys2Proof.Machine.execReverseCount s
  | .lineTrigger => Sys2Proof.Machine.execLineTrigger s
  | .speedWindowEnd => Sys2Proof.Machine.execSpeedWindowEnd s
  | .scanWord ch word => Sys2Proof.Machine.execScanWord ch word s
  | .headStatus ch code => Sys2Proof.Machine.execHeadStatus ch code s
  | .lossOfSignal ch => Sys2Proof.Machine.execLossOfSignal ch s
  | .returnOfSignal ch => Sys2Proof.Machine.execReturnOfSignal ch s
  | .lineAssembly => Sys2Proof.Machine.execLineAssembly s
  | .gradingEvent => Sys2Proof.Machine.execGradingEvent s
  | .placement => Sys2Proof.Machine.execPlacement s
  | .cutStrobe => Sys2Proof.Machine.execCutStrobe s
  | .cinhChange asserted => Sys2Proof.Machine.execCinhChange asserted s
  | .cdone => Sys2Proof.Machine.execCdone s
  | .confirmWindowExpiry => Sys2Proof.Machine.execConfirmWindowExpiry s
  | .gateEvent => Sys2Proof.Machine.execGateEvent s
  | .rowRetirement => Sys2Proof.Machine.execRowRetirement s
  | .endOfDrain => Sys2Proof.Machine.execEndOfDrain s
  | .poll host => Sys2Proof.Machine.execPoll host s
  | .setup => Sys2Proof.Machine.execSetup s
  | .start => Sys2Proof.Machine.execStart s
  | .stop => Sys2Proof.Machine.execStop s
  | .cut => Sys2Proof.Machine.execCut s
  | .cancel => Sys2Proof.Machine.execCancel s
  | .channel => Sys2Proof.Machine.execChannel s
  | .loadMask => Sys2Proof.Machine.execLoadMask s
  | .loadClasses => Sys2Proof.Machine.execLoadClasses s
  | .loadSpec => Sys2Proof.Machine.execLoadSpec s
  | .closeShift => Sys2Proof.Machine.execCloseShift s
  | .pageRecordWrite => Sys2Proof.Machine.execPageRecordWrite s
  | .pageFlush => Sys2Proof.Machine.execPageFlush s
  | .busError => Sys2Proof.Machine.execBusError s
  | .resetPinRelease => Sys2Proof.Machine.execResetPinRelease s

end Sys2Proof.Machine
end

