-- ==== Sys2Proof/Safety.lean ====
section
/-! DEFINITION. What a safe run of the block is, and the properties of a state that the statements speak of. -/

namespace Sys2Proof.Machine

/-- A step is safe when it answers a next state: no command of this block faults or refuses. -/
def SafeStep (s : State) : Prop := ∃ t, step s = .next t

/-- n steps in turn, each of which answers a next state. -/
def runSteps : Nat → State → Option State
  | 0, s => some s
  | n + 1, s =>
    match step s with
    | .next t => runSteps n t
    | _ => none

/-- A run of n steps is safe when each of its steps answers a next state. -/
def SafeRun (n : Nat) (s : State) : Prop := ∃ t, runSteps n s = some t

/-! ## Properties of a state -/

/-- A command that resets the part: the four resets, and an EXCTL write with RESET set (R176, R180). -/
def isReset : Instr → Bool
  | .powerOnReset | .pinReset | .softReset | .softResetWithKeep => true
  | .registerWrite 8 value => value.getLsbD 2
  | _ => false

/-- In DETACHED and IDLE no row stands, no blob is open, the map is empty and no word is queued (R71, R98, R54, R34). -/
def State.atRest (s : State) : Prop :=
  (s.sts.state = .detached ∨ s.sts.state = .idle) →
    s.rpl.rows = [] ∧ s.fas.blobs = [] ∧ s.fas.dense = none ∧ s.rbm.flaws = [] ∧ s.rbm.unseen = [] ∧
    ∀ c ∈ s.sli.chans, c.queue = []

/-- Each row begins at the T of the row before it, and the last row ends at the frontier (R94, R109). -/
def rowsJoin (frontier : Pos) : List Row → Prop
  | [] => True
  | [r] => r.t = frontier
  | r :: q :: rest => r.t = q.f ∧ rowsJoin frontier (q :: rest)

/-- The ports of an order's or a row's lanes: each one of the four, none twice (R78). -/
def portsOk (lanes : List Lane) : Prop := (lanes.map Lane.port).Nodup ∧ ∀ l ∈ lanes, l.port < 4

/-- The rows join, every row and every CUT order has a port of its own for each lane, and a computed grade holds a result
for each lane (R78, R94, R109, R145). -/
def State.rowsSound (s : State) : Prop :=
  rowsJoin s.rpl.frontier s.rpl.rows ∧
  (∀ r ∈ s.rpl.rows, portsOk r.lanes ∧ ∀ rs, r.results = some rs → rs.length = r.lanes.length) ∧
  ∀ e ∈ s.oru.table, ∀ o, e.work = .cut o → portsOk o.lanes

/-- The lists of the intake, the assembler and the map keep their sizes (R19, R29, R38, R57, R61). -/
def State.feedBounds (s : State) : Prop :=
  s.sli.chans.length = 16 ∧ (∀ c ∈ s.sli.chans, c.queue.length ≤ 512) ∧ s.sli.mask.length = 32 ∧
  s.fas.blobs.length ≤ 256 ∧ s.rbm.flaws.length ≤ 4096 ∧ s.rbm.unseen.length ≤ 256

/-- The lists of orders, rows, cuts and staging keep their sizes, EXPOLL its range (R74, R76, R94, R119, R133, R179,
R189). -/
def State.planBounds (s : State) : Prop :=
  s.oru.table.length ≤ 16 ∧ (∀ b, s.exu.phase = .order b → s.oru.table.length < 16) ∧
  s.rpl.rows.length ≤ 128 ∧ s.cgc.outstanding.length ≤ 8 ∧ s.cgc.ports.length = 4 ∧ s.cgc.gateStrobes.length = 4 ∧
  s.grd.specs.length = 8 ∧
  stagedBytes s.exu.staging ≤ 16384 ∧ 50 ≤ s.exu.expoll.toNat ∧ s.exu.expoll.toNat ≤ 10000

/-- The flaws a tally has retired are counted by class and by destination alike (R69, R154). -/
def Tally.countsAgree (t : Tally) : Prop :=
  t.rows.length = 3 ∧ t.flawsByClass.length = 16 ∧ t.flawsTo.length = 3 ∧ t.flawsByClass.sum = t.flawsTo.sum

/-- Both tallies count alike, and every class number that can reach them lies below 16 (R51). -/
def State.talliesAgree (s : State) : Prop :=
  s.stu.current.countsAgree ∧ (∀ t, s.stu.closing = some t → t.countsAgree) ∧
  (∀ w ∈ s.rbm.flaws, w.cls < 16) ∧ s.fas.classes.length = 14 ∧
  (∀ b es, s.exu.phase = .order b → b.body = .loadClasses es → es.length = 14)

/-- The flaws lost to reset that the tallies hold (R164). -/
def TallyUnit.lost (u : TallyUnit) : BitVec 64 := u.current.flawsLost + ((u.closing.map Tally.flawsLost).getD 0)

/-- The part state changes only as Table 10-7 gives, and only by the command of that row (R165). -/
def stateMove (c : Instr) (a b : PartState) : Prop :=
  b = a ∨ (isReset c = true ∧ b = .detached) ∨
  (a = .detached ∧ b = .idle ∧ ((∃ ien host, c = .attach ien host .ok) ∨ ∃ v, c = .registerWrite 8 v)) ∨
  (a = .idle ∧ b = .detached ∧ ((∃ ien, c = .detach ien) ∨ c = .deferredDetach ∨ ∃ v, c = .registerWrite 8 v)) ∨
  (a = .idle ∧ b = .running ∧ c = .start) ∨
  (a = .running ∧ (b = .draining ∨ b = .idle) ∧ c = .stop) ∨
  (a = .draining ∧ (b = .idle ∨ b = .detached) ∧ c = .endOfDrain) ∨
  ((a = .idle ∨ a = .running ∨ a = .draining) ∧ b = .fault ∧ ((∃ host, c = .poll host) ∨ c = .busError))

end Sys2Proof.Machine
end

