-- ==== Sys2Proof/Certificates/Slice0/Obligations.lean ====
section
/-! DEFINITION. The statements about the 7460, for the provers. Each docstring names the rules it rests on. -/

open Sys2Proof Sys2Proof.Machine

/-! ## The step -/

/-- A step takes the command at the front of the queue and runs it on the state with the queue's rest. -/
def Obligations.StepRunsFrontCommand : Prop :=
  ∀ (c : Instr) (rest : List Instr) (s : State),
    step { s with pending := c :: rest } = exec c { s with pending := rest }

/-- On an empty queue one microsecond passes, and nothing else happens (R11; the step on an empty queue is the model's
choice, log 1); while the reset pin is held the counter does not move (R176). -/
def Obligations.IdleStepCountsMicroseconds : Prop :=
  ∀ s : State, s.pending = [] →
    (s.pinHeld = false → step s = .next { s with pos := { s.pos with us := s.pos.us + 1#32 } }) ∧
    (s.pinHeld = true → step s = .next s)

/-- Every command answers a next state and leaves the queue as it finds it: this block refuses nothing and the model
stops nowhere (a command whose event is not due changes nothing, log 2). -/
def Obligations.EveryCommandKeepsQueue : Prop :=
  ∀ (c : Instr) (s : State), ∃ t : State, exec c s = .next t ∧ t.pending = s.pending

/-! ## Resets and the pins (R176, R177) -/

/-- While the reset pin is held the part takes no event (R176): a command that is neither a power-on reset nor the pin
itself changes nothing but what lies outside the part, and each of those only by its own commands (logs 4 and 13). -/
def Obligations.HeldPinStopsEvents : Prop :=
  ∀ (c : Instr) (s : State), s.pinHeld = true → c ≠ .powerOnReset → c ≠ .pinReset → c ≠ .resetPinRelease →
    ∃ t : State, exec c s = .next t ∧ { t with inputs := s.inputs, host := s.host } = s ∧
      ((∀ ien host err, c ≠ .attach ien host err) → (∀ host, c ≠ .poll host) → t.host = s.host) ∧
      ((∀ ch, c ≠ .lossOfSignal ch) → (∀ ch, c ≠ .returnOfSignal ch) → (∀ a, c ≠ .cinhChange a) →
        t.inputs = s.inputs)

/-- The release of the reset pin (R176), a change of CINH (R120) and a return of signal (R18) change the level they name
and nothing else (what the levels are part of is the model's choice, logs 13 and 14). -/
def Obligations.LevelsFollow : Prop :=
  (∀ s : State, exec .resetPinRelease s = .next { s with pinHeld := false }) ∧
  (∀ (a : Bool) (s : State), exec (.cinhChange a) s = .next { s with inputs := { s.inputs with cinh := a } }) ∧
  (∀ (ch : Ch) (s : State), ∃ v : BitVec 16,
    exec (.returnOfSignal ch) s = .next { s with inputs := { s.inputs with linkLost := v } } ∧
    ∀ k < 16, v.getLsbD k = (s.inputs.linkLost.getLsbD k && decide (k ≠ ch.val)))

/-- A power-on reset and a pin reset, in any state (R176, R177, Tables 1-4, 2-6, 3-6, 6-7, 7-5, 8-7, 9-4, 11-2): the
part is DETACHED with the cause shown, no setup is held, every block is at its reset values, and the registers read
theirs. What lies outside the part stays; a pin reset holds the pin (log 14). -/
def Obligations.PowerOnAndPinReset : Prop :=
  ∀ (c : Instr) (cause : ResetCause) (s : State),
    (c = .powerOnReset ∧ cause = .powerOn) ∨ (c = .pinReset ∧ cause = .pin) →
    ∃ t : State, exec c s = .next t ∧ t.sts = ⟨.detached, cause, .none, .none⟩ ∧ t.setup = none ∧
      t.pos.p = 0 ∧ t.pos.frac = 0 ∧ t.pos.debt = 0 ∧ t.pos.us = 0 ∧ t.pos.y0 = 0 ∧ t.pos.l0 = 0 ∧ t.pos.lt = 0 ∧
      t.pos.nextTrigger = 0 ∧ t.pos.lastSpeed = 0 ∧ t.pos.windowTime = 0 ∧ t.pos.windowP = 0 ∧
      t.pos.overLimit = false ∧ t.pos.excess = false ∧
      (∀ k < 16, (t.sli.chan k).state = .off ∧ (t.sli.chan k).queue = [] ∧ (t.sli.chan k).settle = 0 ∧
        (t.sli.chan k).dropping = false ∧ (t.sli.chan k).cutLine = none ∧ (t.sli.chan k).staleLine = none) ∧
      t.sli.la = 0 ∧ validMasks t.sli.mask = [] ∧
      t.fas.blobs = [] ∧ t.fas.dense = none ∧ t.fas.nextFlaw = 1 ∧ t.fas.smallDiscarded = 0 ∧ t.fas.yFin = 0 ∧
      (∀ e ∈ t.fas.classes, e.enabled = false) ∧
      t.rbm.flaws = [] ∧ t.rbm.unseen = [] ∧ t.rbm.retiredEdge = 0 ∧ t.rbm.folding = false ∧
      t.rbm.fullReported = false ∧
      t.oru.table = [] ∧ t.oru.nextTake = 1 ∧ t.oru.runway = some 0 ∧ t.oru.low = false ∧
      t.rpl.rows = [] ∧ t.rpl.frontier = 0 ∧ t.rpl.headPos = 0 ∧ t.rpl.headState = .armed ∧ t.rpl.nextRow = 1 ∧
      t.rpl.cutOutCount = 0 ∧ t.rpl.cutOutOrder = none ∧ t.rpl.inFallback = false ∧ t.rpl.fallbackRows = 0 ∧
      t.cgc.armed = [] ∧ t.cgc.outstanding = [] ∧ (∀ v ∈ t.cgc.ports, v = 0) ∧
      (∀ i < 8, t.grd.loaded i = false) ∧
      t.stu.current = Tally.opened 0 0 0 ∧ t.stu.closing = none ∧ t.stu.interrupted = false ∧
      registerRead t 0x00 = 0 ∧ registerRead t 0x04 = 0 ∧ registerRead t 0x08 = 0 ∧ registerRead t 0x10 = 0 ∧
      registerRead t 0x14 = 1000 ∧ t.exu.staging = [] ∧ t.exu.filling = none ∧ t.exu.phase = .idle ∧
      t.inputs = s.inputs ∧ t.host = s.host ∧ t.pending = s.pending ∧ t.free = s.free ∧
      t.pinHeld = (s.pinHeld || decide (c = .pinReset))

/-- A soft reset, while the pin is not held (R176, R177, R179): as a power-on reset with its own cause, but EXBL, EXBH
and EXPOLL stay. -/
def Obligations.SoftResetKeepsRegisters : Prop :=
  ∀ s : State, s.pinHeld = false →
    ∃ t u : State, exec .softReset s = .next t ∧ exec .powerOnReset s = .next u ∧
      t.sts = ⟨.detached, .soft, .none, .none⟩ ∧
      registerRead t 0x00 = registerRead s 0x00 ∧ registerRead t 0x04 = registerRead s 0x04 ∧
      registerRead t 0x14 = registerRead s 0x14 ∧ registerRead t 0x08 = 0 ∧ registerRead t 0x10 = 0 ∧
      { t with sts := u.sts, exu := u.exu } = u ∧
      { t.exu with exbl := u.exu.exbl, exbh := u.exu.exbh, expoll := u.exu.expoll } = u.exu

/-- A soft reset with KEEP, while the pin is not held (R177, Table 10-6, R15, R35, R55, R72, R115, R132, R150, R164):
what it keeps, what it empties, the cause shown. Both tallies stay as they were but for the flaws and the rows lost to
reset: each row counts for the tally that its tag names; each flaw, at its y_center, and each folded count, at its
y_start, for the tally that the tag of the row holding that position names, and for the current tally where no row holds
it; so each is counted once when every row's tag names one of the tallies. -/
def Obligations.KeepResetKeepsTables : Prop :=
  ∀ s : State, s.pinHeld = false →
    let now := s.stu.current
    let tagAt (y : Pos) : Option Word := (s.rpl.rows.find? (fun r => liesIn y r.f r.t)).map Row.shiftTag
    let flawsOf (mine : Option Word → Bool) : Nat :=
      (s.rbm.flaws.filter (fun w => mine (tagAt w.yCenter))).length +
      ((s.rbm.unseen.filter (fun i => mine (tagAt i.yStart))).map Interval.folded).sum
    let rowsOf (id : Word) : Nat := (s.rpl.rows.filter (fun r => r.shiftTag = id)).length
    ∃ t : State, exec .softResetWithKeep s = .next t ∧ t.sts = ⟨.detached, .softKeep, .none, .none⟩ ∧
      t.setup = s.setup ∧ t.pos.p = s.pos.p ∧ t.pos.frac = s.pos.frac ∧ t.pos.us = s.pos.us ∧
      t.pos.windowTime = s.pos.us ∧ t.pos.windowP = s.pos.p ∧ t.pos.debt = 0 ∧ t.pos.y0 = 0 ∧ t.pos.l0 = 0 ∧
      t.pos.lt = 0 ∧ t.pos.nextTrigger = 0 ∧ t.pos.lastSpeed = 0 ∧ t.pos.overLimit = false ∧ t.pos.excess = false ∧
      t.sli.mask = s.sli.mask ∧ t.sli.la = 0 ∧
      (∀ k < 16, (t.sli.chan k).state = .off ∧ (t.sli.chan k).queue = [] ∧ (t.sli.chan k).settle = 0 ∧
        (t.sli.chan k).dropping = false ∧ (t.sli.chan k).cutLine = none ∧ (t.sli.chan k).staleLine = none) ∧
      t.fas.classes = s.fas.classes ∧ t.fas.nextFlaw = s.fas.nextFlaw ∧ t.fas.smallDiscarded = s.fas.smallDiscarded ∧
      t.fas.blobs = [] ∧ t.fas.dense = none ∧ t.fas.yFin = 0 ∧
      t.rbm.flaws = [] ∧ t.rbm.unseen = [] ∧ t.rbm.retiredEdge = 0 ∧ t.rbm.folding = false ∧
      t.rbm.fullReported = false ∧
      t.oru.table = [] ∧ t.oru.nextTake = 1 ∧ t.oru.runway = some 0 ∧ t.oru.low = false ∧
      t.rpl.rows = [] ∧ t.rpl.nextRow = s.rpl.nextRow ∧ t.rpl.frontier = 0 ∧ t.rpl.headPos = 0 ∧
      t.rpl.headState = .armed ∧ t.rpl.cutOutCount = 0 ∧ t.rpl.cutOutOrder = none ∧ t.rpl.inFallback = false ∧
      t.rpl.fallbackRows = 0 ∧
      t.cgc.armed = [] ∧ t.cgc.outstanding = [] ∧ (∀ v ∈ t.cgc.ports, v = 0) ∧ t.grd = s.grd ∧
      t.stu.current = { now with
        flawsLost := now.flawsLost + BitVec.ofNat 64 (flawsOf (fun o => o = none ∨ o = some now.shiftId))
        rowsLost := satAdd now.rowsLost (rowsOf now.shiftId) } ∧
      (s.stu.closing = none → t.stu.closing = none) ∧
      (∀ u, s.stu.closing = some u → u.shiftId = now.shiftId → t.stu.closing = some u) ∧
      (∀ u, s.stu.closing = some u → u.shiftId ≠ now.shiftId → t.stu.closing = some { u with
        flawsLost := u.flawsLost + BitVec.ofNat 64 (flawsOf (fun o => o = some u.shiftId))
        rowsLost := satAdd u.rowsLost (rowsOf u.shiftId) }) ∧
      t.stu.interrupted = s.stu.closing.isSome ∧
      registerRead t 0x00 = registerRead s 0x00 ∧ registerRead t 0x04 = registerRead s 0x04 ∧
      registerRead t 0x14 = registerRead s 0x14 ∧ registerRead t 0x08 = 0 ∧ registerRead t 0x10 = 0 ∧
      t.exu.staging = [] ∧ t.exu.filling = none ∧ t.exu.phase = .idle ∧
      ((∀ r ∈ s.rpl.rows, r.shiftTag = s.stu.current.shiftId ∨ ∃ u, s.stu.closing = some u ∧ r.shiftTag = u.shiftId) →
        t.stu.lost = s.stu.lost + BitVec.ofNat 64 (s.rbm.flaws.length + (s.rbm.unseen.map Interval.folded).sum)) ∧
      t.inputs = s.inputs ∧ t.host = s.host ∧ t.pending = s.pending ∧ t.free = s.free ∧ t.pinHeld = s.pinHeld

/-! ## The registers (R178 to R180) -/

/-- The register writes (R179, R180, R193), each changing its own register and nothing else: EXCAUSE clears each cause
bit written as 1; EXPOLL is clamped to 50 to 10,000 (the whole value written, log 48); EXBL, without its low 12 bits,
and EXBH are taken in DETACHED only; IEN takes its value, and going from 0 to 1 while a cause bit is 1 it sends one
message, in FAULT too (log 62). -/
def Obligations.RegisterWritesTakeEffect : Prop :=
  ∀ (v : Word) (s : State), s.pinHeld = false →
    (∃ w : BitVec 4, exec (.excause v) s = .next { s with exu := { s.exu with causes := w } } ∧
      ∀ k < 4, w.getLsbD k = (s.exu.causes.getLsbD k && !v.getLsbD k)) ∧
    (∃ w : Word, exec (.expoll v) s = .next { s with exu := { s.exu with expoll := w } } ∧
      (v.toNat < 50 → w = 50) ∧ (10000 < v.toNat → w = 10000) ∧ (50 ≤ v.toNat → v.toNat ≤ 10000 → w = v)) ∧
    (s.sts.state = .detached →
      (∃ w : Word, exec (.exbl v) s = .next { s with exu := { s.exu with exbl := w } } ∧
        ∀ k < 32, w.getLsbD k = (v.getLsbD k && decide (12 ≤ k))) ∧
      exec (.exbh v) s = .next { s with exu := { s.exu with exbh := v } }) ∧
    (s.sts.state ≠ .detached → exec (.exbl v) s = .next s ∧ exec (.exbh v) s = .next s) ∧
    (∀ b : Bool, exec (.ien b) s = .next { s with exu := { s.exu with
      ien := b
      messages := s.exu.messages + (if b = true ∧ s.exu.ien = false ∧ s.exu.causes ≠ 0 then 1 else 0) } })

/-- A write in the memory window (R178 to R180): EXSTS and every offset without a register ignore it; EXCTL does what
its bits say, RESET first; every other register takes the value as its own command does (log 43). -/
def Obligations.RegisterWindow : Prop :=
  ∀ (v : Word) (s : State),
    (∀ off : Nat, off ≠ 0x00 → off ≠ 0x04 → off ≠ 0x08 → off ≠ 0x10 → off ≠ 0x14 →
      exec (.registerWrite off v) s = .next s) ∧
    exec (.registerWrite 0x00 v) s = exec (.exbl v) s ∧ exec (.registerWrite 0x04 v) s = exec (.exbh v) s ∧
    exec (.registerWrite 0x10 v) s = exec (.excause v) s ∧ exec (.registerWrite 0x14 v) s = exec (.expoll v) s ∧
    exec (.registerWrite 0x08 v) s =
      (if v.getLsbD 2 = true then (if v.getLsbD 3 = true then exec .softResetWithKeep s else exec .softReset s)
       else if v.getLsbD 0 = true then exec (.attach (v.getLsbD 1) [] .ok) s
       else exec (.detach (v.getLsbD 1)) s)

/-! ## Attach and detach (R182, R183) -/

/-- An attach in DETACHED whose header passes every check and whose accesses all complete (R182, R164, R181): the part
enters IDLE with what EXU keeps of the header; the part id and then the mirror words are written, and nothing else; a
closing tally that a reset interrupted is staged as a SHIFT record INTERRUPTED and removed, and any other STU state
stays (the host's writes and the end of the accesses are operands, logs 4 and 9; the reserved words, log 33). -/
def Obligations.AttachEntersIdle : Prop :=
  ∀ (ien : Bool) (host : List HostWrite) (s : State), s.pinHeld = false → s.sts.state = .detached →
    let m := s.host.hostWrites host
    let base : Addr := s.exu.exbh ++ s.exu.exbl
    let mirror : List Byte := leBytes 4 1 ++ leBytes 4 s.pos.p.toNat ++ leBytes 4 s.pos.lastSpeed.toNat ++
      leBytes 4 s.sli.la.toNat ++ leBytes 4 s.fas.yFin.toNat ++ leBytes 4 s.rpl.rows.length ++
      leBytes 4 s.rbm.flaws.length ++ leBytes 4 s.rbm.unseen.length ++ leBytes 4 s.fas.smallDiscarded.toNat ++
      leBytes 8 0 ++ leBytes 4 s.pos.us.toNat ++ leBytes 12 0
    let kept : Exchange := { s.exu with
      base := base
      marker := 0x7460C0A5#32
      stockAddr := m.readAddr (base + 0x10#64) &&& ~~~7#64
      pageCount := (m.readWord (base + 0x18#64)).toNat
      pageSize := (m.readWord (base + 0x1C#64)).toNat
      cursor := none
      pageSeq := 0
      dropDroppable := 0
      dropEssential := 0
      lossReported := false
      lossPending := false
      detachPending := false
      detachDeferred := false
      pollTimer := s.pos.us
      ien := ien
      messages := s.exu.messages + (if ien = true ∧ s.exu.ien = false ∧ s.exu.causes ≠ 0 then 1 else 0) }
    m.readWord base = 0x7460C0A5#32 → m.readWord (base + 4#64) = 1#32 →
    1 ≤ (m.readWord (base + 0x18#64)).toNat → (m.readWord (base + 0x18#64)).toNat ≤ 32 →
    ((m.readWord (base + 0x1C#64)).toNat = 4096 ∨ (m.readWord (base + 0x1C#64)).toNat = 16384) →
    ∃ t : State, exec (.attach ien host .ok) s = .next t ∧
      t.sts = { s.sts with state := .idle, attachError := .none } ∧
      t.host = (m.writeBytes (base + 0x20#64) (leBytes 4 0x7460)).writeBytes (base + 0x24#64) mirror ∧
      (s.stu.interrupted = false ∨ s.stu.closing = none → t.stu = s.stu ∧ t.exu = kept) ∧
      (∀ u, s.stu.interrupted = true → s.stu.closing = some u →
        t.stu = { s.stu with closing := none, interrupted := false } ∧
        t.exu = (State.report [.shift u true] { s with exu := kept }).exu) ∧
      t.setup = s.setup ∧ t.pos = s.pos ∧ t.sli = s.sli ∧ t.fas = s.fas ∧ t.rbm = s.rbm ∧ t.oru = s.oru ∧
      t.rpl = s.rpl ∧ t.cgc = s.cgc ∧ t.grd = s.grd ∧ t.inputs = s.inputs ∧ t.pinHeld = false ∧ t.free = s.free ∧
      (m.wf → ∀ a : Addr, (∀ i, 0x20 ≤ i → i < 0x60 → a ≠ base + BitVec.ofNat 64 i) → t.host.read a = m.read a)

/-- An attach in DETACHED that fails shows the first error of R182 and leaves the part DETACHED; a header that fails its
check leaves host memory as the host wrote it (logs 4 and 9). -/
def Obligations.AttachErrorsInOrder : Prop :=
  ∀ (ien : Bool) (host : List HostWrite) (err : AccessError) (s : State), s.pinHeld = false →
    s.sts.state = .detached →
    let m := s.host.hostWrites host
    let base : Addr := s.exu.exbh ++ s.exu.exbl
    let badPages := (m.readWord (base + 0x18#64)).toNat < 1 ∨ 32 < (m.readWord (base + 0x18#64)).toNat ∨
      ((m.readWord (base + 0x1C#64)).toNat ≠ 4096 ∧ (m.readWord (base + 0x1C#64)).toNat ≠ 16384)
    ∃ t : State, exec (.attach ien host err) s = .next t ∧
      (err = .read → t.sts = { s.sts with attachError := .bus }) ∧
      (err ≠ .read → m.readWord base ≠ 0x7460C0A5#32 → t.sts = { s.sts with attachError := .badMarker }) ∧
      (err ≠ .read → m.readWord base = 0x7460C0A5#32 → m.readWord (base + 4#64) ≠ 1#32 →
        t.sts = { s.sts with attachError := .badVersion }) ∧
      (err ≠ .read → m.readWord base = 0x7460C0A5#32 → m.readWord (base + 4#64) = 1#32 → badPages →
        t.sts = { s.sts with attachError := .badPages }) ∧
      (err = .write → m.readWord base = 0x7460C0A5#32 → m.readWord (base + 4#64) = 1#32 → ¬badPages →
        t.sts = { s.sts with attachError := .bus }) ∧
      (t.sts.state = .detached → t.host = m ∧ t.stu = s.stu ∧ t.exu.staging = s.exu.staging ∧ t.setup = s.setup ∧
        t.pos = s.pos ∧ t.oru = s.oru ∧ t.rpl = s.rpl)

/-- ATTACH written outside an attach (R180, R183). Written 0, IEN left at its value: in IDLE with no page filling it
detaches, or waits for a poll in progress; in RUNNING and DRAINING it sets detach pending; in DETACHED and FAULT it
changes nothing. Written 1 outside DETACHED: IEN is taken, detach pending is cleared, nothing else changes (logs 6, 10
and 42). -/
def Obligations.DetachByPartState : Prop :=
  ∀ s : State, s.pinHeld = false →
    (s.sts.state = .idle → s.exu.phase = .idle → s.exu.filling = none →
      exec (.detach s.exu.ien) s = .next { s with
        sts := { s.sts with state := .detached }
        exu := { s.exu with detachPending := false, detachDeferred := false } }) ∧
    (s.sts.state = .idle → s.exu.phase ≠ .idle →
      exec (.detach s.exu.ien) s = .next { s with exu := { s.exu with detachDeferred := true } }) ∧
    (s.sts.state = .running ∨ s.sts.state = .draining →
      exec (.detach s.exu.ien) s = .next { s with exu := { s.exu with detachPending := true } }) ∧
    (s.sts.state = .detached ∨ s.sts.state = .fault → exec (.detach s.exu.ien) s = .next s) ∧
    (∀ (ien : Bool) (err : AccessError), s.sts.state ≠ .detached →
      ∃ t : State, exec (.attach ien [] err) s = .next t ∧ t.exu.detachPending = false ∧ t.exu.ien = ien ∧
        { t with exu := s.exu } = s ∧
        { t.exu with ien := s.exu.ien, messages := s.exu.messages, detachPending := s.exu.detachPending } = s.exu)

/-- A detach that waited for a poll is taken once the poll has ended (R183): in IDLE the part detaches, the filling page
closed first; when an order of the poll has made the part RUNNING, detach pending is set instead (logs 6 and 12). -/
def Obligations.DeferredDetachTaken : Prop :=
  ∀ s : State, s.pinHeld = false → s.exu.phase = .idle → s.exu.detachDeferred = true →
    (s.sts.state = .idle → ∃ t : State, exec .deferredDetach s = .next t ∧ t.sts = { s.sts with state := .detached } ∧
      t.exu.detachPending = false ∧ t.exu.detachDeferred = false ∧ t.exu.filling = none ∧
      t.exu.cursor = s.exu.cursor ∧ t.exu.staging = s.exu.staging ∧
      t.exu.pageSeq = (if s.exu.filling.isSome then s.exu.pageSeq + 1#32 else s.exu.pageSeq) ∧
      (s.exu.filling = none → t.host = s.host) ∧ t.setup = s.setup ∧ t.pos = s.pos ∧ t.sli = s.sli ∧
      t.oru = s.oru ∧ t.stu = s.stu) ∧
    (s.sts.state = .running ∨ s.sts.state = .draining →
      exec .deferredDetach s = .next { s with exu := { s.exu with detachPending := true, detachDeferred := false } })

/-! ## The Position Unit (Chapter 1) -/

/-- A forward count (R1, R2): discarded without a setup; it repays one count of debt; with no debt it adds scale to the
48-bit sum of P and its fraction, and moves the integer part by at most a pitch under a scale that R4 admits. -/
def Obligations.ForwardCountAdvances : Prop :=
  (∀ s : State, s.setup = none → exec .forwardCount s = .next s) ∧
  (∀ (s : State) (c : Setup), s.pinHeld = false → s.setup = some c → 0 < s.pos.debt.toNat →
    exec .forwardCount s = .next { s with pos := { s.pos with debt := s.pos.debt - 1 } }) ∧
  (∀ (s : State) (c : Setup), s.pinHeld = false → s.setup = some c → s.pos.debt = 0 →
    ∃ (p : Pos) (f : BitVec 16),
      exec .forwardCount s = .next { s with pos := { s.pos with p := p, frac := f } } ∧
      p.toNat * 65536 + f.toNat = (s.pos.p.toNat * 65536 + s.pos.frac.toNat + c.scale.toNat) % 2 ^ 48 ∧
      (c.scale.toNat ≤ c.pitch * 65536 → (p - s.pos.p).toNat ≤ c.pitch))

/-- A reverse count (R1, R3): discarded without a setup; it raises debt below 65,535; at the cap it changes nothing but
for the one notice since START, in IDLE, RUNNING and DRAINING. -/
def Obligations.ReverseCountRaisesDebt : Prop :=
  (∀ s : State, s.setup = none → exec .reverseCount s = .next s) ∧
  (∀ (s : State) (c : Setup), s.pinHeld = false → s.setup = some c →
    (s.pos.debt.toNat < 65535 →
      exec .reverseCount s = .next { s with pos := { s.pos with debt := s.pos.debt + 1 } }) ∧
    (s.pos.debt.toNat = 65535 → s.sts.state.live = true → s.pos.excess = false →
      exec .reverseCount s = .next (State.report [.notice (.reverseExcess s.pos.p)]
        { s with pos := { s.pos with excess := true } })) ∧
    (s.pos.debt.toNat = 65535 → s.sts.state.live = false ∨ s.pos.excess = true →
      exec .reverseCount s = .next s))

/-- A line trigger that is due (R7 to R9): it carries L_t, L_t and the next trigger position advance, and the line
origin may move, which changes y(L) for no line from the new L0 on. -/
def Obligations.LineTriggerIssuesNextLine : Prop :=
  ∀ (s : State) (c : Setup), s.pinHeld = false → s.setup = some c →
    (s.sts.state = .running ∨ (s.sts.state = .draining ∧ 2 ^ 31 ≤ (s.fas.yFin - s.rpl.drainEnd).toNat)) →
    (s.pos.p - s.pos.nextTrigger).toNat < 2 ^ 31 →
    ∃ t : State, exec .lineTrigger s = .next t ∧ { t with pos := s.pos } = s ∧
      t.pos.ltrigLine = some s.pos.lt ∧ t.pos.ltrigCount = s.pos.ltrigCount + 1 ∧ t.pos.lt = s.pos.lt + 1#24 ∧
      t.pos.nextTrigger = s.pos.nextTrigger + BitVec.ofNat 32 c.pitch ∧
      { t.pos with y0 := s.pos.y0, l0 := s.pos.l0, lt := s.pos.lt, nextTrigger := s.pos.nextTrigger,
                   ltrigLine := s.pos.ltrigLine, ltrigCount := s.pos.ltrigCount } = s.pos ∧
      ∀ l : Line, (l - t.pos.l0).toNat < 2 ^ 24 - 2 ^ 22 → yOf t.pos c.pitch l = yOf s.pos c.pitch l

/-- The end of a speed window while a setup is held (R12 to R14): last speed, the new window, the limit crossed or not
with one notice for a rising crossing, and the maximum speed of the current tally. -/
def Obligations.SpeedWindowMeasures : Prop :=
  ∀ (s : State) (c : Setup), s.pinHeld = false → s.setup = some c → 10000 ≤ (s.pos.us - s.pos.windowTime).toNat →
    let v : Word := s.pos.p - s.pos.windowP
    let rising := c.maxSpeed < v.toNat ∧ s.pos.overLimit = false ∧ s.sts.state.live = true
    exec .speedWindowEnd s = .next (State.report
      (if rising then [.notice (.overspeed v c.maxSpeed s.pos.p)] else [])
      { s with
        pos := { s.pos with
          lastSpeed := v
          windowTime := s.pos.windowTime + 10000#32
          windowP := s.pos.p
          overLimit := decide (c.maxSpeed < v.toNat) }
        stu := { s.stu with current := { s.stu.current with
          maxSpeed := if s.sts.state.run = true ∧ s.stu.current.maxSpeed.toNat < v.toNat then v
                      else s.stu.current.maxSpeed } } })

/-! ## The Scan Link Intake (Chapter 2) -/

/-- A word on link k (R18 to R21). A HEAD_STATUS word is the head status command with its code. Any other word is
discarded by a channel or a part that takes no words; queued while there is room; with a head of the queue that is not
stale, at a full queue dropped with one notice of the line cut, and dropped in silence while dropping is set, but for
a LINE_START, which becomes the line cut and is reported unless it was that line already (logs 47 and 60). The stale
words that stand at the head once a word is queued are discarded, up to the first LINE_START of L_a or after it, with
one notice, of the first of them, when the stale notice line is none or 1024 or more lines before L_a (within the
event of the word that is queued, log 23; mod 2^24, log 59; the cut line stays, log 52). A line cut again once
dropping was cleared is reported again (log 60). -/
def Obligations.ScanWordQueued : Prop :=
  (∀ (ch : Ch) (w : BitVec 64) (code : Byte) (s : State), decodeScanWord w = .headStatus code →
    exec (.scanWord ch w) s = exec (.headStatus ch code) s) ∧
  (∀ (ch : Ch) (w : BitVec 64) (s : State), s.pinHeld = false →
    (∀ code, decodeScanWord w ≠ .headStatus code) →
    let c := s.sli.chan ch
    let sw := decodeScanWord w
    let isStart := ∃ l, sw = .lineStart l
    ((s.sts.state.run = false ∨ c.state.takesWords = false) → exec (.scanWord ch w) s = .next s) ∧
    (s.sts.state.run = true → c.state.takesWords = true → c.queue.length < 512 → (c.dropping = false ∨ isStart) →
      (∀ h ∈ (c.queue ++ [sw]).head?, staleLineOf s.sli.la h = none) →
      exec (.scanWord ch w) s = .next { s with
        sli := s.sli.setChan ch { c with queue := c.queue ++ [sw], dropping := false } }) ∧
    (s.sts.state.run = true → c.state.takesWords = true → 512 ≤ c.queue.length → c.dropping = false →
      (∀ h ∈ c.queue.head?, staleLineOf s.sli.la h = none) →
      ∃ line : Option Line, (∀ l, sw = .lineStart l → line = some l) ∧
        (¬isStart → line = lastLineStart c.queue) ∧
        exec (.scanWord ch w) s = .next (State.report [.notice (.intakeOverflow ch line s.sli.la)]
          { s with sli := s.sli.setChan ch { c with dropping := true, cutLine := line } })) ∧
    (s.sts.state.run = true → c.state.takesWords = true → c.dropping = true → ¬isStart →
      (∀ h ∈ c.queue.head?, staleLineOf s.sli.la h = none) →
      exec (.scanWord ch w) s = .next s) ∧
    (∀ l, sw = .lineStart l → s.sts.state.run = true → c.state.takesWords = true → 512 ≤ c.queue.length →
      c.dropping = true → (∀ h ∈ c.queue.head?, staleLineOf s.sli.la h = none) →
      exec (.scanWord ch w) s = .next (State.report
        (if c.cutLine = some l then [] else [.notice (.intakeOverflow ch (some l) s.sli.la)])
        { s with sli := s.sli.setChan ch { c with cutLine := some l } })) ∧
    (let stale (h : ScanWord) : Prop :=
       ∀ l, h = .lineStart l → 1 ≤ (s.sli.la - l).toNat ∧ (s.sli.la - l).toNat ≤ 2 ^ 23 - 1
     let due : Prop := ∀ l, c.staleLine = some l → 1024 ≤ (s.sli.la - l).toNat
     let lineOf (h : ScanWord) : Option Line := match h with
       | .lineStart l => some l
       | .lineEnd l _ => some l
       | _ => none
     ∀ (first : ScanWord) (gone left : List ScanWord),
      s.sts.state.run = true → c.state.takesWords = true → c.queue.length < 512 → (c.dropping = false ∨ isStart) →
      c.queue ++ [sw] = first :: gone ++ left → stale first → (∀ h ∈ gone, stale h) → (∀ h ∈ left.head?, ¬stale h) →
      (due → exec (.scanWord ch w) s = .next (State.report [.notice (.staleWords ch (lineOf first) s.sli.la)]
        { s with sli := s.sli.setChan ch { c with queue := left, dropping := false, staleLine := some s.sli.la } })) ∧
      (¬due → exec (.scanWord ch w) s = .next { s with
        sli := s.sli.setChan ch { c with queue := left, dropping := false } })))

/-- A head fault or a loss of signal at a channel that takes words, in IDLE, RUNNING and DRAINING (R18, R33): the
channel becomes FAULTED with its cause, its queue is emptied, dropping cleared, the cut line none, and one CHANNEL
record is staged. Otherwise, and for code 0, no channel changes. The level that the link reports follows the loss in
every part state (the model's choice, log 13). -/
def Obligations.LinkFaultsChannel : Prop :=
  ∀ (ch : Ch) (code : Byte) (s : State), s.pinHeld = false →
    let c := s.sli.chan ch
    let takes := s.sts.state.live = true ∧ c.state.takesWords = true
    let down (why : ChanFault) : Intake := s.sli.setChan ch
      { c with state := .faulted, why := some why, queue := [], dropping := false, cutLine := none }
    let lost : Inputs := { s.inputs with linkLost := s.inputs.linkLost ||| (1#16 <<< ch.val) }
    (code ≠ 0 → takes → exec (.headStatus ch code) s = .next (State.report
      [.channel ⟨ch, c.state, .faulted, .head code, s.sli.la⟩] { s with sli := down (.head code) })) ∧
    (takes → exec (.lossOfSignal ch) s = .next (State.report
      [.channel ⟨ch, c.state, .faulted, .linkLost, s.sli.la⟩] { s with sli := down .linkLost, inputs := lost })) ∧
    (code = 0 ∨ ¬takes → exec (.headStatus ch code) s = .next s) ∧
    (¬takes → exec (.lossOfSignal ch) s = .next { s with inputs := lost })

/-- The assembly of a line that is due (R21 to R26, R32, R50): L_a advances by 1; each channel moves as its state and
the condition of its line say, after the disables whose effect line this is; the contributing channels' runs go to
FAS, then the end of the line, then the unseen spans to RBM, and their records are staged between those of the
channels; y_fin becomes y of the earliest line among L_a and the open blobs; the CHANNEL orders whose time has come
leave the table DONE (the deadline counts only while triggers run, log 39; the order of the records, logs 23, 30 and
51, and of the spans, log 18; what the CHANNEL records hold is not said here). A run is placed (R37) and disposed of
by the number of blobs it is near (R38 to R42): a new blob at the lowest free index, or the dense record when the
table is full; joined to the one blob; or the near blobs are merged into the one with the earliest first line and
joined (logs 20 and 54). At the end of the line (R43 to R45) fronts move on, blobs close by gap or are split with a
continuation, and what closed is finalized by first line, then id, the dense record last. -/
def Obligations.LineAssemblyAdvances : Prop :=
  (∀ (s : State) (c : Setup), s.pinHeld = false → s.setup = some c → s.sts.state.run = true →
    1 ≤ (s.pos.lt - s.sli.la).toNat → s.sli.chans.length = 16 →
    (waitSetSettled s.sli.la s.sli.chans c.geom = true ∨
      (s.triggersRun = true ∧ c.deadline ≤ (s.pos.lt - s.sli.la).toNat)) →
    ∃ t : State, exec .lineAssembly s = .next t ∧ t.sli.la = s.sli.la + 1#24 ∧ t.sli.mask = s.sli.mask ∧
      (∀ k < 16,
        let old := s.sli.chan k
        let disabled := (effectSets s.sli.la s.oru.table).any (fun d => d.getLsbD k) = true
        (disabled → (t.sli.chan k).state = .off) ∧
        (¬disabled → old.state = .off → (t.sli.chan k).state = .off) ∧
        (¬disabled → old.state = .faulted → (t.sli.chan k).state = .faulted) ∧
        (¬disabled → old.state = .active ∨ old.state = .lapsed →
          (t.sli.chan k).state = if old.cond (geomAt c.geom k).n s.sli.la = .complete then .active else .lapsed) ∧
        (¬disabled → old.state = .settling → (t.sli.chan k).settle = old.settle + 1 ∧
          (t.sli.chan k).state = if c.settleLines ≤ old.settle + 1 then .active else .settling)) ∧
      (∃ m : Line, t.fas.yFin = yOf s.pos c.pitch m ∧
        (m = t.sli.la ∨ ∃ b ∈ t.fas.blobs ++ t.fas.dense.toList, b.first = m) ∧
        ((∀ b ∈ t.fas.blobs ++ t.fas.dense.toList, (t.sli.la - b.first).toNat < 2 ^ 23) →
          ∀ b ∈ t.fas.blobs ++ t.fas.dense.toList, (t.sli.la - b.first).toNat ≤ (t.sli.la - m).toNat)) ∧
      (∃ (js : List Judgment) (runs : Assembler × List Report) (bench : Bench) (map : RibbonMap × List Report)
        (before after : List Report), js.length = 16 ∧
        (∀ (k : Nat) (j : Judgment), js[k]? = some j →
          let old := s.sli.chan k
          let disabled := (effectSets s.sli.la s.oru.table).any (fun d => d.getLsbD k) = true
          let whole := ¬disabled ∧ (old.state = .active ∨ old.state = .lapsed) ∧
            old.cond (geomAt c.geom k).n s.sli.la = .complete
          (j.contributes = true ↔ whole) ∧ (whole → j.runs = old.queue.tail.takeWhile ScanWord.isRun) ∧
          (disabled ∨ old.state = .off → j.chan.state = .off) ∧
          (¬disabled → old.state = .settling ∨ old.state = .faulted → j.chan.state = old.state) ∧
          (¬disabled → old.state = .active ∨ old.state = .lapsed → ¬whole → j.chan.state = .lapsed)) ∧
        runs = s.fas.takeRuns c s.sli.la (yOf s.pos c.pitch s.sli.la) (handedRunsFrom s.sli.mask 0 js c.geom) ∧
        bench = Bench.endLine c s.pos s.sli.la ⟨runs.1, s.rbm, s.stu, []⟩ ∧
        map = bench.rbm.takeSpans (yOf s.pos c.pitch s.sli.la) c.pitch (unseenSpans s.sli.mask c.geom js) ∧
        t.fas = { bench.fas with yFin := t.fas.yFin } ∧ t.rbm = map.1 ∧ t.stu = bench.stu ∧
        t.exu.staging = (s.report (before ++ runs.2 ++ bench.out ++ map.2 ++ after)).exu.staging ∧
        (∀ r ∈ before ++ after, (∃ x, r = .channel x) ∨
          ∃ k l m, r = .notice (.staleWords k l m) ∧ (m = s.sli.la ∨ m = t.sli.la))) ∧
      t.oru = { s.oru with table := s.oru.table.filter (fun e => !e.disableDone c.closeGap s.sli.la) } ∧
      t.host = (s.oru.table.filter (fun e => e.disableDone c.closeGap s.sli.la)).foldl
        (fun m e => m.writeStatus ⟨e.addr, e.notify, 2, 0, []⟩) s.host ∧
      t.sts = s.sts ∧ t.setup = s.setup ∧ t.pos = s.pos ∧ t.rpl = s.rpl ∧ t.cgc = s.cgc ∧ t.grd = s.grd ∧
      t.inputs = s.inputs ∧ t.free = s.free ∧ t.exu.phase = s.exu.phase ∧ t.exu.filling = s.exu.filling ∧
      t.exu.cursor = s.exu.cursor ∧ t.stu.closing = s.stu.closing ∧ t.rbm.retiredEdge = s.rbm.retiredEdge) ∧
  (∀ (c : Setup) (la : Line) (y : Pos) (f : Assembler) (h : HandedRun) (hs : List HandedRun),
    f.takeRuns c la y [] = (f, []) ∧
    f.takeRuns c la y (h :: hs) =
      (((f.takeRun c la y (placeRun c.geom h)).1.takeRuns c la y hs).1,
       (f.takeRun c la y (placeRun c.geom h)).2 ++ ((f.takeRun c la y (placeRun c.geom h)).1.takeRuns c la y hs).2) ∧
    (let g := geomAt c.geom h.channel
     placeRun c.geom h = ⟨h.channel,
       (g.x0 + h.cols.1 * g.cp / 256, g.x0 + (h.cols.2 - 1) * g.cp / 256 + g.cp / 256), h.cols.2 - h.cols.1, h.mode,
       h.peak⟩)) ∧
  (∀ (c : Setup) (la : Line) (y : Pos) (f : Assembler) (r : PlacedRun),
    let meets (front : List Ivl) : Prop := ∃ i ∈ front, r.x.1 - c.joinTol < i.2 ∧ i.1 < r.x.2 + c.joinTol
    let near (b : Blob) : Prop := ((la - b.last).toNat ≤ c.closeGap + 1 ∧ meets b.lastFront) ∨ meets b.curFront
    let took (b : Blob) : Blob := { b with
      xr := some (match b.xr with | none => r.x | some v => (min v.1 r.x.1, max v.2 r.x.2))
      area := min (b.area + r.pixels) (2 ^ 24 - 1)
      peak := max b.peak r.peak
      modes := b.modes ||| (1#3 <<< r.mode.toNat)
      chset := b.chset ||| (1#16 <<< r.channel)
      runs := min (b.runs + 1) 65535 }
    let joined (b : Blob) : Blob := { took b with curFront := addFront r.x b.curFront }
    let begun (id : Nat) (front : List Ivl) : Blob :=
      ⟨id, la, la, some r.x, [], front, min r.pixels (2 ^ 24 - 1), r.peak, 1#3 <<< r.mode.toNat, 1#16 <<< r.channel, 1,
       none, false⟩
    (∀ lower upper : List Blob, f.blobs = lower ++ upper → (∀ b ∈ f.blobs, ¬near b) → f.blobs.length < 256 →
      lower.map Blob.id = List.range lower.length → (∀ b ∈ upper, lower.length < b.id) →
      f.takeRun c la y r = ({ f with blobs := lower ++ begun lower.length [r.x] :: upper }, [])) ∧
    ((∀ b ∈ f.blobs, ¬near b) → 256 ≤ f.blobs.length →
      (f.dense = none → f.takeRun c la y r =
        ({ f with dense := some (begun 256 []) }, [.notice (.blobTableFull la y f.blobs.length)])) ∧
      (∀ d, f.dense = some d → f.takeRun c la y r = ({ f with dense := some { took d with last := la } }, []))) ∧
    (∀ (lower : List Blob) (b : Blob) (upper : List Blob), f.blobs = lower ++ b :: upper → near b →
      (∀ x ∈ lower ++ upper, ¬near x ∧ x.id ≠ b.id) →
      f.takeRun c la y r = ({ f with blobs := lower ++ joined b :: upper }, [])) ∧
    (∀ near' : Blob → Bool, (∀ b, near' b = true ↔ near b) → 2 ≤ (f.blobs.filter near').length →
      f.blobs.Pairwise (fun a b => a.id < b.id) → (∀ b ∈ f.blobs, (la - b.first).toNat < 2 ^ 23) →
      ∃ (sv : Blob) (link : Option Word) (lower upper : List Blob),
        let others := (f.blobs.filter near').filter (fun b => b.id ≠ sv.id)
        let merged : Blob := { others.foldl Blob.absorb sv with contFrom := link }
        sv ∈ f.blobs.filter near' ∧
        (∀ b ∈ others, (la - b.first).toNat < (la - sv.first).toNat ∨ (b.first = sv.first ∧ sv.id < b.id)) ∧
        (sv.contFrom.isSome = true → link = sv.contFrom) ∧
        (sv.contFrom = none → (∀ b ∈ others, b.contFrom = none) → link = none) ∧
        (sv.contFrom = none → (∃ b ∈ others, b.contFrom.isSome = true) →
          ∃ b ∈ others, b.contFrom.isSome = true ∧ link = b.contFrom ∧ ∀ q ∈ others, q.contFrom.isSome = true →
            q = b ∨ (la - q.first).toNat < (la - b.first).toNat ∨ (q.first = b.first ∧ b.id < q.id)) ∧
        f.blobs.filter (fun b => !near' b) = lower ++ upper ∧ (∀ b ∈ lower, b.id < sv.id) ∧
        (∀ b ∈ upper, sv.id < b.id) ∧
        f.takeRun c la y r = ({ f with blobs := lower ++ joined merged :: upper }, []))) ∧
  (∀ s b : Blob, s.absorb b = { s with
    first := if lineAfter s.first b.first then b.first else s.first
    last := if lineAfter b.last s.last then b.last else s.last
    xr := (match s.xr, b.xr with
      | none, x => x
      | x, none => x
      | some v, some w => some (min v.1 w.1, max v.2 w.2))
    lastFront := b.lastFront.foldl (fun f i => addFront i f) s.lastFront
    curFront := b.curFront.foldl (fun f i => addFront i f) s.curFront
    area := min (s.area + b.area) (2 ^ 24 - 1)
    peak := max s.peak b.peak
    modes := s.modes ||| b.modes
    chset := s.chset ||| b.chset
    runs := min (s.runs + b.runs) 65535 }) ∧
  (∀ (v : Ivl) (front : List Ivl), v.1 < v.2 → (∀ i ∈ front, i.1 < i.2) → front.Pairwise (fun i j => i.2 < j.1) →
    front.length ≤ 8 →
    let touches := ∃ i ∈ front, v.1 ≤ i.2 ∧ i.1 ≤ v.2
    let gap (i : Ivl) : Nat := if v.2 ≤ i.1 then i.1 - v.2 else v.1 - i.2
    let holds (l : List Ivl) (x : Nat) : Prop := ∃ i ∈ l, i.1 ≤ x ∧ x < i.2
    (addFront v front).length ≤ 8 ∧ (addFront v front).Pairwise (fun i j => i.2 < j.1) ∧
    (∀ i ∈ addFront v front, i.1 < i.2) ∧
    (touches ∨ front.length < 8 → ∀ x, holds (addFront v front) x ↔ holds front x ∨ (v.1 ≤ x ∧ x < v.2)) ∧
    (¬touches → front.length = 8 → ∃ n ∈ front, (∀ i ∈ front, gap n < gap i ∨ (gap n = gap i ∧ n.1 ≤ i.1)) ∧
      ∀ x, holds (addFront v front) x ↔ holds front x ∨ (min v.1 n.1 ≤ x ∧ x < max v.2 n.2))) ∧
  (∀ (c : Setup) (pos : Position) (la : Line) (b : Bench),
    let step (x : Blob) : Blob :=
      if x.curFront = [] then x else { x with lastFront := x.curFront, curFront := [], last := la }
    let gap (x : Blob) : Bool := c.closeGap + 1 ≤ (la - x.last).toNat
    let split (x : Blob) : Bool := !gap x && c.maxBlobLines ≤ ((la - x.first).toNat + 1) % 2 ^ 24
    let continuation (x : Blob) : Blob := { x with
      first := la + 1#24, last := la, xr := none, curFront := [], area := 0, peak := 0, modes := 0, chset := 0, runs := 0
      contFrom := none, segment := false }
    let closes (dense : Bool) (e : Blob) (x : Closed) : Prop :=
      (gap e = true ∧ e.runs ≠ 0 ∧ x = ⟨dense, e⟩) ∨ (split e = true ∧ x = ⟨dense, { e with segment := true }⟩)
    let age (x : Closed) : Nat := (la - x.blob.first).toNat
    ∃ closed : List Closed,
      Bench.endLine c pos la b = closed.foldl (Bench.finalize c pos) { b with fas := { b.fas with
        blobs := (b.fas.blobs.map step).filterMap
          (fun e => if gap e then none else if split e then some (continuation e) else some e)
        dense := b.fas.dense.filter (fun d => !gap d && !split d) } } ∧
      (∀ x, x ∈ closed ↔ (∃ e ∈ b.fas.blobs.map step, closes false e x) ∨ ∃ d ∈ b.fas.dense, closes true d x) ∧
      closed.Pairwise (fun x y => age y < age x ∨
        (age y = age x ∧ (y.dense = true ∨ (x.dense = false ∧ x.blob.id ≤ y.blob.id)))))

/-- Every x of the installed width is covered, on every line, by a channel that contributes or by an unseen span that
is handed (R16, R27): for channels laid out as R16 asks, whatever the channels hold and whatever is masked. A span
that is handed is dropped when its glass has retired, lengthens the last interval it continues, or is entered (R62);
an interval is entered in the order of y_start while the list holds fewer than 256, and else merged into the last one,
which moves when its y_start moved (R61, R63; the order of the two notices, log 44). -/
def Obligations.InstalledWidthIsCovered : Prop :=
  (∀ (ms : List (Option MaskEntry)) (gs : List Geometry) (js : List Judgment) (x : Nat),
    orderOk ((installedChans gs).map Prod.snd) = true → (∀ p ∈ installedChans gs, p.2.x0 < p.2.x1) →
    (installedSpan gs).1 ≤ x → x < (installedSpan gs).2 →
    (∃ d ∈ sidesOf gs js, d.contributes = true ∧ d.g.x0 ≤ x ∧ x < d.g.x1) ∨
    (∃ sp ∈ unseenSpans ms gs js, sp.x.1 ≤ x ∧ x < sp.x.2)) ∧
  (∀ (m : RibbonMap) (y : Pos) (pitch : Nat) (sp : Span),
    let stop : Pos := y + BitVec.ofNat 32 pitch
    let goesOn (i : Interval) : Prop := i.channel = some sp.channel ∧ i.cause = sp.cause ∧ i.xa = sp.x.1 ∧
      i.xb = sp.x.2 ∧ i.yEnd = y
    ((m.retiredEdge - stop).toNat < 2 ^ 31 → m.takeSpan y pitch sp = (m, [])) ∧
    (2 ^ 31 ≤ (m.retiredEdge - stop).toNat →
      (∀ (front : List Interval) (i : Interval) (back : List Interval), m.unseen = front ++ i :: back →
        goesOn i → (∀ j ∈ back, ¬goesOn j) →
        m.takeSpan y pitch sp = ({ m with unseen := front ++ { i with yEnd := stop } :: back }, [])) ∧
      ((∀ i ∈ m.unseen, ¬goesOn i) → m.takeSpan y pitch sp =
        m.enter ⟨some sp.channel, sp.x.1, sp.x.2, y, stop, sp.cause, 0, false⟩))) ∧
  (∀ (m : RibbonMap) (i : Interval),
    let placed (j : Interval) (l out : List Interval) : Prop := ∃ front back : List Interval, l = front ++ back ∧
      out = front ++ j :: back ∧ (∀ k ∈ front, (j.yStart - k.yStart).toNat < 2 ^ 31) ∧
      ∀ k ∈ back.head?, 2 ^ 31 ≤ (j.yStart - k.yStart).toNat
    (m.unseen.length < 256 → ∃ out : List Interval, m.enter i = ({ m with unseen := out }, []) ∧ placed i m.unseen out) ∧
    (∀ (front : List Interval) (old : Interval), m.unseen = front ++ [old] → 256 ≤ m.unseen.length →
      let new : Interval := {
        channel := if old.channel = i.channel then old.channel else none
        xa := min old.xa i.xa
        xb := max old.xb i.xb
        yStart := if (i.yStart - old.yStart).toNat < 2 ^ 31 then old.yStart else i.yStart
        yEnd := if (i.yEnd - old.yEnd).toNat < 2 ^ 31 then i.yEnd else old.yEnd
        cause := if old.cause = .saturated ∨ i.cause = .saturated then .saturated else .lapsed
        folded := min (old.folded + i.folded) 65535
        capReported := old.capReported || i.capReported || decide (65535 < old.folded + i.folded) }
      let capped : List Report := if 65535 < old.folded + i.folded ∧ old.capReported = false ∧ i.capReported = false
        then [.notice (.foldCountCapped new.yStart)] else []
      let full : List Report := if m.fullReported = true then [] else [.notice (.unseenListFull i.yStart 256)]
      ∃ out : List Interval, m.enter i = ({ m with unseen := out, fullReported := true }, capped ++ full) ∧
        (new.yStart = old.yStart → out = front ++ [new]) ∧ (new.yStart ≠ old.yStart → placed new front out)))

/-! ## The Flaw Assembler and the Ribbon Map (Chapters 3 and 4) -/

/-- The finalization of a closed blob (R46 to R48, R51): a small one closed by gap outside a chain is discarded and
counted; any other becomes a flaw with the next id, the positions of its lines, and the class of the first enabled
entry it satisfies, 14 without one and 15 for the dense record; a continuation is linked to its segment. A flaw whose
y_center lies before the retired edge is late (R59): it is neither stored nor folded, the current tally counts it
unplaced, the FLAW record is as for any flaw, and NOTICE LATE_FLAW follows with its id, y_center and the edge: an
essential record with no cause, stamped with the µs counter. Any other is inserted after every flaw whose y_center it
reaches while the list holds fewer than 4096 (R58), and else folded into the last SATURATED interval that meets it, or
into a new one (R60; the order of the notices of one fold and the y_start that FOLD_COUNT_CAPPED carries, log 44). -/
def Obligations.LateFlawIsUnplaced : Prop :=
  (∀ (c : Setup) (pos : Position) (b : Bench) (x : Closed), x.discarded c = false →
    let f := x.flaw c pos b.fas.classes b.fas.nextFlaw
    let notice : Report := .notice (.lateFlaw b.fas.nextFlaw f.yCenter b.rbm.retiredEdge)
    2 ^ 31 ≤ (f.yCenter - b.rbm.retiredEdge).toNat →
    (b.finalize c pos x).rbm = b.rbm ∧
    (b.finalize c pos x).stu = { b.stu with current :=
      { b.stu.current with unplaced := b.stu.current.unplaced + 1#64 } } ∧
    (b.finalize c pos x).out = b.out ++ (if c.liveFlaws = true then [.flaw f] else []) ++ [notice] ∧
    notice.droppable = false ∧ notice.alerts = false ∧
    (∀ s : State, stagedBytes s.exu.staging + 24 ≤ 16384 →
      (s.report [notice]).exu.staging = s.exu.staging ++ [⟨s.pos.us, notice⟩])) ∧
  (∀ (c : Setup) (pos : Position) (b : Bench) (x : Closed),
    let e := x.blob
    let small := e.segment = false ∧ e.contFrom = none ∧ e.area < c.minArea
    (x.discarded c = true ↔ small) ∧
    (small → b.finalize c pos x = { b with fas := { b.fas with smallDiscarded := b.fas.smallDiscarded + 1#32 } }) ∧
    (¬small → ∃ f : Flaw, f = x.flaw c pos b.fas.classes b.fas.nextFlaw ∧
      (b.finalize c pos x).fas = { b.fas with
        nextFlaw := nextId b.fas.nextFlaw
        blobs := b.fas.blobs.map (fun q => if e.segment = true ∧ x.dense = false ∧ q.id = e.id
          then { q with contFrom := some b.fas.nextFlaw } else q) } ∧
      (b.finalize c pos x).rbm = (b.rbm.takeFlaw f).1 ∧
      ((f.yCenter - b.rbm.retiredEdge).toNat < 2 ^ 31 → (b.finalize c pos x).stu = b.stu) ∧
      (b.finalize c pos x).out = b.out ++ (if c.liveFlaws = true then [.flaw f] else []) ++ (b.rbm.takeFlaw f).2 ∧
      f.id = b.fas.nextFlaw ∧ f.first = e.first ∧ f.last = e.last ∧ f.yTop = yOf pos c.pitch e.first ∧
      f.yBottom = yOf pos c.pitch e.last + BitVec.ofNat 32 c.pitch ∧
      f.length = ((e.last - e.first).toNat + 1) * c.pitch ∧ f.yCenter = f.yTop + BitVec.ofNat 32 (f.length / 2) ∧
      (∀ v, e.xr = some v → f.xLeft = v.1 ∧ f.xRight = v.2) ∧ f.width = f.xRight - f.xLeft ∧
      f.xCenter = (f.xLeft + f.xRight) / 2 ∧ f.size = max f.length f.width ∧ f.area = e.area ∧ f.peak = e.peak ∧
      f.modes = e.modes ∧ f.chset = e.chset ∧ f.runs = e.runs ∧ f.contFrom = e.contFrom ∧ f.segment = e.segment ∧
      f.assignment = .unassigned ∧ (x.dense = true → f.cls = 15) ∧
      (let elongation := min (16 * max f.length f.width / max 1 (min f.length f.width)) 65535
       let fits (k : ClassEntry) : Prop := k.enabled = true ∧
         (∀ i < 3, k.required.getLsbD i = true → f.modes.getLsbD i = true) ∧
         (∀ i < 3, k.excluded.getLsbD i = true → f.modes.getLsbD i = false) ∧
         k.sizeMin ≤ f.size ∧ f.size ≤ k.sizeMax ∧ k.contrastMin ≤ f.peak ∧ k.elongMin ≤ elongation
       x.dense = false →
         (∀ (front : List ClassEntry) (k : ClassEntry) (back : List ClassEntry), b.fas.classes = front ++ k :: back →
           (∀ q ∈ front, ¬fits q) → fits k →
           f.cls = front.length) ∧
         ((∀ k ∈ b.fas.classes, ¬fits k) → f.cls = 14)))) ∧
  (∀ (m : RibbonMap) (f : Flaw), (f.yCenter - m.retiredEdge).toNat < 2 ^ 31 →
    (m.flaws.length < 4096 → ∃ front back : List Flaw, m.flaws = front ++ back ∧
      m.takeFlaw f = ({ m with flaws := front ++ f :: back, folding := false }, []) ∧
      (∀ g ∈ front, (f.yCenter - g.yCenter).toNat < 2 ^ 31) ∧
      ∀ g ∈ back.head?, 2 ^ 31 ≤ (f.yCenter - g.yCenter).toNat) ∧
    (4096 ≤ m.flaws.length →
      let meets (i : Interval) : Prop := i.cause = .saturated ∧ (i.yEnd - f.yTop).toNat < 2 ^ 31 ∧
        (f.yBottom - i.yStart).toNat < 2 ^ 31
      let full : List Report := if m.folding = true then [] else [.notice (.mapFull f.id f.yCenter 4096)]
      (∀ (front : List Interval) (i : Interval) (back : List Interval), m.unseen = front ++ i :: back →
        meets i → (∀ j ∈ back, ¬meets j) → i.folded ≤ 65535 →
        let new : Interval := { i with
          yStart := if (f.yTop - i.yStart).toNat < 2 ^ 31 then i.yStart else f.yTop
          yEnd := if (f.yBottom - i.yEnd).toNat < 2 ^ 31 then f.yBottom else i.yEnd
          folded := min (i.folded + 1) 65535
          capReported := i.capReported || decide (i.folded = 65535) }
        let capped : List Report :=
          if i.folded = 65535 ∧ i.capReported = false then [.notice (.foldCountCapped new.yStart)] else []
        ∃ out : List Interval, m.takeFlaw f = ({ m with unseen := out, folding := true }, capped ++ full) ∧
          (new.yStart = i.yStart → out = front ++ new :: back) ∧
          (new.yStart ≠ i.yStart → ∃ low high : List Interval, front ++ back = low ++ high ∧ out = low ++ new :: high ∧
            (∀ k ∈ low, (new.yStart - k.yStart).toNat < 2 ^ 31) ∧
            ∀ k ∈ high.head?, 2 ^ 31 ≤ (new.yStart - k.yStart).toNat)) ∧
      ((∀ i ∈ m.unseen, ¬meets i) →
        let e := m.enter ⟨none, m.installedWidth.1, m.installedWidth.2, f.yTop, f.yBottom, .saturated, 1, false⟩
        m.takeFlaw f = ({ e.1 with folding := true }, e.2 ++ full))))

/-! ## The Grader (Chapter 8) -/

/-- A plate graded A, B or C holds no OVERSIZE and no DENSE flaw, no SATURATED interval overlaps it, no class reaches
its limit, and its unseen share is not above u; no share is above 1000 and no score above 65,535 (R139 to R141). -/
def Obligations.GoodGradeIsClean : Prop :=
  ∀ (q : Spec) (p : Plate) (flaws : List Flaw) (is : List Interval),
    let r := q.grade p flaws is
    let mine := flaws.filter p.holds
    r.unseenPm ≤ 1000 ∧ r.score ≤ 65535 ∧
    (r.grade = .a ∨ r.grade = .b ∨ r.grade = .c →
      (∀ w ∈ mine, w.size ≤ q.b3 ∧ w.cls ≠ 15) ∧
      (∀ i ∈ is, i.cause = .saturated → p.overlapWidth i = 0 ∨ p.overlapY i = 0) ∧
      (∀ k < 16, q.limit.getD k 0 = 0 ∨ (mine.filter (fun w => w.cls = k)).length < q.limit.getD k 0) ∧
      r.unseenPm ≤ q.u ∧ r.cause = .none)

/-- The grading event that is due, in RUNNING and DRAINING (R144, R145): the oldest ORDER row without a computed grade
takes the results of its lanes on the map as it stands, PENDING becomes GRADED and LATE stays; nothing else changes. -/
def Obligations.GradingEventGradesRow : Prop :=
  ∀ (s : State) (before after : List Row) (r : Row), s.pinHeld = false → s.sts.state.run = true →
    s.rpl.rows = before ++ r :: after → (∀ x ∈ before, ¬(x.kind = .order ∧ x.results = none)) →
    r.kind = .order → r.results = none → (∀ x ∈ before ++ after, x.id ≠ r.id) →
    (s.fas.yFin - r.t).toNat < 2 ^ 31 →
    exec .gradingEvent s = .next { s with rpl := { s.rpl with rows := before ++
      { r with
        results := some (r.lanes.map (fun l =>
          (s.grd.spec l.spec).grade ⟨l.xl, l.xr, r.f, r.t⟩ (s.rbm.flawsIn r.f r.t) (s.rbm.unseenIn r.f r.t)))
        gradeState := if r.gradeState = .pending then .graded else r.gradeState } :: after } }

/-! ## Row placement (Chapter 6) -/

/-- A due placement with no order to serve (R99, R101, R109): a FALLBACK row [F, F + fallback_len) enters at the tail,
its trailing cut is armed, F moves to its T, no order changes, and fallback begins or goes on. -/
def Obligations.PlacementFallback : Prop :=
  ∀ (s : State) (c : Setup), s.pinHeld = false → s.setup = some c → s.sts.state = .running →
    (s.pos.p - (s.rpl.frontier + pu c.dGc - pu c.dCommit)).toNat < 2 ^ 31 → s.rpl.rows.length < 128 →
    s.oru.serving = none →
    let f := s.rpl.frontier
    let t := f + pu c.fallbackLen
    let o := s.oru.computeRunway s.setup
    let row : Row := { id := s.rpl.nextRow, kind := .fallback, f := f, t := t, ref := none, lanes := [],
                       shiftTag := s.stu.current.shiftId, blind := !reaches s.fas.yFin t, preGrades := [], cutOuts := 0,
                       gradeState := .pending, results := none, lead := s.rpl.leadState, trail := .armed,
                       gate := .waiting, merged := false, gateFault := false, codes := [],
                       isFirst := !s.rpl.placedAny }
    exec .placement s = .next (State.report
      (o.2 ++ (if s.rpl.inFallback = true then [] else
          [.runway ⟨.fallbackStart, o.1.runway, c.runwayWarn, o.1.cutOrders.length, f, 0⟩]) ++ [row.record])
      { s with
        oru := o.1
        cgc := { s.cgc with armed := s.cgc.armed ++ [⟨t, s.rpl.nextRow⟩] }
        rpl := { s.rpl with
          rows := s.rpl.rows ++ [row], nextRow := nextId s.rpl.nextRow, frontier := t, placedAny := true
          inFallback := true
          fallbackRows := if s.rpl.inFallback = true then satAdd s.rpl.fallbackRows 1 else 1
          cutOutCount := 0, cutOutOrder := none } }) ∧
    o.1.table = s.oru.table

/-- A due placement answered with an order whose candidate is placed as it stands (R80, R81, R83, R103, R107 to R109):
an ORDER row of the order's lanes enters at the tail; the order loses one row, and at 0 a STANDING order that is not
superseded is reloaded and any other becomes PLACED; it counts one row placed and one outstanding; fallback ends. -/
def Obligations.PlacementOrderRow : Prop :=
  ∀ (s : State) (c : Setup) (e : Entry) (o : CutOrder), s.pinHeld = false → s.setup = some c →
    s.sts.state = .running →
    (s.pos.p - (s.rpl.frontier + pu c.dGc - pu c.dCommit)).toNat < 2 ^ 31 → s.rpl.rows.length < 128 →
    s.oru.serving = some (e, o) →
    let f := s.rpl.frontier
    let count := if s.rpl.cutOutOrder = some e.take then s.rpl.cutOutCount else 0
    decideStrip c f count o.rowPu (candidate s.grd s.rbm f o) = none →
    ∃ (t : State) (row : Row), exec .placement s = .next t ∧ t.rpl.rows = s.rpl.rows ++ [row] ∧
      row.kind = .order ∧ row.id = s.rpl.nextRow ∧ row.f = f ∧ row.t = f + pu o.rowPu ∧
      row.ref = some (e.tag, e.take) ∧ row.lanes = o.lanes ∧ row.shiftTag = s.stu.current.shiftId ∧
      row.blind = !reaches s.fas.yFin row.t ∧ row.cutOuts = count ∧ row.gradeState = .pending ∧
      row.results = none ∧ row.lead = s.rpl.leadState ∧ row.trail = .armed ∧ row.gate = .waiting ∧
      row.merged = false ∧ row.gateFault = false ∧ row.codes = [] ∧
      row.preGrades = o.lanes.map (fun l =>
        ((s.grd.spec l.spec).grade ⟨l.xl, l.xr, f, row.t⟩ (s.rbm.flawsIn f row.t) (s.rbm.unseenIn f row.t)).grade) ∧
      t.rpl.nextRow = nextId s.rpl.nextRow ∧ t.rpl.frontier = row.t ∧ t.rpl.cutOutCount = 0 ∧
      t.rpl.cutOutOrder = some e.take ∧ t.rpl.inFallback = false ∧
      t.cgc = { s.cgc with armed := s.cgc.armed ++ [⟨row.t, row.id⟩] } ∧
      t.oru.table = s.oru.table.map (fun x => match x.work with
        | .cut q => if x.take = e.take then { x with work := .cut { q with
            remaining := if q.remaining - 1 = 0 ∧ q.standing = true ∧ q.superseded = false then q.rowCount
                         else q.remaining - 1
            state := if q.remaining - 1 = 0 ∧ ¬(q.standing = true ∧ q.superseded = false) then .placed else .current
            rowsPlaced := satAdd q.rowsPlaced 1
            outstanding := q.outstanding + 1 } } else x
        | _ => x) ∧
      t.oru.nextTake = s.oru.nextTake ∧
      t.host = s.host ∧ t.sts = s.sts ∧ t.setup = s.setup ∧ t.pos = s.pos ∧ t.sli = s.sli ∧ t.fas = s.fas ∧
      t.rbm = s.rbm ∧ t.grd = s.grd ∧ t.stu = s.stu ∧ t.inputs = s.inputs ∧ t.exu.phase = s.exu.phase

/-- A due placement that cuts out (R81, R106 to R108): a STRIP row enters at the tail for the order, which becomes
CURRENT, counts one strip and one outstanding, and loses no row; the cut-out count rises. Its length is the distance
from F to cutout_margin past the offending item, raised to strip_min, and at most strip_max and the row length; the
offending item is an item of a failing lane, with the earliest y_top of all and the latest y_bottom among those, when
all items lie within half of the position range of one position. -/
def Obligations.PlacementStripRow : Prop :=
  ∀ (s : State) (c : Setup) (e : Entry) (o : CutOrder) (len : Nat), s.pinHeld = false → s.setup = some c →
    s.sts.state = .running →
    (s.pos.p - (s.rpl.frontier + pu c.dGc - pu c.dCommit)).toNat < 2 ^ 31 → s.rpl.rows.length < 128 →
    s.oru.serving = some (e, o) →
    let f := s.rpl.frontier
    let count := if s.rpl.cutOutOrder = some e.take then s.rpl.cutOutCount else 0
    decideStrip c f count o.rowPu (candidate s.grd s.rbm f o) = some len →
    let item (top bottom : Pos) : Prop := ∃ l ∈ o.lanes,
      let q := s.grd.spec l.spec
      let p : Plate := ⟨l.xl, l.xr, f, f + pu o.rowPu⟩
      Grade.fails (q.grade p (s.rbm.flawsIn f (f + pu o.rowPu)) (s.rbm.unseenIn f (f + pu o.rowPu))).grade l.minGrade = true ∧
      ((∃ w ∈ s.rbm.flaws, p.holds w = true ∧ w.yTop = top ∧ w.yBottom = bottom ∧
          (0 < q.points p w ∨ q.b3 < w.size ∨ w.cls = 15 ∨ q.limit.getD w.cls 0 ≠ 0)) ∨
        (∃ i ∈ s.rbm.unseenIn f (f + pu o.rowPu), i.yStart = top ∧ i.yEnd = bottom ∧ i.cause = .saturated ∧
          0 < p.overlapWidth i ∧ 0 < p.overlapY i))
    c.stripMin ≤ len ∧ len ≤ c.stripMax ∧ len ≤ o.rowPu ∧ count < c.maxCutouts ∧
    (∃ top bottom : Pos, item top bottom ∧ len = max (bottom + pu c.cutoutMargin - f).toNat c.stripMin ∧
      ∀ base : Pos, (∀ a z, item a z → (a - base).toNat < 2 ^ 31 ∧ (z - base).toNat < 2 ^ 31) →
        ∀ a z, item a z → (top - base).toNat < (a - base).toNat ∨
          (a = top ∧ (z - base).toNat ≤ (bottom - base).toNat)) ∧
    ∃ (t : State) (row : Row), exec .placement s = .next t ∧ t.rpl.rows = s.rpl.rows ++ [row] ∧
      row.kind = .strip ∧ row.id = s.rpl.nextRow ∧ row.f = f ∧ row.t = f + pu len ∧
      row.ref = some (e.tag, e.take) ∧ row.lanes = [] ∧ row.shiftTag = s.stu.current.shiftId ∧
      row.blind = !reaches s.fas.yFin row.t ∧ row.cutOuts = count + 1 ∧
      row.preGrades = (candidate s.grd s.rbm f o).results.map LaneResult.grade ∧
      row.trail = .armed ∧ row.gate = .waiting ∧ row.merged = false ∧
      t.rpl.nextRow = nextId s.rpl.nextRow ∧ t.rpl.frontier = row.t ∧ t.rpl.cutOutCount = count + 1 ∧
      t.rpl.cutOutOrder = some e.take ∧ t.rpl.inFallback = false ∧
      t.cgc = { s.cgc with armed := s.cgc.armed ++ [⟨row.t, row.id⟩] } ∧
      t.oru.table = s.oru.table.map (fun x => match x.work with
        | .cut q => if x.take = e.take then { x with work := .cut { q with
            state := .current
            stripsPlaced := satAdd q.stripsPlaced 1
            outstanding := q.outstanding + 1 } } else x
        | _ => x) ∧
      t.host = s.host ∧ t.sts = s.sts ∧ t.setup = s.setup ∧ t.pos = s.pos ∧ t.sli = s.sli ∧ t.fas = s.fas ∧
      t.rbm = s.rbm ∧ t.grd = s.grd ∧ t.stu = s.stu

/-- The failing lane (R105): a lane of a candidate fails when its pre-grade is REJECT, or A, B or C below the minimum
grade, with A above B above C; UNINSPECTED never fails; the candidate fails when a lane fails, and with no failing lane
the ORDER row is placed. -/
def Obligations.FailingLane : Prop :=
  (∀ m : Grade, m = .a ∨ m = .b ∨ m = .c →
    Grade.fails .reject m = true ∧ Grade.fails .uninspected m = false ∧
    (Grade.fails .a m = false) ∧ (Grade.fails .b m = true ↔ m = .a) ∧
    (Grade.fails .c m = true ↔ m = .a ∨ m = .b)) ∧
  (∀ (g : Grader) (m : RibbonMap) (f : Pos) (o : CutOrder),
    (candidate g m f o).failing = true ↔
      ∃ l ∈ o.lanes, Grade.fails
        ((g.spec l.spec).grade ⟨l.xl, l.xr, f, f + pu o.rowPu⟩ (m.flawsIn f (f + pu o.rowPu))
          (m.unseenIn f (f + pu o.rowPu))).grade l.minGrade = true) ∧
  (∀ (c : Setup) (f : Pos) (count rowPu : Nat) (k : Candidate), k.failing = false →
    decideStrip c f count rowPu k = none)

/-- The reload of a standing order (R83): the ORDER row that brings remaining to 0 while superseded is clear reloads it
with the row count, the order stays CURRENT and serves the next request, and rows placed goes on; while a STANDING order
that is not superseded stands in the table in QUEUED or CURRENT, the runway is UNBOUNDED. -/
def Obligations.StandingOrderReloads : Prop :=
  (∀ (s t : State) (c : Setup) (e : Entry) (o : CutOrder), s.pinHeld = false → s.setup = some c →
    s.sts.state = .running →
    (s.pos.p - (s.rpl.frontier + pu c.dGc - pu c.dCommit)).toNat < 2 ^ 31 → s.rpl.rows.length < 128 →
    s.oru.serving = some (e, o) → (s.oru.table.map Entry.take).Nodup →
    decideStrip c s.rpl.frontier (if s.rpl.cutOutOrder = some e.take then s.rpl.cutOutCount else 0) o.rowPu
      (candidate s.grd s.rbm s.rpl.frontier o) = none →
    o.standing = true → o.superseded = false → o.remaining = 1 → 0 < o.rowCount →
    exec .placement s = .next t →
    ∃ q : CutOrder, t.oru.serving = some ({ e with work := .cut q }, q) ∧ q.remaining = o.rowCount ∧
      q.state = .current ∧ q.rowsPlaced = satAdd o.rowsPlaced 1 ∧ q.outstanding = o.outstanding + 1 ∧
      q.standing = true ∧ q.superseded = false ∧ t.oru.runway = none) ∧
  (∀ (u : OrderUnit) (setup : Option Setup) (e : Entry) (o : CutOrder), e ∈ u.table → e.work = .cut o →
    o.standing = true → o.superseded = false → o.state = .queued ∨ o.state = .current →
    (u.computeRunway setup).1.runway = none)

/-! ## The Cut and Gate Controller (Chapter 7) -/

/-- A strobe that is due (R118 to R120): with CINH asserted, or with 8 cuts outstanding, no pulse is given and the cut
is resolved INHIBITED with that cause; otherwise one pulse is given and the cut joins the outstanding list with its
window end, STROBED in both rows it bounds. -/
def Obligations.CutStrobeByCase : Prop :=
  ∀ (s : State) (c : Setup) (a : ArmedCut) (rest : List ArmedCut), s.pinHeld = false → s.setup = some c →
    s.sts.state.run = true → s.cgc.armed = a :: rest →
    (s.pos.p - (a.pos + pu c.dGc - pu c.dLead)).toNat < 2 ^ 31 →
    let u := { s with cgc := { s.cgc with armed := rest } }
    (s.inputs.cinh = true → exec .cutStrobe s = .next (u.resolveCut a.row a.pos .inhibited .cinh s.pos.us)) ∧
    (s.inputs.cinh = false → 8 ≤ s.cgc.outstanding.length →
      exec .cutStrobe s = .next (u.resolveCut a.row a.pos .inhibited .listFull s.pos.us)) ∧
    (s.inputs.cinh = false → s.cgc.outstanding.length < 8 →
      exec .cutStrobe s = .next { s with
        cgc := { s.cgc with
          armed := rest
          cstb := s.cgc.cstb + 1
          outstanding := s.cgc.outstanding ++ [⟨a.pos, a.row, s.pos.us, a.pos + pu c.dGc + pu c.dConfirm⟩] }
        rpl := { s.rpl with
          headState := if a.row = 0 then .strobed else s.rpl.headState
          rows := s.rpl.rows.map (fun r => { r with
            trail := if a.row ≠ 0 ∧ r.id = a.row then .strobed else r.trail
            lead := if r.f = a.pos then .strobed else r.lead }) } })

/-- The resolution of a cut (R124 to R126, R129): the outcome is written on both sides of the cut; a MISSED or
INHIBITED cut merges the rows it bounds, and a row already FIRED becomes a gate fault once: a NOTICE GATE_FAULT, with
its ALERT, and one gate fault in the tally of its tag; the CUT record follows the notices, with the ids of the rows
that this cut merged (in row-list order, log 55; a row merged before is not listed again, log 24). A cut resolved CUT
merges nothing. -/
def Obligations.CutResolutionMergesRows : Prop :=
  ∀ (row : Word) (pos : Pos) (why : InhibitCause) (time : Word) (s : State),
    let touched (r : Row) : Bool := (row ≠ 0 ∧ r.id = row) ∨ r.f = pos
    let faulted := s.rpl.rows.filter (fun r => touched r && decide (r.gate = .fired) && !r.merged)
    let faults (u : Tally) : Tally :=
      { u with gateFaults := satAdd u.gateFaults (faulted.filter (fun r => r.shiftTag = u.shiftId)).length }
    (∀ out, out = .missed ∨ out = .inhibited →
      let t := s.resolveCut row pos out why time
      t.rpl.rows.length = s.rpl.rows.length ∧
      (∀ (i : Nat) (r : Row), s.rpl.rows[i]? = some r → ∃ q, t.rpl.rows[i]? = some q ∧
        q.id = r.id ∧ q.f = r.f ∧ q.t = r.t ∧ q.gate = r.gate ∧ q.results = r.results ∧
        q.trail = (if row ≠ 0 ∧ r.id = row then out else r.trail) ∧ q.lead = (if r.f = pos then out else r.lead) ∧
        (touched r = true → q.merged = true ∧
          q.gateFault = (r.gateFault || (decide (r.gate = .fired) && !r.merged))) ∧
        (touched r = false → q.merged = r.merged ∧ q.gateFault = r.gateFault)) ∧
      t.exu = (s.report (faulted.map (fun r => .notice (.gateFault r.id pos row out)) ++
        [.cut ⟨row, pos, out, why, time,
          (s.rpl.rows.filter (fun r => touched r && !r.merged)).map Row.id⟩])).exu ∧
      (∀ r ∈ faulted, (Report.notice (.gateFault r.id pos row out)).alerts = true) ∧
      t.stu.current = faults s.stu.current ∧ t.stu.interrupted = s.stu.interrupted ∧
      (s.stu.closing = none → t.stu.closing = none) ∧
      (∀ u, s.stu.closing = some u → u.shiftId ≠ s.stu.current.shiftId → t.stu.closing = some (faults u)) ∧
      t.rpl.headState = (if row = 0 then out else s.rpl.headState) ∧
      t.rpl.frontier = s.rpl.frontier ∧ t.cgc = s.cgc ∧ t.oru = s.oru ∧ t.rbm = s.rbm ∧ t.host = s.host ∧
      t.sts = s.sts ∧ t.pos = s.pos ∧ t.sli = s.sli ∧ t.fas = s.fas ∧ t.grd = s.grd ∧ t.setup = s.setup) ∧
    (let t := s.resolveCut row pos .cut .none time
     t = State.report [.cut ⟨row, pos, .cut, .none, time, []⟩] { s with rpl := { s.rpl with
       headState := if row = 0 then .cut else s.rpl.headState
       rows := s.rpl.rows.map (fun r => { r with
         trail := if row ≠ 0 ∧ r.id = row then .cut else r.trail
         lead := if r.f = pos then .cut else r.lead }) } })

/-- A CDONE pulse (R122, R123): credited to the oldest outstanding cut, which becomes CUT; with none outstanding it is
an unexpected confirm; in DETACHED and FAULT it is discarded. -/
def Obligations.CdoneCreditsOldest : Prop :=
  ∀ s : State, s.pinHeld = false →
    (∀ (o : OutCut) (rest : List OutCut), s.sts.state.live = true → s.cgc.outstanding = o :: rest →
      exec .cdone s = .next
        (State.resolveCut o.row o.pos .cut .none o.strobeTime { s with cgc := { s.cgc with outstanding := rest } })) ∧
    (s.sts.state.live = true → s.cgc.outstanding = [] →
      exec .cdone s = .next (State.report [.notice (.unexpectedConfirm s.pos.p)]
        { s with stu := { s.stu with current := { s.stu.current with
            unexpected := BitVec.ofNat 32 (min (s.stu.current.unexpected.toNat + 1) 0xFFFFFFFF) } } })) ∧
    (s.sts.state = .detached ∨ s.sts.state = .fault → exec .cdone s = .next s)

/-- The window end of the oldest outstanding cut (R123): when P reaches it in RUNNING and DRAINING the cut is MISSED and
leaves the list; before, nothing happens. -/
def Obligations.WindowExpiryMisses : Prop :=
  ∀ (s : State) (o : OutCut) (rest : List OutCut), s.pinHeld = false → s.cgc.outstanding = o :: rest →
    (s.sts.state.run = true → (s.pos.p - o.windowEnd).toNat < 2 ^ 31 →
      exec .confirmWindowExpiry s = .next
        (State.resolveCut o.row o.pos .missed .none o.strobeTime
          { s with cgc := { s.cgc with outstanding := rest } })) ∧
    (2 ^ 31 ≤ (s.pos.p - o.windowEnd).toNat → exec .confirmWindowExpiry s = .next s)

/-- The gate event that is due (R127, R128): the oldest WAITING row is SUPPRESSED when MERGED; a STRIP or FALLBACK row
drives every installed port with scrap_code; an ORDER row drives the port of each lane with its code, one strobe each,
and a PENDING row becomes LATE: the code that the lane's spec gives the computed grade of a GRADED row, and UNINSPECTED
any other (R128, R146). Ports that are not driven keep code and count. -/
def Obligations.GateEventDrivesPorts : Prop :=
  ∀ (s : State) (c : Setup) (front back : List Row) (r : Row), s.pinHeld = false → s.setup = some c →
    s.sts.state.run = true → s.rpl.rows = front ++ r :: back → (∀ x ∈ front, x.gate ≠ .waiting) →
    r.gate = .waiting → (∀ x ∈ front ++ back, x.id ≠ r.id) →
    (s.pos.p - (r.f + pu c.dGc + pu c.dCg)).toNat < 2 ^ 31 →
    s.cgc.ports.length = 4 → s.cgc.gateStrobes.length = 4 →
    let codeOf (l : Lane) (g : Grade) : BitVec 3 := BitVec.ofNat 3 ((s.grd.spec l.spec).codes.getD
      (match g with | .a => 0 | .b => 1 | .c => 2 | .reject => 3 | _ => 4) 0)
    (r.merged = true → exec .gateEvent s = .next
      { s with rpl := { s.rpl with rows := front ++ { r with gate := .suppressed } :: back } }) ∧
    (r.merged = false → r.kind ≠ .order → ∃ g : Cutter, exec .gateEvent s = .next
        { s with cgc := g, rpl := { s.rpl with rows := front ++ { r with gate := .fired } :: back } } ∧
      { g with ports := s.cgc.ports, gateStrobes := s.cgc.gateStrobes } = s.cgc ∧
      ∀ k < 4, g.ports.getD k 0 = (if c.ports.getLsbD k = true then c.scrapCode else s.cgc.ports.getD k 0) ∧
        g.gateStrobes.getD k 0 = s.cgc.gateStrobes.getD k 0 + (if c.ports.getLsbD k = true then 1 else 0)) ∧
    (r.merged = false → r.kind = .order → (r.lanes.map Lane.port).Nodup → (∀ l ∈ r.lanes, l.port < 4) →
      (∀ rs, r.results = some rs → rs.length = r.lanes.length) →
      ∃ (g : Cutter) (codes : List (BitVec 3)), exec .gateEvent s = .next (State.report
          (if r.gradeState = .pending then [.notice (.lateGrade r.id r.f r.t s.fas.yFin)] else [])
          { s with cgc := g, rpl := { s.rpl with rows := front ++ { r with
              gate := .fired
              codes := codes
              gradeState := if r.gradeState = .pending then .late else r.gradeState } :: back } }) ∧
        { g with ports := s.cgc.ports, gateStrobes := s.cgc.gateStrobes } = s.cgc ∧ codes.length = r.lanes.length ∧
        (∀ rs, r.gradeState = .graded → r.results = some rs → ∀ (i : Nat) (l : Lane) (x : LaneResult),
          r.lanes[i]? = some l → rs[i]? = some x → codes[i]? = some (codeOf l x.grade)) ∧
        (r.gradeState ≠ .graded ∨ r.results = none → codes = r.lanes.map (fun l => codeOf l .uninspected)) ∧
        (∀ (i : Nat) (l : Lane), r.lanes[i]? = some l → some (g.ports.getD l.port 0) = codes[i]? ∧
          g.gateStrobes.getD l.port 0 = s.cgc.gateStrobes.getD l.port 0 + 1) ∧
        (∀ k < 4, (∀ l ∈ r.lanes, l.port ≠ k) → g.ports.getD k 0 = s.cgc.ports.getD k 0 ∧
          g.gateStrobes.getD k 0 = s.cgc.gateStrobes.getD k 0))

/-- CINH is read only when a strobe falls due (R120): for every other command, the level changes nothing but itself. -/
def Obligations.CinhReadOnlyAtStrobe : Prop :=
  ∀ (c : Instr) (b : Bool) (s t : State), c ≠ .cutStrobe → (∀ a, c ≠ .cinhChange a) →
    exec c s = .next t →
    exec c { s with inputs := { s.inputs with cinh := b } } =
      .next { t with inputs := { t.inputs with cinh := b } }

/-! ## Retirement and orders (Chapters 5, 6 and 9) -/

/-- The retirement of the head row that may retire (R66, R67, R85, R112, R113, R147 to R149, R153, R154, R159): the row
leaves the list; the flaws of its span and the intervals that end by T leave the map; the edge moves to T; the tally of
its tag, the current one or the closing one, counts the row, the flaws and the folds. One PLATE record for each lane,
with MERGED, UNINSPECTED or the computed grade, or one record SCRAP, is staged. The row's order counts one outstanding
less and judges the lanes of an ORDER row; a PLACED order with nothing outstanding leaves the table DONE with its result
words. When no row of the list then carries the closing tally's id, its SHIFT record follows the PLATE records, the
tally is gone, and the CLOSE SHIFT leaves the table DONE; else the closing tally stays (the order of the two statuses,
log 29). -/
def Obligations.RowRetirementTakesHead : Prop :=
  ∀ (s : State) (c : Setup) (r : Row) (rest : List Row) (w : Tally), s.pinHeld = false → s.setup = some c →
    s.sts.state.run = true → s.rpl.rows = r :: rest → r.gate ≠ .waiting →
    (r.trail = .cut ∨ r.trail = .missed ∨ r.trail = .inhibited) →
    (r.lead = .cut ∨ r.lead = .missed ∨ r.lead = .inhibited) →
    (r.shiftTag = s.stu.current.shiftId ∧ w = s.stu.current) ∨
      (r.shiftTag ≠ s.stu.current.shiftId ∧ s.stu.closing = some w ∧ w.shiftId = r.shiftTag) →
    w.rows.length = 3 → w.flawsTo.length = 3 →
    (∀ rs, r.results = some rs → rs.length = r.lanes.length) →
    ∃ (t : State) (plates : List PlateRec) (v : Tally) (table : List Entry) (ws : List StatusWrite),
      exec .rowRetirement s = .next t ∧
      t.rpl = { s.rpl with rows := rest } ∧
      t.rbm = { s.rbm with
        flaws := s.rbm.flaws.filter (fun w => !liesIn w.yCenter r.f r.t)
        unseen := s.rbm.unseen.filter (fun i => !reaches r.t i.yEnd)
        retiredEdge := r.t } ∧
      v.shiftId = w.shiftId ∧ v.rows.getD r.kind.index 0 = satAdd (w.rows.getD r.kind.index 0) 1 ∧
      v.flawsTo.sum = w.flawsTo.sum +
        BitVec.ofNat 64 (s.rbm.flaws.filter (fun w => liesIn w.yCenter r.f r.t)).length ∧
      v.folded = w.folded +
        BitVec.ofNat 64 (((s.rbm.unseen.filter (fun i => reaches r.t i.yEnd)).map Interval.folded).sum) ∧
      v.unplaced = w.unplaced ∧ v.maxSpeed = w.maxSpeed ∧
      (r.kind = .order →
        let rs := r.results.getD (r.lanes.map (fun l => (s.grd.spec l.spec).grade ⟨l.xl, l.xr, r.f, r.t⟩
          (s.rbm.flawsIn r.f r.t) (s.rbm.unseenIn r.f r.t)))
        plates.length = r.lanes.length ∧
        ∀ (i : Nat) (x : LaneResult), rs[i]? = some x → ∃ p, plates[i]? = some p ∧ p.row = r.id ∧ p.lane = some i ∧
          p.computed = some x.grade ∧ p.merged = r.merged ∧ p.late = decide (r.gradeState = .late) ∧
          p.partialGrade = (r.results.isNone && !reaches s.fas.yFin r.t) ∧
          p.final = (if r.merged = true then .merged else if r.gradeState = .late then .uninspected else x.grade)) ∧
      (r.kind ≠ .order → ∃ p, plates = [p] ∧ p.row = r.id ∧ p.lane = none ∧ p.final = .scrap ∧ p.computed = none ∧
        p.plateArea = 100 * c.netWidth * (r.t - r.f).toNat / 10000) ∧
      (let meets (l : Lane) (g : Grade) : Bool :=
         g = .a ∨ (g = .b ∧ l.minGrade ≠ .a) ∨ (g = .c ∧ l.minGrade ≠ .a ∧ l.minGrade ≠ .b)
       let judged (o : CutOrder) : List (Lane × Grade) :=
         if r.kind = .order then o.lanes.zip (plates.map PlateRec.final) else []
       let told (o : CutOrder) : CutOrder := { o with
         outstanding := o.outstanding - 1
         meeting := satAdd o.meeting ((judged o).filter (fun x => meets x.1 x.2)).length
         below := satAdd o.below ((judged o).filter (fun x => !meets x.1 x.2)).length }
       (r.ref = none → table = s.oru.table ∧ ws = []) ∧
       (∀ tag take, r.ref = some (tag, take) → (∀ e ∈ s.oru.table, e.take ≠ take) → table = s.oru.table ∧ ws = []) ∧
       (∀ tag take front e o back, r.ref = some (tag, take) → s.oru.table = front ++ e :: back → e.take = take →
         (∀ x ∈ front ++ back, x.take ≠ take) → e.work = .cut o →
         let q := told o
         (q.state = .placed → q.outstanding = 0 → table = front ++ back ∧ ws = [⟨e.addr, e.notify, 2, 0,
           [q.rowsPlaced.toNat, q.meeting.toNat, q.below.toNat, q.stripsPlaced.toNat,
            bit q.cutShort + 2 * bit (q.standing && q.superseded)]⟩]) ∧
         (q.state ≠ .placed ∨ q.outstanding ≠ 0 → table = front ++ { e with work := .cut q } :: back ∧ ws = []))) ∧
      (let current := if r.shiftTag = s.stu.current.shiftId then v else s.stu.current
       let closing := if r.shiftTag = s.stu.current.shiftId then s.stu.closing else some v
       let records := plates.map Report.plate
       let open' (e : Exchange) : Exchange := { e with causes := s.exu.causes, messages := s.exu.messages }
       ((∀ u, closing = some u → ∃ x ∈ rest, x.shiftTag = u.shiftId) →
         t.stu = ⟨current, closing, s.stu.interrupted⟩ ∧ open' t.exu = open' (s.report records).exu ∧
         t.oru = { s.oru with table := table } ∧ t.host = ws.foldl Memory.writeStatus s.host) ∧
       (∀ u, closing = some u → (∀ x ∈ rest, x.shiftTag ≠ u.shiftId) →
         t.stu = ⟨current, none, false⟩ ∧
         open' t.exu = open' (s.report (records ++ [.shift u s.stu.interrupted])).exu ∧
         t.oru = { s.oru with table := table.filter (fun e => !e.isCloseShift) } ∧
         t.host = (ws ++ (table.filter Entry.isCloseShift).map (fun e => (⟨e.addr, e.notify, 2, 0, []⟩ : StatusWrite))).foldl
           Memory.writeStatus s.host)) ∧
      t.sts = s.sts ∧ t.setup = s.setup ∧ t.pos = s.pos ∧ t.sli = s.sli ∧ t.fas = s.fas ∧ t.cgc = s.cgc ∧
      t.grd = s.grd ∧ t.inputs = s.inputs ∧ t.free = s.free

/-- A CUT order that no condition of R78 refuses (R74, R79, R84, R89): it supersedes the standing orders and enters the
table QUEUED with its rows and lanes laid out from net_left, its status is TAKEN with the take number, and the runway is
computed. A refused one, with the first of the reasons of R78 that holds, changes nothing but its status. -/
def Obligations.CutOrderEntersTable : Prop :=
  ∀ (s : State) (c : Setup) (b : Block) (x : CutBody), s.pinHeld = false → s.sts.state.live = true →
    s.exu.phase = .order b → b.body = .cut x →
    let refused (code : Nat) := (s.cursorTo b).writeStatus ⟨b.addr, b.notify, 3, code, []⟩
    let badValue := x.laneCount < 1 ∨ 4 < x.laneCount ∨ x.rowCount = 0 ∨
      ∃ l ∈ x.used, l.minGrade < 1 ∨ 3 < l.minGrade ∨ s.grd.loaded l.spec = false
    let badLength := 100 * x.rowMm < c.rowMin ∨ c.rowMax < 100 * x.rowMm
    let badLayout := (∃ l ∈ x.used, l.width = 0 ∨ 4 ≤ l.port ∨ c.ports.getLsbD l.port = false) ∨
      c.netWidth < (x.used.map LaneBody.width).sum ∨ ¬(x.used.map LaneBody.port).Nodup
    (s.setup = none → exec .cut s = .next (refused 12)) ∧
    (s.setup = some c → badValue → exec .cut s = .next (refused 4)) ∧
    (s.setup = some c → ¬badValue → badLength → exec .cut s = .next (refused 10)) ∧
    (s.setup = some c → ¬badValue → ¬badLength → badLayout → exec .cut s = .next (refused 11)) ∧
    (s.setup = some c → ¬badValue → ¬badLength → ¬badLayout → ∃ (t : State) (o : CutOrder), exec .cut s = .next t ∧
      t.oru.table = s.oru.table.map (fun e => match e.work with
        | .cut q => { e with work := .cut (if q.standing = true then { q with superseded := true } else q) }
        | _ => e) ++ [⟨b.tag, s.oru.nextTake, b.addr, b.notify, .cut o⟩] ∧
      t.oru.nextTake = nextId s.oru.nextTake ∧
      o.state = .queued ∧ o.standing = x.standing ∧ o.rowCount = x.rowCount ∧ o.remaining = x.rowCount ∧
      o.rowMm = x.rowMm ∧ o.rowPu = 100 * x.rowMm ∧ o.superseded = false ∧ o.cutShort = false ∧ o.rowsPlaced = 0 ∧
      o.outstanding = 0 ∧ o.stripsPlaced = 0 ∧ o.meeting = 0 ∧ o.below = 0 ∧ o.lanes.length = x.used.length ∧
      x.used = x.lanes.take x.laneCount ∧
      (∀ l ∈ o.lanes.head?, l.xl = c.netLeft) ∧
      (∀ (i : Nat) (l : Lane) (u : LaneBody), o.lanes[i]? = some l → x.used[i]? = some u →
        l.width = u.width ∧ l.xr = l.xl + 100 * u.width ∧ l.spec = u.spec ∧ l.port = u.port ∧
        (u.minGrade = 1 → l.minGrade = .a) ∧ (u.minGrade = 2 → l.minGrade = .b) ∧ (u.minGrade = 3 → l.minGrade = .c) ∧
        ∀ n, o.lanes[i + 1]? = some n → n.xl = l.xr) ∧
      t.oru.runway = t.oru.runwayNow ∧
      t.host = s.host.writeStatus ⟨b.addr, b.notify, 1, 0, [s.oru.nextTake.toNat]⟩ ∧
      t.exu.cursor = some b.addr ∧ t.exu.phase = .finishing ∧
      t.sts = s.sts ∧ t.setup = s.setup ∧ t.pos = s.pos ∧ t.sli = s.sli ∧ t.fas = s.fas ∧ t.rbm = s.rbm ∧
      t.rpl = s.rpl ∧ t.cgc = s.cgc ∧ t.grd = s.grd ∧ t.stu = s.stu ∧ t.inputs = s.inputs)

/-- A CANCEL acts on the oldest entry with its tag (R87): NO_SUCH_ORDER without one, NOT_CANCELLABLE on another kind,
TOO_LATE on a PLACED order; a QUEUED order leaves the table CANCELLED; a CURRENT order ends PLACED and cut short with
nothing remaining, and leaves the table when nothing is outstanding. The target's status is written before the CANCEL's
own (R188 leaves the order open, log 29). -/
def Obligations.CancelByTargetState : Prop :=
  ∀ (s : State) (b : Block) (tag : Word), s.pinHeld = false → s.sts.state.live = true →
    s.exu.phase = .order b → b.body = .cancel tag → (s.oru.table.map Entry.take).Nodup →
    let refused (code : Nat) := (s.cursorTo b).writeStatus ⟨b.addr, b.notify, 3, code, []⟩
    ((∀ e ∈ s.oru.table, e.tag ≠ tag) → exec .cancel s = .next (refused 7)) ∧
    (∀ (front back : List Entry) (e : Entry), s.oru.table = front ++ e :: back →
      (∀ x ∈ front, x.tag ≠ tag) → e.tag = tag →
      ((∀ o, e.work ≠ .cut o) → exec .cancel s = .next (refused 9)) ∧
      (∀ o, e.work = .cut o → o.state = .placed → exec .cancel s = .next (refused 8)) ∧
      (∀ o, e.work = .cut o → o.state = .queued → ∃ t : State, exec .cancel s = .next t ∧
        t.oru.table = front ++ back ∧ t.oru.runway = t.oru.runwayNow ∧
        t.host = (s.host.writeStatus ⟨e.addr, e.notify, 4, 0, []⟩).writeStatus ⟨b.addr, b.notify, 2, 0, []⟩ ∧
        t.rpl = s.rpl ∧ t.rbm = s.rbm ∧ t.stu = s.stu ∧ t.cgc = s.cgc) ∧
      (∀ o, e.work = .cut o → o.state = .current → ∃ t : State, exec .cancel s = .next t ∧
        t.oru.table = front ++ (if o.outstanding = 0 then [] else
          [{ e with work := .cut { o with remaining := 0, state := .placed, cutShort := true } }]) ++ back ∧
        t.oru.runway = t.oru.runwayNow ∧
        t.host = (if o.outstanding = 0 then s.host.writeStatus ⟨e.addr, e.notify, 2, 0,
            [o.rowsPlaced.toNat, o.meeting.toNat, o.below.toNat, o.stripsPlaced.toNat,
             1 + 2 * bit (o.standing && o.superseded)]⟩ else s.host).writeStatus ⟨b.addr, b.notify, 2, 0, []⟩ ∧
        t.rpl = s.rpl ∧ t.rbm = s.rbm ∧ t.stu = s.stu ∧ t.cgc = s.cgc))

/-- CLOSE SHIFT (R157 to R159): SHIFT_BUSY with a closing tally, BAD_VALUE when the id is the current one; otherwise the
current tally closes at F and a new one opens there, at once DONE with its SHIFT record when no row carries the old id,
else TAKEN and in the table. -/
def Obligations.CloseShiftClosesTally : Prop :=
  ∀ (s : State) (b : Block) (n : Word), s.pinHeld = false → s.sts.state.live = true →
    s.exu.phase = .order b → b.body = .closeShift n →
    let u := s.cursorTo b
    let closed : Tally := { s.stu.current with endBoundary := some s.rpl.frontier, endTime := some s.pos.us }
    let opened : Tally := Tally.opened n s.rpl.frontier s.pos.us
    (s.stu.closing.isSome = true →
      exec .closeShift s = .next (u.writeStatus ⟨b.addr, b.notify, 3, 6, []⟩)) ∧
    (s.stu.closing = none → n = s.stu.current.shiftId →
      exec .closeShift s = .next (u.writeStatus ⟨b.addr, b.notify, 3, 4, []⟩)) ∧
    (s.stu.closing = none → n ≠ s.stu.current.shiftId → (∀ r ∈ s.rpl.rows, r.shiftTag ≠ s.stu.current.shiftId) →
      exec .closeShift s = .next (State.writeStatus (State.report [.shift closed s.stu.interrupted]
        { u with stu := ⟨opened, none, false⟩ }) ⟨b.addr, b.notify, 2, 0, []⟩)) ∧
    (s.stu.closing = none → n ≠ s.stu.current.shiftId → (∃ r ∈ s.rpl.rows, r.shiftTag = s.stu.current.shiftId) →
      exec .closeShift s = .next (State.writeStatus
        { u with
          stu := ⟨opened, some closed, s.stu.interrupted⟩
          oru := { s.oru with
            table := s.oru.table ++ [⟨b.tag, s.oru.nextTake, b.addr, b.notify, .closeShift⟩]
            nextTake := nextId s.oru.nextTake } }
        ⟨b.addr, b.notify, 1, 0, [s.oru.nextTake.toNat]⟩))

/-! ## The other orders (Chapters 2, 3, 8 and 10) -/

/-- SETUP is refused in the order of R166, with only its status written: WRONG_STATE outside IDLE, IN_USE while a CUT
order stands, BAD_VALUE when a field fails its check, SETUP_SPAN when N of R168 is 128 or more. A field fails when it is
outside R4 (POS), R16 and R29 (SLI: the installed channels, left to right, and the mask entries), R36 (FAS), R77 (ORU),
R117 (CGC) or Table 10-4 (the distances). -/
def Obligations.SetupRefusals : Prop :=
  (∀ (s : State) (b : Block) (x : SetupBody), s.pinHeld = false → s.sts.state.live = true →
    s.exu.phase = .order b → b.body = .setup x →
    let refused (code : Nat) := (s.cursorTo b).writeStatus ⟨b.addr, b.notify, 3, code, []⟩
    (s.sts.state ≠ .idle → exec .setup s = .next (refused 3)) ∧
    (s.sts.state = .idle → (∃ e ∈ s.oru.table, ∃ o, e.work = .cut o) → exec .setup s = .next (refused 5)) ∧
    (s.sts.state = .idle → (∀ e ∈ s.oru.table, ∀ o, e.work ≠ .cut o) → x.fieldsOk = false →
      exec .setup s = .next (refused 4)) ∧
    (s.sts.state = .idle → (∀ e ∈ s.oru.table, ∀ o, e.work ≠ .cut o) → x.fieldsOk = true → 128 ≤ x.span →
      exec .setup s = .next (refused 13))) ∧
  (∀ x : SetupBody, 0 < x.stripMin →
    x.dCommit + max x.dCg (x.dConfirm + x.rowMax) ≤ (x.span - 2) * x.stripMin ∧
    (x.span - 2) * x.stripMin < x.dCommit + max x.dCg (x.dConfirm + x.rowMax) + x.stripMin) ∧
  (∀ x : SetupBody,
    let gs := x.geom.filter Geometry.installed
    let right (g : Geometry) : Nat := g.x0 + (g.n - 1) * g.cp / 256 + g.cp / 256
    x.fieldsOk = true ↔
      (5 ≤ x.pitch ∧ x.pitch ≤ 100 ∧ 0x4000 ≤ x.scale ∧ x.scale ≤ x.pitch * 0x10000 ∧ 100 ≤ x.maxSpeed ∧
        x.maxSpeed ≤ 1000) ∧
      (gs ≠ [] ∧ (∀ g ∈ gs, 512 ≤ g.cp ∧ g.cp ≤ 25600 ∧ 1 ≤ g.n ∧ g.n ≤ 16384 ∧ right g ≤ 524288) ∧
        (∀ (i : Nat) (a b : Geometry), gs[i]? = some a → gs[i + 1]? = some b →
          a.x0 < b.x0 ∧ right a < right b ∧ b.x0 ≤ right a) ∧
        (∀ (i : Nat) (a b : Geometry), gs[i]? = some a → gs[i + 2]? = some b → right a ≤ b.x0) ∧
        (∀ m ∈ x.masks, (geomAt x.geom m.channel).installed = true ∧ m.first ≤ m.last ∧
          m.last < (geomAt x.geom m.channel).n)) ∧
      (1 ≤ x.minArea ∧ x.minArea ≤ 255) ∧
      (x.netWidth ≠ 0 ∧ (∀ g ∈ gs.head?, g.x0 ≤ x.netLeft) ∧
        (∀ g ∈ gs.getLast?, x.netLeft + 100 * x.netWidth ≤ right g) ∧ x.runwayWarn ≤ 200000) ∧
      (x.ports ≠ 0 ∧ x.scrapCode ≤ 7) ∧
      (3000 ≤ x.dGc ∧ x.dGc ≤ 40000 ∧ 300 ≤ x.dCommit ∧ x.dCommit + 500 ≤ x.dGc ∧ x.dLead + 100 ≤ x.dCommit ∧
        10 ≤ x.dConfirm ∧ x.dConfirm ≤ 1000 ∧ 500 ≤ x.dCg ∧ x.dCg ≤ 20000 ∧
        150 ≤ x.stripMin ∧ x.stripMin ≤ 1000 ∧ x.stripMin ≤ x.stripMax ∧ x.stripMax ≤ 2000 ∧
        x.stripMin ≤ x.rowMin ∧ x.rowMin ≤ 6000 ∧ x.rowMin ≤ x.rowMax ∧ x.rowMax ≤ 12000 ∧
        x.rowMin ≤ x.fallbackLen ∧ x.fallbackLen ≤ x.rowMax ∧ 10 ≤ x.cutoutMargin ∧ x.cutoutMargin ≤ 500 ∧
        x.maxCutouts ≤ 3))

/-- An accepted SETUP (R16, R29, R36, R117, R167, R169): the setup held takes every field, clamped, its distances in
pu; the SETUP entries replace the mask table; a channel not installed becomes OFF and the others stay; a port not
installed goes to 0; the order is DONE. POS, FAS, RBM, ORU, RPL, GRD, STU, the part state and the inputs stay. -/
def Obligations.SetupAccepted : Prop :=
  ∀ (s : State) (b : Block) (x : SetupBody), s.pinHeld = false → s.sts.state = .idle →
    s.exu.phase = .order b → b.body = .setup x → (∀ e ∈ s.oru.table, ∀ o, e.work ≠ .cut o) →
    x.fieldsOk = true → x.span < 128 → x.masks.length ≤ 32 → s.sli.chans.length = 16 → s.cgc.ports.length = 4 →
    ∃ (t : State) (c : Setup), exec .setup s = .next t ∧ t.setup = some c ∧
      c.scale = BitVec.ofNat 32 x.scale ∧ c.pitch = x.pitch ∧ c.maxSpeed = x.maxSpeed ∧ c.invert = x.invert ∧
      c.geom = x.geom ∧ c.netLeft = x.netLeft ∧ c.netWidth = x.netWidth ∧ c.minArea = x.minArea ∧
      c.dGc = 100 * x.dGc ∧ c.dCommit = 100 * x.dCommit ∧ c.dLead = 100 * x.dLead ∧ c.dConfirm = 100 * x.dConfirm ∧
      c.dCg = 100 * x.dCg ∧ c.stripMin = 100 * x.stripMin ∧ c.stripMax = 100 * x.stripMax ∧
      c.rowMin = 100 * x.rowMin ∧ c.rowMax = 100 * x.rowMax ∧ c.fallbackLen = 100 * x.fallbackLen ∧
      c.cutoutMargin = 100 * x.cutoutMargin ∧ c.ports = x.ports ∧ c.scrapCode.toNat = x.scrapCode ∧
      c.runwayWarn = x.runwayWarn ∧ c.liveFlaws = x.liveFlaws ∧ c.maxCutouts = x.maxCutouts ∧
      4 ≤ c.deadline ∧ c.deadline ≤ 64 ∧ (x.deadline = 0 → c.deadline = 16) ∧
      (1 ≤ x.deadline → x.deadline < 4 → c.deadline = 4) ∧
      (4 ≤ x.deadline → x.deadline ≤ 64 → c.deadline = x.deadline) ∧ (64 < x.deadline → c.deadline = 64) ∧
      c.settleLines ≤ 4095 ∧ (x.settleLines = 0xFFFF → c.settleLines = 64) ∧
      (x.settleLines ≤ 4095 → c.settleLines = x.settleLines) ∧
      (4095 < x.settleLines → x.settleLines ≠ 0xFFFF → c.settleLines = 4095) ∧
      c.joinTol ≤ 2000 ∧ (x.joinTol = 0xFFFF → c.joinTol = 50) ∧ (x.joinTol ≤ 2000 → c.joinTol = x.joinTol) ∧
      (2000 < x.joinTol → x.joinTol ≠ 0xFFFF → c.joinTol = 2000) ∧
      c.closeGap ≤ 15 ∧ (x.closeGap = 0xFFFF → c.closeGap = 2) ∧ (x.closeGap ≤ 15 → c.closeGap = x.closeGap) ∧
      (15 < x.closeGap → x.closeGap ≠ 0xFFFF → c.closeGap = 15) ∧
      256 ≤ c.maxBlobLines ∧ (x.maxBlobLines = 0 → c.maxBlobLines = 20000) ∧
      (1 ≤ x.maxBlobLines → x.maxBlobLines < 256 → c.maxBlobLines = 256) ∧
      (256 ≤ x.maxBlobLines → c.maxBlobLines = x.maxBlobLines) ∧
      1 ≤ c.flushTime ∧ c.flushTime ≤ 1000 ∧ (x.flushTime = 0 → c.flushTime = 20) ∧
      (1 ≤ x.flushTime → x.flushTime ≤ 1000 → c.flushTime = x.flushTime) ∧ (1000 < x.flushTime → c.flushTime = 1000) ∧
      validMasks t.sli.mask = x.masks.map (fun m => ⟨m.channel, m.first, m.last, .setup⟩) ∧
      (∀ k < 16, ((geomAt x.geom k).installed = true → t.sli.chan k = s.sli.chan k) ∧
        ((geomAt x.geom k).installed = false → (t.sli.chan k).state = .off)) ∧
      t.sli.la = s.sli.la ∧
      (∀ k < 4, t.cgc.ports.getD k 0 = if x.ports.getLsbD k = true then s.cgc.ports.getD k 0 else 0) ∧
      t.host = s.host.writeStatus ⟨b.addr, b.notify, 2, 0, []⟩ ∧ t.exu.cursor = some b.addr ∧
      t.exu.phase = .finishing ∧ t.sts = s.sts ∧ t.pos = s.pos ∧ t.fas = s.fas ∧ t.rbm = s.rbm ∧ t.oru = s.oru ∧
      t.rpl = s.rpl ∧ t.grd = s.grd ∧ t.stu = s.stu ∧ t.inputs = s.inputs

/-- START (R170, R6, R34, R54, R71, R98, R118): refused outside IDLE and without a setup; accepted, it sets the line
origin at P rounded up, as an unsigned number, to the next multiple of pitch, mod 2^32, and every block takes Y0 from
it; channel states, orders, specs and tallies stay. -/
def Obligations.StartBeginsRun : Prop :=
  ∀ (s : State) (b : Block), s.pinHeld = false → s.sts.state.live = true → s.exu.phase = .order b → b.body = .start →
    (s.sts.state ≠ .idle → exec .start s = .next ((s.cursorTo b).writeStatus ⟨b.addr, b.notify, 3, 3, []⟩)) ∧
    (s.sts.state = .idle → s.setup = none →
      exec .start s = .next ((s.cursorTo b).writeStatus ⟨b.addr, b.notify, 3, 12, []⟩)) ∧
    (∀ c, s.sts.state = .idle → s.setup = some c → 0 < c.pitch → c.pitch ≤ 100 →
      ∃ (t : State) (k : Nat), exec .start s = .next t ∧ t.sts = { s.sts with state := .running } ∧
        s.pos.p.toNat ≤ k * c.pitch ∧ k * c.pitch < s.pos.p.toNat + c.pitch ∧
        t.pos.y0 = BitVec.ofNat 32 (k * c.pitch) ∧ (t.pos.y0 - s.pos.p).toNat < c.pitch ∧
        t.pos.l0 = 0 ∧ t.pos.lt = 0 ∧ t.pos.nextTrigger = t.pos.y0 ∧ t.pos.debt = 0 ∧ t.pos.excess = false ∧
        t.pos.overLimit = false ∧ t.pos.p = s.pos.p ∧ t.pos.frac = s.pos.frac ∧ t.pos.us = s.pos.us ∧
        t.pos.windowTime = s.pos.windowTime ∧ t.sli.la = 0 ∧ t.sli.mask = s.sli.mask ∧
        t.sli.chans = s.sli.chans.map (fun x => { x with staleLine := none, cutLine := none }) ∧
        t.fas = { s.fas with yFin := t.pos.y0 } ∧
        t.rbm.retiredEdge = t.pos.y0 ∧ t.rbm.folding = false ∧ t.rbm.fullReported = false ∧
        t.rbm.installedWidth = installedSpan c.geom ∧ t.rbm.flaws = s.rbm.flaws ∧ t.rbm.unseen = s.rbm.unseen ∧
        t.rpl = { s.rpl with frontier := t.pos.y0, headPos := t.pos.y0, headState := .armed, cutOutCount := 0,
                             cutOutOrder := none, placedAny := false } ∧
        t.cgc = { s.cgc with armed := s.cgc.armed ++ [⟨t.pos.y0, 0⟩] } ∧
        t.oru = s.oru ∧ t.grd = s.grd ∧ t.stu = s.stu ∧ t.setup = s.setup ∧ t.inputs = s.inputs ∧
        t.exu.cursor = some b.addr ∧ t.exu.phase = .finishing ∧ t.exu.staging = s.exu.staging ∧
        t.host = s.host.writeStatus ⟨b.addr, b.notify, 2, 0, []⟩)

/-- STOP (R114, R171): refused outside RUNNING; taken in RUNNING it fixes the drain end at F and withdraws the head
cut when no row has been placed; it enters the table TAKEN, or ends the drain at once when y_fin reaches F and no row
stands (R173, R32, R34, R54, R70): DONE with the part in IDLE, the queues, blobs and map emptied, the pending disables
carried out and their CHANNEL orders DONE before the STOP, every CUT and CLOSE SHIFT order kept; a channel of a
pending disable that was enabled again since is turned OFF too (log 53). A detach pending then waits for the poll's
end (log 12; the order of the statuses, log 29). -/
def Obligations.StopBeginsDrain : Prop :=
  ∀ (s : State) (b : Block), s.pinHeld = false → s.sts.state.live = true → s.exu.phase = .order b → b.body = .stop →
    (s.sts.state ≠ .running → exec .stop s = .next ((s.cursorTo b).writeStatus ⟨b.addr, b.notify, 3, 3, []⟩)) ∧
    (s.sts.state = .running → (s.rpl.rows ≠ [] ∨ 2 ^ 31 ≤ (s.fas.yFin - s.rpl.frontier).toNat) →
      exec .stop s = .next (State.writeStatus
        { s.cursorTo b with
          sts := { s.sts with state := .draining }
          rpl := { s.rpl with drainEnd := s.rpl.frontier }
          cgc := { s.cgc with armed := if s.rpl.placedAny = true then s.cgc.armed
                                       else s.cgc.armed.filter (fun a => a.row ≠ 0) }
          oru := { s.oru with
            table := s.oru.table ++ [⟨b.tag, s.oru.nextTake, b.addr, b.notify, .stop⟩]
            nextTake := nextId s.oru.nextTake } }
        ⟨b.addr, b.notify, 1, 0, [s.oru.nextTake.toNat]⟩)) ∧
    (s.sts.state = .running → s.rpl.rows = [] → (s.fas.yFin - s.rpl.frontier).toNat < 2 ^ 31 →
      s.sli.chans.length = 16 → (∀ e ∈ s.oru.table, e.work ≠ .stop) →
      ∃ t : State, exec .stop s = .next t ∧ t.sts = { s.sts with state := .idle } ∧
        t.rpl = { s.rpl with drainEnd := s.rpl.frontier } ∧
        t.cgc.armed = (if s.rpl.placedAny = true then s.cgc.armed else s.cgc.armed.filter (fun a => a.row ≠ 0)) ∧
        t.oru = { s.oru with table := s.oru.table.filter (fun e => e.disable?.isNone) } ∧
        (∀ k < 16, (t.sli.chan k).queue = [] ∧ (t.sli.chan k).dropping = false ∧ (t.sli.chan k).cutLine = none ∧
          (t.sli.chan k).state = (if (disableSets s.oru.table).any (fun d => d.getLsbD k) = true then .off
                                  else (s.sli.chan k).state)) ∧
        t.rbm.flaws = [] ∧ t.rbm.unseen = [] ∧ t.fas.blobs = [] ∧ t.fas.dense = none ∧
        t.stu = { s.stu with current := { s.stu.current with
          unplaced := s.stu.current.unplaced +
            BitVec.ofNat 64 (s.rbm.flaws.length + (s.rbm.unseen.map Interval.folded).sum) } } ∧
        t.host = ((s.oru.table.filter (fun e => e.disable?.isSome)).foldl
          (fun m e => m.writeStatus ⟨e.addr, e.notify, 2, 0, []⟩) s.host).writeStatus ⟨b.addr, b.notify, 2, 0, []⟩ ∧
        t.exu.detachPending = s.exu.detachPending ∧ t.exu.phase = .finishing ∧ t.exu.filling = s.exu.filling)

/-- The end of a drain that is due (R173, R32, R34, R54, R70, R183): the queues are emptied and the pending disables
carried out, the open blobs freed, the map emptied into the unplaced count, the CHANNEL and STOP orders completed, and
the part is IDLE, or DETACHED when a detach is pending (log 12; a channel enabled again since, log 53). -/
def Obligations.EndOfDrainReturnsIdle : Prop :=
  ∀ (s : State) (c : Setup), s.pinHeld = false → s.setup = some c → s.sts.state = .draining →
    (s.fas.yFin - s.rpl.drainEnd).toNat < 2 ^ 31 → s.rpl.rows = [] → s.sli.chans.length = 16 →
    s.exu.filling = none → s.exu.phase = .idle →
    ∃ t : State, exec .endOfDrain s = .next t ∧
      t.sts = { s.sts with state := if s.exu.detachPending = true then .detached else .idle } ∧
      t.exu.detachPending = false ∧
      (∀ k < 16, (t.sli.chan k).queue = [] ∧ (t.sli.chan k).dropping = false ∧ (t.sli.chan k).cutLine = none ∧
        (t.sli.chan k).state = (if (disableSets s.oru.table).any (fun d => d.getLsbD k) = true then .off
                                else (s.sli.chan k).state)) ∧
      t.sli.la = s.sli.la ∧ t.sli.mask = s.sli.mask ∧
      t.fas = { s.fas with blobs := [], dense := none, yFin := yOf s.pos c.pitch s.sli.la } ∧
      t.rbm = { s.rbm with flaws := [], unseen := [], folding := false } ∧
      t.stu = { s.stu with current := { s.stu.current with
        unplaced := s.stu.current.unplaced +
          BitVec.ofNat 64 (s.rbm.flaws.length + (s.rbm.unseen.map Interval.folded).sum) } } ∧
      t.oru = { s.oru with table := s.oru.table.filter (fun e => e.disable?.isNone && !e.isStop) } ∧
      (∀ e, s.oru.table = [e] → e.work = .stop →
        t.host = s.host.writeStatus ⟨e.addr, e.notify, 2, 0, []⟩ ∧ t.oru.table = []) ∧
      t.rpl = s.rpl ∧ t.cgc = s.cgc ∧ t.grd = s.grd ∧ t.setup = s.setup ∧ t.pos = s.pos ∧ t.inputs = s.inputs

/-- An accepted CHANNEL order (R31 to R33): each enabled channel that is OFF or FAULTED becomes SETTLING, ACTIVE when
settle_lines is 0, or FAULTED while its link reports loss of signal, and the others of the set stay; a disable set acts
at once in IDLE and waits in the table with effect line L_a in RUNNING and DRAINING. A refused one changes no channel. -/
def Obligations.ChannelEnablesAndDisables : Prop :=
  ∀ (s : State) (c : Setup) (b : Block) (en dis : BitVec 16), s.pinHeld = false → s.sts.state.live = true →
    s.exu.phase = .order b → b.body = .channel en dis → s.setup = some c → s.sli.chans.length = 16 →
    ((en &&& dis ≠ 0 ∨ ∃ k < 16, (en ||| dis).getLsbD k = true ∧ (geomAt c.geom k).installed = false) →
      exec .channel s = .next ((s.cursorTo b).writeStatus ⟨b.addr, b.notify, 3, 4, []⟩)) ∧
    (en &&& dis = 0 → (∀ k < 16, (en ||| dis).getLsbD k = true → (geomAt c.geom k).installed = true) →
      ∃ t : State, exec .channel s = .next t ∧
        (∀ k < 16,
          let old := s.sli.chan k
          let new := t.sli.chan k
          (en.getLsbD k = true → old.state.takesWords = true → new = old) ∧
          (en.getLsbD k = true → old.state.takesWords = false → s.inputs.linkLost.getLsbD k = true →
            new.state = .faulted ∧ new.why = some .linkLost) ∧
          (en.getLsbD k = true → old.state.takesWords = false → s.inputs.linkLost.getLsbD k = false →
            new.state = (if c.settleLines = 0 then .active else .settling) ∧ new.settle = 0 ∧ new.why = none) ∧
          (en.getLsbD k = false → dis.getLsbD k = false → new = old) ∧
          (dis.getLsbD k = true → s.sts.state = .idle → new.state = .off) ∧
          (dis.getLsbD k = true → s.sts.state ≠ .idle → new = old)) ∧
        (dis = 0 ∨ s.sts.state = .idle → t.oru = s.oru ∧
          t.host = s.host.writeStatus ⟨b.addr, b.notify, 2, 0, []⟩) ∧
        (dis ≠ 0 → s.sts.state ≠ .idle →
          t.oru.table = s.oru.table ++ [⟨b.tag, s.oru.nextTake, b.addr, b.notify, .channel dis s.sli.la⟩] ∧
          t.oru.nextTake = nextId s.oru.nextTake ∧
          t.host = s.host.writeStatus ⟨b.addr, b.notify, 1, 0, [s.oru.nextTake.toNat]⟩) ∧
        t.sts = s.sts ∧ t.sli.la = s.sli.la ∧ t.sli.mask = s.sli.mask ∧ t.setup = s.setup ∧ t.pos = s.pos ∧
        t.fas = s.fas ∧ t.rbm = s.rbm ∧ t.rpl = s.rpl ∧ t.cgc = s.cgc ∧ t.grd = s.grd ∧ t.stu = s.stu)

/-- An accepted LOAD MASK (R30): the SETUP entries stay, the RUN entries become those of the order, in order, and only
the order's status is written. Refused with BAD_VALUE it leaves the table. -/
def Obligations.LoadMaskReplacesRunEntries : Prop :=
  ∀ (s : State) (c : Setup) (b : Block) (es : List MaskSpec), s.pinHeld = false → s.sts.state.live = true →
    s.exu.phase = .order b → b.body = .loadMask es → s.sli.mask.length = 32 →
    let kept := (validMasks s.sli.mask).filter (fun m => m.origin = .setup)
    (s.setup = none → exec .loadMask s = .next ((s.cursorTo b).writeStatus ⟨b.addr, b.notify, 3, 4, []⟩)) ∧
    (s.setup = some c → ((∃ m ∈ es, maskOk c.geom m = false) ∨ 32 < kept.length + es.length) →
      exec .loadMask s = .next ((s.cursorTo b).writeStatus ⟨b.addr, b.notify, 3, 4, []⟩)) ∧
    (s.setup = some c → (∀ m ∈ es, maskOk c.geom m = true) → kept.length + es.length ≤ 32 →
      ∃ mask : List (Option MaskEntry),
        exec .loadMask s = .next (State.writeStatus { s.cursorTo b with sli := { s.sli with mask := mask } }
          ⟨b.addr, b.notify, 2, 0, []⟩) ∧
        mask.length = 32 ∧
        (validMasks mask).filter (fun m => m.origin = .setup) = kept ∧
        (validMasks mask).filter (fun m => m.origin = .run) =
          es.map (fun m => ⟨m.channel, m.first, m.last, .run⟩))

/-- LOAD CLASSES (R52) and LOAD SPEC (R134, R135): each refusal in its order with only the status written; accepted, the
class table or the one spec is replaced and nothing else. -/
def Obligations.LoadOrdersReplaceTables : Prop :=
  ∀ (s : State) (b : Block), s.pinHeld = false → s.sts.state.live = true → s.exu.phase = .order b →
    let refused (code : Nat) := (s.cursorTo b).writeStatus ⟨b.addr, b.notify, 3, code, []⟩
    let done : StatusWrite := ⟨b.addr, b.notify, 2, 0, []⟩
    (∀ es, b.body = .loadClasses es →
      let bad := ∃ e ∈ es, e.enabled = true ∧ (e.sizeMax < e.sizeMin ∨ e.required &&& e.excluded ≠ 0)
      (s.sts.state ≠ .idle → exec .loadClasses s = .next (refused 3)) ∧
      (s.sts.state = .idle → bad → exec .loadClasses s = .next (refused 4)) ∧
      (s.sts.state = .idle → ¬bad → exec .loadClasses s = .next
        (State.writeStatus { s.cursorTo b with fas := { s.fas with classes := es } } done))) ∧
    (∀ id q, b.body = .loadSpec id q →
      let bad := 7 < id ∨ q.b2 ≤ q.b1 ∨ q.b3 ≤ q.b2 ∨ 524288 < q.e ∨ 32 < q.ze ∨ 32 < q.zc ∨ q.tb < q.ta ∨
        q.tc < q.tb ∨ 1000 < q.u ∨ ∃ k ∈ q.codes, 7 < k
      let used := (∃ e ∈ s.oru.table, ∃ o, e.work = .cut o ∧ ∃ l ∈ o.lanes, l.spec = id) ∨
        ∃ r ∈ s.rpl.rows, ∃ l ∈ r.lanes, l.spec = id
      (bad → exec .loadSpec s = .next (refused 4)) ∧
      (¬bad → used → exec .loadSpec s = .next (refused 5)) ∧
      (¬bad → ¬used → exec .loadSpec s = .next
        (State.writeStatus { s.cursorTo b with grd := { s.grd with specs := s.grd.specs.set id (some q) } } done)))

/-! ## The Exchange Unit (Chapter 11) -/

/-- A poll that is due and finds the marker (R76, R181, R185 to R187): with room in the table and a link that is not 0
it reads the block, holds an order for its taking, or refuses the block and passes over it; with no block to take and no
page to look for, it writes the mirror words and ends. In an order held, the block's taking is the order's own command
(log 6; the chain start is read by R186, log 7; a link of 1 to 7 names a block at address 0, log 36; the reserved words
after the mirror words are written 0, log 33; the host's own writes are an operand, log 4; a page stock at address 0 is
none, log 57). -/
def Obligations.PollReadsChain : Prop :=
  ∀ (s : State) (host : List HostWrite), s.pinHeld = false → s.sts.state.live = true → s.exu.phase = .idle →
    s.exu.expoll.toNat ≤ (s.pos.us - s.exu.pollTimer).toNat → s.exu.detachDeferred = false →
    (s.sts.state = .idle → s.exu.detachPending = false) →
    let m := s.host.hostWrites host
    let link : Addr := match s.exu.cursor with
      | none => m.readAddr (s.exu.base + 8#64)
      | some a => m.readAddr a
    m.readWord s.exu.base = s.exu.marker →
    (∀ b, s.oru.table.length < 16 → link ≠ 0 → readBlock m (link &&& ~~~7#64) = .inl b →
      exec (.poll host) s = .next
        { s with host := m, exu := { s.exu with pollTimer := s.pos.us, phase := .order b } }) ∧
    (∀ w, s.oru.table.length < 16 → link ≠ 0 → readBlock m (link &&& ~~~7#64) = .inr w →
      (w.status = 3 ∧ (w.reason = 1 ∨ w.reason = 2)) ∧
      ∃ t : State, exec (.poll host) s = .next t ∧ t.exu.cursor = some (link &&& ~~~7#64) ∧ t.exu.phase = .idle ∧
        t.exu.pollTimer = s.pos.us ∧ t.oru = s.oru ∧ t.sts = s.sts ∧ t.setup = s.setup ∧ t.exu.staging = s.exu.staging) ∧
    (16 ≤ s.oru.table.length ∨ link = 0 →
      s.exu.staging = [] ∨ s.exu.filling.isSome = true ∨ s.exu.stockAddr = 0 →
      exec (.poll host) s = .next
        { s with
          host := m.writeBytes (s.exu.base + 0x24#64) s.mirrorBytes
          exu := { s.exu with pollTimer := s.pos.us, phase := .idle } })

/-- The end of a poll whose order has been taken, by a second POLL command (R185, R191; log 6; the host's writes are an
operand, log 4): with records staged and no page filling, the first EMPTY descriptor with an address becomes the filling
page, from index 0 upward, and is marked FILLING, else none; no page is taken from a page stock at address 0 (R194, log
57); then the mirror words are written (R181, log 33) and the poll has ended. -/
def Obligations.PollTakesPage : Prop :=
  ∀ (s : State) (host : List HostWrite), s.pinHeld = false → s.sts.state.live = true → s.exu.phase = .finishing →
    let m := s.host.hostWrites host
    let free (i : Nat) : Prop := m.readWord (s.exu.descriptor i) = 0#32 ∧
      m.readAddr (s.exu.descriptor i + 8#64) &&& ~~~7#64 ≠ 0
    let page (i : Nat) : FillingPage := ⟨i, m.readAddr (s.exu.descriptor i + 8#64) &&& ~~~7#64, 32, 0, none,
      (s.setup.map Setup.flushTime).getD 20⟩
    let looks := s.exu.staging ≠ [] ∧ s.exu.filling = none ∧ s.exu.stockAddr ≠ 0
    (∀ i, looks → i < s.exu.pageCount → free i → (∀ j < i, ¬free j) →
      exec (.poll host) s = .next { s with
        host := (m.writeWord (s.exu.descriptor i) 1).writeBytes (s.exu.base + 0x24#64) s.mirrorBytes
        exu := { s.exu with phase := .idle, filling := some (page i) } }) ∧
    (¬looks ∨ (∀ i < s.exu.pageCount, ¬free i) →
      exec (.poll host) s = .next { s with
        host := m.writeBytes (s.exu.base + 0x24#64) s.mirrorBytes
        exu := { s.exu with phase := .idle } }) ∧
    (∀ i, s.exu.descriptor i = s.exu.stockAddr + BitVec.ofNat 64 (16 * i))

/-- The writing of the oldest staged record into the filling page (R192): a record that fits is stored at the bytes
written and leaves staging, and the page goes on unless it was a SHIFT or a fault-class NOTICE, when the page closes;
one that does not fit closes the page. Closing writes the head, then FILLED; the page sequence rises, the drop counts go
to 0, the PAGE cause is set (the first-record time of a page without a record is a free value, log 28). A REPORT_LOSS
that waits is staged as soon as it fits (R190, log 45). Staging a record (R189): a droppable one is appended while
12,288 bytes hold it and dropped else; an essential one is appended while 16,384 hold it, droppable records evicted
oldest first and no more than it needs, and dropped when none is left; every drop and eviction is counted; the first
essential drop stages REPORT_LOSS. -/
def Obligations.PageRecordWritten : Prop :=
  (∀ (s : State) (p : FillingPage) (r : Staged) (rest : List Staged), s.pinHeld = false → s.sts.state.live = true →
    s.exu.filling = some p → s.exu.staging = r :: rest →
    let head (n size : Nat) (d e first : Word) : List Byte :=
      leBytes 4 (s.exu.pageSeq + 1#32).toNat ++ leBytes 4 n ++ leBytes 4 size ++ leBytes 4 d.toNat ++
      leBytes 4 e.toNat ++ leBytes 4 first.toNat ++ leBytes 8 0
    let filled (m : Memory) : Memory := m.writeBytes (s.exu.stockAddr + BitVec.ofNat 64 (16 * p.index)) (leBytes 4 2)
    let record := s.host.writeBytes (p.addr + BitVec.ofNat 64 p.written) r.bytes
    let next : FillingPage := { p with
      written := p.written + r.body.size
      count := p.count + 1
      firstTime := some (p.firstTime.getD s.pos.us) }
    let paged (e : Exchange) : Exchange := { e with
      pageSeq := s.exu.pageSeq + 1#32, dropDroppable := 0, dropEssential := 0, filling := none
      causes := s.exu.causes ||| 1#4
      messages := s.exu.messages + (if s.exu.ien = true ∧ s.exu.causes.getLsbD 0 = false then 1 else 0) }
    let left : Exchange := { s.exu with staging := rest, filling := some next }
    (s.exu.lossPending = false → p.written + r.body.size ≤ s.exu.pageSize → r.body.closesPage = false →
      exec .pageRecordWrite s = .next { s with host := record, exu := left }) ∧
    (s.exu.lossPending = false → p.written + r.body.size ≤ s.exu.pageSize → r.body.closesPage = true →
      exec .pageRecordWrite s = .next { s with
        host := filled (record.writeBytes p.addr (head next.count next.written s.exu.dropDroppable s.exu.dropEssential
          (p.firstTime.getD s.pos.us)))
        exu := paged left }) ∧
    (s.exu.lossPending = true → p.written + r.body.size ≤ s.exu.pageSize →
      ∃ (e : Exchange) (t : State), exec .pageRecordWrite s = .next t ∧
        (r.body.closesPage = false → t = { s with host := record, exu := e }) ∧
        (r.body.closesPage = true → t = { s with
          host := filled (record.writeBytes p.addr (head next.count next.written e.dropDroppable e.dropEssential
            (p.firstTime.getD s.pos.us)))
          exu := paged e }) ∧
        (16384 < essentialBytes rest + 24 → e = left) ∧
        (essentialBytes rest + 24 ≤ 16384 → ∃ (kept : List Staged) (n : Nat),
          e = { left with
            staging := kept ++ [⟨s.pos.us, .notice (.reportLoss s.exu.dropEssential)⟩]
            dropDroppable := satAdd s.exu.dropDroppable n
            lossPending := false
            lossReported := true } ∧
          stagedBytes kept + 24 ≤ 16384 ∧ (stagedBytes rest + 24 ≤ 16384 → kept = rest))) ∧
    (s.exu.pageSize < p.written + r.body.size →
      exec .pageRecordWrite s = .next { s with
        host := filled (s.host.writeBytes p.addr (head p.count p.written s.exu.dropDroppable s.exu.dropEssential
          (p.firstTime.getD (Config.freeWord s.free))))
        exu := paged s.exu
        free := if p.firstTime = none then s.free + 1 else s.free })) ∧
  (∀ (s : State) (r : Report),
    let held := stagedBytes s.exu.staging
    let dry (x : Staged) : Bool := !x.body.droppable
    let raised (e : Exchange) : Exchange := if r.alerts = true ∧ s.exu.causes.getLsbD 2 = false then
        { e with causes := e.causes ||| 4#4, messages := e.messages + (if s.exu.ien = true then 1 else 0) }
      else e
    (r.droppable = true → held + r.size ≤ 12288 →
      s.report [r] = { s with exu := raised { s.exu with staging := s.exu.staging ++ [⟨s.pos.us, r⟩] } }) ∧
    (r.droppable = true → 12288 < held + r.size →
      s.report [r] = { s with exu := raised { s.exu with dropDroppable := satAdd s.exu.dropDroppable 1 } }) ∧
    (r.droppable = false → held + r.size ≤ 16384 →
      s.report [r] = { s with exu := raised { s.exu with staging := s.exu.staging ++ [⟨s.pos.us, r⟩] } }) ∧
    (r.droppable = false → 16384 < held + r.size → ∃ (kept : List Staged) (n : Nat),
      kept.Sublist s.exu.staging ∧ kept.filter dry = s.exu.staging.filter dry ∧
      kept.filter (fun x => !dry x) = (s.exu.staging.filter (fun x => !dry x)).drop n ∧
      n ≤ (s.exu.staging.filter (fun x => !dry x)).length ∧
      (∀ i < n, 16384 < held + r.size - stagedBytes ((s.exu.staging.filter (fun x => !dry x)).take i)) ∧
      (essentialBytes s.exu.staging + r.size ≤ 16384 → stagedBytes kept + r.size ≤ 16384 ∧
        s.report [r] = { s with exu := raised { s.exu with
          staging := kept ++ [⟨s.pos.us, r⟩], dropDroppable := satAdd s.exu.dropDroppable n } }) ∧
      (16384 < essentialBytes s.exu.staging + r.size →
        n = (s.exu.staging.filter (fun x => !dry x)).length ∧ kept = s.exu.staging.filter dry ∧
        let drops := satAdd s.exu.dropEssential 1
        let pending := s.exu.lossPending = true ∨ s.exu.lossReported = false
        (pending → stagedBytes kept + 24 ≤ 16384 → s.report [r] = { s with exu := raised { s.exu with
          staging := kept ++ [⟨s.pos.us, .notice (.reportLoss drops)⟩]
          dropDroppable := satAdd s.exu.dropDroppable n
          dropEssential := drops, lossPending := false, lossReported := true } }) ∧
        (pending → 16384 < stagedBytes kept + 24 → s.report [r] = { s with exu := raised { s.exu with
          staging := kept, dropDroppable := satAdd s.exu.dropDroppable n
          dropEssential := drops, lossPending := true } }) ∧
        (¬pending → s.report [r] = { s with exu := raised { s.exu with
          staging := kept, dropDroppable := satAdd s.exu.dropDroppable n, dropEssential := drops } }))))

/-- The flush of a page (R192): flush_time after its first record the page is closed: its head is written at its start,
then FILLED into its owner word, the page sequence rises, the drop counts go to 0, and the PAGE cause is set. A page
without a record, or before its time, is left. -/
def Obligations.PageFlushCloses : Prop :=
  ∀ (s : State) (p : FillingPage), s.pinHeld = false → s.sts.state.live = true → s.exu.filling = some p →
    (∀ u, p.firstTime = some u → p.flushMs * 1000 ≤ (s.pos.us - u).toNat →
      ∃ t : State, exec .pageFlush s = .next t ∧
        t.host = (s.host.writeBytes p.addr
          (leBytes 4 (s.exu.pageSeq + 1#32).toNat ++ leBytes 4 p.count ++ leBytes 4 p.written ++
           leBytes 4 s.exu.dropDroppable.toNat ++ leBytes 4 s.exu.dropEssential.toNat ++ leBytes 4 u.toNat ++
           leBytes 8 0)).writeBytes (s.exu.stockAddr + BitVec.ofNat 64 (16 * p.index)) (leBytes 4 2) ∧
        t.exu.filling = none ∧ t.exu.pageSeq = s.exu.pageSeq + 1#32 ∧ t.exu.dropDroppable = 0 ∧
        t.exu.dropEssential = 0 ∧ t.exu.causes = s.exu.causes ||| 1#4 ∧ t.exu.staging = s.exu.staging ∧
        t.exu.messages = s.exu.messages + (if s.exu.ien = true ∧ s.exu.causes.getLsbD 0 = false then 1 else 0) ∧
        { t with exu := s.exu, host := s.host } = s) ∧
    (p.firstTime = none → exec .pageFlush s = .next s) ∧
    (∀ u, p.firstTime = some u → (s.pos.us - u).toNat < p.flushMs * 1000 → exec .pageFlush s = .next s)

/-- The two ways into FAULT (R174, R184, R185, R192, R193): a bus error in IDLE, RUNNING and DRAINING, with cause BUS,
and a due poll that finds another marker than at attach, with cause HEADER. The poll and the filling page are
abandoned, a detach that waited for the poll is dropped, detach pending stays (log 42), and the FAULT cause is set. In
FAULT and DETACHED a bus error changes nothing. A bus error falls between two events, or within the event of the
command that waits next, after a number of word writes that nothing fixes (log 8): the writes before it stand and the
rest is not made (R178). Within the closing of a page the page stays FILLING with part of its head, or all of it (the
first-record time of a page without a record is a free value, log 28), and a detach does not take place (R183), be it
the host's or the one at the end of a drain, which has ended then; within the writing of a record the record stays in
staging; within an order's status the block is not taken and the cursor stays, and the order does nothing else (log
58). -/
def Obligations.FaultIsEntered : Prop :=
  ∀ s : State, s.pinHeld = false →
    let bus := { s.sts with state := .fault, faultCause := .bus }
    let n := Config.busWrites s.free
    let faulted (e : Exchange) : Exchange := { e with
      phase := .idle, filling := none, detachDeferred := false
      causes := s.exu.causes ||| 8#4
      messages := s.exu.messages + (if s.exu.ien = true ∧ s.exu.causes.getLsbD 3 = false then 1 else 0) }
    let between := { s with sts := bus, exu := faulted s.exu }
    (s.sts.state.live = true → ∃ t : State, exec .busError s = .next t ∧
      t.sts = bus ∧ t.exu.filling = none ∧ t.exu.phase = .idle ∧ t.exu.detachDeferred = false ∧
      t.exu.causes.getLsbD 3 = true ∧ t.pos = s.pos ∧ t.setup = s.setup ∧ t.cgc = s.cgc ∧ t.grd = s.grd ∧
      t.inputs = s.inputs ∧ (t.free = s.free ∨ t.free = s.free + 1)) ∧
    (s.sts.state.live = true → s.pending = [] → exec .busError s = .next between) ∧
    (s.sts.state.live = false → exec .busError s = .next s) ∧
    (∀ (c : Instr) (rest : List Instr) (p : FillingPage), s.sts.state.live = true → s.pending = c :: rest →
      s.exu.filling = some p →
      (c = .pageFlush ∧ ∃ u, p.firstTime = some u ∧ p.flushMs * 1000 ≤ (s.pos.us - u).toNat) ∨
        (c = .detach s.exu.ien ∧ s.sts.state = .idle ∧ s.exu.phase = .idle) ∨
        (c = .deferredDetach ∧ s.sts.state = .idle ∧ s.exu.phase = .idle ∧ s.exu.detachDeferred = true) →
      let head := leBytes 4 (s.exu.pageSeq + 1#32).toNat ++ leBytes 4 p.count ++ leBytes 4 p.written ++
        leBytes 4 s.exu.dropDroppable.toNat ++ leBytes 4 s.exu.dropEssential.toNat ++
        leBytes 4 (p.firstTime.getD (Config.freeWord s.free)).toNat ++ leBytes 8 0
      exec .busError s = .next (if n ≤ 8 then
        { between with host := s.host.writeBytes p.addr (head.take (4 * n)), free := s.free + 1 } else between)) ∧
    (∀ (rest : List Instr) (p : FillingPage) (r : Staged) (more : List Staged), s.sts.state.live = true →
      s.pending = .pageRecordWrite :: rest → s.exu.filling = some p → s.exu.staging = r :: more →
      p.written + r.body.size ≤ s.exu.pageSize → r.body.closesPage = false → r.bytes.length % 4 = 0 →
      exec .busError s = .next (if 4 * n < r.bytes.length then { between with
        host := s.host.writeBytes (p.addr + BitVec.ofNat 64 p.written) (r.bytes.take (4 * n)), free := s.free + 1 }
        else between)) ∧
    (∀ (c : Instr) (rest : List Instr) (b : Block), s.sts.state.live = true → s.pending = c :: rest →
      s.exu.phase = .order b →
      c = .setup ∨ c = .start ∨ c = .stop ∨ c = .cut ∨ c = .cancel ∨ c = .channel ∨ c = .loadMask ∨ c = .loadClasses ∨
        c = .loadSpec ∨ c = .closeShift →
      ∃ t : State, exec .busError s = .next t ∧ t.exu.cursor = s.exu.cursor ∧ t.exu.staging = s.exu.staging ∧
        { t with sts := s.sts, exu := s.exu, host := s.host, free := s.free } = s) ∧
    (∀ (rest : List Instr) (b : Block), s.sts.state = .idle → s.pending = .start :: rest → s.exu.phase = .order b →
      b.body = .start → s.setup.isSome = true →
      exec .busError s = .next (if n ≤ 5 then { between with
        host := s.host.writeBytes (b.addr + 0x14#64) (List.replicate (4 * n) 0), free := s.free + 1 } else between)) ∧
    (∀ (rest : List Instr) (p : FillingPage) (e : Entry), s.sts.state = .draining → s.pending = .endOfDrain :: rest →
      s.exu.phase = .idle → s.exu.detachPending = true → s.exu.filling = some p → s.rpl.rows = [] →
      (s.fas.yFin - s.rpl.drainEnd).toNat < 2 ^ 31 → s.oru.table = [e] → e.work = .stop →
      ∃ t : State, exec .busError s = .next t ∧ t.sts = bus ∧ t.exu.detachPending = true ∧
        t.exu.pageSeq = s.exu.pageSeq ∧ t.oru.table = (if n ≤ 14 then [] else [e]) ∧
        t.rbm.flaws = (if n ≤ 14 then [] else s.rbm.flaws) ∧ t.fas.blobs = (if n ≤ 14 then [] else s.fas.blobs) ∧
        t.free = (if n ≤ 14 then s.free + 1 else s.free) ∧
        t.host = (if n ≤ 5 then s.host.writeBytes (e.addr + 0x14#64) (List.replicate (4 * n) 0)
          else if n ≤ 14 then (s.host.writeStatus ⟨e.addr, e.notify, 2, 0, []⟩).writeBytes p.addr
            ((leBytes 4 (s.exu.pageSeq + 1#32).toNat ++ leBytes 4 p.count ++ leBytes 4 p.written ++
              leBytes 4 t.exu.dropDroppable.toNat ++ leBytes 4 t.exu.dropEssential.toNat ++
              leBytes 4 (p.firstTime.getD (Config.freeWord s.free)).toNat ++ leBytes 8 0).take (4 * (n - 6)))
          else s.host)) ∧
    (∀ host : List HostWrite, s.sts.state.live = true → s.exu.phase = .idle →
      s.exu.expoll.toNat ≤ (s.pos.us - s.exu.pollTimer).toNat → s.exu.detachDeferred = false →
      (s.sts.state = .idle → s.exu.detachPending = false) →
      (s.host.hostWrites host).readWord s.exu.base ≠ s.exu.marker →
      ∃ t : State, exec (.poll host) s = .next t ∧ t.sts = { s.sts with state := .fault, faultCause := .header } ∧
        t.exu.causes.getLsbD 3 = true ∧ t.exu.filling = none ∧ t.exu.phase = .idle ∧ t.exu.cursor = s.exu.cursor ∧
        t.exu.pollTimer = s.pos.us ∧ t.exu.staging = s.exu.staging ∧ t.host = s.host.hostWrites host ∧
        t.exu.messages = s.exu.messages + (if s.exu.ien = true ∧ s.exu.causes.getLsbD 3 = false then 1 else 0) ∧
        { t with sts := s.sts, exu := s.exu, host := s.host } = s)

/-! ## The whole machine -/

/-- The part state changes only on the events of R165 and Table 10-7, each by its own command. -/
def Obligations.PartStateTransitions : Prop :=
  ∀ (c : Instr) (s t : State), exec c s = .next t → stateMove c s.sts.state t.sts.state

/-- In FAULT (R175) every block but the Position Unit is frozen until a reset: no command that is not a reset changes
the part state or its causes, the setup, any list, tally or table, the records staged, or host memory beyond what the
host itself writes. -/
def Obligations.FaultFreezesPart : Prop :=
  ∀ (c : Instr) (s t : State), s.sts.state = .fault → isReset c = false → exec c s = .next t →
    t.sts = s.sts ∧ t.setup = s.setup ∧ t.sli = s.sli ∧ t.fas = s.fas ∧ t.rbm = s.rbm ∧ t.oru = s.oru ∧
    t.rpl = s.rpl ∧ t.cgc = s.cgc ∧ t.grd = s.grd ∧ t.stu = s.stu ∧ t.exu.staging = s.exu.staging ∧
    t.exu.filling = s.exu.filling ∧ t.exu.cursor = s.exu.cursor ∧ t.pos.lt = s.pos.lt ∧
    t.pos.ltrigCount = s.pos.ltrigCount ∧
    ((∀ ien host err, c ≠ .attach ien host err) → (∀ host, c ≠ .poll host) → t.host = s.host) ∧
    (∀ ien host err, c = .attach ien host err → t.host = s.host.hostWrites host) ∧
    (∀ host, c = .poll host → t.host = s.host.hostWrites host)

/-- Every step keeps host memory in its canonical form (the form is the model's choice, log 5). -/
def Obligations.MemoryStaysCanonical : Prop :=
  ∀ s t : State, s.host.wf → step s = .next t → t.host.wf

/-- Every step keeps the part empty in DETACHED and IDLE, the rows joined (each begins at the T of the row before it,
the last ends at the frontier), the ports of each order's and each row's lanes distinct and below 4, and a result for
each lane in a computed grade (R34, R54, R70, R71, R78, R94, R98, R109, R145). -/
def Obligations.RowsStayJoined : Prop :=
  ∀ s t : State, s.atRest → s.rowsSound → step s = .next t → t.atRest ∧ t.rowsSound

/-- Every step keeps the channels, queues, mask table, open blobs, flaw list and unseen list (R19, R29, R38, R57, R61),
and the order table, row list, outstanding cuts, ports, specs, staging and EXPOLL (R74, R76, R94, R119, R133, R179,
R189), within their sizes. -/
def Obligations.ListsStayBounded : Prop :=
  ∀ s t : State, step s = .next t → (s.feedBounds → t.feedBounds) ∧ (s.planBounds → t.planBounds)

/-- Every step keeps, in both tallies, the sum of the flaws by class equal to the sum by destination (R69, R154). -/
def Obligations.TalliesStayInAgreement : Prop :=
  ∀ s t : State, s.talliesAgree → step s = .next t → t.talliesAgree

/-- The state after reset meets every invariant stated here. -/
def Obligations.ResetMeetsInvariants : Prop :=
  State.reset.host.wf ∧ State.reset.atRest ∧ State.reset.rowsSound ∧
  State.reset.feedBounds ∧ State.reset.planBounds ∧ State.reset.talliesAgree
end

