-- ==== Sys2Proof/Laws/Lists.lean ====
section
/-! SUPPORT. What the list operations of the blocks do: channels, masks, blobs, flaws, intervals, tallies. -/

namespace Sys2Proof.Machine

/-! ## Lists and sums -/

@[simp] theorem modifyAt_length {α : Type} (f : α → α) : ∀ (i : Nat) (l : List α), (modifyAt i f l).length = l.length
  | _, [] => by simp [modifyAt]
  | 0, _ :: _ => rfl
  | i + 1, _ :: xs => by simp [modifyAt, modifyAt_length f i xs]

theorem modifyAt_getElem? {α : Type} (f : α → α) : ∀ (i k : Nat) (l : List α),
    (modifyAt i f l)[k]? = if k = i then l[k]?.map f else l[k]?
  | _, _, [] => by simp [modifyAt]
  | 0, 0, _ :: _ => by simp [modifyAt]
  | 0, k + 1, _ :: _ => by simp [modifyAt]
  | i + 1, 0, _ :: _ => by simp [modifyAt]
  | i + 1, k + 1, _ :: xs => by simp [modifyAt, modifyAt_getElem? f i k xs]

/-- Adding n at a place of a list adds n to its sum. -/
theorem modifyAt_add64_sum (n : Nat) : ∀ (i : Nat) (l : List (BitVec 64)), i < l.length →
    (modifyAt i (fun c => add64 c n) l).sum = l.sum + BitVec.ofNat 64 n
  | _, [], h => absurd h (by simp)
  | 0, x :: xs, _ => by simp [modifyAt, add64]; ac_rfl
  | i + 1, x :: xs, h => by
    simp [modifyAt, modifyAt_add64_sum n i xs (by simpa using h)]; ac_rfl

/-! ## Channels -/

theorem Intake.chan_setChan (i : Intake) (k j : Nat) (c : Channel) (h : k < i.chans.length) :
    (i.setChan k c).chan j = if j = k then c else i.chan j := by
  unfold Intake.setChan Intake.chan
  simp only [List.getD_eq_getElem?_getD, List.getElem?_set]
  by_cases hj : j = k
  · subst hj; simp [h]
  · simp [hj, Ne.symm hj]

@[simp] theorem Intake.setChan_la (i : Intake) (k : Nat) (c : Channel) : (i.setChan k c).la = i.la := rfl
@[simp] theorem Intake.setChan_mask (i : Intake) (k : Nat) (c : Channel) : (i.setChan k c).mask = i.mask := rfl
@[simp] theorem Intake.setChan_length (i : Intake) (k : Nat) (c : Channel) :
    (i.setChan k c).chans.length = i.chans.length := by simp [Intake.setChan]

/-- Turning OFF one channel of a list. -/
theorem turnOffFrom_cons (names : Nat → Bool) (line : Line) (k : Nat) (c : Channel) (cs : List Channel) :
    (turnOffFrom names line k (c :: cs)).1 =
      (if names k = true ∧ c.state ≠ .off then c.toOff else c) :: (turnOffFrom names line (k + 1) cs).1 := by
  simp only [turnOffFrom]
  by_cases h : names k = true ∧ c.state ≠ .off
  · rw [if_pos h, if_pos (by simpa using h)]
  · rw [if_neg h, if_neg (by simpa using h)]

/-- Turning channels OFF, channel by channel. -/
theorem turnOffFrom_getElem? (names : Nat → Bool) (line : Line) : ∀ (k : Nat) (cs : List Channel) (i : Nat),
    (turnOffFrom names line k cs).1[i]? =
      cs[i]?.map (fun c => if names (k + i) = true ∧ c.state ≠ .off then c.toOff else c)
  | _, [], _ => by simp [turnOffFrom]
  | k, c :: cs, i => by
    rw [turnOffFrom_cons]
    cases i with
    | zero => simp
    | succ i =>
      have e : k + 1 + i = k + (i + 1) := by omega
      simp [turnOffFrom_getElem? names line (k + 1) cs i, e]

@[simp] theorem turnOffFrom_length (names : Nat → Bool) (line : Line) : ∀ (k : Nat) (cs : List Channel),
    (turnOffFrom names line k cs).1.length = cs.length
  | _, [] => rfl
  | k, c :: cs => by rw [turnOffFrom_cons]; simp [turnOffFrom_length names line (k + 1) cs]

@[simp] theorem turnOffSets_length (line : Line) : ∀ (ds : List (BitVec 16)) (cs : List Channel),
    (turnOffSets line cs ds).1.length = cs.length
  | [], _ => rfl
  | d :: ds, cs => by simp [turnOffSets, turnOffSets_length line ds]

@[simp] theorem Channel.toOff_toOff (c : Channel) : c.toOff.toOff = c.toOff := rfl
@[simp] theorem Channel.toOff_state (c : Channel) : c.toOff.state = .off := rfl

/-- Turning the channels of several sets OFF, channel by channel. -/
theorem turnOffSets_getElem? (line : Line) : ∀ (ds : List (BitVec 16)) (cs : List Channel) (i : Nat),
    (turnOffSets line cs ds).1[i]? =
      cs[i]?.map (fun c => if ds.any (fun d => d.getLsbD i) = true ∧ c.state ≠ .off then c.toOff else c)
  | [], cs, i => by simp [turnOffSets]
  | d :: ds, cs, i => by
    simp only [turnOffSets, turnOffSets_getElem? line ds, turnOffFrom_getElem?, Option.map_map, List.any_cons,
      Nat.zero_add, inSet]
    cases cs[i]? with
    | none => rfl
    | some c =>
      simp only [Option.map_some, Function.comp_def, Option.some.injEq]
      by_cases hd : d.getLsbD i = true <;> by_cases hs : ds.any (fun d => d.getLsbD i) = true <;>
        by_cases ho : c.state = .off <;> simp [hd, hs, ho]

@[simp] theorem judgeFrom_length (la : Line) : ∀ (k : Nat) (cs : List Channel) (gs : List Geometry),
    (judgeFrom la k cs gs).length = cs.length
  | _, [], _ => rfl
  | k, c :: cs, gs => by simp [judgeFrom, judgeFrom_length la (k + 1) cs]

/-- The judgments of a line, channel by channel. -/
theorem judgeFrom_getElem? (la : Line) : ∀ (k : Nat) (cs : List Channel) (gs : List Geometry) (i : Nat),
    (judgeFrom la k cs gs)[i]? = cs[i]?.map (fun c => c.judge (k + i) (geomAt gs i).n la)
  | _, [], _, _ => by simp [judgeFrom]
  | k, c :: cs, gs, i => by
    cases i with
    | zero => simp [judgeFrom]
    | succ i =>
      have e : k + 1 + i = k + (i + 1) := by omega
      have g : geomAt gs.tail i = geomAt gs (i + 1) := by cases gs <;> simp [geomAt]
      simp [judgeFrom, judgeFrom_getElem? la (k + 1) cs gs.tail i, e, g]

@[simp] theorem settleFrom_length (n : Nat) (la : Line) : ∀ (k : Nat) (cs : List Channel),
    (settleFrom n la k cs).1.length = cs.length
  | _, [] => rfl
  | k, c :: cs => by simp [settleFrom, settleFrom_length n la (k + 1) cs]

/-- The settle counts of a line, channel by channel. -/
theorem settleFrom_getElem? (n : Nat) (la : Line) : ∀ (k : Nat) (cs : List Channel) (i : Nat),
    (settleFrom n la k cs).1[i]? = cs[i]?.map (fun c => (c.settleLine n (k + i) la).1)
  | _, [], _ => by simp [settleFrom]
  | k, c :: cs, i => by
    cases i with
    | zero => simp [settleFrom]
    | succ i =>
      have e : k + 1 + i = k + (i + 1) := by omega
      simp [settleFrom, settleFrom_getElem? n la (k + 1) cs i, e]

@[simp] theorem discardStaleFrom_length (la : Line) : ∀ (k : Nat) (cs : List Channel),
    (discardStaleFrom la k cs).1.length = cs.length
  | _, [] => rfl
  | k, c :: cs => by simp [discardStaleFrom, discardStaleFrom_length la (k + 1) cs]

/-- The head discards, channel by channel. -/
theorem discardStaleFrom_getElem? (la : Line) : ∀ (k : Nat) (cs : List Channel) (i : Nat),
    (discardStaleFrom la k cs).1[i]? = cs[i]?.map (fun c => (c.discardStale (k + i) la).1)
  | _, [], _ => by simp [discardStaleFrom]
  | k, c :: cs, i => by
    cases i with
    | zero => simp [discardStaleFrom]
    | succ i =>
      have e : k + 1 + i = k + (i + 1) := by omega
      simp [discardStaleFrom, discardStaleFrom_getElem? la (k + 1) cs i, e]

/-- A head discard leaves a part of the queue, from its end. -/
theorem dropStale_suffix (k : Nat) (la : Line) : ∀ (q : List ScanWord) (st : Option Line),
    (dropStale k la q st).1 <:+ q
  | [], _ => List.suffix_refl _
  | w :: q, st => by
    unfold dropStale
    split
    · exact List.suffix_refl _
    · split
      · exact (dropStale_suffix k la q _).trans (List.suffix_cons _ _)
      · exact (dropStale_suffix k la q _).trans (List.suffix_cons _ _)

@[simp] theorem Channel.discardStale_state (k : Nat) (la : Line) (c : Channel) :
    (c.discardStale k la).1.state = c.state := rfl
@[simp] theorem Channel.discardStale_settle (k : Nat) (la : Line) (c : Channel) :
    (c.discardStale k la).1.settle = c.settle := rfl

theorem Channel.discardStale_queue (k : Nat) (la : Line) (c : Channel) :
    (c.discardStale k la).1.queue.length ≤ c.queue.length := (dropStale_suffix k la c.queue c.staleLine).length_le

theorem splitRuns_length : ∀ q : List ScanWord, (splitRuns q).2.length ≤ q.length
  | [] => Nat.le_refl _
  | w :: q => by
    unfold splitRuns
    split
    · exact Nat.le_succ_of_le (splitRuns_length q)
    · exact Nat.le_refl _

/-- Consuming a line changes only the queue, which never grows, and the cut line. -/
theorem Channel.consume_spec (la : Line) (c : Channel) :
    ∃ q l, c.consume la = { c with queue := q, cutLine := l } ∧ q.length ≤ c.queue.length := by
  unfold Channel.consume
  dsimp only
  generalize (if c.cutLine = some la then none else c.cutLine) = l
  split
  · rename_i m q h
    split
    · refine ⟨_, _, rfl, ?_⟩
      have := splitRuns_length q
      rw [h]
      unfold consumeSegment
      split
      · rename_i w rest e
        rw [e] at this
        split <;> simp_all <;> omega
      · simp
    · exact ⟨c.queue, l, rfl, Nat.le_refl _⟩
  · exact ⟨c.queue, l, rfl, Nat.le_refl _⟩

theorem Channel.consume_queue (la : Line) (c : Channel) : (c.consume la).queue.length ≤ c.queue.length := by
  obtain ⟨q, l, h, hq⟩ := c.consume_spec la
  rw [h]; exact hq

@[simp] theorem Channel.consume_state (la : Line) (c : Channel) : (c.consume la).state = c.state := by
  obtain ⟨q, l, h, _⟩ := c.consume_spec la
  rw [h]

@[simp] theorem Channel.consume_settle (la : Line) (c : Channel) : (c.consume la).settle = c.settle := by
  obtain ⟨q, l, h, _⟩ := c.consume_spec la
  rw [h]

/-- The judgment of a channel never lengthens its queue. -/
theorem Channel.judge_queue (k n : Nat) (la : Line) (c : Channel) :
    (c.judge k n la).chan.queue.length ≤ c.queue.length := by
  have := c.consume_queue la
  unfold Channel.judge
  cases c.state <;> simp only <;> (try split) <;> first | exact Nat.le_refl _ | simpa using this

/-- A word that arrives leaves at most 512 words. -/
theorem Channel.arrive_queue (w : ScanWord) (c : Channel) (h : c.queue.length ≤ 512) :
    (c.arrive w).1.queue.length ≤ 512 := by
  unfold Channel.arrive
  split
  · split
    · simp_all [queueLimit]
    · simpa [Channel.overflow] using h
  · split
    · exact h
    · split
      · simp_all [queueLimit]
      · simpa [Channel.overflow] using h

/-! ## The mask table -/

@[simp] theorem fillMask_length : ∀ (ms : List (Option MaskEntry)) (es : List MaskEntry),
    (fillMask ms es).length = ms.length
  | [], _ => rfl
  | m :: ms, [] => by simp [fillMask, fillMask_length ms []]
  | some m :: ms, e :: es => by simp [fillMask, fillMask_length ms (e :: es)]
  | none :: ms, e :: es => by simp [fillMask, fillMask_length ms es]

@[simp] theorem clearMask_length (o : MaskOrigin) (ms : List (Option MaskEntry)) :
    (clearMask o ms).length = ms.length := by simp [clearMask]

/-! ## Blobs -/

@[simp] theorem insertBlob_length (b : Blob) : ∀ l : List Blob, (insertBlob b l).length = l.length + 1
  | [] => rfl
  | c :: cs => by
    unfold insertBlob
    split
    · simp
    · simp [insertBlob_length b cs]

theorem mem_insertBlob (b x : Blob) : ∀ l : List Blob, x ∈ insertBlob b l ↔ x = b ∨ x ∈ l
  | [] => by simp [insertBlob]
  | c :: cs => by
    unfold insertBlob
    split
    · simp
    · simp [mem_insertBlob b x cs]; tauto

/-- One run leaves at most 256 blobs. -/
theorem Assembler.takeRun_length (c : Setup) (la : Line) (y : Pos) (f : Assembler) (r : PlacedRun)
    (h : f.blobs.length ≤ 256) : (f.takeRun c la y r).1.blobs.length ≤ 256 := by
  unfold Assembler.takeRun
  split
  · split
    · simp_all [blobLimit]
    · unfold Assembler.toDense; split <;> exact h
  · simpa using h
  · rename_i b bs _ hn
    have hb : b ∈ f.blobs := List.mem_of_mem_filter (by rw [hn]; exact List.mem_cons_self)
    have hlt : (f.blobs.filter (fun x => !((b :: bs).map Blob.id).contains x.id)).length < f.blobs.length :=
      List.length_filter_lt_length_iff_exists.2 ⟨b, hb, by simp⟩
    simp only [insertBlob_length]
    omega

theorem Assembler.takeRuns_length (c : Setup) (la : Line) (y : Pos) : ∀ (rs : List HandedRun) (f : Assembler),
    f.blobs.length ≤ 256 → (f.takeRuns c la y rs).1.blobs.length ≤ 256
  | [], _, h => h
  | r :: rs, f, h => Assembler.takeRuns_length c la y rs _ (f.takeRun_length c la y (placeRun c.geom r) h)

@[simp] theorem Assembler.takeRun_classes (c : Setup) (la : Line) (y : Pos) (f : Assembler) (r : PlacedRun) :
    (f.takeRun c la y r).1.classes = f.classes := by
  unfold Assembler.takeRun
  split
  · split
    · rfl
    · unfold Assembler.toDense; split <;> rfl
  · rfl
  · rfl

@[simp] theorem Assembler.takeRuns_classes (c : Setup) (la : Line) (y : Pos) : ∀ (rs : List HandedRun) (f : Assembler),
    (f.takeRuns c la y rs).1.classes = f.classes
  | [], _ => rfl
  | r :: rs, f => by simp [Assembler.takeRuns, Assembler.takeRuns_classes c la y rs]

/-- A class number lies below 15 where the table has its 14 entries. -/
theorem classify_le (modes : BitVec 3) (size peak elong : Nat) : ∀ (es : List ClassEntry) (n : Nat),
    n + es.length ≤ 14 → classify modes size peak elong n es ≤ 14
  | [], n, _ => Nat.le_refl _
  | e :: es, n, h => by
    unfold classify
    split
    · simp at h; omega
    · exact classify_le modes size peak elong es (n + 1) (by simp at h; omega)

/-- The finality line is L_a or the first line of an open blob, and no first line lies further back, where all of them
lie within 2^23 lines of L_a (R50). -/
theorem frontLine_spec (bs : List Blob) : ∀ (la0 m0 : Line),
    let m := bs.foldl (fun m b => earlierLine m b.first) m0
  (m = m0 ∨ ∃ b ∈ bs, b.first = m) ∧
  ((la0 - m0).toNat < 2^23 → (∀ b ∈ bs, (la0 - b.first).toNat < 2 ^ 23) →
    (la0 - m0).toNat ≤ (la0 - m).toNat ∧ (la0 - m).toNat < 2^23 ∧ ∀ b ∈ bs, (la0 - b.first).toNat ≤ (la0 - m).toNat) := by
  induction bs with
  | nil => intro la0 m0; simp
  | cons b bs ih =>
    intro la0 m0
    have h1 : earlierLine m0 b.first = m0 ∨ earlierLine m0 b.first = b.first := by unfold earlierLine; split <;> simp
    obtain ⟨i1, i2⟩ := ih la0 (earlierLine m0 b.first)
    simp only [List.foldl_cons]
    refine ⟨?_, ?_⟩
    · rcases i1 with i | ⟨x, hx, i⟩
      · rcases h1 with h | h
        · left; rw [i, h]
        · right; exact ⟨b, by simp, by rw [i, h]⟩
      · right; exact ⟨x, by simp [hx], i⟩
    · intro h0 hb
      have hb0 := hb b (by simp)
      have key : (la0 - earlierLine m0 b.first).toNat < 2^23 ∧
          (la0 - m0).toNat ≤ (la0 - earlierLine m0 b.first).toNat ∧ (la0 - b.first).toNat ≤ (la0 - earlierLine m0 b.first).toNat := by
        unfold earlierLine lineAfter
        generalize b.first = n at *
        have e : m0 - n = (la0 - n) - (la0 - m0) := by abel
        have ho := BitVec.toNat_sub (la0 - n) (la0 - m0)
        rw [← e] at ho
        have hB := (la0 - n).isLt
        have hA := (la0 - m0).isLt
        by_cases hc : 1 ≤ (m0 - n).toNat ∧ (m0 - n).toNat ≤ 2 ^ 23 - 1
        · rw [if_pos (by simpa using hc)]
          generalize (m0 - n).toNat = D at *
          generalize (la0 - n).toNat = B at *
          generalize (la0 - m0).toNat = A at *
          omega
        · rw [if_neg (by simpa using hc)]
          generalize (m0 - n).toNat = D at *
          generalize (la0 - n).toNat = B at *
          generalize (la0 - m0).toNat = A at *
          omega
      obtain ⟨k1, k2, k3⟩ := key
      obtain ⟨j1, j2, j3⟩ := i2 k1 (fun x hx => hb x (by simp [hx]))
      refine ⟨by omega, j2, ?_⟩
      intro x hx
      rcases List.mem_cons.1 hx with rfl | hx
      · omega
      · exact j3 x hx

/-! ## Flaws and intervals -/

@[simp] theorem insertFlaw_length (f : Flaw) : ∀ l : List Flaw, (insertFlaw f l).length = l.length + 1
  | [] => rfl
  | g :: gs => by
    unfold insertFlaw
    split
    · simp [insertFlaw_length f gs]
    · simp

theorem mem_insertFlaw (f x : Flaw) : ∀ l : List Flaw, x ∈ insertFlaw f l ↔ x = f ∨ x ∈ l
  | [] => by simp [insertFlaw]
  | g :: gs => by
    unfold insertFlaw
    split
    · simp [mem_insertFlaw f x gs]; tauto
    · simp

@[simp] theorem insertInterval_length (i : Interval) : ∀ l : List Interval, (insertInterval i l).length = l.length + 1
  | [] => rfl
  | j :: js => by
    unfold insertInterval
    split
    · simp
    · simp [insertInterval_length i js]

theorem lastWhere_lt (p : Interval → Bool) : ∀ (l : List Interval) (n : Nat) (i : Interval),
    lastWhere p l = some (n, i) → n < l.length ∧ l[n]? = some i ∧ p i = true
  | [], _, _, h => by simp [lastWhere] at h
  | j :: js, n, i, h => by
    unfold lastWhere at h
    split at h
    · rename_i m k e
      cases h
      have := lastWhere_lt p js m i e
      simpa using this
    · split at h
      · cases h; simp_all
      · cases h

/-- Replacing an interval of the list keeps the length of the list. -/
theorem replaceInterval_length (n : Nat) (old new : Interval) (l : List Interval) (h : n < l.length) :
    (replaceInterval n old new l).length = l.length := by
  unfold replaceInterval
  split
  · simp
  · rw [insertInterval_length, List.length_eraseIdx_of_lt h]; omega

/-- The map keeps all but the unseen list and the full flag, and the unseen list its size. -/
def RibbonMap.unseenOnly (m n : RibbonMap) : Prop :=
  n.flaws = m.flaws ∧ n.retiredEdge = m.retiredEdge ∧ n.installedWidth = m.installedWidth ∧ n.folding = m.folding ∧
  n.unseen.length ≤ 256

/-- Entering an interval touches only the unseen list and the full flag. -/
theorem RibbonMap.enter_spec (i : Interval) (m : RibbonMap) (h : m.unseen.length ≤ 256) : m.unseenOnly (m.enter i).1 := by
  unfold RibbonMap.enter
  split
  · rename_i hl
    refine ⟨rfl, rfl, rfl, rfl, ?_⟩
    rw [insertInterval_length]; exact hl
  · split
    · exact ⟨rfl, rfl, rfl, rfl, h⟩
    · rename_i hl _ _ _
      refine ⟨rfl, rfl, rfl, rfl, ?_⟩
      rw [replaceInterval_length]
      · exact h
      · unfold unseenLimit at hl; omega

/-- A span touches only the unseen list and the full flag. -/
theorem RibbonMap.takeSpan_spec (y : Pos) (pitch : Nat) (m : RibbonMap) (sp : Span) (h : m.unseen.length ≤ 256) :
    m.unseenOnly (m.takeSpan y pitch sp).1 := by
  unfold RibbonMap.takeSpan
  dsimp only
  split
  · exact ⟨rfl, rfl, rfl, rfl, h⟩
  · split
    · exact ⟨rfl, rfl, rfl, rfl, by simpa using h⟩
    · exact m.enter_spec _ h

/-- The spans of a line touch only the unseen list and the full flag. -/
theorem RibbonMap.takeSpans_spec (y : Pos) (pitch : Nat) : ∀ (sps : List Span) (m : RibbonMap), m.unseen.length ≤ 256 →
    m.unseenOnly (m.takeSpans y pitch sps).1
  | [], _, h => ⟨rfl, rfl, rfl, rfl, h⟩
  | sp :: sps, m, h => by
    obtain ⟨a1, a2, a3, a4, a5⟩ := m.takeSpan_spec y pitch sp h
    obtain ⟨b1, b2, b3, b4, b5⟩ := RibbonMap.takeSpans_spec y pitch sps _ a5
    exact ⟨b1.trans a1, b2.trans a2, b3.trans a3, b4.trans a4, b5⟩

/-- What RBM does with a flaw: late, inserted or folded. -/
theorem RibbonMap.takeFlaw_cases (f : Flaw) (m : RibbonMap) :
    (m.late f = true ∧ m.takeFlaw f = (m, [.notice (.lateFlaw f.id f.yCenter m.retiredEdge)])) ∨
    (m.late f = false ∧ m.flaws.length < 4096 ∧
      m.takeFlaw f = ({ m with flaws := insertFlaw f m.flaws, folding := false }, [])) ∨
    (m.late f = false ∧ 4096 ≤ m.flaws.length ∧ m.takeFlaw f = m.fold f) := by
  unfold RibbonMap.takeFlaw
  by_cases h : m.late f = true
  · simp [h]
  · by_cases g : m.flaws.length < 4096
    · simp [h, g, flawLimit]
    · simp [h, g, flawLimit]; omega

/-- Folding keeps the flaw list and the retired edge and leaves at most 256 intervals. -/
theorem RibbonMap.fold_spec (f : Flaw) (m : RibbonMap) (h : m.unseen.length ≤ 256) :
    (m.fold f).1.flaws = m.flaws ∧ (m.fold f).1.retiredEdge = m.retiredEdge ∧
    (m.fold f).1.installedWidth = m.installedWidth ∧ (m.fold f).1.unseen.length ≤ 256 := by
  have key : ∀ (e : RibbonMap × List Report) (rs : List Report),
      (e.1.flaws = m.flaws ∧ e.1.retiredEdge = m.retiredEdge ∧ e.1.installedWidth = m.installedWidth ∧
        e.1.unseen.length ≤ 256) →
      let r := if m.folding = true then e else ({ e.1 with folding := true }, rs)
      r.1.flaws = m.flaws ∧ r.1.retiredEdge = m.retiredEdge ∧ r.1.installedWidth = m.installedWidth ∧
        r.1.unseen.length ≤ 256 := by
    intro e rs he
    dsimp only
    split <;> exact he
  refine key _ _ ?_
  split
  · rename_i n i e
    have := (lastWhere_lt _ _ _ _ e).1
    exact ⟨rfl, rfl, rfl, by simpa [replaceInterval_length _ _ _ _ this] using h⟩
  · obtain ⟨e1, e2, e3, _, e5⟩ :=
      m.enter_spec ⟨none, m.installedWidth.1, m.installedWidth.2, f.yTop, f.yBottom, .saturated, 1, false⟩ h
    exact ⟨e1, e2, e3, e5⟩

/-- A flaw keeps the retired edge and the sizes of both lists. -/
theorem RibbonMap.takeFlaw_spec (f : Flaw) (m : RibbonMap) (h : m.unseen.length ≤ 256) (g : m.flaws.length ≤ 4096) :
    (m.takeFlaw f).1.retiredEdge = m.retiredEdge ∧ (m.takeFlaw f).1.unseen.length ≤ 256 ∧
    (m.takeFlaw f).1.flaws.length ≤ 4096 ∧ ∀ w ∈ (m.takeFlaw f).1.flaws, w = f ∨ w ∈ m.flaws := by
  rcases m.takeFlaw_cases f with ⟨_, e⟩ | ⟨_, l, e⟩ | ⟨_, _, e⟩
  · rw [e]; exact ⟨rfl, h, g, fun w hw => .inr hw⟩
  · rw [e]; exact ⟨rfl, h, by simp; omega, fun w hw => (mem_insertFlaw f w m.flaws).1 hw⟩
  · have s := m.fold_spec f h
    rw [e]; exact ⟨s.2.1, s.2.2.2, by rw [s.1]; exact g, fun w hw => .inr (by rwa [s.1] at hw)⟩

/-! ## Tallies -/

/-- A contribution by tag goes to the current tally, to the closing tally, or nowhere. -/
theorem TallyUnit.toTag_cases (tag : Word) (f : Tally → Tally) (u : TallyUnit) :
    (u.current.shiftId = tag ∧ u.toTag tag f = { u with current := f u.current }) ∨
    (u.current.shiftId ≠ tag ∧ ∃ t, u.closing = some t ∧ t.shiftId = tag ∧
      u.toTag tag f = { u with closing := some (f t) }) ∨
    (u.current.shiftId ≠ tag ∧ (∀ t, u.closing = some t → t.shiftId ≠ tag) ∧ u.toTag tag f = u) := by
  unfold TallyUnit.toTag
  by_cases h : u.current.shiftId = tag
  · exact .inl ⟨h, by simp [h]⟩
  · cases hc : u.closing with
    | none => exact .inr (.inr ⟨h, by simp, by simp [h]⟩)
    | some t =>
      by_cases g : t.shiftId = tag
      · exact .inr (.inl ⟨h, t, rfl, g, by simp [h, g]⟩)
      · exact .inr (.inr ⟨h, by simp [g], by simp [h, g]⟩)

/-- A flaw retired adds one to the sum by class and one to the sum by destination. -/
theorem Tally.addFlaw_sums (t : Tally) (f : Flaw) (hc : f.cls < t.flawsByClass.length) (hd : t.flawsTo.length = 3) :
    (t.addFlaw f).flawsByClass.sum = t.flawsByClass.sum + 1#64 ∧
    (t.addFlaw f).flawsTo.sum = t.flawsTo.sum + 1#64 := by
  have d : f.assignment.dest < t.flawsTo.length := by rw [hd]; cases f.assignment <;> simp [Assignment.dest]
  exact ⟨modifyAt_add64_sum 1 _ _ hc, modifyAt_add64_sum 1 _ _ d⟩

@[simp] theorem Tally.addFlaw_shiftId (t : Tally) (f : Flaw) : (t.addFlaw f).shiftId = t.shiftId := rfl
@[simp] theorem Tally.addFolded_shiftId (n : Nat) (t : Tally) : (t.addFolded n).shiftId = t.shiftId := rfl
@[simp] theorem Tally.addUnplaced_shiftId (n : Nat) (t : Tally) : (t.addUnplaced n).shiftId = t.shiftId := rfl
@[simp] theorem Tally.addLost_shiftId (n : Nat) (t : Tally) : (t.addLost n).shiftId = t.shiftId := rfl

/-! ## Places in the lists of the map (R58, R61, R62) -/

/-- Where an interval is entered: after those whose y_start it reaches (R61). -/
theorem insertInterval_spec (i : Interval) : ∀ l : List Interval, ∃ front back, l = front ++ back ∧
    insertInterval i l = front ++ i :: back ∧ (∀ k ∈ front, (i.yStart - k.yStart).toNat < 2 ^ 31) ∧
    ∀ k ∈ back.head?, 2 ^ 31 ≤ (i.yStart - k.yStart).toNat
  | [] => ⟨[], [], rfl, rfl, by simp, by simp⟩
  | j :: js => by
    unfold insertInterval
    by_cases h : before i.yStart j.yStart = true
    · simp only [h, if_true]
      refine ⟨[], j :: js, rfl, rfl, by simp, ?_⟩
      simp [before, reaches] at h ⊢; exact h
    · obtain ⟨f, b, h1, h2, h3, h4⟩ := insertInterval_spec i js
      simp only [h]
      refine ⟨j :: f, b, by simp [← h1], by simp [h2], ?_, h4⟩
      intro k hk
      simp at hk
      rcases hk with rfl | hk
      · simpa only [before, reaches, Bool.not_eq_true', decide_eq_false_iff_not, Decidable.not_not] using h
      · exact h3 k hk

/-- Where a flaw is inserted: after those whose y_center it reaches (R58). -/
theorem insertFlaw_spec (f : Flaw) : ∀ l : List Flaw, ∃ front back, l = front ++ back ∧
    insertFlaw f l = front ++ f :: back ∧ (∀ g ∈ front, (f.yCenter - g.yCenter).toNat < 2 ^ 31) ∧
    ∀ g ∈ back.head?, 2 ^ 31 ≤ (f.yCenter - g.yCenter).toNat
  | [] => ⟨[], [], rfl, rfl, by simp, by simp⟩
  | j :: js => by
    unfold insertFlaw
    by_cases h : reaches f.yCenter j.yCenter = true
    · obtain ⟨a, b, h1, h2, h3, h4⟩ := insertFlaw_spec f js
      simp only [h, if_true]
      refine ⟨j :: a, b, by simp [← h1], by simp [h2], ?_, h4⟩
      intro k hk
      simp at hk
      rcases hk with rfl | hk
      · simpa [reaches] using h
      · exact h3 k hk
    · simp only [h]
      refine ⟨[], j :: js, rfl, rfl, by simp, ?_⟩
      simp [reaches] at h ⊢; exact h

theorem lastWhere_none (p : Interval → Bool) : ∀ l : List Interval, (∀ i ∈ l, p i = false) → lastWhere p l = none
  | [], _ => rfl
  | i :: l, h => by
    have := lastWhere_none p l (fun j hj => h j (List.mem_cons_of_mem _ hj))
    simp [lastWhere, this, h i]

/-- The last interval that a test picks, by its place. -/
theorem lastWhere_some (p : Interval → Bool) (i : Interval) (back : List Interval) (hi : p i = true)
    (hb : ∀ j ∈ back, p j = false) : ∀ front : List Interval,
    lastWhere p (front ++ i :: back) = some (front.length, i)
  | [] => by simp [lastWhere, lastWhere_none p back hb, hi]
  | j :: front => by
    have := lastWhere_some p i back hi hb front
    simp [lastWhere, this]

end Sys2Proof.Machine
end

