-- ==== Sys2Proof/Laws/Memory.lean ====
section
/-! SUPPORT. Host memory: every operation keeps the canonical form, and a read after a write. -/

namespace Sys2Proof.Machine

/-! ## One cell -/

/-- What setCell can do to the entries: keep an old one, or enter the written one when it differs from the default. -/
theorem mem_setCell (a : Nat) (v : Byte) (cs : List Host.Cell) (c : Host.Cell) (h : c ∈ setCell a v cs) :
    c ∈ cs ∨ (c = (a, v) ∧ v ≠ Config.hostByte) := by
  induction cs with
  | nil =>
    unfold setCell at h
    split at h
    · simp at h
    · exact Or.inr ⟨by simpa using h, ‹_›⟩
  | cons d cs ih =>
    obtain ⟨k, w⟩ := d
    unfold setCell at h
    split at h
    · split at h
      · exact Or.inl h
      · rcases List.mem_cons.mp h with h | h
        · exact Or.inr ⟨h, ‹_›⟩
        · exact Or.inl h
    · split at h
      · split at h
        · exact Or.inl (List.mem_cons_of_mem _ h)
        · rcases List.mem_cons.mp h with h | h
          · exact Or.inr ⟨h, ‹_›⟩
          · exact Or.inl (List.mem_cons_of_mem _ h)
      · rcases List.mem_cons.mp h with h | h
        · exact Or.inl (h ▸ List.mem_cons_self)
        · exact (ih h).imp (List.mem_cons_of_mem _) id

theorem setCell_sorted (a : Nat) (v : Byte) (cs : List Host.Cell) (h : cs.Pairwise (fun x y => x.1 < y.1)) :
    (setCell a v cs).Pairwise (fun x y => x.1 < y.1) := by
  induction cs with
  | nil => unfold setCell; split <;> simp
  | cons d cs ih =>
    obtain ⟨k, w⟩ := d
    have ⟨hd, ht⟩ := List.pairwise_cons.mp h
    unfold setCell
    split
    · split
      · exact h
      · refine List.pairwise_cons.mpr ⟨fun x hx => ?_, h⟩
        rcases List.mem_cons.mp hx with hx | hx
        · subst hx; assumption
        · exact lt_trans (by assumption) (hd x hx)
    · split
      · split
        · exact ht
        · exact List.pairwise_cons.mpr ⟨fun x hx => by have := hd x hx; simp_all, ht⟩
      · refine List.pairwise_cons.mpr ⟨fun x hx => ?_, ih ht⟩
        rcases mem_setCell a v cs x hx with hx | ⟨hx, _⟩
        · exact hd x hx
        · subst hx; simp only; omega

theorem cellAt_before (a : Nat) (cs : List Host.Cell) (h : ∀ c ∈ cs, a < c.1) : cellAt a cs = Config.hostByte := by
  induction cs with
  | nil => rfl
  | cons d cs ih =>
    obtain ⟨k, w⟩ := d
    have hk : a < k := h (k, w) (List.mem_cons_self)
    unfold cellAt
    rw [if_neg (by omega)]
    exact ih (fun c hc => h c (List.mem_cons_of_mem _ hc))

theorem cellAt_setCell (a b : Nat) (v : Byte) (cs : List Host.Cell) (h : cs.Pairwise (fun x y => x.1 < y.1)) :
    cellAt b (setCell a v cs) = if b = a then v else cellAt b cs := by
  induction cs with
  | nil =>
    unfold setCell
    split
    · next hv => simp [cellAt, hv]
    · simp only [cellAt]
      by_cases hb : b = a
      · simp [hb]
      · rw [if_neg (fun e => hb e.symm), if_neg hb]
  | cons d cs ih =>
    obtain ⟨k, w⟩ := d
    have ⟨hd, ht⟩ := List.pairwise_cons.mp h
    unfold setCell
    split
    · next hlt =>
      split
      · next hv =>
        by_cases hb : b = a
        · subst hb
          rw [if_pos rfl, hv]
          exact cellAt_before b _ (fun c hc => by
            rcases List.mem_cons.mp hc with hc | hc
            · subst hc; exact hlt
            · exact lt_trans hlt (hd c hc))
        · rw [if_neg hb]
      · by_cases hb : b = a
        · subst hb; simp [cellAt]
        · rw [if_neg hb]; conv_lhs => unfold cellAt
          rw [if_neg (fun e => hb e.symm)]
    · split
      · next heq =>
        subst heq
        split
        · next hv =>
          by_cases hb : b = a
          · subst hb
            rw [if_pos rfl, hv]
            exact cellAt_before b _ (fun c hc => hd c hc)
          · rw [if_neg hb]; conv_rhs => unfold cellAt
            rw [if_neg (fun e => hb e.symm)]
        · by_cases hb : b = a
          · subst hb; simp [cellAt]
          · rw [if_neg hb]; unfold cellAt
            rw [if_neg (fun e => hb e.symm), if_neg (fun e => hb e.symm)]
      · next hne =>
        conv_lhs => unfold cellAt
        by_cases hbk : k = b
        · subst hbk
          simp only [cellAt, if_true]
          rw [if_neg (fun e => hne e.symm)]
        · rw [if_neg hbk, ih ht]
          conv_rhs => unfold cellAt
          simp [hbk]

/-! ## Memory operations -/

theorem Memory.write_wf (m : Memory) (a : Addr) (v : Byte) (h : m.wf) : (m.write a v).wf := by
  refine ⟨setCell_sorted _ _ _ h.1, fun c hc => ?_⟩
  rcases mem_setCell _ _ _ c hc with hc | ⟨hc, hv⟩
  · exact h.2 c hc
  · subst hc; exact ⟨a.isLt, hv⟩

/-- A read after a write (R178). -/
theorem Memory.read_write (m : Memory) (a b : Addr) (v : Byte) (h : m.wf) :
    (m.write a v).read b = if b = a then v else m.read b := by
  unfold Memory.read Memory.write
  rw [cellAt_setCell _ _ _ _ h.1]
  by_cases hb : b = a
  · subst hb; simp
  · rw [if_neg hb, if_neg (fun e => hb (BitVec.eq_of_toNat_eq e))]

theorem Memory.writeBytes_wf (bs : List Byte) (m : Memory) (a : Addr) (h : m.wf) : (m.writeBytes a bs).wf := by
  induction bs generalizing m a with
  | nil => exact h
  | cons b bs ih => exact ih _ _ (m.write_wf a b h)

theorem Memory.writeWord_wf (m : Memory) (a : Addr) (v : Nat) (h : m.wf) : (m.writeWord a v).wf :=
  m.writeBytes_wf _ _ h

theorem Memory.hostWrites_wf (ws : List HostWrite) (m : Memory) (h : m.wf) : (m.hostWrites ws).wf := by
  unfold Memory.hostWrites
  induction ws generalizing m with
  | nil => exact h
  | cons w ws ih => exact ih _ (m.writeBytes_wf _ _ h)

theorem Memory.writeStatus_wf (m : Memory) (w : StatusWrite) (h : m.wf) : (m.writeStatus w).wf := by
  unfold Memory.writeStatus
  iterate 5 refine Memory.writeBytes_wf _ _ _ ?_
  exact Memory.writeWord_wf _ _ _ h

/-- A byte outside the n bytes from an address keeps its value. -/
theorem Memory.read_writeBytes_outside (bs : List Byte) (m : Memory) (a b : Addr) (h : m.wf)
    (hb : ∀ i < bs.length, b ≠ a + BitVec.ofNat 64 i) : (m.writeBytes a bs).read b = m.read b := by
  induction bs generalizing m a with
  | nil => rfl
  | cons x xs ih =>
    have h0 : b ≠ a := by simpa using hb 0 (by simp)
    have step : (m.writeBytes a (x :: xs)).read b = (m.write a x).read b :=
      ih _ _ (m.write_wf a x h) (fun i hi => by
        have := hb (i + 1) (by simpa using hi)
        rwa [show a + 1#64 + BitVec.ofNat 64 i = a + BitVec.ofNat 64 (i + 1) by
          rw [BitVec.add_assoc]; congr 1; apply BitVec.eq_of_toNat_eq; simp [Nat.add_comm]])
    rw [step, Memory.read_write _ _ _ _ h, if_neg h0]

/-! ## Little-endian numbers (R194) -/

@[simp] theorem leBytes_length (n v : Nat) : (leBytes n v).length = n := by
  induction n generalizing v with
  | zero => rfl
  | succ n ih => simp [leBytes, ih]

theorem State.writeStatuses_wf (ws : List StatusWrite) (s : State) (h : s.host.wf) : (s.writeStatuses ws).host.wf := by
  induction ws generalizing s with
  | nil => exact h
  | cons w ws ih => exact ih _ (s.host.writeStatus_wf w h)

/-- Memory after reset has the canonical form. -/
theorem reset_memory_wf : State.reset.host.wf := by decide

end Sys2Proof.Machine
end

