-- ==== Sys2Proof/Laws/State.lean ====
section
/-! SUPPORT. The fields that each shared state update keeps, one lemma per field. -/

namespace Sys2Proof.Machine

/-! ## State.report -/

@[simp] theorem State.report_pending (rs : List Report) (s : State) : (s.report rs).pending = s.pending := rfl
@[simp] theorem State.report_sts (rs : List Report) (s : State) : (s.report rs).sts = s.sts := rfl
@[simp] theorem State.report_pinHeld (rs : List Report) (s : State) : (s.report rs).pinHeld = s.pinHeld := rfl
@[simp] theorem State.report_inputs (rs : List Report) (s : State) : (s.report rs).inputs = s.inputs := rfl
@[simp] theorem State.report_setup (rs : List Report) (s : State) : (s.report rs).setup = s.setup := rfl
@[simp] theorem State.report_pos (rs : List Report) (s : State) : (s.report rs).pos = s.pos := rfl
@[simp] theorem State.report_sli (rs : List Report) (s : State) : (s.report rs).sli = s.sli := rfl
@[simp] theorem State.report_fas (rs : List Report) (s : State) : (s.report rs).fas = s.fas := rfl
@[simp] theorem State.report_rbm (rs : List Report) (s : State) : (s.report rs).rbm = s.rbm := rfl
@[simp] theorem State.report_oru (rs : List Report) (s : State) : (s.report rs).oru = s.oru := rfl
@[simp] theorem State.report_rpl (rs : List Report) (s : State) : (s.report rs).rpl = s.rpl := rfl
@[simp] theorem State.report_cgc (rs : List Report) (s : State) : (s.report rs).cgc = s.cgc := rfl
@[simp] theorem State.report_grd (rs : List Report) (s : State) : (s.report rs).grd = s.grd := rfl
@[simp] theorem State.report_stu (rs : List Report) (s : State) : (s.report rs).stu = s.stu := rfl
@[simp] theorem State.report_host (rs : List Report) (s : State) : (s.report rs).host = s.host := rfl
@[simp] theorem State.report_free (rs : List Report) (s : State) : (s.report rs).free = s.free := rfl

/-! ## State.writeStatus -/

@[simp] theorem State.writeStatus_pending (w : StatusWrite) (s : State) : (s.writeStatus w).pending = s.pending := rfl
@[simp] theorem State.writeStatus_sts (w : StatusWrite) (s : State) : (s.writeStatus w).sts = s.sts := rfl
@[simp] theorem State.writeStatus_pinHeld (w : StatusWrite) (s : State) : (s.writeStatus w).pinHeld = s.pinHeld := rfl
@[simp] theorem State.writeStatus_inputs (w : StatusWrite) (s : State) : (s.writeStatus w).inputs = s.inputs := rfl
@[simp] theorem State.writeStatus_setup (w : StatusWrite) (s : State) : (s.writeStatus w).setup = s.setup := rfl
@[simp] theorem State.writeStatus_pos (w : StatusWrite) (s : State) : (s.writeStatus w).pos = s.pos := rfl
@[simp] theorem State.writeStatus_sli (w : StatusWrite) (s : State) : (s.writeStatus w).sli = s.sli := rfl
@[simp] theorem State.writeStatus_fas (w : StatusWrite) (s : State) : (s.writeStatus w).fas = s.fas := rfl
@[simp] theorem State.writeStatus_rbm (w : StatusWrite) (s : State) : (s.writeStatus w).rbm = s.rbm := rfl
@[simp] theorem State.writeStatus_oru (w : StatusWrite) (s : State) : (s.writeStatus w).oru = s.oru := rfl
@[simp] theorem State.writeStatus_rpl (w : StatusWrite) (s : State) : (s.writeStatus w).rpl = s.rpl := rfl
@[simp] theorem State.writeStatus_cgc (w : StatusWrite) (s : State) : (s.writeStatus w).cgc = s.cgc := rfl
@[simp] theorem State.writeStatus_grd (w : StatusWrite) (s : State) : (s.writeStatus w).grd = s.grd := rfl
@[simp] theorem State.writeStatus_stu (w : StatusWrite) (s : State) : (s.writeStatus w).stu = s.stu := rfl
@[simp] theorem State.writeStatus_free (w : StatusWrite) (s : State) : (s.writeStatus w).free = s.free := rfl

/-! ## Exchange.raise -/

@[simp] theorem Exchange.raise_exbl (c : Nat) (e : Exchange) : (e.raise c).exbl = e.exbl := by
  unfold Exchange.raise; split <;> rfl
@[simp] theorem Exchange.raise_exbh (c : Nat) (e : Exchange) : (e.raise c).exbh = e.exbh := by
  unfold Exchange.raise; split <;> rfl
@[simp] theorem Exchange.raise_ien (c : Nat) (e : Exchange) : (e.raise c).ien = e.ien := by
  unfold Exchange.raise; split <;> rfl
@[simp] theorem Exchange.raise_expoll (c : Nat) (e : Exchange) : (e.raise c).expoll = e.expoll := by
  unfold Exchange.raise; split <;> rfl
@[simp] theorem Exchange.raise_base (c : Nat) (e : Exchange) : (e.raise c).base = e.base := by
  unfold Exchange.raise; split <;> rfl
@[simp] theorem Exchange.raise_marker (c : Nat) (e : Exchange) : (e.raise c).marker = e.marker := by
  unfold Exchange.raise; split <;> rfl
@[simp] theorem Exchange.raise_detachPending (c : Nat) (e : Exchange) : (e.raise c).detachPending = e.detachPending := by
  unfold Exchange.raise; split <;> rfl
@[simp] theorem Exchange.raise_detachDeferred (c : Nat) (e : Exchange) : (e.raise c).detachDeferred = e.detachDeferred := by
  unfold Exchange.raise; split <;> rfl
@[simp] theorem Exchange.raise_stockAddr (c : Nat) (e : Exchange) : (e.raise c).stockAddr = e.stockAddr := by
  unfold Exchange.raise; split <;> rfl
@[simp] theorem Exchange.raise_pageCount (c : Nat) (e : Exchange) : (e.raise c).pageCount = e.pageCount := by
  unfold Exchange.raise; split <;> rfl
@[simp] theorem Exchange.raise_pageSize (c : Nat) (e : Exchange) : (e.raise c).pageSize = e.pageSize := by
  unfold Exchange.raise; split <;> rfl
@[simp] theorem Exchange.raise_cursor (c : Nat) (e : Exchange) : (e.raise c).cursor = e.cursor := by
  unfold Exchange.raise; split <;> rfl
@[simp] theorem Exchange.raise_pollTimer (c : Nat) (e : Exchange) : (e.raise c).pollTimer = e.pollTimer := by
  unfold Exchange.raise; split <;> rfl
@[simp] theorem Exchange.raise_staging (c : Nat) (e : Exchange) : (e.raise c).staging = e.staging := by
  unfold Exchange.raise; split <;> rfl
@[simp] theorem Exchange.raise_dropDroppable (c : Nat) (e : Exchange) : (e.raise c).dropDroppable = e.dropDroppable := by
  unfold Exchange.raise; split <;> rfl
@[simp] theorem Exchange.raise_dropEssential (c : Nat) (e : Exchange) : (e.raise c).dropEssential = e.dropEssential := by
  unfold Exchange.raise; split <;> rfl
@[simp] theorem Exchange.raise_lossReported (c : Nat) (e : Exchange) : (e.raise c).lossReported = e.lossReported := by
  unfold Exchange.raise; split <;> rfl
@[simp] theorem Exchange.raise_lossPending (c : Nat) (e : Exchange) : (e.raise c).lossPending = e.lossPending := by
  unfold Exchange.raise; split <;> rfl
@[simp] theorem Exchange.raise_filling (c : Nat) (e : Exchange) : (e.raise c).filling = e.filling := by
  unfold Exchange.raise; split <;> rfl
@[simp] theorem Exchange.raise_pageSeq (c : Nat) (e : Exchange) : (e.raise c).pageSeq = e.pageSeq := by
  unfold Exchange.raise; split <;> rfl
@[simp] theorem Exchange.raise_phase (c : Nat) (e : Exchange) : (e.raise c).phase = e.phase := by
  unfold Exchange.raise; split <;> rfl

/-! ## Staging keeps the rest of EXU -/

@[simp] theorem Exchange.tryLoss_exbl (us : Word) (e : Exchange) : (e.tryLoss us).exbl = e.exbl := by
  unfold Exchange.tryLoss Exchange.appendEssential; split <;> rfl
@[simp] theorem Exchange.put_exbl (us : Word) (r : Report) (e : Exchange) : (e.put us r).exbl = e.exbl := by
  unfold Exchange.put Exchange.appendEssential
  split
  · split <;> rfl
  · split
    · rfl
    · simp
@[simp] theorem Exchange.stage_exbl (us : Word) (e : Exchange) (r : Report) : (e.stage us r).exbl = e.exbl := by
  unfold Exchange.stage; split <;> simp
@[simp] theorem State.report_exu_exbl (rs : List Report) (s : State) : (s.report rs).exu.exbl = s.exu.exbl := by
  suffices h : ∀ e : Exchange, (rs.foldl (Exchange.stage s.pos.us) e).exbl = e.exbl from h s.exu
  induction rs with
  | nil => intro e; rfl
  | cons r rs ih => intro e; simp [ih]
@[simp] theorem Exchange.tryLoss_exbh (us : Word) (e : Exchange) : (e.tryLoss us).exbh = e.exbh := by
  unfold Exchange.tryLoss Exchange.appendEssential; split <;> rfl
@[simp] theorem Exchange.put_exbh (us : Word) (r : Report) (e : Exchange) : (e.put us r).exbh = e.exbh := by
  unfold Exchange.put Exchange.appendEssential
  split
  · split <;> rfl
  · split
    · rfl
    · simp
@[simp] theorem Exchange.stage_exbh (us : Word) (e : Exchange) (r : Report) : (e.stage us r).exbh = e.exbh := by
  unfold Exchange.stage; split <;> simp
@[simp] theorem State.report_exu_exbh (rs : List Report) (s : State) : (s.report rs).exu.exbh = s.exu.exbh := by
  suffices h : ∀ e : Exchange, (rs.foldl (Exchange.stage s.pos.us) e).exbh = e.exbh from h s.exu
  induction rs with
  | nil => intro e; rfl
  | cons r rs ih => intro e; simp [ih]
@[simp] theorem Exchange.tryLoss_ien (us : Word) (e : Exchange) : (e.tryLoss us).ien = e.ien := by
  unfold Exchange.tryLoss Exchange.appendEssential; split <;> rfl
@[simp] theorem Exchange.put_ien (us : Word) (r : Report) (e : Exchange) : (e.put us r).ien = e.ien := by
  unfold Exchange.put Exchange.appendEssential
  split
  · split <;> rfl
  · split
    · rfl
    · simp
@[simp] theorem Exchange.stage_ien (us : Word) (e : Exchange) (r : Report) : (e.stage us r).ien = e.ien := by
  unfold Exchange.stage; split <;> simp
@[simp] theorem State.report_exu_ien (rs : List Report) (s : State) : (s.report rs).exu.ien = s.exu.ien := by
  suffices h : ∀ e : Exchange, (rs.foldl (Exchange.stage s.pos.us) e).ien = e.ien from h s.exu
  induction rs with
  | nil => intro e; rfl
  | cons r rs ih => intro e; simp [ih]
@[simp] theorem Exchange.tryLoss_expoll (us : Word) (e : Exchange) : (e.tryLoss us).expoll = e.expoll := by
  unfold Exchange.tryLoss Exchange.appendEssential; split <;> rfl
@[simp] theorem Exchange.put_expoll (us : Word) (r : Report) (e : Exchange) : (e.put us r).expoll = e.expoll := by
  unfold Exchange.put Exchange.appendEssential
  split
  · split <;> rfl
  · split
    · rfl
    · simp
@[simp] theorem Exchange.stage_expoll (us : Word) (e : Exchange) (r : Report) : (e.stage us r).expoll = e.expoll := by
  unfold Exchange.stage; split <;> simp
@[simp] theorem State.report_exu_expoll (rs : List Report) (s : State) : (s.report rs).exu.expoll = s.exu.expoll := by
  suffices h : ∀ e : Exchange, (rs.foldl (Exchange.stage s.pos.us) e).expoll = e.expoll from h s.exu
  induction rs with
  | nil => intro e; rfl
  | cons r rs ih => intro e; simp [ih]
@[simp] theorem Exchange.tryLoss_base (us : Word) (e : Exchange) : (e.tryLoss us).base = e.base := by
  unfold Exchange.tryLoss Exchange.appendEssential; split <;> rfl
@[simp] theorem Exchange.put_base (us : Word) (r : Report) (e : Exchange) : (e.put us r).base = e.base := by
  unfold Exchange.put Exchange.appendEssential
  split
  · split <;> rfl
  · split
    · rfl
    · simp
@[simp] theorem Exchange.stage_base (us : Word) (e : Exchange) (r : Report) : (e.stage us r).base = e.base := by
  unfold Exchange.stage; split <;> simp
@[simp] theorem State.report_exu_base (rs : List Report) (s : State) : (s.report rs).exu.base = s.exu.base := by
  suffices h : ∀ e : Exchange, (rs.foldl (Exchange.stage s.pos.us) e).base = e.base from h s.exu
  induction rs with
  | nil => intro e; rfl
  | cons r rs ih => intro e; simp [ih]
@[simp] theorem Exchange.tryLoss_marker (us : Word) (e : Exchange) : (e.tryLoss us).marker = e.marker := by
  unfold Exchange.tryLoss Exchange.appendEssential; split <;> rfl
@[simp] theorem Exchange.put_marker (us : Word) (r : Report) (e : Exchange) : (e.put us r).marker = e.marker := by
  unfold Exchange.put Exchange.appendEssential
  split
  · split <;> rfl
  · split
    · rfl
    · simp
@[simp] theorem Exchange.stage_marker (us : Word) (e : Exchange) (r : Report) : (e.stage us r).marker = e.marker := by
  unfold Exchange.stage; split <;> simp
@[simp] theorem State.report_exu_marker (rs : List Report) (s : State) : (s.report rs).exu.marker = s.exu.marker := by
  suffices h : ∀ e : Exchange, (rs.foldl (Exchange.stage s.pos.us) e).marker = e.marker from h s.exu
  induction rs with
  | nil => intro e; rfl
  | cons r rs ih => intro e; simp [ih]
@[simp] theorem Exchange.tryLoss_detachPending (us : Word) (e : Exchange) : (e.tryLoss us).detachPending = e.detachPending := by
  unfold Exchange.tryLoss Exchange.appendEssential; split <;> rfl
@[simp] theorem Exchange.put_detachPending (us : Word) (r : Report) (e : Exchange) : (e.put us r).detachPending = e.detachPending := by
  unfold Exchange.put Exchange.appendEssential
  split
  · split <;> rfl
  · split
    · rfl
    · simp
@[simp] theorem Exchange.stage_detachPending (us : Word) (e : Exchange) (r : Report) : (e.stage us r).detachPending = e.detachPending := by
  unfold Exchange.stage; split <;> simp
@[simp] theorem State.report_exu_detachPending (rs : List Report) (s : State) : (s.report rs).exu.detachPending = s.exu.detachPending := by
  suffices h : ∀ e : Exchange, (rs.foldl (Exchange.stage s.pos.us) e).detachPending = e.detachPending from h s.exu
  induction rs with
  | nil => intro e; rfl
  | cons r rs ih => intro e; simp [ih]
@[simp] theorem Exchange.tryLoss_detachDeferred (us : Word) (e : Exchange) : (e.tryLoss us).detachDeferred = e.detachDeferred := by
  unfold Exchange.tryLoss Exchange.appendEssential; split <;> rfl
@[simp] theorem Exchange.put_detachDeferred (us : Word) (r : Report) (e : Exchange) : (e.put us r).detachDeferred = e.detachDeferred := by
  unfold Exchange.put Exchange.appendEssential
  split
  · split <;> rfl
  · split
    · rfl
    · simp
@[simp] theorem Exchange.stage_detachDeferred (us : Word) (e : Exchange) (r : Report) : (e.stage us r).detachDeferred = e.detachDeferred := by
  unfold Exchange.stage; split <;> simp
@[simp] theorem State.report_exu_detachDeferred (rs : List Report) (s : State) : (s.report rs).exu.detachDeferred = s.exu.detachDeferred := by
  suffices h : ∀ e : Exchange, (rs.foldl (Exchange.stage s.pos.us) e).detachDeferred = e.detachDeferred from h s.exu
  induction rs with
  | nil => intro e; rfl
  | cons r rs ih => intro e; simp [ih]
@[simp] theorem Exchange.tryLoss_stockAddr (us : Word) (e : Exchange) : (e.tryLoss us).stockAddr = e.stockAddr := by
  unfold Exchange.tryLoss Exchange.appendEssential; split <;> rfl
@[simp] theorem Exchange.put_stockAddr (us : Word) (r : Report) (e : Exchange) : (e.put us r).stockAddr = e.stockAddr := by
  unfold Exchange.put Exchange.appendEssential
  split
  · split <;> rfl
  · split
    · rfl
    · simp
@[simp] theorem Exchange.stage_stockAddr (us : Word) (e : Exchange) (r : Report) : (e.stage us r).stockAddr = e.stockAddr := by
  unfold Exchange.stage; split <;> simp
@[simp] theorem State.report_exu_stockAddr (rs : List Report) (s : State) : (s.report rs).exu.stockAddr = s.exu.stockAddr := by
  suffices h : ∀ e : Exchange, (rs.foldl (Exchange.stage s.pos.us) e).stockAddr = e.stockAddr from h s.exu
  induction rs with
  | nil => intro e; rfl
  | cons r rs ih => intro e; simp [ih]
@[simp] theorem Exchange.tryLoss_pageCount (us : Word) (e : Exchange) : (e.tryLoss us).pageCount = e.pageCount := by
  unfold Exchange.tryLoss Exchange.appendEssential; split <;> rfl
@[simp] theorem Exchange.put_pageCount (us : Word) (r : Report) (e : Exchange) : (e.put us r).pageCount = e.pageCount := by
  unfold Exchange.put Exchange.appendEssential
  split
  · split <;> rfl
  · split
    · rfl
    · simp
@[simp] theorem Exchange.stage_pageCount (us : Word) (e : Exchange) (r : Report) : (e.stage us r).pageCount = e.pageCount := by
  unfold Exchange.stage; split <;> simp
@[simp] theorem State.report_exu_pageCount (rs : List Report) (s : State) : (s.report rs).exu.pageCount = s.exu.pageCount := by
  suffices h : ∀ e : Exchange, (rs.foldl (Exchange.stage s.pos.us) e).pageCount = e.pageCount from h s.exu
  induction rs with
  | nil => intro e; rfl
  | cons r rs ih => intro e; simp [ih]
@[simp] theorem Exchange.tryLoss_pageSize (us : Word) (e : Exchange) : (e.tryLoss us).pageSize = e.pageSize := by
  unfold Exchange.tryLoss Exchange.appendEssential; split <;> rfl
@[simp] theorem Exchange.put_pageSize (us : Word) (r : Report) (e : Exchange) : (e.put us r).pageSize = e.pageSize := by
  unfold Exchange.put Exchange.appendEssential
  split
  · split <;> rfl
  · split
    · rfl
    · simp
@[simp] theorem Exchange.stage_pageSize (us : Word) (e : Exchange) (r : Report) : (e.stage us r).pageSize = e.pageSize := by
  unfold Exchange.stage; split <;> simp
@[simp] theorem State.report_exu_pageSize (rs : List Report) (s : State) : (s.report rs).exu.pageSize = s.exu.pageSize := by
  suffices h : ∀ e : Exchange, (rs.foldl (Exchange.stage s.pos.us) e).pageSize = e.pageSize from h s.exu
  induction rs with
  | nil => intro e; rfl
  | cons r rs ih => intro e; simp [ih]
@[simp] theorem Exchange.tryLoss_cursor (us : Word) (e : Exchange) : (e.tryLoss us).cursor = e.cursor := by
  unfold Exchange.tryLoss Exchange.appendEssential; split <;> rfl
@[simp] theorem Exchange.put_cursor (us : Word) (r : Report) (e : Exchange) : (e.put us r).cursor = e.cursor := by
  unfold Exchange.put Exchange.appendEssential
  split
  · split <;> rfl
  · split
    · rfl
    · simp
@[simp] theorem Exchange.stage_cursor (us : Word) (e : Exchange) (r : Report) : (e.stage us r).cursor = e.cursor := by
  unfold Exchange.stage; split <;> simp
@[simp] theorem State.report_exu_cursor (rs : List Report) (s : State) : (s.report rs).exu.cursor = s.exu.cursor := by
  suffices h : ∀ e : Exchange, (rs.foldl (Exchange.stage s.pos.us) e).cursor = e.cursor from h s.exu
  induction rs with
  | nil => intro e; rfl
  | cons r rs ih => intro e; simp [ih]
@[simp] theorem Exchange.tryLoss_pollTimer (us : Word) (e : Exchange) : (e.tryLoss us).pollTimer = e.pollTimer := by
  unfold Exchange.tryLoss Exchange.appendEssential; split <;> rfl
@[simp] theorem Exchange.put_pollTimer (us : Word) (r : Report) (e : Exchange) : (e.put us r).pollTimer = e.pollTimer := by
  unfold Exchange.put Exchange.appendEssential
  split
  · split <;> rfl
  · split
    · rfl
    · simp
@[simp] theorem Exchange.stage_pollTimer (us : Word) (e : Exchange) (r : Report) : (e.stage us r).pollTimer = e.pollTimer := by
  unfold Exchange.stage; split <;> simp
@[simp] theorem State.report_exu_pollTimer (rs : List Report) (s : State) : (s.report rs).exu.pollTimer = s.exu.pollTimer := by
  suffices h : ∀ e : Exchange, (rs.foldl (Exchange.stage s.pos.us) e).pollTimer = e.pollTimer from h s.exu
  induction rs with
  | nil => intro e; rfl
  | cons r rs ih => intro e; simp [ih]
@[simp] theorem Exchange.tryLoss_filling (us : Word) (e : Exchange) : (e.tryLoss us).filling = e.filling := by
  unfold Exchange.tryLoss Exchange.appendEssential; split <;> rfl
@[simp] theorem Exchange.put_filling (us : Word) (r : Report) (e : Exchange) : (e.put us r).filling = e.filling := by
  unfold Exchange.put Exchange.appendEssential
  split
  · split <;> rfl
  · split
    · rfl
    · simp
@[simp] theorem Exchange.stage_filling (us : Word) (e : Exchange) (r : Report) : (e.stage us r).filling = e.filling := by
  unfold Exchange.stage; split <;> simp
@[simp] theorem State.report_exu_filling (rs : List Report) (s : State) : (s.report rs).exu.filling = s.exu.filling := by
  suffices h : ∀ e : Exchange, (rs.foldl (Exchange.stage s.pos.us) e).filling = e.filling from h s.exu
  induction rs with
  | nil => intro e; rfl
  | cons r rs ih => intro e; simp [ih]
@[simp] theorem Exchange.tryLoss_pageSeq (us : Word) (e : Exchange) : (e.tryLoss us).pageSeq = e.pageSeq := by
  unfold Exchange.tryLoss Exchange.appendEssential; split <;> rfl
@[simp] theorem Exchange.put_pageSeq (us : Word) (r : Report) (e : Exchange) : (e.put us r).pageSeq = e.pageSeq := by
  unfold Exchange.put Exchange.appendEssential
  split
  · split <;> rfl
  · split
    · rfl
    · simp
@[simp] theorem Exchange.stage_pageSeq (us : Word) (e : Exchange) (r : Report) : (e.stage us r).pageSeq = e.pageSeq := by
  unfold Exchange.stage; split <;> simp
@[simp] theorem State.report_exu_pageSeq (rs : List Report) (s : State) : (s.report rs).exu.pageSeq = s.exu.pageSeq := by
  suffices h : ∀ e : Exchange, (rs.foldl (Exchange.stage s.pos.us) e).pageSeq = e.pageSeq from h s.exu
  induction rs with
  | nil => intro e; rfl
  | cons r rs ih => intro e; simp [ih]
@[simp] theorem Exchange.tryLoss_phase (us : Word) (e : Exchange) : (e.tryLoss us).phase = e.phase := by
  unfold Exchange.tryLoss Exchange.appendEssential; split <;> rfl
@[simp] theorem Exchange.put_phase (us : Word) (r : Report) (e : Exchange) : (e.put us r).phase = e.phase := by
  unfold Exchange.put Exchange.appendEssential
  split
  · split <;> rfl
  · split
    · rfl
    · simp
@[simp] theorem Exchange.stage_phase (us : Word) (e : Exchange) (r : Report) : (e.stage us r).phase = e.phase := by
  unfold Exchange.stage; split <;> simp
@[simp] theorem State.report_exu_phase (rs : List Report) (s : State) : (s.report rs).exu.phase = s.exu.phase := by
  suffices h : ∀ e : Exchange, (rs.foldl (Exchange.stage s.pos.us) e).phase = e.phase from h s.exu
  induction rs with
  | nil => intro e; rfl
  | cons r rs ih => intro e; simp [ih]

/-! ## State.writeStatus keeps the rest of EXU -/

@[simp] theorem State.writeStatus_exu_exbl (w : StatusWrite) (s : State) :
    (s.writeStatus w).exu.exbl = s.exu.exbl := by
  unfold State.writeStatus; dsimp only; split <;> simp
@[simp] theorem State.writeStatus_exu_exbh (w : StatusWrite) (s : State) :
    (s.writeStatus w).exu.exbh = s.exu.exbh := by
  unfold State.writeStatus; dsimp only; split <;> simp
@[simp] theorem State.writeStatus_exu_ien (w : StatusWrite) (s : State) :
    (s.writeStatus w).exu.ien = s.exu.ien := by
  unfold State.writeStatus; dsimp only; split <;> simp
@[simp] theorem State.writeStatus_exu_expoll (w : StatusWrite) (s : State) :
    (s.writeStatus w).exu.expoll = s.exu.expoll := by
  unfold State.writeStatus; dsimp only; split <;> simp
@[simp] theorem State.writeStatus_exu_base (w : StatusWrite) (s : State) :
    (s.writeStatus w).exu.base = s.exu.base := by
  unfold State.writeStatus; dsimp only; split <;> simp
@[simp] theorem State.writeStatus_exu_marker (w : StatusWrite) (s : State) :
    (s.writeStatus w).exu.marker = s.exu.marker := by
  unfold State.writeStatus; dsimp only; split <;> simp
@[simp] theorem State.writeStatus_exu_detachPending (w : StatusWrite) (s : State) :
    (s.writeStatus w).exu.detachPending = s.exu.detachPending := by
  unfold State.writeStatus; dsimp only; split <;> simp
@[simp] theorem State.writeStatus_exu_detachDeferred (w : StatusWrite) (s : State) :
    (s.writeStatus w).exu.detachDeferred = s.exu.detachDeferred := by
  unfold State.writeStatus; dsimp only; split <;> simp
@[simp] theorem State.writeStatus_exu_stockAddr (w : StatusWrite) (s : State) :
    (s.writeStatus w).exu.stockAddr = s.exu.stockAddr := by
  unfold State.writeStatus; dsimp only; split <;> simp
@[simp] theorem State.writeStatus_exu_pageCount (w : StatusWrite) (s : State) :
    (s.writeStatus w).exu.pageCount = s.exu.pageCount := by
  unfold State.writeStatus; dsimp only; split <;> simp
@[simp] theorem State.writeStatus_exu_pageSize (w : StatusWrite) (s : State) :
    (s.writeStatus w).exu.pageSize = s.exu.pageSize := by
  unfold State.writeStatus; dsimp only; split <;> simp
@[simp] theorem State.writeStatus_exu_cursor (w : StatusWrite) (s : State) :
    (s.writeStatus w).exu.cursor = s.exu.cursor := by
  unfold State.writeStatus; dsimp only; split <;> simp
@[simp] theorem State.writeStatus_exu_pollTimer (w : StatusWrite) (s : State) :
    (s.writeStatus w).exu.pollTimer = s.exu.pollTimer := by
  unfold State.writeStatus; dsimp only; split <;> simp
@[simp] theorem State.writeStatus_exu_staging (w : StatusWrite) (s : State) :
    (s.writeStatus w).exu.staging = s.exu.staging := by
  unfold State.writeStatus; dsimp only; split <;> simp
@[simp] theorem State.writeStatus_exu_dropDroppable (w : StatusWrite) (s : State) :
    (s.writeStatus w).exu.dropDroppable = s.exu.dropDroppable := by
  unfold State.writeStatus; dsimp only; split <;> simp
@[simp] theorem State.writeStatus_exu_dropEssential (w : StatusWrite) (s : State) :
    (s.writeStatus w).exu.dropEssential = s.exu.dropEssential := by
  unfold State.writeStatus; dsimp only; split <;> simp
@[simp] theorem State.writeStatus_exu_lossReported (w : StatusWrite) (s : State) :
    (s.writeStatus w).exu.lossReported = s.exu.lossReported := by
  unfold State.writeStatus; dsimp only; split <;> simp
@[simp] theorem State.writeStatus_exu_lossPending (w : StatusWrite) (s : State) :
    (s.writeStatus w).exu.lossPending = s.exu.lossPending := by
  unfold State.writeStatus; dsimp only; split <;> simp
@[simp] theorem State.writeStatus_exu_filling (w : StatusWrite) (s : State) :
    (s.writeStatus w).exu.filling = s.exu.filling := by
  unfold State.writeStatus; dsimp only; split <;> simp
@[simp] theorem State.writeStatus_exu_pageSeq (w : StatusWrite) (s : State) :
    (s.writeStatus w).exu.pageSeq = s.exu.pageSeq := by
  unfold State.writeStatus; dsimp only; split <;> simp
@[simp] theorem State.writeStatus_exu_phase (w : StatusWrite) (s : State) :
    (s.writeStatus w).exu.phase = s.exu.phase := by
  unfold State.writeStatus; dsimp only; split <;> simp

/-! ## State.writeStatuses -/

@[simp] theorem State.writeStatuses_pending (ws : List StatusWrite) (s : State) :
    (s.writeStatuses ws).pending = s.pending := by
  induction ws generalizing s with
  | nil => rfl
  | cons w ws ih => exact (ih _).trans (by simp)
@[simp] theorem State.writeStatuses_sts (ws : List StatusWrite) (s : State) :
    (s.writeStatuses ws).sts = s.sts := by
  induction ws generalizing s with
  | nil => rfl
  | cons w ws ih => exact (ih _).trans (by simp)
@[simp] theorem State.writeStatuses_pinHeld (ws : List StatusWrite) (s : State) :
    (s.writeStatuses ws).pinHeld = s.pinHeld := by
  induction ws generalizing s with
  | nil => rfl
  | cons w ws ih => exact (ih _).trans (by simp)
@[simp] theorem State.writeStatuses_inputs (ws : List StatusWrite) (s : State) :
    (s.writeStatuses ws).inputs = s.inputs := by
  induction ws generalizing s with
  | nil => rfl
  | cons w ws ih => exact (ih _).trans (by simp)
@[simp] theorem State.writeStatuses_setup (ws : List StatusWrite) (s : State) :
    (s.writeStatuses ws).setup = s.setup := by
  induction ws generalizing s with
  | nil => rfl
  | cons w ws ih => exact (ih _).trans (by simp)
@[simp] theorem State.writeStatuses_pos (ws : List StatusWrite) (s : State) :
    (s.writeStatuses ws).pos = s.pos := by
  induction ws generalizing s with
  | nil => rfl
  | cons w ws ih => exact (ih _).trans (by simp)
@[simp] theorem State.writeStatuses_sli (ws : List StatusWrite) (s : State) :
    (s.writeStatuses ws).sli = s.sli := by
  induction ws generalizing s with
  | nil => rfl
  | cons w ws ih => exact (ih _).trans (by simp)
@[simp] theorem State.writeStatuses_fas (ws : List StatusWrite) (s : State) :
    (s.writeStatuses ws).fas = s.fas := by
  induction ws generalizing s with
  | nil => rfl
  | cons w ws ih => exact (ih _).trans (by simp)
@[simp] theorem State.writeStatuses_rbm (ws : List StatusWrite) (s : State) :
    (s.writeStatuses ws).rbm = s.rbm := by
  induction ws generalizing s with
  | nil => rfl
  | cons w ws ih => exact (ih _).trans (by simp)
@[simp] theorem State.writeStatuses_oru (ws : List StatusWrite) (s : State) :
    (s.writeStatuses ws).oru = s.oru := by
  induction ws generalizing s with
  | nil => rfl
  | cons w ws ih => exact (ih _).trans (by simp)
@[simp] theorem State.writeStatuses_rpl (ws : List StatusWrite) (s : State) :
    (s.writeStatuses ws).rpl = s.rpl := by
  induction ws generalizing s with
  | nil => rfl
  | cons w ws ih => exact (ih _).trans (by simp)
@[simp] theorem State.writeStatuses_cgc (ws : List StatusWrite) (s : State) :
    (s.writeStatuses ws).cgc = s.cgc := by
  induction ws generalizing s with
  | nil => rfl
  | cons w ws ih => exact (ih _).trans (by simp)
@[simp] theorem State.writeStatuses_grd (ws : List StatusWrite) (s : State) :
    (s.writeStatuses ws).grd = s.grd := by
  induction ws generalizing s with
  | nil => rfl
  | cons w ws ih => exact (ih _).trans (by simp)
@[simp] theorem State.writeStatuses_stu (ws : List StatusWrite) (s : State) :
    (s.writeStatuses ws).stu = s.stu := by
  induction ws generalizing s with
  | nil => rfl
  | cons w ws ih => exact (ih _).trans (by simp)
@[simp] theorem State.writeStatuses_free (ws : List StatusWrite) (s : State) :
    (s.writeStatuses ws).free = s.free := by
  induction ws generalizing s with
  | nil => rfl
  | cons w ws ih => exact (ih _).trans (by simp)
@[simp] theorem State.writeStatuses_exu_exbl (ws : List StatusWrite) (s : State) :
    (s.writeStatuses ws).exu.exbl = s.exu.exbl := by
  induction ws generalizing s with
  | nil => rfl
  | cons w ws ih => exact (ih _).trans (by simp)
@[simp] theorem State.writeStatuses_exu_exbh (ws : List StatusWrite) (s : State) :
    (s.writeStatuses ws).exu.exbh = s.exu.exbh := by
  induction ws generalizing s with
  | nil => rfl
  | cons w ws ih => exact (ih _).trans (by simp)
@[simp] theorem State.writeStatuses_exu_ien (ws : List StatusWrite) (s : State) :
    (s.writeStatuses ws).exu.ien = s.exu.ien := by
  induction ws generalizing s with
  | nil => rfl
  | cons w ws ih => exact (ih _).trans (by simp)
@[simp] theorem State.writeStatuses_exu_expoll (ws : List StatusWrite) (s : State) :
    (s.writeStatuses ws).exu.expoll = s.exu.expoll := by
  induction ws generalizing s with
  | nil => rfl
  | cons w ws ih => exact (ih _).trans (by simp)
@[simp] theorem State.writeStatuses_exu_base (ws : List StatusWrite) (s : State) :
    (s.writeStatuses ws).exu.base = s.exu.base := by
  induction ws generalizing s with
  | nil => rfl
  | cons w ws ih => exact (ih _).trans (by simp)
@[simp] theorem State.writeStatuses_exu_marker (ws : List StatusWrite) (s : State) :
    (s.writeStatuses ws).exu.marker = s.exu.marker := by
  induction ws generalizing s with
  | nil => rfl
  | cons w ws ih => exact (ih _).trans (by simp)
@[simp] theorem State.writeStatuses_exu_detachPending (ws : List StatusWrite) (s : State) :
    (s.writeStatuses ws).exu.detachPending = s.exu.detachPending := by
  induction ws generalizing s with
  | nil => rfl
  | cons w ws ih => exact (ih _).trans (by simp)
@[simp] theorem State.writeStatuses_exu_detachDeferred (ws : List StatusWrite) (s : State) :
    (s.writeStatuses ws).exu.detachDeferred = s.exu.detachDeferred := by
  induction ws generalizing s with
  | nil => rfl
  | cons w ws ih => exact (ih _).trans (by simp)
@[simp] theorem State.writeStatuses_exu_stockAddr (ws : List StatusWrite) (s : State) :
    (s.writeStatuses ws).exu.stockAddr = s.exu.stockAddr := by
  induction ws generalizing s with
  | nil => rfl
  | cons w ws ih => exact (ih _).trans (by simp)
@[simp] theorem State.writeStatuses_exu_pageCount (ws : List StatusWrite) (s : State) :
    (s.writeStatuses ws).exu.pageCount = s.exu.pageCount := by
  induction ws generalizing s with
  | nil => rfl
  | cons w ws ih => exact (ih _).trans (by simp)
@[simp] theorem State.writeStatuses_exu_pageSize (ws : List StatusWrite) (s : State) :
    (s.writeStatuses ws).exu.pageSize = s.exu.pageSize := by
  induction ws generalizing s with
  | nil => rfl
  | cons w ws ih => exact (ih _).trans (by simp)
@[simp] theorem State.writeStatuses_exu_cursor (ws : List StatusWrite) (s : State) :
    (s.writeStatuses ws).exu.cursor = s.exu.cursor := by
  induction ws generalizing s with
  | nil => rfl
  | cons w ws ih => exact (ih _).trans (by simp)
@[simp] theorem State.writeStatuses_exu_pollTimer (ws : List StatusWrite) (s : State) :
    (s.writeStatuses ws).exu.pollTimer = s.exu.pollTimer := by
  induction ws generalizing s with
  | nil => rfl
  | cons w ws ih => exact (ih _).trans (by simp)
@[simp] theorem State.writeStatuses_exu_staging (ws : List StatusWrite) (s : State) :
    (s.writeStatuses ws).exu.staging = s.exu.staging := by
  induction ws generalizing s with
  | nil => rfl
  | cons w ws ih => exact (ih _).trans (by simp)
@[simp] theorem State.writeStatuses_exu_dropDroppable (ws : List StatusWrite) (s : State) :
    (s.writeStatuses ws).exu.dropDroppable = s.exu.dropDroppable := by
  induction ws generalizing s with
  | nil => rfl
  | cons w ws ih => exact (ih _).trans (by simp)
@[simp] theorem State.writeStatuses_exu_dropEssential (ws : List StatusWrite) (s : State) :
    (s.writeStatuses ws).exu.dropEssential = s.exu.dropEssential := by
  induction ws generalizing s with
  | nil => rfl
  | cons w ws ih => exact (ih _).trans (by simp)
@[simp] theorem State.writeStatuses_exu_lossReported (ws : List StatusWrite) (s : State) :
    (s.writeStatuses ws).exu.lossReported = s.exu.lossReported := by
  induction ws generalizing s with
  | nil => rfl
  | cons w ws ih => exact (ih _).trans (by simp)
@[simp] theorem State.writeStatuses_exu_lossPending (ws : List StatusWrite) (s : State) :
    (s.writeStatuses ws).exu.lossPending = s.exu.lossPending := by
  induction ws generalizing s with
  | nil => rfl
  | cons w ws ih => exact (ih _).trans (by simp)
@[simp] theorem State.writeStatuses_exu_filling (ws : List StatusWrite) (s : State) :
    (s.writeStatuses ws).exu.filling = s.exu.filling := by
  induction ws generalizing s with
  | nil => rfl
  | cons w ws ih => exact (ih _).trans (by simp)
@[simp] theorem State.writeStatuses_exu_pageSeq (ws : List StatusWrite) (s : State) :
    (s.writeStatuses ws).exu.pageSeq = s.exu.pageSeq := by
  induction ws generalizing s with
  | nil => rfl
  | cons w ws ih => exact (ih _).trans (by simp)
@[simp] theorem State.writeStatuses_exu_phase (ws : List StatusWrite) (s : State) :
    (s.writeStatuses ws).exu.phase = s.exu.phase := by
  induction ws generalizing s with
  | nil => rfl
  | cons w ws ih => exact (ih _).trans (by simp)

/-! ## State.issue -/

@[simp] theorem State.issue_mk (s : State) (ws : List StatusWrite) : State.issue (s, ws) = s.writeStatuses ws := rfl

/-! ## State.enterFault -/

@[simp] theorem State.enterFault_pending (k : FaultCause) (s : State) : (s.enterFault k).pending = s.pending := by
  unfold State.enterFault; split <;> rfl
@[simp] theorem State.enterFault_pinHeld (k : FaultCause) (s : State) : (s.enterFault k).pinHeld = s.pinHeld := by
  unfold State.enterFault; split <;> rfl
@[simp] theorem State.enterFault_inputs (k : FaultCause) (s : State) : (s.enterFault k).inputs = s.inputs := by
  unfold State.enterFault; split <;> rfl
@[simp] theorem State.enterFault_setup (k : FaultCause) (s : State) : (s.enterFault k).setup = s.setup := by
  unfold State.enterFault; split <;> rfl
@[simp] theorem State.enterFault_pos (k : FaultCause) (s : State) : (s.enterFault k).pos = s.pos := by
  unfold State.enterFault; split <;> rfl
@[simp] theorem State.enterFault_sli (k : FaultCause) (s : State) : (s.enterFault k).sli = s.sli := by
  unfold State.enterFault; split <;> rfl
@[simp] theorem State.enterFault_fas (k : FaultCause) (s : State) : (s.enterFault k).fas = s.fas := by
  unfold State.enterFault; split <;> rfl
@[simp] theorem State.enterFault_rbm (k : FaultCause) (s : State) : (s.enterFault k).rbm = s.rbm := by
  unfold State.enterFault; split <;> rfl
@[simp] theorem State.enterFault_oru (k : FaultCause) (s : State) : (s.enterFault k).oru = s.oru := by
  unfold State.enterFault; split <;> rfl
@[simp] theorem State.enterFault_rpl (k : FaultCause) (s : State) : (s.enterFault k).rpl = s.rpl := by
  unfold State.enterFault; split <;> rfl
@[simp] theorem State.enterFault_cgc (k : FaultCause) (s : State) : (s.enterFault k).cgc = s.cgc := by
  unfold State.enterFault; split <;> rfl
@[simp] theorem State.enterFault_grd (k : FaultCause) (s : State) : (s.enterFault k).grd = s.grd := by
  unfold State.enterFault; split <;> rfl
@[simp] theorem State.enterFault_stu (k : FaultCause) (s : State) : (s.enterFault k).stu = s.stu := by
  unfold State.enterFault; split <;> rfl
@[simp] theorem State.enterFault_host (k : FaultCause) (s : State) : (s.enterFault k).host = s.host := by
  unfold State.enterFault; split <;> rfl
@[simp] theorem State.enterFault_free (k : FaultCause) (s : State) : (s.enterFault k).free = s.free := by
  unfold State.enterFault; split <;> rfl

/-! ## State.closePage -/

@[simp] theorem State.closePage_pending (s : State) : (s.closePage).pending = s.pending := by
  unfold State.closePage; split <;> rfl
@[simp] theorem State.closePage_sts (s : State) : (s.closePage).sts = s.sts := by
  unfold State.closePage; split <;> rfl
@[simp] theorem State.closePage_pinHeld (s : State) : (s.closePage).pinHeld = s.pinHeld := by
  unfold State.closePage; split <;> rfl
@[simp] theorem State.closePage_inputs (s : State) : (s.closePage).inputs = s.inputs := by
  unfold State.closePage; split <;> rfl
@[simp] theorem State.closePage_setup (s : State) : (s.closePage).setup = s.setup := by
  unfold State.closePage; split <;> rfl
@[simp] theorem State.closePage_pos (s : State) : (s.closePage).pos = s.pos := by
  unfold State.closePage; split <;> rfl
@[simp] theorem State.closePage_sli (s : State) : (s.closePage).sli = s.sli := by
  unfold State.closePage; split <;> rfl
@[simp] theorem State.closePage_fas (s : State) : (s.closePage).fas = s.fas := by
  unfold State.closePage; split <;> rfl
@[simp] theorem State.closePage_rbm (s : State) : (s.closePage).rbm = s.rbm := by
  unfold State.closePage; split <;> rfl
@[simp] theorem State.closePage_oru (s : State) : (s.closePage).oru = s.oru := by
  unfold State.closePage; split <;> rfl
@[simp] theorem State.closePage_rpl (s : State) : (s.closePage).rpl = s.rpl := by
  unfold State.closePage; split <;> rfl
@[simp] theorem State.closePage_cgc (s : State) : (s.closePage).cgc = s.cgc := by
  unfold State.closePage; split <;> rfl
@[simp] theorem State.closePage_grd (s : State) : (s.closePage).grd = s.grd := by
  unfold State.closePage; split <;> rfl
@[simp] theorem State.closePage_stu (s : State) : (s.closePage).stu = s.stu := by
  unfold State.closePage; split <;> rfl

/-! ## State.writeMirror -/

@[simp] theorem State.writeMirror_pending (s : State) : (s.writeMirror).pending = s.pending := by
  unfold State.writeMirror; rfl
@[simp] theorem State.writeMirror_sts (s : State) : (s.writeMirror).sts = s.sts := by
  unfold State.writeMirror; rfl
@[simp] theorem State.writeMirror_pinHeld (s : State) : (s.writeMirror).pinHeld = s.pinHeld := by
  unfold State.writeMirror; rfl
@[simp] theorem State.writeMirror_inputs (s : State) : (s.writeMirror).inputs = s.inputs := by
  unfold State.writeMirror; rfl
@[simp] theorem State.writeMirror_setup (s : State) : (s.writeMirror).setup = s.setup := by
  unfold State.writeMirror; rfl
@[simp] theorem State.writeMirror_pos (s : State) : (s.writeMirror).pos = s.pos := by
  unfold State.writeMirror; rfl
@[simp] theorem State.writeMirror_sli (s : State) : (s.writeMirror).sli = s.sli := by
  unfold State.writeMirror; rfl
@[simp] theorem State.writeMirror_fas (s : State) : (s.writeMirror).fas = s.fas := by
  unfold State.writeMirror; rfl
@[simp] theorem State.writeMirror_rbm (s : State) : (s.writeMirror).rbm = s.rbm := by
  unfold State.writeMirror; rfl
@[simp] theorem State.writeMirror_oru (s : State) : (s.writeMirror).oru = s.oru := by
  unfold State.writeMirror; rfl
@[simp] theorem State.writeMirror_rpl (s : State) : (s.writeMirror).rpl = s.rpl := by
  unfold State.writeMirror; rfl
@[simp] theorem State.writeMirror_cgc (s : State) : (s.writeMirror).cgc = s.cgc := by
  unfold State.writeMirror; rfl
@[simp] theorem State.writeMirror_grd (s : State) : (s.writeMirror).grd = s.grd := by
  unfold State.writeMirror; rfl
@[simp] theorem State.writeMirror_stu (s : State) : (s.writeMirror).stu = s.stu := by
  unfold State.writeMirror; rfl
@[simp] theorem State.writeMirror_exu (s : State) : (s.writeMirror).exu = s.exu := by
  unfold State.writeMirror; rfl
@[simp] theorem State.writeMirror_free (s : State) : (s.writeMirror).free = s.free := by
  unfold State.writeMirror; rfl

/-! ## State.ienWritten -/

@[simp] theorem State.ienWritten_pending (v : Bool) (s : State) : (s.ienWritten v).pending = s.pending := rfl
@[simp] theorem State.ienWritten_sts (v : Bool) (s : State) : (s.ienWritten v).sts = s.sts := rfl
@[simp] theorem State.ienWritten_pinHeld (v : Bool) (s : State) : (s.ienWritten v).pinHeld = s.pinHeld := rfl
@[simp] theorem State.ienWritten_inputs (v : Bool) (s : State) : (s.ienWritten v).inputs = s.inputs := rfl
@[simp] theorem State.ienWritten_setup (v : Bool) (s : State) : (s.ienWritten v).setup = s.setup := rfl
@[simp] theorem State.ienWritten_pos (v : Bool) (s : State) : (s.ienWritten v).pos = s.pos := rfl
@[simp] theorem State.ienWritten_sli (v : Bool) (s : State) : (s.ienWritten v).sli = s.sli := rfl
@[simp] theorem State.ienWritten_fas (v : Bool) (s : State) : (s.ienWritten v).fas = s.fas := rfl
@[simp] theorem State.ienWritten_rbm (v : Bool) (s : State) : (s.ienWritten v).rbm = s.rbm := rfl
@[simp] theorem State.ienWritten_oru (v : Bool) (s : State) : (s.ienWritten v).oru = s.oru := rfl
@[simp] theorem State.ienWritten_rpl (v : Bool) (s : State) : (s.ienWritten v).rpl = s.rpl := rfl
@[simp] theorem State.ienWritten_cgc (v : Bool) (s : State) : (s.ienWritten v).cgc = s.cgc := rfl
@[simp] theorem State.ienWritten_grd (v : Bool) (s : State) : (s.ienWritten v).grd = s.grd := rfl
@[simp] theorem State.ienWritten_stu (v : Bool) (s : State) : (s.ienWritten v).stu = s.stu := rfl
@[simp] theorem State.ienWritten_host (v : Bool) (s : State) : (s.ienWritten v).host = s.host := rfl
@[simp] theorem State.ienWritten_free (v : Bool) (s : State) : (s.ienWritten v).free = s.free := rfl

/-! ## State.hostWrites -/

@[simp] theorem State.hostWrites_pending (ws : List HostWrite) (s : State) : (s.hostWrites ws).pending = s.pending := rfl
@[simp] theorem State.hostWrites_sts (ws : List HostWrite) (s : State) : (s.hostWrites ws).sts = s.sts := rfl
@[simp] theorem State.hostWrites_pinHeld (ws : List HostWrite) (s : State) : (s.hostWrites ws).pinHeld = s.pinHeld := rfl
@[simp] theorem State.hostWrites_inputs (ws : List HostWrite) (s : State) : (s.hostWrites ws).inputs = s.inputs := rfl
@[simp] theorem State.hostWrites_setup (ws : List HostWrite) (s : State) : (s.hostWrites ws).setup = s.setup := rfl
@[simp] theorem State.hostWrites_pos (ws : List HostWrite) (s : State) : (s.hostWrites ws).pos = s.pos := rfl
@[simp] theorem State.hostWrites_sli (ws : List HostWrite) (s : State) : (s.hostWrites ws).sli = s.sli := rfl
@[simp] theorem State.hostWrites_fas (ws : List HostWrite) (s : State) : (s.hostWrites ws).fas = s.fas := rfl
@[simp] theorem State.hostWrites_rbm (ws : List HostWrite) (s : State) : (s.hostWrites ws).rbm = s.rbm := rfl
@[simp] theorem State.hostWrites_oru (ws : List HostWrite) (s : State) : (s.hostWrites ws).oru = s.oru := rfl
@[simp] theorem State.hostWrites_rpl (ws : List HostWrite) (s : State) : (s.hostWrites ws).rpl = s.rpl := rfl
@[simp] theorem State.hostWrites_cgc (ws : List HostWrite) (s : State) : (s.hostWrites ws).cgc = s.cgc := rfl
@[simp] theorem State.hostWrites_grd (ws : List HostWrite) (s : State) : (s.hostWrites ws).grd = s.grd := rfl
@[simp] theorem State.hostWrites_stu (ws : List HostWrite) (s : State) : (s.hostWrites ws).stu = s.stu := rfl
@[simp] theorem State.hostWrites_exu (ws : List HostWrite) (s : State) : (s.hostWrites ws).exu = s.exu := rfl
@[simp] theorem State.hostWrites_free (ws : List HostWrite) (s : State) : (s.hostWrites ws).free = s.free := rfl

/-! ## State.cursorTo -/

@[simp] theorem State.cursorTo_pending (b : Block) (s : State) : (s.cursorTo b).pending = s.pending := rfl
@[simp] theorem State.cursorTo_sts (b : Block) (s : State) : (s.cursorTo b).sts = s.sts := rfl
@[simp] theorem State.cursorTo_pinHeld (b : Block) (s : State) : (s.cursorTo b).pinHeld = s.pinHeld := rfl
@[simp] theorem State.cursorTo_inputs (b : Block) (s : State) : (s.cursorTo b).inputs = s.inputs := rfl
@[simp] theorem State.cursorTo_setup (b : Block) (s : State) : (s.cursorTo b).setup = s.setup := rfl
@[simp] theorem State.cursorTo_pos (b : Block) (s : State) : (s.cursorTo b).pos = s.pos := rfl
@[simp] theorem State.cursorTo_sli (b : Block) (s : State) : (s.cursorTo b).sli = s.sli := rfl
@[simp] theorem State.cursorTo_fas (b : Block) (s : State) : (s.cursorTo b).fas = s.fas := rfl
@[simp] theorem State.cursorTo_rbm (b : Block) (s : State) : (s.cursorTo b).rbm = s.rbm := rfl
@[simp] theorem State.cursorTo_oru (b : Block) (s : State) : (s.cursorTo b).oru = s.oru := rfl
@[simp] theorem State.cursorTo_rpl (b : Block) (s : State) : (s.cursorTo b).rpl = s.rpl := rfl
@[simp] theorem State.cursorTo_cgc (b : Block) (s : State) : (s.cursorTo b).cgc = s.cgc := rfl
@[simp] theorem State.cursorTo_grd (b : Block) (s : State) : (s.cursorTo b).grd = s.grd := rfl
@[simp] theorem State.cursorTo_stu (b : Block) (s : State) : (s.cursorTo b).stu = s.stu := rfl
@[simp] theorem State.cursorTo_host (b : Block) (s : State) : (s.cursorTo b).host = s.host := rfl
@[simp] theorem State.cursorTo_free (b : Block) (s : State) : (s.cursorTo b).free = s.free := rfl

/-! ## State.doDetach -/

@[simp] theorem State.doDetach_pending (s : State) : (s.doDetach).pending = s.pending := by
  simp [State.doDetach]
@[simp] theorem State.doDetach_pinHeld (s : State) : (s.doDetach).pinHeld = s.pinHeld := by
  simp [State.doDetach]
@[simp] theorem State.doDetach_inputs (s : State) : (s.doDetach).inputs = s.inputs := by
  simp [State.doDetach]
@[simp] theorem State.doDetach_setup (s : State) : (s.doDetach).setup = s.setup := by
  simp [State.doDetach]
@[simp] theorem State.doDetach_pos (s : State) : (s.doDetach).pos = s.pos := by
  simp [State.doDetach]
@[simp] theorem State.doDetach_sli (s : State) : (s.doDetach).sli = s.sli := by
  simp [State.doDetach]
@[simp] theorem State.doDetach_fas (s : State) : (s.doDetach).fas = s.fas := by
  simp [State.doDetach]
@[simp] theorem State.doDetach_rbm (s : State) : (s.doDetach).rbm = s.rbm := by
  simp [State.doDetach]
@[simp] theorem State.doDetach_oru (s : State) : (s.doDetach).oru = s.oru := by
  simp [State.doDetach]
@[simp] theorem State.doDetach_rpl (s : State) : (s.doDetach).rpl = s.rpl := by
  simp [State.doDetach]
@[simp] theorem State.doDetach_cgc (s : State) : (s.doDetach).cgc = s.cgc := by
  simp [State.doDetach]
@[simp] theorem State.doDetach_grd (s : State) : (s.doDetach).grd = s.grd := by
  simp [State.doDetach]
@[simp] theorem State.doDetach_stu (s : State) : (s.doDetach).stu = s.stu := by
  simp [State.doDetach]

/-! ## State.resolveCut -/

@[simp] theorem State.resolveCut_pending (row : Word) (pos : Pos) (o : CutState) (i : InhibitCause) (u : Word) (s : State) : (s.resolveCut row pos o i u).pending = s.pending := by
  unfold State.resolveCut; dsimp only; split <;> simp
@[simp] theorem State.resolveCut_sts (row : Word) (pos : Pos) (o : CutState) (i : InhibitCause) (u : Word) (s : State) : (s.resolveCut row pos o i u).sts = s.sts := by
  unfold State.resolveCut; dsimp only; split <;> simp
@[simp] theorem State.resolveCut_pinHeld (row : Word) (pos : Pos) (o : CutState) (i : InhibitCause) (u : Word) (s : State) : (s.resolveCut row pos o i u).pinHeld = s.pinHeld := by
  unfold State.resolveCut; dsimp only; split <;> simp
@[simp] theorem State.resolveCut_inputs (row : Word) (pos : Pos) (o : CutState) (i : InhibitCause) (u : Word) (s : State) : (s.resolveCut row pos o i u).inputs = s.inputs := by
  unfold State.resolveCut; dsimp only; split <;> simp
@[simp] theorem State.resolveCut_setup (row : Word) (pos : Pos) (o : CutState) (i : InhibitCause) (u : Word) (s : State) : (s.resolveCut row pos o i u).setup = s.setup := by
  unfold State.resolveCut; dsimp only; split <;> simp
@[simp] theorem State.resolveCut_pos (row : Word) (pos : Pos) (o : CutState) (i : InhibitCause) (u : Word) (s : State) : (s.resolveCut row pos o i u).pos = s.pos := by
  unfold State.resolveCut; dsimp only; split <;> simp
@[simp] theorem State.resolveCut_sli (row : Word) (pos : Pos) (o : CutState) (i : InhibitCause) (u : Word) (s : State) : (s.resolveCut row pos o i u).sli = s.sli := by
  unfold State.resolveCut; dsimp only; split <;> simp
@[simp] theorem State.resolveCut_fas (row : Word) (pos : Pos) (o : CutState) (i : InhibitCause) (u : Word) (s : State) : (s.resolveCut row pos o i u).fas = s.fas := by
  unfold State.resolveCut; dsimp only; split <;> simp
@[simp] theorem State.resolveCut_rbm (row : Word) (pos : Pos) (o : CutState) (i : InhibitCause) (u : Word) (s : State) : (s.resolveCut row pos o i u).rbm = s.rbm := by
  unfold State.resolveCut; dsimp only; split <;> simp
@[simp] theorem State.resolveCut_oru (row : Word) (pos : Pos) (o : CutState) (i : InhibitCause) (u : Word) (s : State) : (s.resolveCut row pos o i u).oru = s.oru := by
  unfold State.resolveCut; dsimp only; split <;> simp
@[simp] theorem State.resolveCut_cgc (row : Word) (pos : Pos) (o : CutState) (i : InhibitCause) (u : Word) (s : State) : (s.resolveCut row pos o i u).cgc = s.cgc := by
  unfold State.resolveCut; dsimp only; split <;> simp
@[simp] theorem State.resolveCut_grd (row : Word) (pos : Pos) (o : CutState) (i : InhibitCause) (u : Word) (s : State) : (s.resolveCut row pos o i u).grd = s.grd := by
  unfold State.resolveCut; dsimp only; split <;> simp
@[simp] theorem State.resolveCut_host (row : Word) (pos : Pos) (o : CutState) (i : InhibitCause) (u : Word) (s : State) : (s.resolveCut row pos o i u).host = s.host := by
  unfold State.resolveCut; dsimp only; split <;> simp
@[simp] theorem State.resolveCut_free (row : Word) (pos : Pos) (o : CutState) (i : InhibitCause) (u : Word) (s : State) : (s.resolveCut row pos o i u).free = s.free := by
  unfold State.resolveCut; dsimp only; split <;> simp

/-! ## State.recordWritten -/

@[simp] theorem State.recordWritten_pending (p : FillingPage) (r : Staged) (rest : List Staged) (s : State) :
    (s.recordWritten p r rest).pending = s.pending := rfl
@[simp] theorem State.recordWritten_sts (p : FillingPage) (r : Staged) (rest : List Staged) (s : State) :
    (s.recordWritten p r rest).sts = s.sts := rfl
@[simp] theorem State.recordWritten_pinHeld (p : FillingPage) (r : Staged) (rest : List Staged) (s : State) :
    (s.recordWritten p r rest).pinHeld = s.pinHeld := rfl
@[simp] theorem State.recordWritten_inputs (p : FillingPage) (r : Staged) (rest : List Staged) (s : State) :
    (s.recordWritten p r rest).inputs = s.inputs := rfl
@[simp] theorem State.recordWritten_setup (p : FillingPage) (r : Staged) (rest : List Staged) (s : State) :
    (s.recordWritten p r rest).setup = s.setup := rfl
@[simp] theorem State.recordWritten_pos (p : FillingPage) (r : Staged) (rest : List Staged) (s : State) :
    (s.recordWritten p r rest).pos = s.pos := rfl
@[simp] theorem State.recordWritten_sli (p : FillingPage) (r : Staged) (rest : List Staged) (s : State) :
    (s.recordWritten p r rest).sli = s.sli := rfl
@[simp] theorem State.recordWritten_fas (p : FillingPage) (r : Staged) (rest : List Staged) (s : State) :
    (s.recordWritten p r rest).fas = s.fas := rfl
@[simp] theorem State.recordWritten_rbm (p : FillingPage) (r : Staged) (rest : List Staged) (s : State) :
    (s.recordWritten p r rest).rbm = s.rbm := rfl
@[simp] theorem State.recordWritten_oru (p : FillingPage) (r : Staged) (rest : List Staged) (s : State) :
    (s.recordWritten p r rest).oru = s.oru := rfl
@[simp] theorem State.recordWritten_rpl (p : FillingPage) (r : Staged) (rest : List Staged) (s : State) :
    (s.recordWritten p r rest).rpl = s.rpl := rfl
@[simp] theorem State.recordWritten_cgc (p : FillingPage) (r : Staged) (rest : List Staged) (s : State) :
    (s.recordWritten p r rest).cgc = s.cgc := rfl
@[simp] theorem State.recordWritten_grd (p : FillingPage) (r : Staged) (rest : List Staged) (s : State) :
    (s.recordWritten p r rest).grd = s.grd := rfl
@[simp] theorem State.recordWritten_stu (p : FillingPage) (r : Staged) (rest : List Staged) (s : State) :
    (s.recordWritten p r rest).stu = s.stu := rfl
@[simp] theorem State.recordWritten_host (p : FillingPage) (r : Staged) (rest : List Staged) (s : State) :
    (s.recordWritten p r rest).host = s.host := rfl
@[simp] theorem State.recordWritten_free (p : FillingPage) (r : Staged) (rest : List Staged) (s : State) :
    (s.recordWritten p r rest).free = s.free := rfl

/-! ## State.pageStep -/

@[simp] theorem State.pageStep_pending (s : State) : (s.pageStep).pending = s.pending := by
  unfold State.pageStep; split <;> rfl
@[simp] theorem State.pageStep_sts (s : State) : (s.pageStep).sts = s.sts := by
  unfold State.pageStep; split <;> rfl
@[simp] theorem State.pageStep_pinHeld (s : State) : (s.pageStep).pinHeld = s.pinHeld := by
  unfold State.pageStep; split <;> rfl
@[simp] theorem State.pageStep_inputs (s : State) : (s.pageStep).inputs = s.inputs := by
  unfold State.pageStep; split <;> rfl
@[simp] theorem State.pageStep_setup (s : State) : (s.pageStep).setup = s.setup := by
  unfold State.pageStep; split <;> rfl
@[simp] theorem State.pageStep_pos (s : State) : (s.pageStep).pos = s.pos := by
  unfold State.pageStep; split <;> rfl
@[simp] theorem State.pageStep_sli (s : State) : (s.pageStep).sli = s.sli := by
  unfold State.pageStep; split <;> rfl
@[simp] theorem State.pageStep_fas (s : State) : (s.pageStep).fas = s.fas := by
  unfold State.pageStep; split <;> rfl
@[simp] theorem State.pageStep_rbm (s : State) : (s.pageStep).rbm = s.rbm := by
  unfold State.pageStep; split <;> rfl
@[simp] theorem State.pageStep_oru (s : State) : (s.pageStep).oru = s.oru := by
  unfold State.pageStep; split <;> rfl
@[simp] theorem State.pageStep_rpl (s : State) : (s.pageStep).rpl = s.rpl := by
  unfold State.pageStep; split <;> rfl
@[simp] theorem State.pageStep_cgc (s : State) : (s.pageStep).cgc = s.cgc := by
  unfold State.pageStep; split <;> rfl
@[simp] theorem State.pageStep_grd (s : State) : (s.pageStep).grd = s.grd := by
  unfold State.pageStep; split <;> rfl
@[simp] theorem State.pageStep_stu (s : State) : (s.pageStep).stu = s.stu := by
  unfold State.pageStep; split <;> rfl
@[simp] theorem State.pageStep_free (s : State) : (s.pageStep).free = s.free := by
  unfold State.pageStep; split <;> rfl

/-! ## State.finishPoll -/

@[simp] theorem State.finishPoll_pending (s : State) : (s.finishPoll).pending = s.pending := by
  simp [State.finishPoll]
@[simp] theorem State.finishPoll_sts (s : State) : (s.finishPoll).sts = s.sts := by
  simp [State.finishPoll]
@[simp] theorem State.finishPoll_pinHeld (s : State) : (s.finishPoll).pinHeld = s.pinHeld := by
  simp [State.finishPoll]
@[simp] theorem State.finishPoll_inputs (s : State) : (s.finishPoll).inputs = s.inputs := by
  simp [State.finishPoll]
@[simp] theorem State.finishPoll_setup (s : State) : (s.finishPoll).setup = s.setup := by
  simp [State.finishPoll]
@[simp] theorem State.finishPoll_pos (s : State) : (s.finishPoll).pos = s.pos := by
  simp [State.finishPoll]
@[simp] theorem State.finishPoll_sli (s : State) : (s.finishPoll).sli = s.sli := by
  simp [State.finishPoll]
@[simp] theorem State.finishPoll_fas (s : State) : (s.finishPoll).fas = s.fas := by
  simp [State.finishPoll]
@[simp] theorem State.finishPoll_rbm (s : State) : (s.finishPoll).rbm = s.rbm := by
  simp [State.finishPoll]
@[simp] theorem State.finishPoll_oru (s : State) : (s.finishPoll).oru = s.oru := by
  simp [State.finishPoll]
@[simp] theorem State.finishPoll_rpl (s : State) : (s.finishPoll).rpl = s.rpl := by
  simp [State.finishPoll]
@[simp] theorem State.finishPoll_cgc (s : State) : (s.finishPoll).cgc = s.cgc := by
  simp [State.finishPoll]
@[simp] theorem State.finishPoll_grd (s : State) : (s.finishPoll).grd = s.grd := by
  simp [State.finishPoll]
@[simp] theorem State.finishPoll_stu (s : State) : (s.finishPoll).stu = s.stu := by
  simp [State.finishPoll]
@[simp] theorem State.finishPoll_free (s : State) : (s.finishPoll).free = s.free := by
  simp [State.finishPoll]

/-! ## State.stopped -/

@[simp] theorem State.stopped_pending (s : State) : (s.stopped).pending = s.pending := rfl
@[simp] theorem State.stopped_pinHeld (s : State) : (s.stopped).pinHeld = s.pinHeld := rfl
@[simp] theorem State.stopped_inputs (s : State) : (s.stopped).inputs = s.inputs := rfl
@[simp] theorem State.stopped_setup (s : State) : (s.stopped).setup = s.setup := rfl
@[simp] theorem State.stopped_pos (s : State) : (s.stopped).pos = s.pos := rfl
@[simp] theorem State.stopped_sli (s : State) : (s.stopped).sli = s.sli := rfl
@[simp] theorem State.stopped_fas (s : State) : (s.stopped).fas = s.fas := rfl
@[simp] theorem State.stopped_rbm (s : State) : (s.stopped).rbm = s.rbm := rfl
@[simp] theorem State.stopped_oru (s : State) : (s.stopped).oru = s.oru := rfl
@[simp] theorem State.stopped_grd (s : State) : (s.stopped).grd = s.grd := rfl
@[simp] theorem State.stopped_stu (s : State) : (s.stopped).stu = s.stu := rfl
@[simp] theorem State.stopped_exu (s : State) : (s.stopped).exu = s.exu := rfl
@[simp] theorem State.stopped_host (s : State) : (s.stopped).host = s.host := rfl
@[simp] theorem State.stopped_free (s : State) : (s.stopped).free = s.free := rfl

/-! ## State.endDrain -/

@[simp] theorem State.endDrain_pending (s : State) : (s.endDrain).1.pending = s.pending := by
  simp [State.endDrain]
@[simp] theorem State.endDrain_pinHeld (s : State) : (s.endDrain).1.pinHeld = s.pinHeld := by
  simp [State.endDrain]
@[simp] theorem State.endDrain_inputs (s : State) : (s.endDrain).1.inputs = s.inputs := by
  simp [State.endDrain]
@[simp] theorem State.endDrain_setup (s : State) : (s.endDrain).1.setup = s.setup := by
  simp [State.endDrain]
@[simp] theorem State.endDrain_pos (s : State) : (s.endDrain).1.pos = s.pos := by
  simp [State.endDrain]
@[simp] theorem State.endDrain_rpl (s : State) : (s.endDrain).1.rpl = s.rpl := by
  simp [State.endDrain]
@[simp] theorem State.endDrain_cgc (s : State) : (s.endDrain).1.cgc = s.cgc := by
  simp [State.endDrain]
@[simp] theorem State.endDrain_grd (s : State) : (s.endDrain).1.grd = s.grd := by
  simp [State.endDrain]
@[simp] theorem State.endDrain_free (s : State) : (s.endDrain).1.free = s.free := by
  simp [State.endDrain]

/-! ## State.assembled -/

@[simp] theorem State.assembled_pending (c : Setup) (s : State) : (s.assembled c).1.pending = s.pending := by
  simp [State.assembled]
@[simp] theorem State.assembled_sts (c : Setup) (s : State) : (s.assembled c).1.sts = s.sts := by
  simp [State.assembled]
@[simp] theorem State.assembled_pinHeld (c : Setup) (s : State) : (s.assembled c).1.pinHeld = s.pinHeld := by
  simp [State.assembled]
@[simp] theorem State.assembled_inputs (c : Setup) (s : State) : (s.assembled c).1.inputs = s.inputs := by
  simp [State.assembled]
@[simp] theorem State.assembled_setup (c : Setup) (s : State) : (s.assembled c).1.setup = s.setup := by
  simp [State.assembled]
@[simp] theorem State.assembled_pos (c : Setup) (s : State) : (s.assembled c).1.pos = s.pos := by
  simp [State.assembled]
@[simp] theorem State.assembled_rpl (c : Setup) (s : State) : (s.assembled c).1.rpl = s.rpl := by
  simp [State.assembled]
@[simp] theorem State.assembled_cgc (c : Setup) (s : State) : (s.assembled c).1.cgc = s.cgc := by
  simp [State.assembled]
@[simp] theorem State.assembled_grd (c : Setup) (s : State) : (s.assembled c).1.grd = s.grd := by
  simp [State.assembled]
@[simp] theorem State.assembled_free (c : Setup) (s : State) : (s.assembled c).1.free = s.free := by
  simp [State.assembled]

/-! ## State.retire -/

@[simp] theorem State.retire_pending (c : Setup) (r : Row) (rest : List Row) (s : State) : (s.retire c r rest).1.pending = s.pending := by
  simp [State.retire]
@[simp] theorem State.retire_sts (c : Setup) (r : Row) (rest : List Row) (s : State) : (s.retire c r rest).1.sts = s.sts := by
  simp [State.retire]
@[simp] theorem State.retire_pinHeld (c : Setup) (r : Row) (rest : List Row) (s : State) : (s.retire c r rest).1.pinHeld = s.pinHeld := by
  simp [State.retire]
@[simp] theorem State.retire_inputs (c : Setup) (r : Row) (rest : List Row) (s : State) : (s.retire c r rest).1.inputs = s.inputs := by
  simp [State.retire]
@[simp] theorem State.retire_setup (c : Setup) (r : Row) (rest : List Row) (s : State) : (s.retire c r rest).1.setup = s.setup := by
  simp [State.retire]
@[simp] theorem State.retire_pos (c : Setup) (r : Row) (rest : List Row) (s : State) : (s.retire c r rest).1.pos = s.pos := by
  simp [State.retire]
@[simp] theorem State.retire_sli (c : Setup) (r : Row) (rest : List Row) (s : State) : (s.retire c r rest).1.sli = s.sli := by
  simp [State.retire]
@[simp] theorem State.retire_fas (c : Setup) (r : Row) (rest : List Row) (s : State) : (s.retire c r rest).1.fas = s.fas := by
  simp [State.retire]
@[simp] theorem State.retire_cgc (c : Setup) (r : Row) (rest : List Row) (s : State) : (s.retire c r rest).1.cgc = s.cgc := by
  simp [State.retire]
@[simp] theorem State.retire_grd (c : Setup) (r : Row) (rest : List Row) (s : State) : (s.retire c r rest).1.grd = s.grd := by
  simp [State.retire]
@[simp] theorem State.retire_free (c : Setup) (r : Row) (rest : List Row) (s : State) : (s.retire c r rest).1.free = s.free := by
  simp [State.retire]

/-! ## State.completePlacement -/

@[simp] theorem State.completePlacement_pending (c : Setup) (s : State) (d : Decision) : (s.completePlacement c d).pending = s.pending := by
  simp [State.completePlacement]
@[simp] theorem State.completePlacement_sts (c : Setup) (s : State) (d : Decision) : (s.completePlacement c d).sts = s.sts := by
  simp [State.completePlacement]
@[simp] theorem State.completePlacement_pinHeld (c : Setup) (s : State) (d : Decision) : (s.completePlacement c d).pinHeld = s.pinHeld := by
  simp [State.completePlacement]
@[simp] theorem State.completePlacement_inputs (c : Setup) (s : State) (d : Decision) : (s.completePlacement c d).inputs = s.inputs := by
  simp [State.completePlacement]
@[simp] theorem State.completePlacement_setup (c : Setup) (s : State) (d : Decision) : (s.completePlacement c d).setup = s.setup := by
  simp [State.completePlacement]
@[simp] theorem State.completePlacement_pos (c : Setup) (s : State) (d : Decision) : (s.completePlacement c d).pos = s.pos := by
  simp [State.completePlacement]
@[simp] theorem State.completePlacement_sli (c : Setup) (s : State) (d : Decision) : (s.completePlacement c d).sli = s.sli := by
  simp [State.completePlacement]
@[simp] theorem State.completePlacement_fas (c : Setup) (s : State) (d : Decision) : (s.completePlacement c d).fas = s.fas := by
  simp [State.completePlacement]
@[simp] theorem State.completePlacement_rbm (c : Setup) (s : State) (d : Decision) : (s.completePlacement c d).rbm = s.rbm := by
  simp [State.completePlacement]
@[simp] theorem State.completePlacement_grd (c : Setup) (s : State) (d : Decision) : (s.completePlacement c d).grd = s.grd := by
  simp [State.completePlacement]
@[simp] theorem State.completePlacement_stu (c : Setup) (s : State) (d : Decision) : (s.completePlacement c d).stu = s.stu := by
  simp [State.completePlacement]
@[simp] theorem State.completePlacement_host (c : Setup) (s : State) (d : Decision) : (s.completePlacement c d).host = s.host := by
  simp [State.completePlacement]
@[simp] theorem State.completePlacement_free (c : Setup) (s : State) (d : Decision) : (s.completePlacement c d).free = s.free := by
  simp [State.completePlacement]

/-! ## State.applySetup -/

@[simp] theorem State.applySetup_pending (b : SetupBody) (s : State) : (s.applySetup b).pending = s.pending := by
  simp [State.applySetup]
@[simp] theorem State.applySetup_sts (b : SetupBody) (s : State) : (s.applySetup b).sts = s.sts := by
  simp [State.applySetup]
@[simp] theorem State.applySetup_pinHeld (b : SetupBody) (s : State) : (s.applySetup b).pinHeld = s.pinHeld := by
  simp [State.applySetup]
@[simp] theorem State.applySetup_inputs (b : SetupBody) (s : State) : (s.applySetup b).inputs = s.inputs := by
  simp [State.applySetup]
@[simp] theorem State.applySetup_pos (b : SetupBody) (s : State) : (s.applySetup b).pos = s.pos := by
  simp [State.applySetup]
@[simp] theorem State.applySetup_fas (b : SetupBody) (s : State) : (s.applySetup b).fas = s.fas := by
  simp [State.applySetup]
@[simp] theorem State.applySetup_rbm (b : SetupBody) (s : State) : (s.applySetup b).rbm = s.rbm := by
  simp [State.applySetup]
@[simp] theorem State.applySetup_oru (b : SetupBody) (s : State) : (s.applySetup b).oru = s.oru := by
  simp [State.applySetup]
@[simp] theorem State.applySetup_rpl (b : SetupBody) (s : State) : (s.applySetup b).rpl = s.rpl := by
  simp [State.applySetup]
@[simp] theorem State.applySetup_grd (b : SetupBody) (s : State) : (s.applySetup b).grd = s.grd := by
  simp [State.applySetup]
@[simp] theorem State.applySetup_stu (b : SetupBody) (s : State) : (s.applySetup b).stu = s.stu := by
  simp [State.applySetup]
@[simp] theorem State.applySetup_host (b : SetupBody) (s : State) : (s.applySetup b).host = s.host := by
  simp [State.applySetup]
@[simp] theorem State.applySetup_free (b : SetupBody) (s : State) : (s.applySetup b).free = s.free := by
  simp [State.applySetup]

/-! ## State.startRun -/

@[simp] theorem State.startRun_pending (c : Setup) (s : State) : (s.startRun c).pending = s.pending := rfl
@[simp] theorem State.startRun_pinHeld (c : Setup) (s : State) : (s.startRun c).pinHeld = s.pinHeld := rfl
@[simp] theorem State.startRun_inputs (c : Setup) (s : State) : (s.startRun c).inputs = s.inputs := rfl
@[simp] theorem State.startRun_setup (c : Setup) (s : State) : (s.startRun c).setup = s.setup := rfl
@[simp] theorem State.startRun_oru (c : Setup) (s : State) : (s.startRun c).oru = s.oru := rfl
@[simp] theorem State.startRun_grd (c : Setup) (s : State) : (s.startRun c).grd = s.grd := rfl
@[simp] theorem State.startRun_stu (c : Setup) (s : State) : (s.startRun c).stu = s.stu := rfl
@[simp] theorem State.startRun_exu (c : Setup) (s : State) : (s.startRun c).exu = s.exu := rfl
@[simp] theorem State.startRun_host (c : Setup) (s : State) : (s.startRun c).host = s.host := rfl
@[simp] theorem State.startRun_free (c : Setup) (s : State) : (s.startRun c).free = s.free := rfl

end Sys2Proof.Machine
end

