-- ==== Sys2Proof/Laws/Ops.lean ====
section
/-! SUPPORT. What each shared operation can do, said once: the step, staging, the taking of an order, FAULT, pages, cuts,
the order table, and the sums of the map and the tallies. -/

namespace Sys2Proof.Machine

/-! ## Taking an event -/

@[simp] theorem State.taken_free (s t : State) (h : s.pinHeld = false) : s.taken t = .next t := by
  simp [State.taken, h]

/-- What a command that is taken answers: its own effect, or the state as it was while the pin is held. -/
theorem State.taken_cases (s t u : State) (h : s.taken t = .next u) :
    (s.pinHeld = false ∧ u = t) ∨ (s.pinHeld = true ∧ u = s) := by
  unfold State.taken at h
  cases hp : s.pinHeld <;> simp_all

@[simp] theorem step_cons (c : Instr) (rest : List Instr) (s : State) (h : s.pending = c :: rest) :
    step s = exec c { s with pending := rest } := by unfold step; rw [h]

@[simp] theorem step_nil (s : State) (h : s.pending = []) : step s = .next s.tick := by unfold step; rw [h]

/-! ## Staging (R189, R190) -/

@[simp] theorem State.report_nil (s : State) : s.report [] = s := rfl

theorem stagedBytes_append (l r : List Staged) : stagedBytes (l ++ r) = stagedBytes l + stagedBytes r := by
  induction l with
  | nil => simp [stagedBytes]
  | cons x xs ih => simp [stagedBytes, ih, Nat.add_assoc]

theorem essentialBytes_le (l : List Staged) : essentialBytes l ≤ stagedBytes l := by
  induction l with
  | nil => exact Nat.le_refl _
  | cons x xs ih => simp only [essentialBytes, stagedBytes]; split <;> omega

/-- An eviction frees what is asked for, or every droppable record; it keeps every essential one. -/
theorem evict_spec : ∀ (n : Nat) (l : List Staged),
    essentialBytes (evict n l).1 = essentialBytes l ∧
    (stagedBytes (evict n l).1 + n ≤ stagedBytes l ∨ stagedBytes (evict n l).1 = essentialBytes l) ∧
    stagedBytes (evict n l).1 ≤ stagedBytes l
  | _, [] => by simp [evict, stagedBytes, essentialBytes]
  | n, r :: rs => by
    unfold evict
    split
    · subst_vars; simp
    · split
      · rename_i hd
        obtain ⟨a, b, c⟩ := evict_spec (n - r.body.size) rs
        simp only [essentialBytes, stagedBytes, hd, if_true]
        refine ⟨by omega, ?_, by omega⟩
        rcases b with b | b
        · left; omega
        · right; omega
      · rename_i hd
        obtain ⟨a, b, c⟩ := evict_spec n rs
        simp only [essentialBytes, stagedBytes, hd]
        refine ⟨by simp [a], ?_, by omega⟩
        rcases b with b | b
        · left; omega
        · right; simp [b]

/-- Nothing is evicted when nothing is asked for. -/
@[simp] theorem evict_zero (l : List Staged) : evict 0 l = (l, 0) := by cases l <;> simp [evict]

/-- An essential record that fits leaves staging within 16,384 bytes. -/
theorem Exchange.appendEssential_bounded (us : Word) (r : Report) (e : Exchange) (h : e.fitsEssential r.size = true) :
    stagedBytes (e.appendEssential us r).staging ≤ 16384 := by
  have f : essentialBytes e.staging + r.size ≤ 16384 := of_decide_eq_true h
  obtain ⟨_, b, c⟩ := evict_spec (stagedBytes e.staging + r.size - stagingLimit) e.staging
  simp only [Exchange.appendEssential, stagedBytes_append, stagedBytes, stagingLimit] at b c ⊢
  omega

theorem Exchange.tryLoss_bounded (us : Word) (e : Exchange) (h : stagedBytes e.staging ≤ 16384) :
    stagedBytes (e.tryLoss us).staging ≤ 16384 := by
  unfold Exchange.tryLoss
  split
  · rename_i g
    exact Exchange.appendEssential_bounded us _ e (by simp at g; exact g.2)
  · exact h

/-- Staging one record keeps staging within 16,384 bytes. -/
theorem Exchange.stage_bounded (us : Word) (e : Exchange) (r : Report) (h : stagedBytes e.staging ≤ 16384) :
    stagedBytes (e.stage us r).staging ≤ 16384 := by
  have p : stagedBytes (e.put us r).staging ≤ 16384 := by
    unfold Exchange.put
    split
    · split
      · rename_i g
        simp only [stagedBytes_append, stagedBytes]
        unfold droppableLimit at g
        omega
      · exact h
    · split
      · rename_i g; exact Exchange.appendEssential_bounded us r e g
      · refine Exchange.tryLoss_bounded us _ ?_
        have := (evict_spec (stagedBytes e.staging + r.size - stagingLimit) e.staging).2.2
        exact Nat.le_trans this h
  unfold Exchange.stage
  dsimp only
  split
  · unfold Exchange.raise; split <;> exact p
  · exact p

/-- Staging records keeps staging within 16,384 bytes. -/
theorem State.report_bounded : ∀ (rs : List Report) (s : State), stagedBytes s.exu.staging ≤ 16384 →
    stagedBytes (s.report rs).exu.staging ≤ 16384
  | [], _, h => h
  | r :: rs, s, h => State.report_bounded rs { s with exu := s.exu.stage s.pos.us r } (Exchange.stage_bounded _ _ _ h)

/-! ## Cause bits (R193) -/

/-- Raising a cause sets its bit, and sends a message when the bit was 0 and IEN is set. -/
theorem Exchange.raise_spec (c : Nat) (e : Exchange) (h : c < 4) :
    (e.raise c).causes.getLsbD c = true ∧ (e.raise c).staging = e.staging ∧
    (e.raise c).messages = e.messages + (if e.ien = true ∧ e.causes.getLsbD c = false then 1 else 0) := by
  unfold Exchange.raise
  split
  · rename_i g; simp [g]
  · rename_i g
    refine ⟨?_, rfl, ?_⟩
    · simp [h]
    · simp only [Bool.not_eq_true] at g
      simp only [g, and_true, bit]

/-! ## Order status (R197) -/

@[simp] theorem State.writeStatuses_nil (s : State) : s.writeStatuses [] = s := rfl
@[simp] theorem State.writeStatuses_cons (w : StatusWrite) (ws : List StatusWrite) (s : State) :
    s.writeStatuses (w :: ws) = (s.writeStatus w).writeStatuses ws := rfl
@[simp] theorem State.writeStatus_staging (w : StatusWrite) (s : State) :
    (s.writeStatus w).exu.staging = s.exu.staging := by
  unfold State.writeStatus
  dsimp only
  split
  · unfold Exchange.raise; split <;> rfl
  · rfl

/-! ## The taking of an order (R185) -/

/-- The taking of an order acts on the state with the cursor moved, when the poll holds an order of the kind in a part that
is attached and not in FAULT; else nothing happens. -/
theorem State.takeOrder_cases {α : Type} (pick : OrderBody → Option α) (act : Block → α → State → State × List StatusWrite)
    (s : State) :
    (∃ b x, s.exu.phase = .order b ∧ s.sts.state.live = true ∧ pick b.body = some x ∧
      s.takeOrder pick act = State.issue (act b x (s.cursorTo b))) ∨ s.takeOrder pick act = s := by
  unfold State.takeOrder
  split
  · rename_i b hb
    split
    · rename_i hl
      split
      · rename_i x hx; exact .inl ⟨b, x, hb, hl, hx, rfl⟩
      · exact .inr rfl
    · exact .inr rfl
  · exact .inr rfl

/-- The taking of the order in hand. -/
theorem State.takeOrder_some {α : Type} (pick : OrderBody → Option α) (act : Block → α → State → State × List StatusWrite)
    (s : State)
    (b : Block) (x : α) (h : s.exu.phase = .order b) (hl : s.sts.state.live = true) (hx : pick b.body = some x) :
    s.takeOrder pick act = State.issue (act b x (s.cursorTo b)) := by
  unfold State.takeOrder; simp [h, hl, hx]

/-! ## FAULT, pages and detach (R174, R183, R192) -/

/-- FAULT is entered from IDLE, RUNNING and DRAINING, and from nowhere else. -/
theorem State.enterFault_cases (cause : FaultCause) (s : State) :
    (s.sts.state.live = true ∧ (s.enterFault cause).sts = { s.sts with state := .fault, faultCause := cause } ∧
      { s.enterFault cause with sts := s.sts, exu := s.exu } = s) ∨
    (s.sts.state.live = false ∧ s.enterFault cause = s) := by
  unfold State.enterFault
  cases h : s.sts.state.live <;> simp

/-- The close of a page changes host memory, EXU and the count of free values, and nothing when no page is filling. -/
theorem State.closePage_cases (s : State) :
    (s.exu.filling = none ∧ s.closePage = s) ∨
    (s.exu.filling.isSome = true ∧ s.closePage.exu.filling = none ∧ s.closePage.exu.staging = s.exu.staging ∧
      s.closePage = { s with exu := s.closePage.exu, host := s.closePage.host, free := s.closePage.free }) := by
  unfold State.closePage
  cases h : s.exu.filling with
  | none => exact .inl ⟨rfl, rfl⟩
  | some p =>
    refine .inr ⟨rfl, ?_, ?_, rfl⟩
    · simp
    · dsimp only; unfold Exchange.raise; split <;> rfl

theorem State.closePage_wf (s : State) (h : s.host.wf) : s.closePage.host.wf := by
  unfold State.closePage
  split
  · exact h
  · exact Memory.writeWord_wf _ _ _ (Memory.writeBytes_wf _ _ _ h)

/-- A detach leaves the part DETACHED and changes nothing outside EXU, host memory and the count of free values. -/
theorem State.doDetach_spec (s : State) :
    s.doDetach.sts = { s.sts with state := .detached } ∧ s.doDetach.exu.detachPending = false ∧
    s.doDetach.exu.filling = none ∧ s.doDetach.exu.staging = s.exu.staging ∧
    { s.doDetach with sts := s.sts, exu := s.exu, host := s.host, free := s.free } = s := by
  rcases s.closePage_cases with ⟨h, e⟩ | ⟨h, e1, e2, e3⟩
  · unfold State.doDetach; rw [e]; exact ⟨rfl, rfl, h, rfl, rfl⟩
  · unfold State.doDetach
    generalize s.closePage = t at e1 e2 e3 ⊢
    cases s
    cases t
    simp_all

/-! ## The port, access by access (R178) -/

/-- What accesses change, whether or not one of them fails: host memory, and the causes and messages of EXU. -/
theorem State.attempt_spec : ∀ (n : Nat) (ops : List PortOp) (s : State),
    { (s.attempt n ops).1 with host := s.host, exu := s.exu } = s ∧
    { (s.attempt n ops).1.exu with causes := s.exu.causes, messages := s.exu.messages } = s.exu
  | n, [], s => by cases n <;> simp [State.attempt]
  | n, .cause c :: ops, s => by
    have h : State.attempt n (.cause c :: ops) s = State.attempt n ops { s with exu := s.exu.raise c } := by
      cases n <;> rfl
    obtain ⟨a, b⟩ := State.attempt_spec n ops { s with exu := s.exu.raise c }
    rw [h]
    refine ⟨?_, ?_⟩
    · generalize (State.attempt n ops { s with exu := s.exu.raise c }).1 = t at a b ⊢
      cases t; cases s; simp_all
    · generalize (State.attempt n ops { s with exu := s.exu.raise c }).1.exu = e at b ⊢
      have : { s.exu.raise c with causes := s.exu.causes, messages := s.exu.messages } = s.exu := by
        unfold Exchange.raise; split <;> rfl
      generalize s.exu.raise c = r at b this ⊢
      generalize s.exu = x at this ⊢
      cases e; cases r; cases x; simp_all
  | 0, .write _ _ :: _, s => by simp [State.attempt]
  | n + 1, .write a bs :: ops, s => by
    obtain ⟨h, k⟩ := State.attempt_spec n ops { s with host := s.host.writeBytes a bs }
    simp only [State.attempt]
    refine ⟨?_, k⟩
    generalize (State.attempt n ops { s with host := s.host.writeBytes a bs }).1 = t at h ⊢
    cases t; cases s; simp_all

theorem State.attempt_wf : ∀ (n : Nat) (ops : List PortOp) (s : State), s.host.wf → (s.attempt n ops).1.host.wf
  | n, [], s, h => by cases n <;> exact h
  | n, .cause c :: ops, s, h => by
    have e : State.attempt n (.cause c :: ops) s = State.attempt n ops { s with exu := s.exu.raise c } := by
      cases n <;> rfl
    rw [e]; exact State.attempt_wf n ops _ h
  | 0, .write _ _ :: _, _, h => h
  | n + 1, .write a bs :: ops, s, h => State.attempt_wf n ops _ (Memory.writeBytes_wf bs s.host a h)

/-- Doing two lists in turn. -/
theorem State.attempt_append : ∀ (n : Nat) (xs ys : List PortOp) (s : State),
    s.attempt n (xs ++ ys) =
      match s.attempt n xs with
      | (u, none) => (u, none)
      | (u, some k) => u.attempt k ys
  | n, [], ys, s => by cases n <;> rfl
  | n, .cause c :: xs, ys, s => by
    have e : ∀ zs, State.attempt n (.cause c :: zs) s = State.attempt n zs { s with exu := s.exu.raise c } := by
      intro zs; cases n <;> rfl
    rw [List.cons_append, e, e]; exact State.attempt_append n xs ys _
  | 0, .write _ _ :: _, _, _ => rfl
  | n + 1, .write a bs :: xs, ys, s => by
    simp only [List.cons_append, State.attempt]; exact State.attempt_append n xs ys _

theorem Memory.writeBytes_append : ∀ (xs ys : List Byte) (m : Memory) (a : Addr),
    m.writeBytes a (xs ++ ys) = (m.writeBytes a xs).writeBytes (a + BitVec.ofNat 64 xs.length) ys
  | [], ys, m, a => by simp [Memory.writeBytes]
  | x :: xs, ys, m, a => by
    simp only [List.cons_append, Memory.writeBytes, Memory.writeBytes_append xs ys, List.length_cons]
    congr 1
    rw [BitVec.add_assoc]
    congr 1
    apply BitVec.eq_of_toNat_eq; simp [Nat.add_comm]

/-- The first n words of a write are in memory when the write after them fails; with n words and more to spare it is whole. -/
theorem State.attempt_words : ∀ (k n : Nat) (a : Addr) (bs : List Byte) (s : State), bs.length = 4 * k →
    s.attempt n (wordOps a bs) =
      ({ s with host := s.host.writeBytes a (bs.take (4 * n)) }, if n < k then none else some (n - k))
  | 0, n, a, bs, s, h => by
    have : bs = [] := List.eq_nil_of_length_eq_zero (by simpa using h)
    subst this
    cases n <;> simp [wordOps, State.attempt, Memory.writeBytes]
  | k + 1, n, a, bs, s, h => by
    match bs, h with
    | w :: x :: y :: z :: bs, h =>
      have hk : bs.length = 4 * k := by simp at h; omega
      cases n with
      | zero => simp [wordOps, State.attempt, Memory.writeBytes]
      | succ n =>
        simp only [wordOps, State.attempt]
        rw [State.attempt_words k n (a + 4#64) bs _ hk]
        have e : (w :: x :: y :: z :: bs).take (4 * (n + 1)) = [w, x, y, z] ++ bs.take (4 * n) := by
          rw [show 4 * (n + 1) = 4 * n + 4 by omega]; simp
        rw [e, Memory.writeBytes_append]
        congr 1
        split <;> split <;> first | rfl | omega | (congr 1; omega)

/-- Words 0 to 4 of a status lie one after another from 14H. -/
theorem Memory.writeStatus_words (m : Memory) (w : StatusWrite) :
    m.writeStatus w = (m.writeBytes (w.addr + 0x14#64) ((List.range 5).flatMap (fun i => leBytes 4 (w.words.getD i 0)))).writeBytes
      (w.addr + 0x10#64) (leBytes 1 w.status ++ leBytes 1 w.reason ++ leBytes 2 0) := by
  rw [show List.range 5 = [0, 1, 2, 3, 4] by decide]
  simp only [List.flatMap_cons, List.flatMap_nil, List.append_nil, Memory.writeBytes_append, leBytes_length,
    BitVec.add_assoc, show (0x14#64 + BitVec.ofNat 64 4) = 0x18#64 by decide,
    show (0x18#64 + BitVec.ofNat 64 4) = 0x1C#64 by decide, show (0x1C#64 + BitVec.ofNat 64 4) = 0x20#64 by decide,
    show (0x20#64 + BitVec.ofNat 64 4) = 0x24#64 by decide]
  simp only [Memory.writeStatus, Memory.writeWord, Memory.writeBytes_append, leBytes_length, BitVec.add_assoc]

/-- A status write that is not cut short is the status write. -/
theorem State.attempt_status (n : Nat) (w : StatusWrite) (s : State) :
    s.attempt (n + 6) w.ops = (s.writeStatus w, some n) := by
  unfold StatusWrite.ops
  rw [State.attempt_append, State.attempt_append, State.attempt_words 5 (n + 6) _ _ s (by simp)]
  simp only [show ¬ (n + 6 < 5) by omega, if_false]
  rw [State.attempt_words 1 _ _ _ _ (by simp)]
  simp only [show ¬ (n + 6 - 5 < 1) by omega, if_false, show n + 6 - 5 - 1 = n by omega]
  rw [List.take_of_length_le (by simp; omega), List.take_of_length_le (by simp), ← Memory.writeStatus_words]
  unfold State.writeStatus
  generalize s.host.writeStatus w = m
  generalize (w.notify && Decidable.decide (w.status ≠ statusTaken)) = b
  cases b <;> cases n <;> rfl

/-- Status writes that are not cut short are the status writes (R188). -/
theorem State.attempt_statuses : ∀ (ws : List StatusWrite) (n : Nat) (s : State),
    s.attempt (n + 6 * ws.length) (statusOps ws) = (s.writeStatuses ws, some n)
  | [], n, s => by cases n <;> rfl
  | w :: ws, n, s => by
    have h : statusOps (w :: ws) = w.ops ++ statusOps ws := rfl
    rw [h, State.attempt_append, show n + 6 * (w :: ws).length = n + 6 * ws.length + 6 by rw [List.length_cons]; omega,
      State.attempt_status]
    exact State.attempt_statuses ws n _

/-- In DETACHED and FAULT no event makes an access that an error could cut short (R174, R175). -/
theorem State.cutEvent_of_not_live (c : Instr) (n : Nat) (s : State) (h : s.sts.state.live = false) :
    s.cutEvent c n = none := by
  have hr : s.sts.state.run = false := by revert h; cases s.sts.state <;> decide
  have hi : s.sts.state ≠ .idle := by intro e; rw [e] at h; cases h
  have hd : s.sts.state ≠ .draining := by intro e; rw [e] at h; cases h
  have order : ∀ {α : Type} (pick : OrderBody → Option α) (act : Block → α → State → State × List StatusWrite),
      s.cutOrder pick act n = none := by
    intro α pick act; unfold State.cutOrder; split <;> simp [h]
  have detach : ∀ ien, s.cutDetach ien n = none := by intro ien; simp [State.cutDetach, hi]
  cases c with
  | poll _ => simp only [State.cutEvent, State.cutPoll, h]; rfl
  | lineAssembly =>
    simp only [State.cutEvent, State.cutAssembly, State.gateReady, hr]
    cases s.setup <;> rfl
  | rowRetirement =>
    simp only [State.cutEvent, State.cutRetirement, hr]
    cases s.setup <;> cases s.rpl.rows <;> rfl
  | endOfDrain => simp [State.cutEvent, State.cutDrain, State.drainOver, hd]
  | pageRecordWrite =>
    simp only [State.cutEvent, State.cutRecord, h]
    cases s.exu.filling <;> cases s.exu.staging <;> rfl
  | pageFlush =>
    have : s.pageFlushDue = false := by unfold State.pageFlushDue; split <;> simp [h]
    simp [State.cutEvent, State.cutFlush, this]
  | detach ien => exact detach ien
  | registerWrite off v => simp [State.cutEvent, State.cutWindow, detach]
  | deferredDetach => simp [State.cutEvent, State.cutDeferred, hi]
  | setup | start | stop | cut | cancel | channel | loadMask | loadClasses | loadSpec | closeShift => exact order _ _
  | _ => rfl

@[simp] theorem State.failing_of_not_live (s : State) (h : s.sts.state.live = false) : s.failing = s := by
  unfold State.failing
  split
  · rfl
  · rw [State.cutEvent_of_not_live _ _ s h]

/-- An error between two events: nothing waits, or the event of what waits makes no access that is cut short (log 8). -/
theorem State.failing_of_none (s : State) (h : ∀ c ∈ s.pending.head?, s.cutEvent c (Config.busWrites s.free) = none) :
    s.failing = s := by
  unfold State.failing
  split
  · rfl
  · rename_i c _ hc
    rw [h c (by simp [hc])]

/-- An error within the event of the command that waits next (log 8). -/
theorem State.failing_of_some (c : Instr) (rest : List Instr) (s t : State) (hc : s.pending = c :: rest)
    (h : s.cutEvent c (Config.busWrites s.free) = some t) : s.failing = { t with free := s.free + 1 } := by
  unfold State.failing
  rw [hc]
  simp only [h]

/-! ## Cuts (R124 to R126) -/

/-- The resolution of a cut keeps every row's place, gate and grade, and changes nothing but rows, gate faults and records. -/
theorem State.resolveCut_spec (row : Word) (pos : Pos) (out : CutState) (why : InhibitCause) (time : Word) (s : State) :
    let t := s.resolveCut row pos out why time
    t.rpl.rows.map (fun r => (r.id, r.f, r.t, r.lanes, r.results)) =
      s.rpl.rows.map (fun r => (r.id, r.f, r.t, r.lanes, r.results)) ∧
    { t with rpl := s.rpl, stu := s.stu, exu := s.exu } = s := by
  unfold State.resolveCut
  dsimp only
  split
  · refine ⟨?_, rfl⟩
    simp [Planner.writeCut, Function.comp_def]
  · refine ⟨?_, rfl⟩
    simp only [Planner.writeCut, Planner.mergeRows, State.report_rpl, List.map_map]
    refine List.map_congr_left (fun r _ => ?_)
    simp only [Function.comp_def]
    (repeat' split) <;> rfl

/-! ## The order table (R74, R81, R86, R89) -/

@[simp] theorem OrderUnit.computeRunway_table (setup : Option Setup) (o : OrderUnit) :
    (o.computeRunway setup).1.table = o.table := by
  unfold OrderUnit.computeRunway
  split
  · rfl
  · dsimp only; split
    · rfl
    · split <;> rfl

@[simp] theorem OrderUnit.computeRunway_nextTake (setup : Option Setup) (o : OrderUnit) :
    (o.computeRunway setup).1.nextTake = o.nextTake := by
  unfold OrderUnit.computeRunway
  split
  · rfl
  · dsimp only; split
    · rfl
    · split <;> rfl

@[simp] theorem OrderUnit.computeRunway_runway (setup : Option Setup) (o : OrderUnit) :
    (o.computeRunway setup).1.runway = o.runwayNow := by
  unfold OrderUnit.computeRunway
  split
  · rfl
  · dsimp only; split
    · rfl
    · split <;> rfl

@[simp] theorem OrderUnit.enter_table (b : Block) (w : Work) (o : OrderUnit) :
    (o.enter b w).table = o.table ++ [⟨b.tag, o.nextTake, b.addr, b.notify, w⟩] := rfl

@[simp] theorem OrderUnit.updateCut_length (take : Word) (f : CutOrder → CutOrder) (o : OrderUnit) :
    (o.updateCut take f).table.length = o.table.length := by simp [OrderUnit.updateCut]

@[simp] theorem OrderUnit.supersede_length (o : OrderUnit) : o.supersede.table.length = o.table.length := by
  simp [OrderUnit.supersede]

/-- Updating one CUT order leaves every entry's tag, take number and block. -/
theorem OrderUnit.updateCut_heads (take : Word) (f : CutOrder → CutOrder) (o : OrderUnit) :
    (o.updateCut take f).table.map (fun e => (e.tag, e.take, e.addr, e.notify)) =
      o.table.map (fun e => (e.tag, e.take, e.addr, e.notify)) := by
  simp only [OrderUnit.updateCut, List.map_map]
  refine List.map_congr_left (fun e _ => ?_)
  simp only [Function.comp_def]
  split
  · split <;> rfl
  · rfl

/-- An entry of the table after an update is an entry before it, or one whose CUT order was updated. -/
theorem OrderUnit.mem_updateCut (take : Word) (f : CutOrder → CutOrder) (o : OrderUnit) (e : Entry)
    (h : e ∈ (o.updateCut take f).table) :
    e ∈ o.table ∨ ∃ d ∈ o.table, ∃ c, d.work = .cut c ∧ e = { d with work := .cut (f c) } := by
  simp only [OrderUnit.updateCut, List.mem_map] at h
  obtain ⟨d, hd, rfl⟩ := h
  split
  · split
    · rename_i c hc; exact .inr ⟨d, hd, c, hc, rfl⟩
    · exact .inl hd
  · exact .inl hd

/-- A drained table holds part of what it held. -/
theorem OrderUnit.completeCut_sublist (take : Word) (o : OrderUnit) :
    (o.completeCut take).1.table.Sublist o.table := by simp only [OrderUnit.completeCut]; exact List.filter_sublist

/-! ## Sums over the map and the tallies (R67, R154) -/

theorem Tally.addFlaws_spec : ∀ (ws : List Flaw) (t : Tally), t.flawsByClass.length = 16 → t.flawsTo.length = 3 →
    (∀ w ∈ ws, w.cls < 16) →
    (ws.foldl Tally.addFlaw t).flawsByClass.length = 16 ∧ (ws.foldl Tally.addFlaw t).flawsTo.length = 3 ∧
    (ws.foldl Tally.addFlaw t).flawsByClass.sum = t.flawsByClass.sum + BitVec.ofNat 64 ws.length ∧
    (ws.foldl Tally.addFlaw t).flawsTo.sum = t.flawsTo.sum + BitVec.ofNat 64 ws.length
  | [], t, h, g, _ => ⟨h, g, by simp, by simp⟩
  | w :: ws, t, h, g, hw => by
    have hc : w.cls < t.flawsByClass.length := by rw [h]; exact hw w List.mem_cons_self
    obtain ⟨a, b⟩ := t.addFlaw_sums w hc g
    obtain ⟨i, j, k, l⟩ := Tally.addFlaws_spec ws (t.addFlaw w) (by simp [Tally.addFlaw, h]) (by simp [Tally.addFlaw, g])
      (fun v hv => hw v (List.mem_cons_of_mem _ hv))
    refine ⟨i, j, ?_, ?_⟩
    · rw [List.foldl_cons, k, a, List.length_cons, BitVec.add_assoc]; congr 1
      rw [Nat.add_comm, BitVec.ofNat_add]
    · rw [List.foldl_cons, l, b, List.length_cons, BitVec.add_assoc]; congr 1
      rw [Nat.add_comm, BitVec.ofNat_add]

/-- Folding counts of intervals changes only the folded count of a tally. -/
theorem Tally.addFoldeds_spec : ∀ (is : List Interval) (t : Tally),
    is.foldl (fun t i => t.addFolded i.folded) t =
      { t with folded := t.folded + BitVec.ofNat 64 (is.map Interval.folded).sum }
  | [], t => by simp
  | i :: is, t => by
    rw [List.foldl_cons, Tally.addFoldeds_spec is]
    simp [Tally.addFolded, add64, BitVec.ofNat_add, BitVec.add_assoc]

/-- Adding a row changes no count of flaws of a tally. -/
theorem Tally.addRow_flaws (r : Row) (ps : List (Grade × Nat × Nat)) (t : Tally) :
    (t.addRow r ps).flawsByClass = t.flawsByClass ∧ (t.addRow r ps).flawsTo = t.flawsTo ∧
    (t.addRow r ps).folded = t.folded ∧ (t.addRow r ps).unplaced = t.unplaced ∧
    (t.addRow r ps).flawsLost = t.flawsLost ∧ (t.addRow r ps).shiftId = t.shiftId ∧
    (t.addRow r ps).maxSpeed = t.maxSpeed ∧
    (t.addRow r ps).rows = modifyAt r.kind.index (fun c => satAdd c 1) t.rows := by
  have cut : ∀ (o : CutState) (t : Tally), (t.addCut o).flawsByClass = t.flawsByClass ∧
      (t.addCut o).flawsTo = t.flawsTo ∧ (t.addCut o).folded = t.folded ∧ (t.addCut o).unplaced = t.unplaced ∧
      (t.addCut o).flawsLost = t.flawsLost ∧ (t.addCut o).shiftId = t.shiftId ∧ (t.addCut o).maxSpeed = t.maxSpeed ∧
      (t.addCut o).rows = t.rows := by
    intro o t; unfold Tally.addCut; split <;> exact ⟨rfl, rfl, rfl, rfl, rfl, rfl, rfl, rfl⟩
  have fold : ∀ (ps : List (Grade × Nat × Nat)) (t : Tally),
      let u := ps.foldl (fun t p => { t.addPlate p.1 p.2.1 with unseenArea := add64 t.unseenArea p.2.2 }) t
      u.flawsByClass = t.flawsByClass ∧ u.flawsTo = t.flawsTo ∧ u.folded = t.folded ∧ u.unplaced = t.unplaced ∧
      u.flawsLost = t.flawsLost ∧ u.shiftId = t.shiftId ∧ u.maxSpeed = t.maxSpeed ∧ u.rows = t.rows := by
    intro ps
    induction ps with
    | nil => intro t; exact ⟨rfl, rfl, rfl, rfl, rfl, rfl, rfl, rfl⟩
    | cons p ps ih => intro t; exact ih _
  have rc : ∀ t : Tally, (t.addRowCuts r).flawsByClass = t.flawsByClass ∧ (t.addRowCuts r).flawsTo = t.flawsTo ∧
      (t.addRowCuts r).folded = t.folded ∧ (t.addRowCuts r).unplaced = t.unplaced ∧
      (t.addRowCuts r).flawsLost = t.flawsLost ∧ (t.addRowCuts r).shiftId = t.shiftId ∧
      (t.addRowCuts r).maxSpeed = t.maxSpeed ∧
      (t.addRowCuts r).rows = modifyAt r.kind.index (fun c => satAdd c 1) t.rows := by
    intro t
    unfold Tally.addRowCuts
    dsimp only
    split <;> simp only [cut, and_self]
  have all := fold ps (t.addRowCuts r)
  have base := rc t
  dsimp only at all
  obtain ⟨a1, a2, a3, a4, a5, a6, a7, a8⟩ := all
  obtain ⟨b1, b2, b3, b4, b5, b6, b7, b8⟩ := base
  unfold Tally.addRow
  dsimp only
  split
  · exact ⟨a1.trans b1, a2.trans b2, a3.trans b3, a4.trans b4, a5.trans b5, a6.trans b6, a7.trans b7, a8.trans b8⟩
  · exact ⟨a1.trans b1, a2.trans b2, a3.trans b3, a4.trans b4, a5.trans b5, a6.trans b6, a7.trans b7, a8.trans b8⟩

/-! ## Finalization (R46 to R49) -/

/-- Finalizing a blob keeps the bounds of the map, the retired edge, the class table and the blobs' number. -/
theorem Bench.finalize_spec (c : Setup) (pos : Position) (b : Bench) (x : Closed) (h : b.rbm.unseen.length ≤ 256)
    (g : b.rbm.flaws.length ≤ 4096) :
    let d := b.finalize c pos x
    d.rbm.unseen.length ≤ 256 ∧ d.rbm.flaws.length ≤ 4096 ∧ d.rbm.retiredEdge = b.rbm.retiredEdge ∧
    d.fas.classes = b.fas.classes ∧ d.fas.blobs.length = b.fas.blobs.length ∧ d.fas.dense = b.fas.dense ∧
    d.fas.blobs.map Blob.first = b.fas.blobs.map Blob.first ∧ d.stu.closing = b.stu.closing ∧
    d.stu.interrupted = b.stu.interrupted := by
  unfold Bench.finalize
  split
  · exact ⟨h, g, rfl, rfl, rfl, rfl, rfl, rfl, rfl⟩
  · obtain ⟨s1, s2, s3, _⟩ := b.rbm.takeFlaw_spec (x.flaw c pos b.fas.classes b.fas.nextFlaw) h g
    refine ⟨s2, s3, s1, rfl, ?_, rfl, ?_, ?_, ?_⟩
    · dsimp only; unfold linkContinuation; split <;> simp
    · dsimp only; unfold linkContinuation; split
      · simp only [List.map_map]
        refine List.map_congr_left (fun e _ => ?_)
        simp only [Function.comp_def]
        split <;> rfl
      · rfl
    · dsimp only; split <;> rfl
    · dsimp only; split <;> rfl

/-- Finalizing the closed blobs of a line keeps the same. -/
theorem Bench.finalizes_spec (c : Setup) (pos : Position) : ∀ (xs : List Closed) (b : Bench), b.rbm.unseen.length ≤ 256 →
    b.rbm.flaws.length ≤ 4096 →
    let d := xs.foldl (Bench.finalize c pos) b
    d.rbm.unseen.length ≤ 256 ∧ d.rbm.flaws.length ≤ 4096 ∧ d.rbm.retiredEdge = b.rbm.retiredEdge ∧
    d.fas.classes = b.fas.classes ∧ d.fas.blobs.length = b.fas.blobs.length ∧ d.fas.dense = b.fas.dense ∧
    d.fas.blobs.map Blob.first = b.fas.blobs.map Blob.first ∧ d.stu.closing = b.stu.closing ∧
    d.stu.interrupted = b.stu.interrupted
  | [], _, h, g => ⟨h, g, rfl, rfl, rfl, rfl, rfl, rfl, rfl⟩
  | x :: xs, b, h, g => by
    obtain ⟨a1, a2, a3, a4, a5, a6, a7, a8, a9⟩ := Bench.finalize_spec c pos b x h g
    obtain ⟨b1, b2, b3, b4, b5, b6, b7, b8, b9⟩ := Bench.finalizes_spec c pos xs _ a1 a2
    exact ⟨b1, b2, b3.trans a3, b4.trans a4, b5.trans a5, b6.trans a6, b7.trans a7, b8.trans a8, b9.trans a9⟩

/-! ## The records of a retirement (R148) -/

theorem Row.plateRecords_length (g : Grader) (y : Pos) (ws : List Flaw) (r : Row) :
    ∀ (ls : List Lane) (xs : List LaneResult) (n : Nat), xs.length = ls.length →
      (r.plateRecords g y ws n ls xs).length = ls.length
  | [], [], _, _ => rfl
  | l :: ls, x :: xs, n, h => by
    simp [Row.plateRecords, Row.plateRecords_length g y ws r ls xs (n + 1) (by simpa using h)]
  | [], x :: xs, _, h => by simp at h
  | l :: ls, [], _, h => by simp at h

/-- The final grades of the PLATE records are those that ORU judges. -/
theorem Row.plateRecords_finals (g : Grader) (y : Pos) (ws : List Flaw) (r : Row) :
    ∀ (ls : List Lane) (xs : List LaneResult) (n : Nat), xs.length = ls.length →
      (r.plateRecords g y ws n ls xs).map PlateRec.final = r.finals xs
  | [], [], _, _ => rfl
  | l :: ls, x :: xs, n, h => by
    have := Row.plateRecords_finals g y ws r ls xs (n + 1) (by simpa using h)
    simp only [Row.plateRecords, List.map_cons, this, Row.finals]; rfl
  | [], x :: xs, _, h => by simp at h
  | l :: ls, [], _, h => by simp at h

/-- The PLATE record of each lane carries its lane's number and result. -/
theorem Row.plateRecords_getElem? (g : Grader) (y : Pos) (ws : List Flaw) (r : Row) :
    ∀ (ls : List Lane) (xs : List LaneResult) (n i : Nat) (x : LaneResult), xs.length = ls.length → xs[i]? = some x →
      ∃ l, (r.plateRecords g y ws n ls xs)[i]? = some (r.plateRecord g y ws (n + i) l x)
  | [], [], _, _, _, _, h => by simp at h
  | l :: ls, x :: xs, n, 0, z, h, hx => by simp at hx; subst hx; exact ⟨l, rfl⟩
  | l :: ls, x :: xs, n, i + 1, z, h, hx => by
    obtain ⟨m, hm⟩ := Row.plateRecords_getElem? g y ws r ls xs (n + 1) i z (by simpa using h) (by simpa using hx)
    refine ⟨m, ?_⟩
    simp only [Row.plateRecords, List.getElem?_cons_succ, hm]
    rw [show n + 1 + i = n + (i + 1) by omega]
  | [], x :: xs, _, _, _, h, _ => by simp at h
  | l :: ls, [], _, _, _, h, _ => by simp at h

/-! ## The lanes of a CUT order (R79) -/

@[simp] theorem layLanes_length : ∀ (ls : List LaneBody) (x : Nat), (layLanes x ls).length = ls.length
  | [], _ => rfl
  | l :: ls, x => by simp [layLanes, layLanes_length ls]

@[simp] theorem layLanes_ports : ∀ (ls : List LaneBody) (x : Nat),
    (layLanes x ls).map Lane.port = ls.map LaneBody.port
  | [], _ => rfl
  | l :: ls, x => by simp [layLanes, layLanes_ports ls]

end Sys2Proof.Machine
end

