-- ==== Sys2Proof/WellFormed.lean ====
section
/-! DEFINITION. Which commands are well formed: operands that the connections of the part can carry. -/

namespace Sys2Proof

/-- A host write lies within the 64-bit address space (R178). -/
def HostWrite.wellFormed (w : HostWrite) : Bool := w.addr + w.bytes.length ≤ 2 ^ 64

/-- A command is well formed when its host writes lie in the address space and a register write lies in the 4 KiB
window (R178). Channels and words are in range by their types. -/
def Instr.wellFormed : Instr → Bool
  | .attach _ host _ => host.all HostWrite.wellFormed
  | .poll host => host.all HostWrite.wellFormed
  | .registerWrite offset _ => offset < 4096
  | _ => true

end Sys2Proof
end

