-- ==== Sys2Proof/Tests/Slice0.lean ====
section
/-! SUPPORT. Tests of single commands against the spec's worked examples and tables, and for each statement with hypotheses
a state that meets them. -/

namespace Sys2Proof.Tests

set_option Elab.async false

open Sys2Proof Sys2Proof.Machine

/-! ## Helpers -/

/-- The state a command leaves. -/
def after (c : Instr) (s : State) : State :=
  match exec c s with
  | .next t => t
  | _ => s

/-- The bodies of the records in staging. -/
def staged (s : State) : List Report := s.exu.staging.map Staged.body

/-- The setup of sections 1.3.1, 2.5.1, 6.9 and 7.5.1: three channels, pitch 40, scale 3.125. -/
def body : SetupBody where
  scale := 0x32000
  pitch := 40
  maxSpeed := 800
  invert := false
  liveFlaws := true
  ports := 0b0011#4
  scrapCode := 7
  settleLines := 2
  deadline := 16
  joinTol := 50
  closeGap := 2
  maxBlobLines := 20000
  minArea := 4
  netLeft := 0
  netWidth := 4000
  flushTime := 20
  runwayWarn := 8000
  dGc := 3000
  dCommit := 1000
  dLead := 400
  dConfirm := 200
  dCg := 2000
  stripMin := 300
  stripMax := 800
  rowMin := 500
  rowMax := 6000
  fallbackLen := 2000
  cutoutMargin := 50
  maxCutouts := 2
  geom := [⟨true, 0, 6400, 6000⟩, ⟨true, 140000, 6400, 6000⟩, ⟨true, 280000, 6400, 6000⟩] ++
    List.replicate 13 ⟨false, 0, 0, 0⟩
  masks := [⟨0, 10, 19⟩]

/-- Attached, in IDLE, with that setup. -/
def idle : State := { State.reset with sts := ⟨.idle, .powerOn, .none, .none⟩, setup := some body.setup }

/-- In IDLE with no setup. -/
def bare : State := { idle with setup := none }

/-- In RUNNING, started at P. -/
def runAt (p : Pos) : State := { idle with pos := { idle.pos with p := p } }.startRun body.setup

/-- In RUNNING from P = 0. -/
def run : State := runAt 0

/-- A state in another part state. -/
def inState (x : PartState) (s : State) : State := { s with sts := { s.sts with state := x } }

/-- In FAULT. -/
def faulted : State := inState .fault run

/-- With channel 0 replaced. -/
def withChan (c : Channel) (s : State) : State := { s with sli := s.sli.setChan 0 c }

/-- An ACTIVE channel with a queue. -/
def active (q : List ScanWord) : Channel := { Channel.reset with state := .active, queue := q }

/-- The block of every order test, with NOTIFY. -/
def blk (o : OrderBody) : Block := ⟨0x1000#64, 7#32, true, o⟩

/-- With an order in hand. -/
def inHand (o : OrderBody) (s : State) : State := { s with exu := { s.exu with phase := .order (blk o) } }

/-- The status byte of the order in hand, as the host reads it, and its refusal reason. -/
def status (s : State) : Byte × Byte := (s.host.read 0x1010, s.host.read 0x1011)

/-- Spec 1 of section 8.7.1. -/
def spec1 : Spec where
  weight := (List.range 16).map (fun k => if k = 2 then 12 else if k = 5 then 4 else 0)
  limit := List.replicate 16 0
  b1 := 30
  b2 := 100
  b3 := 300
  e := 5000
  ze := 4
  zc := 16
  u := 20
  ta := 40
  tb := 80
  tc := 200
  codes := [1, 2, 3, 6, 5]

/-- With spec 1 loaded in places 1 and 3. -/
def graded (s : State) : State :=
  { s with grd := { s.grd with specs := (s.grd.specs.set 1 (some spec1)).set 3 (some spec1) } }

/-- A flaw of a class at a place. -/
def flaw (id : Word) (cls size xc : Nat) (yc : Pos) : Flaw where
  id := id
  first := 0
  last := 0
  yTop := yc - pu (size / 2)
  yBottom := yc + pu (size / 2)
  length := size
  yCenter := yc
  xLeft := xc
  xRight := xc
  width := 0
  xCenter := xc
  size := size
  area := 9
  peak := 60
  modes := 1
  chset := 1
  runs := 1
  contFrom := none
  segment := false
  cls := cls
  assignment := .unassigned

/-- The lanes of sections 4.4.1 and 6.9. -/
def lanes : List Lane := [⟨2250, 100000, 325000, 1, .b, 0⟩, ⟨1350, 325000, 460000, 3, .c, 1⟩]

/-- A row as placed. -/
def row (id : Word) (kind : RowKind) (f t : Pos) : Row where
  id := id
  kind := kind
  f := f
  t := t
  ref := none
  lanes := if kind = .order then lanes else []
  shiftTag := 0
  blind := false
  preGrades := []
  cutOuts := 0
  gradeState := .pending
  results := none
  lead := .armed
  trail := .armed
  gate := .waiting
  merged := false
  gateFault := false
  codes := []
  isFirst := false

/-- With rows in the list, the frontier at the T of the last. -/
def withRows (rows : List Row) (s : State) : State :=
  { s with rpl := { s.rpl with rows := rows, frontier := ((rows.getLast?).map Row.t).getD s.rpl.frontier } }

/-- A CUT order. -/
def order (state : CutOrderState) (remaining count rowMm : Nat) : CutOrder where
  state := state
  standing := false
  rowCount := count
  remaining := remaining
  rowMm := rowMm
  rowPu := rowMm * 100
  lanes := lanes
  superseded := false
  cutShort := false
  rowsPlaced := 2
  stripsPlaced := 0
  outstanding := 2
  meeting := 0
  below := 0

/-- The entry of a CUT order. -/
def entry (take tag : Word) (o : CutOrder) : Entry := ⟨tag, take, 0x2000, false, .cut o⟩

/-- With an order table. -/
def withTable (es : List Entry) (s : State) : State := { s with oru := { s.oru with table := es } }

/-! ## Well-formedness: an ill-formed term for each check -/

theorem test_wf_attach_host_out_of_range :
    Instr.wellFormed (.attach true [⟨2 ^ 64 - 1, [0, 0]⟩] .ok) = false := by decide +kernel
theorem test_wf_poll_host_out_of_range :
    Instr.wellFormed (.poll [⟨2 ^ 64, [0]⟩]) = false := by decide +kernel
theorem test_wf_register_write_out_of_window : Instr.wellFormed (.registerWrite 4096 0) = false := by decide +kernel
theorem test_wf_register_write_in_window : Instr.wellFormed (.registerWrite 4095 0) = true := by decide +kernel

/-- No row of the table gives bits. -/
theorem test_no_word_spells_a_command : decodeTableWord 32 0 = none := by decide

/-! ## Scan words by their bits (R199) -/

theorem test_scan_line_start : decodeScanWord 0x0000000000ABCDEF#64 = .lineStart 0xABCDEF := by decide +kernel
/-- kind 01, peak 200 = C8H in 47-40, mode 2 in 33-32, last column 500 = 1F4H in 29-16, first column 450 = 1C2H. -/
theorem test_scan_run : decodeScanWord 0x4000C80201F401C2#64 = .run 450 500 2 200 := by decide +kernel
theorem test_scan_line_end : decodeScanWord 0x8000000300000010#64 = .lineEnd 0x10 3 := by decide +kernel
theorem test_scan_head_status : decodeScanWord 0xC00000000000007F#64 = .headStatus 0x7F := by decide +kernel

/-! ## Position (sections 1.2.1, 1.3.1 and 1.4.1) -/

theorem test_reaches_across_wrap :
    reaches 0xFFFFFF00 0x100 = false ∧ reaches 0x100 0x100 = true ∧ reaches 0x101 0x100 = true := by decide +kernel
theorem test_start_rounds_up : (runAt 1000030).pos.y0 = 1000040 ∧ (runAt 1000030).pos.nextTrigger = 1000040 := by
  decide +kernel
theorem test_forward_count : (after .forwardCount (runAt 1000030)).pos.p = 1000033 ∧
    (after .forwardCount (runAt 1000030)).pos.frac = 0x2000 := by decide +kernel
theorem test_forward_count_carries :
    (after .forwardCount { run with pos := { run.pos with p := 0xFE, frac := 0xE000 } }).pos.p = 0x102 := by decide +kernel
theorem test_reverse_count : (after .reverseCount (runAt 1000036)).pos.debt = 1 := by decide +kernel
theorem test_line_trigger :
    let t := after .lineTrigger { runAt 1000030 with pos := { (runAt 1000030).pos with p := 1000042 } }
    t.pos.lt = 1 ∧ t.pos.nextTrigger = 1000080 ∧ t.pos.ltrigLine = some 0 ∧ yOf t.pos 40 5 = 1000240 := by decide +kernel
theorem test_overspeed_reported :
    staged (after .speedWindowEnd { run with pos := { run.pos with p := 801, us := 10000 } }) =
      [.notice (.overspeed 801 800 801)] := by decide +kernel
theorem test_tick : (match step run with | .next t => t.pos.us | _ => 0) = 1 := by decide +kernel

/-! ## Intake (sections 2.5.1 and 2.6) -/

theorem test_scan_word_queued :
    ((after (.scanWord 0 0x5#64) (withChan (active []) run)).sli.chan 0).queue = [.lineStart 5] := by decide +kernel
/-- A LINE_START that finds the queue still full is the line cut and is reported; the line cut already is not. -/
theorem test_line_start_dropped_while_dropping :
    let full : Channel := { active (.lineStart 5 :: List.replicate 511 (.run 1 1 0 0)) with dropping := true, cutLine := some 6 }
    let t (w : BitVec 64) : State := after (.scanWord 0 w) (withChan full run)
    staged (t 0x7#64) = [.notice (.intakeOverflow 0 (some 7) 0)] ∧ ((t 0x7#64).sli.chan 0).cutLine = some 7 ∧
    staged (t 0x6#64) = [] := by decide +kernel
theorem test_stale_word_discarded :
    let t := after (.scanWord 0 0x5#64) { withChan (active []) run with sli := { (withChan (active []) run).sli with la := 6 } }
    (t.sli.chan 0).queue = [] ∧ staged t = [.notice (.staleWords 0 (some 5) 6)] := by decide +kernel
theorem test_head_status_faults :
    (after (.headStatus 0 3) (withChan (active []) run)).exu.causes = 4 ∧
    ((after (.headStatus 0 3) (withChan (active []) run)).sli.chan 0).state = .faulted := by decide +kernel
theorem test_loss_of_signal_faults :
    ((after (.lossOfSignal 0) (withChan (active []) run)).sli.chan 0).why = some .linkLost := by decide +kernel
theorem test_return_of_signal_level :
    (after (.returnOfSignal 0) { run with inputs := ⟨false, 0b11⟩ }).inputs.linkLost = 0b10 := by decide +kernel

/-- A judgment of a channel in a state that does or does not contribute. -/
def judged (st : ChanState) (contributes : Bool) : Judgment := ⟨{ Channel.reset with state := st }, contributes, [], []⟩

theorem test_spans_one_faulted :
    unseenSpans [] body.geom [judged .active true, judged .faulted false, judged .active true] =
      [⟨1, (150000, 280000), .fault⟩] := by decide +kernel
theorem test_spans_two_lapsed :
    unseenSpans [] body.geom [judged .active true, judged .lapsed false, judged .lapsed false] =
      [⟨1, (150000, 290000), .lapsed⟩, ⟨2, (290000, 430000), .lapsed⟩] := by decide +kernel
theorem test_spans_none_contributes :
    unseenSpans [] body.geom [judged .off false, judged .settling false, judged .faulted false] =
      [⟨0, (0, 150000), .off⟩, ⟨1, (150000, 290000), .settling⟩, ⟨2, (290000, 430000), .fault⟩] := by decide +kernel

/-- A state with line 0 triggered and whole in channel 0, the others OFF. -/
def lineReady : State :=
  { withChan (active [.lineStart 0, .run 400 403 0 30, .lineEnd 0 1]) run with
    pos := { run.pos with lt := 1 } }

theorem test_line_assembly :
    let t := after .lineAssembly lineReady
    t.sli.la = 1 ∧ (t.sli.chan 0).queue = [] ∧ t.fas.blobs.map Blob.xr = [some (10000, 10100)] ∧
    t.rbm.unseen.map (fun i => (i.channel, i.xa, i.xb, i.yEnd)) = [(some 1, 150000, 290000, 40), (some 2, 290000, 430000, 40)] :=
  by decide +kernel

/-! ## The merge of section 3.8 -/

/-- The two blobs before line 502. -/
def blobs502 : List Blob :=
  [⟨0, 500, 501, some (10000, 10175), [(10100, 10175)], [], 7, 42, 1, 1, 2, none, false⟩,
   ⟨1, 500, 501, some (10350, 10550), [(10350, 10500)], [], 8, 61, 1, 1, 2, none, false⟩]

theorem test_run_merges_two_blobs :
    ({ Assembler.reset with blobs := blobs502 }.takeRuns body.setup 502 0 [⟨0, (406, 416), 0, 70⟩]).1.blobs =
      [⟨0, 500, 501, some (10000, 10550), [(10100, 10175), (10350, 10500)], [(10150, 10400)], 25, 70, 1, 1, 5, none,
        false⟩] := by decide +kernel

/-! ## Grading (section 8.7.1) -/

/-- Lane 0 of row 520. -/
def plate520 : Plate := ⟨100000, 325000, 5000000, 5321000⟩
/-- Table 8-4. -/
def flaws520 : List Flaw := [flaw 1201 2 80 200000 5150000, flaw 1204 5 20 103000 5200000, flaw 1207 2 250 240000 5318500]
/-- The one interval that meets the lane. -/
def lapsed520 : Interval := ⟨some 1, 96000, 104000, 5100000, 5160000, .lapsed, 0, false⟩

theorem test_points : flaws520.map (spec1.points plate520) = [48, 2, 18] := by decide +kernel
theorem test_plate_graded :
    spec1.grade plate520 flaws520 [lapsed520] = ⟨.b, .none, 68, 3, 7222500, 24000⟩ := by decide +kernel

/-- A run with row 520 in the list and y_fin at its T. -/
def run520 : State :=
  let s := graded (withRows [row 520 .order 5000000 5321000] run)
  { s with fas := { s.fas with yFin := 5321000 }, rbm := { s.rbm with flaws := flaws520, unseen := [lapsed520] } }

theorem test_grading_event :
    (after .gradingEvent run520).rpl.rows.map (fun r => (r.gradeState, r.results.map (List.map LaneResult.grade))) =
      [(.graded, some [.b, .a])] := by decide +kernel

/-! ## Placement (sections 5.7.1 and 6.9) -/

/-- A run at F = 5,000,000 and P = 5,200,000 serving order 22, with flaws on the map. -/
def run22 (flaws : List Flaw) : State :=
  let s := graded (withTable [entry 22 60 (order .current 5 5 3210)] (runAt 5200000))
  { s with
    rpl := { s.rpl with frontier := 5000000, nextRow := 301, cutOutOrder := some 22 }
    rbm := { s.rbm with flaws := flaws, retiredEdge := 5000000 }
    fas := { s.fas with yFin := 5199240 } }

/-- Flaws 940 and 941. -/
def flaws22 : List Flaw := [flaw 940 5 450 150000 5012225, flaw 941 2 80 200000 5150000]

theorem test_placement_cuts_out :
    (after .placement (run22 flaws22)).rpl.rows.map (fun r => (r.id, r.kind, r.f, r.t)) =
      [(301, .strip, 5000000, 5030000)] ∧
    (after .placement (run22 flaws22)).rpl.rows.map (fun r => (r.blind, r.preGrades, r.cutOuts)) =
      [(false, [.reject, .a], 1)] := by decide +kernel
theorem test_placement_order_row :
    (after .placement (run22 [])).rpl.rows.map (fun r => (r.kind, r.t, r.blind)) = [(.order, 5321000, true)] ∧
    (after .placement (run22 [])).oru.cutOrders.map CutOrder.remaining = [4] := by decide +kernel

/-- The order table of section 5.7.1, with the CANCEL in hand. -/
def run17 : State :=
  inHand (.cancel 40) (withTable [entry 17 40 (order .current 1 3 3210), entry 18 41 (order .queued 2 2 2500)] run)

theorem test_runway : run17.oru.runwayNow = some 8210 := by decide +kernel
theorem test_cancel_current :
    (after .cancel run17).oru.cutOrders.map (fun o => (o.remaining, o.state, o.cutShort)) =
      [(0, .placed, true), (2, .queued, false)] ∧
    (after .cancel run17).oru.runway = some 5000 ∧ status (after .cancel run17) = (2, 0) := by decide +kernel

/-! ## Cutter and gates (section 7.5.1) -/

/-- Rows 410 and 411 at a P, the cut between them armed. -/
def run410 (p : Pos) : State :=
  let s := graded (withRows [row 410 .order 6000000 6250000, row 411 .order 6250000 6500000] (runAt p))
  { s with cgc := { s.cgc with armed := [⟨6250000, 410⟩, ⟨6500000, 411⟩] } }

theorem test_strobe :
    (after .cutStrobe (run410 6510000)).cgc.outstanding = [⟨6250000, 410, 0, 6570000⟩] ∧
    (after .cutStrobe (run410 6510000)).rpl.rows.map (fun r => (r.lead, r.trail)) =
      [(.armed, .strobed), (.strobed, .armed)] := by decide +kernel
theorem test_strobe_not_yet : after .cutStrobe (run410 6509999) = run410 6509999 := by decide +kernel

/-- The cut strobed, row 410 fired. -/
def strobed410 (p : Pos) : State :=
  let s := run410 p
  { s with
    cgc := { s.cgc with armed := [⟨6500000, 411⟩], outstanding := [⟨6250000, 410, 0, 6570000⟩] }
    rpl := { s.rpl with rows := s.rpl.rows.map (fun r => if r.id = 410 then { r with gate := .fired } else r) } }

theorem test_missed_cut_merges :
    let t := after .confirmWindowExpiry (strobed410 6570000)
    t.rpl.rows.map (fun r => (r.merged, r.gateFault)) = [(true, true), (true, false)] ∧
    staged t = [.notice (.gateFault 410 6250000 410 .missed), .cut ⟨410, 6250000, .missed, .none, 0, [410, 411]⟩] ∧
    t.stu.current.gateFaults = 1 := by decide +kernel
theorem test_cdone : (after .cdone (strobed410 6560000)).rpl.rows.map Row.trail = [.cut, .armed] := by decide +kernel
theorem test_unexpected_confirm :
    staged (after .cdone (run410 6600000)) = [.notice (.unexpectedConfirm 6600000)] := by decide +kernel
theorem test_gate_late :
    (after .gateEvent (run410 6500000)).rpl.rows.map (fun r => (r.gate, r.gradeState)) =
      [(.fired, .late), (.waiting, .pending)] ∧
    (after .gateEvent (run410 6500000)).cgc.ports = [5, 5, 0, 0] := by decide +kernel
theorem test_cinh : (after (.cinhChange true) run).inputs.cinh = true := by decide +kernel

/-! ## Retirement and tallies (sections 4.4.1 and 9.4.1) -/

/-- Row 57 at the head, ready to retire, with the map of section 4.4.1. -/
def run57 : State :=
  let r := { row 57 .order 5000000 5321000 with gate := .fired, lead := .cut, trail := .cut }
  let s := graded (withRows [r] run)
  { s with
    rbm := { s.rbm with
      flaws := [flaw 912 4 10 60000 5004000, flaw 915 2 10 200000 5150000, flaw 918 5 10 325000 5210000,
                flaw 920 2 10 240000 5318500, flaw 923 1 10 300000 5321000]
      unseen := [⟨some 1, 150000, 280000, 5100000, 5160000, .lapsed, 0, false⟩,
                 ⟨some 2, 300000, 302000, 5200000, 5321000, .masked, 0, false⟩,
                 ⟨none, 0, 430000, 5300000, 5330000, .saturated, 3, false⟩]
      retiredEdge := 5000000 } }

theorem test_retirement_map :
    let t := after .rowRetirement run57
    t.rbm.flaws.map Flaw.id = [923] ∧ t.rbm.unseen.map Interval.folded = [3] ∧ t.rbm.retiredEdge = 5321000 ∧
    t.stu.current.flawsTo = [3, 0, 1] := by decide +kernel
theorem test_close_shift :
    let t := after .closeShift (inHand (.closeShift 13) (withRows [row 601 .order 7000000 7250000] run))
    t.stu.current.shiftId = 13 ∧ t.stu.closing.map Tally.endBoundary = some (some 7250000) ∧ status t = (1, 0) := by
  decide +kernel

/-! ## Setup, start, stop, drain (sections 10.2.1 and 10.4.1) -/

/-- The body with the distances of section 10.2.1. -/
def spanBody (dCommit dCg dConfirm rowMax stripMin : Nat) : SetupBody :=
  { body with dCommit := dCommit, dCg := dCg, dConfirm := dConfirm, rowMax := rowMax, stripMin := stripMin }

theorem test_span_accepted : (spanBody 1000 2000 200 6000 300).span = 26 := by decide +kernel
theorem test_span_refused : (spanBody 5000 20000 1000 12000 150).span = 169 := by decide +kernel
theorem test_span_raised : (spanBody 5000 20000 1000 12000 200).span = 127 := by decide +kernel
theorem test_setup_taken : status (after .setup (inHand (.setup body) bare)) = (2, 0) ∧
    (after .setup (inHand (.setup body) bare)).setup = some body.setup := by decide +kernel
theorem test_start_without_setup : status (after .start (inHand .start bare)) = (3, 12) := by decide +kernel
theorem test_start : (after .start (inHand .start idle)).sts.state = .running ∧
    (after .start (inHand .start idle)).cgc.armed = [⟨0, 0⟩] := by decide +kernel
theorem test_stop_at_once : (after .stop (inHand .stop run)).sts.state = .idle := by decide +kernel
theorem test_stop_drains :
    (after .stop (inHand .stop (withRows [row 1 .fallback 0 200000] run))).sts.state = .draining := by decide +kernel

/-- A drain with nothing left, its STOP in the table. -/
def drained : State :=
  withTable [⟨9, 3, 0x1000, true, .stop⟩] (inState .draining run)

theorem test_end_of_drain : (after .endOfDrain drained).sts.state = .idle ∧
    status (after .endOfDrain drained) = (2, 0) := by decide +kernel

/-! ## The other orders -/

/-- A CUT body of two lanes. -/
def cutBody : CutBody := ⟨3210, 3, false, 2, [⟨2250, 1, 2, 0⟩, ⟨1350, 3, 3, 1⟩, ⟨0, 0, 0, 0⟩, ⟨0, 0, 0, 0⟩]⟩

theorem test_cut_taken : status (after .cut (inHand (.cut cutBody) (graded idle))) = (1, 0) ∧
    (after .cut (inHand (.cut cutBody) (graded idle))).oru.runway = some 9630 := by decide +kernel
theorem test_cut_spec_not_loaded : status (after .cut (inHand (.cut cutBody) idle)) = (3, 4) := by decide +kernel
theorem test_channel_enables :
    ((after .channel (inHand (.channel 0b111 0) idle)).sli.chan 2).state = .settling := by decide +kernel
theorem test_channel_not_installed : status (after .channel (inHand (.channel 0b1000 0) idle)) = (3, 4) := by decide +kernel
theorem test_load_mask :
    validMasks (after .loadMask (inHand (.loadMask [⟨1, 5, 9⟩]) idle)).sli.mask = [⟨1, 5, 9, .run⟩] := by decide +kernel
theorem test_load_classes_in_run :
    status (after .loadClasses (inHand (.loadClasses (List.replicate 14 ClassEntry.reset)) run)) = (3, 3) := by decide +kernel
theorem test_load_spec : (after .loadSpec (inHand (.loadSpec 1 spec1) idle)).grd.loaded 1 = true := by decide +kernel
theorem test_load_spec_id_out_of_range : status (after .loadSpec (inHand (.loadSpec 8 spec1) idle)) = (3, 4) := by
  decide +kernel

/-! ## Resets and registers -/

theorem test_power_on_reset : after .powerOnReset faulted = State.reset := by decide +kernel
theorem test_pin_reset : (after .pinReset run).pinHeld = true ∧ registerRead (after .pinReset run) 0x0C = 0x20 := by
  decide +kernel
theorem test_soft_reset : registerRead (after .softReset faulted) 0x0C = 0x30 := by decide +kernel
theorem test_keep_reset : (after .softResetWithKeep run).setup = some body.setup ∧
    registerRead (after .softResetWithKeep run) 0x0C = 0x40 := by decide +kernel
theorem test_pin_release : (after .resetPinRelease { run with pinHeld := true }).pinHeld = false := by decide +kernel
theorem test_exbl_masks_low_bits : registerRead (after (.exbl 0x80200FFF) State.reset) 0 = 0x80200000 := by decide +kernel
theorem test_exbh : registerRead (after (.exbh 5) State.reset) 4 = 5 := by decide +kernel
theorem test_expoll_clamped : registerRead (after (.expoll 20000) State.reset) 0x14 = 10000 := by decide +kernel
theorem test_excause_clears :
    (after (.excause 0b0101) { run with exu := { run.exu with causes := 0b0111 } }).exu.causes = 0b0010 := by decide +kernel
theorem test_ien_sends_message :
    (after (.ien true) { run with exu := { run.exu with causes := 1 } }).exu.messages = 1 := by decide +kernel
theorem test_register_write_reset : (after (.registerWrite 8 0b0100) run).sts = ⟨.detached, .soft, .none, .none⟩ := by
  decide +kernel
theorem test_bus_error : (after .busError idle).sts = ⟨.fault, .powerOn, .none, .bus⟩ ∧
    (after .busError idle).exu.causes = 8 := by decide +kernel

/-! ## Attach and polls (section 11.9) -/

/-- The header at 0_8020_0000H, a CHANNEL order at 0_8021_0000H, and descriptors FILLED, EMPTY, EMPTY. -/
def area : List HostWrite :=
  [⟨0x80200000, leBytes 4 0x7460C0A5 ++ leBytes 4 1 ++ leBytes 8 0x80210000 ++ leBytes 8 0x80220000 ++ leBytes 4 3 ++
      leBytes 4 4096⟩,
   ⟨0x80210000, leBytes 8 0 ++ leBytes 1 6 ++ leBytes 1 1 ++ leBytes 2 4 ++ leBytes 4 7⟩,
   ⟨0x80210028, leBytes 2 7 ++ leBytes 2 0⟩,
   ⟨0x80220000, leBytes 4 2 ++ leBytes 4 0 ++ leBytes 8 0x90000000 ++ leBytes 4 0 ++ leBytes 4 0 ++ leBytes 8 0x90001000 ++
      leBytes 4 0 ++ leBytes 4 0 ++ leBytes 8 0x90002000⟩]

/-- DETACHED with the base set and the setup kept. -/
def detached : State := inState .detached { idle with exu := { idle.exu with exbl := 0x80200000 } }

theorem test_attach :
    let t := after (.attach true area .ok) detached
    t.sts.state = .idle ∧ t.exu.pageCount = 3 ∧ t.exu.stockAddr = 0x80220000 ∧ t.host.readWord 0x80200020 = 0x7460 ∧
    t.host.readWord 0x80200024 = 1 := by decide +kernel
theorem test_attach_bad_marker : (after (.attach true [] .ok) detached).sts.attachError = .badMarker := by decide +kernel

/-- Attached, 1000 µs later. -/
def attached : State :=
  let t := after (.attach true area .ok) detached
  { t with pos := { t.pos with us := 1000 } }

theorem test_poll_reads_block :
    (after (.poll []) attached).exu.phase = .order ⟨0x80210000, 7, true, .channel 7 0⟩ := by decide +kernel

/-- At the end of the poll, with a SHIFT record in staging. -/
def finishing : State :=
  { attached with exu := { attached.exu with phase := .finishing, staging := [⟨5, .shift (Tally.opened 12 0 0) true⟩] } }

theorem test_poll_takes_page :
    let t := after (.poll []) finishing
    t.exu.filling.map FillingPage.index = some 1 ∧ t.host.readWord 0x80220010 = 1 ∧ t.exu.phase = .idle := by decide +kernel
theorem test_page_record_write_closes :
    let t := after .pageRecordWrite (after (.poll []) finishing)
    t.exu.filling = none ∧ t.host.readWord 0x80220010 = 2 ∧ t.host.readWord 0x90001000 = 1 ∧ t.exu.causes = 1 ∧
    t.exu.messages = 1 := by decide +kernel
theorem test_detach : (after (.detach false) attached).sts.state = .detached := by decide +kernel
theorem test_deferred_detach :
    (after .deferredDetach { attached with exu := { attached.exu with detachDeferred := true } }).sts.state = .detached := by
  decide +kernel

/-- With no page stock. -/
def noStock (s : State) : State := { s with exu := { s.exu with stockAddr := 0 } }

/-- An address of 0 means none (R194): no page is taken. -/
theorem test_poll_without_stock :
    let t := after (.poll []) (noStock finishing)
    t.exu.filling = none ∧ t.exu.phase = .idle := by decide +kernel

/-- A page with a record written at µs 1000. -/
def filling (us : Word) (first : Option Word) : State :=
  { attached with
    pos := { attached.pos with us := us }
    exu := { attached.exu with filling := some ⟨2, 0x90002000, 92, 3, first, 20⟩ } }

/-- With three word writes completed the record count has landed, the time of the first record and FILLED have not. -/
theorem test_close_cut_within_head :
    (State.cutClose 3 (filling 21000 (some 1000))).map (fun t =>
      (t.host.readWord 0x90002004, t.host.readWord 0x90002014, t.host.readWord 0x80220020)) = some (3, 0, 0) ∧
    (State.cutClose 9 (filling 21000 (some 1000))).isNone = true := by decide +kernel
/-- The words of the status land, the status byte does not, and the part is not RUNNING. -/
theorem test_start_cut_within_status :
    (State.cutEvent .start 5 (inHand .start idle)).map (fun t => (status t, t.sts.state, t.exu.cursor)) =
      some ((0, 0), .idle, none) ∧
    (State.cutEvent .start 6 (inHand .start idle)).isNone = true := by decide +kernel
theorem test_page_flush :
    let t := after .pageFlush (filling 21000 (some 1000))
    t.exu.filling = none ∧ t.host.readWord 0x90002004 = 3 ∧ t.host.readWord 0x80220020 = 2 := by decide +kernel

/-! ## States that meet the hypotheses of the statements

One theorem for each statement with hypotheses, a clause at a time, at the values where its clauses meet. -/

/-- With P and its queue of other fields unchanged. -/
def atP (p : Pos) (s : State) : State := { s with pos := { s.pos with p := p } }

theorem meets_HeldPinStopsEvents : ({ run with pinHeld := true }).pinHeld = true ∧ Instr.cdone ≠ .powerOnReset ∧
    Instr.cdone ≠ .pinReset ∧ Instr.cdone ≠ .resetPinRelease := by decide +kernel

theorem meets_IdleStepCountsMicroseconds : (run.pending = [] ∧ run.pinHeld = false) ∧
    ({ run with pinHeld := true }).pending = [] := by decide +kernel

theorem meets_SoftResetKeepsRegisters : run.pinHeld = false := by decide +kernel

theorem meets_KeepResetKeepsTables : (withRows [row 1 .fallback 0 200000] run).pinHeld = false ∧
    (∀ r ∈ (withRows [row 1 .fallback 0 200000] run).rpl.rows, r.shiftTag = run.stu.current.shiftId) ∧
    (Tally.opened 1 0 0).shiftId ≠ run.stu.current.shiftId ∧ (Tally.opened 0 0 0).shiftId = run.stu.current.shiftId ∧
    run.stu.closing = none := by decide +kernel

theorem meets_RegisterWritesTakeEffect : State.reset.pinHeld = false ∧ State.reset.sts.state = .detached ∧
    idle.pinHeld = false ∧ idle.sts.state ≠ .detached ∧ (49#32).toNat < 50 ∧ 10000 < (10001#32).toNat ∧
    50 ≤ (50#32).toNat ∧ (10000#32).toNat ≤ 10000 := by decide +kernel

theorem meets_RegisterWindow : (0x0C ≠ 0x00 ∧ 0x0C ≠ 0x04 ∧ 0x0C ≠ 0x08 ∧ 0x0C ≠ 0x10 ∧ 0x0C ≠ 0x14) ∧
    (0x18 ≠ 0x00 ∧ 0x18 ≠ 0x14) := by decide +kernel

/-- Host memory of section 11.9, as the attach reads it. -/
def areaMemory : Memory := State.reset.host.hostWrites area

theorem meets_AttachEntersIdle : detached.pinHeld = false ∧ detached.sts.state = .detached ∧
    detached.host.hostWrites area = areaMemory ∧ detached.exu.exbh ++ detached.exu.exbl = 0x80200000#64 ∧
    areaMemory.readWord 0x80200000 = 0x7460C0A5#32 ∧ areaMemory.readWord 0x80200004 = 1#32 ∧
    1 ≤ (areaMemory.readWord 0x80200018).toNat ∧ (areaMemory.readWord 0x80200018).toNat ≤ 32 ∧
    (areaMemory.readWord 0x8020001C).toNat = 4096 ∧ detached.stu.interrupted = false ∧
    (let u : TallyUnit := { detached.stu with closing := some (Tally.opened 7 0 0), interrupted := true }
     u.interrupted = true ∧ u.closing = some (Tally.opened 7 0 0)) := by decide +kernel

/-- The header words with a page count and a page size. -/
def header (marker version count size : Nat) : Memory :=
  State.reset.host.hostWrites
    [⟨0x80200000, leBytes 4 marker ++ leBytes 4 version ++ leBytes 16 0 ++ leBytes 4 count ++ leBytes 4 size⟩]

theorem meets_AttachErrorsInOrder : detached.pinHeld = false ∧ detached.sts.state = .detached ∧
    (header 0 1 3 4096).readWord 0x80200000 ≠ 0x7460C0A5#32 ∧
    ((header 0x7460C0A5 2 3 4096).readWord 0x80200000 = 0x7460C0A5#32 ∧
      (header 0x7460C0A5 2 3 4096).readWord 0x80200004 ≠ 1#32) ∧
    ((header 0x7460C0A5 1 0 4096).readWord 0x80200004 = 1#32 ∧
      ((header 0x7460C0A5 1 0 4096).readWord 0x80200018).toNat < 1) ∧
    32 < ((header 0x7460C0A5 1 33 4096).readWord 0x80200018).toNat ∧
    (((header 0x7460C0A5 1 32 4097).readWord 0x8020001C).toNat ≠ 4096 ∧
      ((header 0x7460C0A5 1 32 4097).readWord 0x8020001C).toNat ≠ 16384) ∧
    ((header 0x7460C0A5 1 32 16384).readWord 0x80200018).toNat = 32 := by decide +kernel

theorem meets_DetachByPartState :
    (idle.sts.state = .idle ∧ idle.exu.phase = .idle ∧ idle.exu.filling = none ∧ idle.pinHeld = false) ∧
    ((inHand .stop idle).sts.state = .idle ∧ (inHand .stop idle).exu.phase ≠ .idle) ∧
    run.sts.state = .running ∧ drained.sts.state = .draining ∧ State.reset.sts.state = .detached ∧
    faulted.sts.state = .fault ∧ faulted.sts.state ≠ .detached := by decide +kernel

theorem meets_DeferredDetachTaken :
    let s := { filling 1000 none with exu := { (filling 1000 none).exu with detachDeferred := true } }
    (s.pinHeld = false ∧ s.exu.phase = .idle ∧ s.exu.detachDeferred = true ∧ s.sts.state = .idle) ∧
    (inState .running s).sts.state = .running := by decide +kernel

theorem meets_ForwardCountAdvances : bare.setup = none ∧
    (run.pinHeld = false ∧ run.setup = some body.setup ∧ run.pos.debt = 0) ∧
    body.setup.scale.toNat ≤ body.setup.pitch * 65536 ∧
    0 < ({ run.pos with debt := 1 }).debt.toNat := by decide +kernel

/-- With a debt. -/
def indebted (d : BitVec 16) (s : State) : State := { s with pos := { s.pos with debt := d } }

theorem meets_ReverseCountRaisesDebt : bare.setup = none ∧
    ((indebted 65534 run).setup = some body.setup ∧ (indebted 65534 run).pos.debt.toNat < 65535) ∧
    ((indebted 65535 run).pos.debt.toNat = 65535 ∧ (indebted 65535 run).sts.state.live = true ∧
      (indebted 65535 run).pos.excess = false) ∧
    ((indebted 65535 faulted).pos.debt.toNat = 65535 ∧ (indebted 65535 faulted).sts.state.live = false) := by
  decide +kernel

theorem meets_LineTriggerIssuesNextLine :
    (run.pinHeld = false ∧ run.setup = some body.setup ∧ run.sts.state = .running ∧
      (run.pos.p - run.pos.nextTrigger).toNat < 2 ^ 31) ∧
    (let s := { drained with rpl := { drained.rpl with drainEnd := 40 } }
     s.sts.state = .draining ∧ 2 ^ 31 ≤ (s.fas.yFin - s.rpl.drainEnd).toNat ∧
     (s.pos.p - s.pos.nextTrigger).toNat < 2 ^ 31) := by decide +kernel

theorem meets_SpeedWindowMeasures : run.pinHeld = false ∧ run.setup = some body.setup ∧
    10000 ≤ (({ run.pos with us := 10000 }).us - run.pos.windowTime).toNat := by decide +kernel

/-- A queue of n words for line 5. -/
def queue (n : Nat) : List ScanWord := .lineStart 5 :: List.replicate (n - 1) (.run 1 1 0 0)

theorem meets_ScanWordQueued :
    (∀ code, decodeScanWord 0x5#64 ≠ .headStatus code) ∧
    (idle.sts.state.run = false ∧ idle.pinHeld = false) ∧
    ((withChan (active (queue 511)) run).sts.state.run = true ∧ (active (queue 511)).state.takesWords = true ∧
      (active (queue 511)).queue.length = 511 ∧ (active (queue 511)).dropping = false ∧
      ∀ h ∈ (queue 511 ++ [ScanWord.lineStart 5]).head?, staleLineOf run.sli.la h = none) ∧
    ((active (queue 512)).queue.length = 512 ∧ ∀ h ∈ (queue 512).head?, staleLineOf run.sli.la h = none) ∧
    (({ active (queue 512) with dropping := true, cutLine := some 6 }).dropping = true ∧
      decodeScanWord 0x6#64 = .lineStart 6 ∧ decodeScanWord 0x7#64 = .lineStart 7) ∧
    decodeScanWord 0xC00000000000007F#64 = .headStatus 0x7F := by
  refine ⟨fun code h => ?_, ?_⟩
  · have : decodeScanWord 0x5#64 = .lineStart 5 := by decide +kernel
    rw [this] at h; cases h
  · decide +kernel

/-- The stale clause: LINE_START 5 at L_a = 6 behind a LINE_START 4, and before a LINE_START 6; the notice is due for a
channel without a stale notice line, and 1024 lines after the last, and not at 1023. -/
theorem meets_ScanWordQueued_stale :
    let stale (h : ScanWord) : Prop := ∀ l, h = .lineStart l → 1 ≤ ((6#24) - l).toNat ∧ ((6#24) - l).toNat ≤ 2 ^ 23 - 1
    ([.lineStart 4] ++ [.lineStart 5] = ScanWord.lineStart 4 :: [.lineStart 5] ++ [] ∧
      [.lineStart 4] ++ [.lineStart 6] = ScanWord.lineStart 4 :: [] ++ [.lineStart 6]) ∧
    stale (.lineStart 4) ∧ stale (.lineStart 5) ∧ stale (.run 1 1 0 0) ∧ ¬stale (.lineStart 6) ∧
    (active []).staleLine = none ∧ 1024 ≤ ((1030#24) - 6).toNat ∧ ¬1024 ≤ ((1029#24) - 6).toNat := by
  have at' (l : Line) (hl : 1 ≤ ((6#24) - l).toNat ∧ ((6#24) - l).toNat ≤ 2 ^ 23 - 1) (k : Line)
      (hk : ScanWord.lineStart l = .lineStart k) : 1 ≤ ((6#24) - k).toNat ∧ ((6#24) - k).toNat ≤ 2 ^ 23 - 1 := by
    injection hk with hk; exact hk ▸ hl
  refine ⟨by decide +kernel, at' 4 (by decide +kernel), at' 5 (by decide +kernel), (fun (_ : Line) h => ScanWord.noConfusion h),
    fun h => ?_, by decide +kernel⟩
  exact absurd (h 6 rfl).1 (by decide +kernel)

theorem meets_LinkFaultsChannel :
    (run.pinHeld = false ∧ (5#8) ≠ 0 ∧ (withChan (active []) run).sts.state.live = true ∧
      ((withChan (active []) run).sli.chan 0).state.takesWords = true) ∧
    ¬(faulted.sts.state.live = true ∧ (faulted.sli.chan 0).state.takesWords = true) := by decide +kernel

theorem meets_LineAssemblyAdvances :
    (lineReady.pinHeld = false ∧ lineReady.setup = some body.setup ∧ lineReady.sts.state.run = true ∧
      1 ≤ (lineReady.pos.lt - lineReady.sli.la).toNat ∧ lineReady.sli.chans.length = 16 ∧
      waitSetSettled lineReady.sli.la lineReady.sli.chans body.setup.geom = true) ∧
    (let s := { withChan (active []) run with pos := { run.pos with lt := 16 } }
     waitSetSettled s.sli.la s.sli.chans body.setup.geom = false ∧ s.triggersRun = true ∧
     body.setup.deadline ≤ (s.pos.lt - s.sli.la).toNat) := by decide +kernel

/-- A run near none, one and both of the blobs of section 3.8, and the order of the blobs. -/
theorem meets_LineAssemblyAdvances_runs :
    let near (r : Ivl) : Blob → Bool := Blob.near 50 2 502 ⟨0, r, 1, 0, 70⟩
    blobs502.map (near (20000, 20025)) = [false, false] ∧ blobs502.map (near (10000, 10025)) = [false, false] ∧
    blobs502.map (near (10000, 10051)) = [true, false] ∧ blobs502.map (near (10150, 10400)) = [true, true] ∧
    blobs502.map Blob.id = List.range 2 ∧ blobs502.length < 256 ∧
    blobs502.Pairwise (fun a b => a.id < b.id) ∧ (∀ b ∈ blobs502, ((502#24) - b.first).toNat < 2 ^ 23) ∧
    (∀ b ∈ blobs502, b.contFrom = none) ∧ (blobs502.map (fun b => { b with contFrom := some 1 })).length = 2 := by
  decide +kernel

/-- A table of 256 blobs, none near a run far from them. -/
def fullTable : List Blob :=
  (List.range 256).map (fun n => ⟨n, 500, 501, some (0, 25), [(0, 25)], [], 1, 30, 1, 1, 1, none, false⟩)

theorem meets_LineAssemblyAdvances_dense : 256 ≤ fullTable.length ∧
    (∀ b ∈ fullTable, Blob.near 50 2 502 ⟨0, (20000, 20025), 1, 0, 70⟩ b = false) ∧ Assembler.reset.dense = none ∧
    ({ Assembler.reset with dense := fullTable.head? }).dense =
      some ⟨0, 500, 501, some (0, 25), [(0, 25)], [], 1, 30, 1, 1, 1, none, false⟩ := by decide +kernel

/-- A front of n intervals, 100 apart. -/
def frontOf (n : Nat) : List Ivl := (List.range n).map (fun k => (100 * k, 100 * k + 10))

theorem meets_LineAssemblyAdvances_front : (10000 < 10025) ∧ (∀ i ∈ frontOf 8, i.1 < i.2) ∧
    (frontOf 8).Pairwise (fun i j => i.2 < j.1) ∧ (frontOf 8).length = 8 ∧ (frontOf 7).length < 8 ∧
    (¬∃ i ∈ frontOf 8, 740 ≤ i.2 ∧ i.1 ≤ 760) ∧ (∃ i ∈ frontOf 8, 710 ≤ i.2 ∧ i.1 ≤ 760) := by decide +kernel

theorem meets_InstalledWidthIsCovered : orderOk ((installedChans body.geom).map Prod.snd) = true ∧
    (∀ p ∈ installedChans body.geom, p.2.x0 < p.2.x1) ∧ (installedSpan body.geom).1 ≤ 0 ∧
    429999 < (installedSpan body.geom).2 ∧ (installedSpan body.geom).2 = 430000 := by decide +kernel

/-- An interval that goes on at y = 5,160,000, and the spans that do and do not continue it. -/
theorem meets_InstalledWidthIsCovered_spans :
    let m : RibbonMap := { RibbonMap.reset with unseen := [lapsed520], retiredEdge := 5000000 }
    let goesOn (sp : Span) : Prop := lapsed520.channel = some sp.channel ∧ lapsed520.cause = sp.cause ∧
      lapsed520.xa = sp.x.1 ∧ lapsed520.xb = sp.x.2 ∧ lapsed520.yEnd = 5160000
    (m.unseen = [] ++ lapsed520 :: [] ∧ goesOn ⟨1, (96000, 104000), .lapsed⟩ ∧ ¬goesOn ⟨1, (96000, 104000), .fault⟩) ∧
    2 ^ 31 ≤ (m.retiredEdge - (5160000 + 40)).toNat ∧ ((5160040#32) - (5160000 + 40)).toNat < 2 ^ 31 ∧
    m.unseen.length < 256 := by decide +kernel

/-- An unseen list of n intervals, the last of them with a given folded count. -/
def intervals (n folded : Nat) : List Interval :=
  List.replicate (n - 1) lapsed520 ++ [⟨none, 0, 430000, 5300000, 5330000, .saturated, folded, false⟩]

theorem meets_InstalledWidthIsCovered_full : (intervals 255 0).length < 256 ∧
    intervals 256 65535 = List.replicate 255 lapsed520 ++
      [⟨none, 0, 430000, 5300000, 5330000, .saturated, 65535, false⟩] ∧ 256 ≤ (intervals 256 65535).length ∧
    ((5400000#32) - 5300000).toNat < 2 ^ 31 ∧ 2 ^ 31 ≤ ((5200000#32) - 5300000).toNat := by decide +kernel

/-- The blob of section 3.8 as it closes. -/
def closed505 : Closed := ⟨false, ⟨0, 500, 502, some (10000, 10550), [(10150, 10400)], [], 25, 70, 1, 1, 5, none, false⟩⟩

theorem meets_LateFlawIsUnplaced :
    let b : Bench := ⟨Assembler.reset, { RibbonMap.reset with retiredEdge := 1020101 }, TallyUnit.reset, []⟩
    let pos := (runAt 1000030).pos
    closed505.discarded body.setup = false ∧
    (closed505.flaw body.setup pos b.fas.classes b.fas.nextFlaw).yCenter = 1020100 ∧
    2 ^ 31 ≤ ((closed505.flaw body.setup pos b.fas.classes b.fas.nextFlaw).yCenter - b.rbm.retiredEdge).toNat ∧
    stagedBytes run.exu.staging + 24 ≤ 16384 := by decide +kernel

/-- A small blob and one that is not, at min_area. -/
theorem meets_LateFlawIsUnplaced_small :
    let at' (area : Nat) (e : Blob) : Blob := { e with area := area }
    (closed505.blob.segment = false ∧ closed505.blob.contFrom = none ∧ (at' 3 closed505.blob).area < body.setup.minArea) ∧
    ¬(at' 4 closed505.blob).area < body.setup.minArea ∧ ({ closed505 with dense := true }).dense = true ∧
    (let k := { ClassEntry.reset with enabled := true, sizeMax := 1000 }
     k.enabled = true ∧ k.sizeMin ≤ 550 ∧ 550 ≤ k.sizeMax ∧ ClassEntry.reset.enabled = false) := by decide +kernel

/-- A flaw list that is full, an interval that the flaw meets, and one that it does not. -/
theorem meets_LateFlawIsUnplaced_fold :
    let f := flaw 9 2 80 200000 5150000
    (f.yCenter - RibbonMap.reset.retiredEdge).toNat < 2 ^ 31 ∧ RibbonMap.reset.flaws.length < 4096 ∧
    4096 ≤ (List.replicate 4096 f).length ∧
    (let i : Interval := { lapsed520 with cause := .saturated, folded := 65535 }
     i.cause = .saturated ∧ (i.yEnd - f.yTop).toNat < 2 ^ 31 ∧ (f.yBottom - i.yStart).toNat < 2 ^ 31 ∧
     i.folded ≤ 65535) ∧ lapsed520.cause ≠ .saturated := by decide +kernel

theorem meets_GoodGradeIsClean : (spec1.grade plate520 [] []).grade = .a ∧
    (spec1.grade plate520 flaws520 [lapsed520]).grade = .b ∧
    (spec1.grade plate520 (flaws520 ++ flaws520) []).grade = .c := by decide +kernel

theorem meets_GradingEventGradesRow :
    run520.pinHeld = false ∧ run520.sts.state.run = true ∧
    run520.rpl.rows = [] ++ row 520 .order 5000000 5321000 :: [] ∧ (row 520 .order 5000000 5321000).kind = .order ∧
    (row 520 .order 5000000 5321000).results = none ∧ (run520.fas.yFin - 5321000).toNat < 2 ^ 31 := by decide +kernel

/-- The due position of the placement at F = 0. -/
def due : Pos := run.rpl.frontier + pu body.setup.dGc - pu body.setup.dCommit

theorem meets_PlacementFallback : (atP due run).pinHeld = false ∧ (atP due run).setup = some body.setup ∧
    (atP due run).sts.state = .running ∧
    ((atP due run).pos.p - (run.rpl.frontier + pu body.setup.dGc - pu body.setup.dCommit)).toNat = 0 ∧
    (atP due run).rpl.rows.length < 128 ∧ (atP due run).oru.serving = none := by decide +kernel

theorem meets_PlacementOrderRow : (run22 []).setup = some body.setup ∧ (run22 []).sts.state = .running ∧
    ((run22 []).pos.p - ((run22 []).rpl.frontier + pu body.setup.dGc - pu body.setup.dCommit)).toNat < 2 ^ 31 ∧
    (run22 []).rpl.rows.length < 128 ∧
    (run22 []).oru.serving = some (entry 22 60 (order .current 5 5 3210), order .current 5 5 3210) ∧
    decideStrip body.setup 5000000 0 321000 (candidate (run22 []).grd (run22 []).rbm 5000000 (order .current 5 5 3210)) =
      none := by decide +kernel

theorem meets_PlacementStripRow : (run22 flaws22).pinHeld = false ∧
    (run22 flaws22).oru.serving = some (entry 22 60 (order .current 5 5 3210), order .current 5 5 3210) ∧
    decideStrip body.setup 5000000 0 321000
      (candidate (run22 flaws22).grd (run22 flaws22).rbm 5000000 (order .current 5 5 3210)) = some 30000 ∧
    ∀ w ∈ flaws22, (w.yTop - 4000000).toNat < 2 ^ 31 ∧ (w.yBottom - 4000000).toNat < 2 ^ 31 := by
  decide +kernel

theorem meets_FailingLane :
    (candidate (run22 []).grd (run22 []).rbm 5000000 (order .current 5 5 3210)).failing = false ∧
    (candidate (run22 flaws22).grd (run22 flaws22).rbm 5000000 (order .current 5 5 3210)).failing = true := by
  decide +kernel

/-- The standing order of one row, with one row to go. -/
def standing : CutOrder := { order .current 1 1 3210 with standing := true }

/-- A run that serves it. -/
def runStanding : State := withTable [entry 22 60 standing] (run22 [])

theorem meets_StandingOrderReloads : runStanding.pinHeld = false ∧ runStanding.setup = some body.setup ∧
    runStanding.sts.state = .running ∧
    (runStanding.pos.p - (runStanding.rpl.frontier + pu body.setup.dGc - pu body.setup.dCommit)).toNat < 2 ^ 31 ∧
    runStanding.rpl.rows.length < 128 ∧ runStanding.oru.serving = some (entry 22 60 standing, standing) ∧
    (runStanding.oru.table.map Entry.take).Nodup ∧
    decideStrip body.setup 5000000 0 standing.rowPu
      (candidate runStanding.grd runStanding.rbm runStanding.rpl.frontier standing) = none ∧
    standing.standing = true ∧ standing.superseded = false ∧ standing.remaining = 1 ∧ 0 < standing.rowCount := by
  decide +kernel

theorem meets_StandingOrderReloads_next :
    exec .placement runStanding = .next (after .placement runStanding) := rfl

/-- With n cuts outstanding. -/
def withOut (n : Nat) (s : State) : State :=
  { s with cgc := { s.cgc with outstanding := List.replicate n ⟨6250000, 410, 0, 6570000⟩ } }

theorem meets_CutStrobeByCase : (run410 6510000).pinHeld = false ∧ (run410 6510000).setup = some body.setup ∧
    (run410 6510000).sts.state.run = true ∧ (run410 6510000).cgc.armed = ⟨6250000, 410⟩ :: [⟨6500000, 411⟩] ∧
    ((run410 6510000).pos.p - (6250000 + pu body.setup.dGc - pu body.setup.dLead)).toNat = 0 ∧
    (run410 6510000).inputs.cinh = false ∧ (after (.cinhChange true) (run410 6510000)).inputs.cinh = true ∧
    (withOut 7 (run410 6510000)).cgc.outstanding.length < 8 ∧
    8 ≤ (withOut 8 (run410 6510000)).cgc.outstanding.length := by decide +kernel

theorem meets_CutResolutionMergesRows :
    ((410#32 ≠ 0 ∧ (row 410 .order 6000000 6250000).id = 410)) ∧ (row 411 .order 6250000 6500000).f = 6250000 ∧
    (run410 0).rpl.rows[1]? = some (row 411 .order 6250000 6500000) ∧
    (strobed410 0).rpl.rows.map (fun r => (r.gate, r.merged)) = [(.fired, false), (.waiting, false)] ∧
    run.stu.closing = none ∧ (Tally.opened 1 0 0).shiftId ≠ run.stu.current.shiftId := by decide +kernel

theorem meets_CdoneCreditsOldest :
    ((strobed410 0).pinHeld = false ∧ (strobed410 0).sts.state.live = true ∧
      (strobed410 0).cgc.outstanding = ⟨6250000, 410, 0, 6570000⟩ :: []) ∧
    (idle.sts.state.live = true ∧ idle.cgc.outstanding = []) ∧ State.reset.sts.state = .detached ∧
    faulted.sts.state = .fault := by decide +kernel

theorem meets_WindowExpiryMisses : (strobed410 6570000).pinHeld = false ∧
    (strobed410 6570000).cgc.outstanding = ⟨6250000, 410, 0, 6570000⟩ :: [] ∧
    (strobed410 6570000).sts.state.run = true ∧ ((strobed410 6570000).pos.p - 6570000).toNat < 2 ^ 31 ∧
    2 ^ 31 ≤ ((strobed410 6569999).pos.p - 6570000).toNat := by decide +kernel

theorem meets_GateEventDrivesPorts :
    let s := run410 6500000
    let r := row 410 .order 6000000 6250000
    (s.pinHeld = false ∧ s.setup = some body.setup ∧ s.sts.state.run = true ∧
      s.rpl.rows = [] ++ r :: [row 411 .order 6250000 6500000] ∧ r.gate = .waiting ∧
      (∀ x ∈ [row 411 .order 6250000 6500000], x.id ≠ r.id) ∧
      (s.pos.p - (r.f + pu body.setup.dGc + pu body.setup.dCg)).toNat = 0 ∧ s.cgc.ports.length = 4 ∧
      s.cgc.gateStrobes.length = 4) ∧
    ({ r with merged := true }).merged = true ∧
    (r.merged = false ∧ (row 7 .strip 0 30000).kind ≠ .order) ∧
    (r.kind = .order ∧ (r.lanes.map Lane.port).Nodup ∧ (∀ l ∈ r.lanes, l.port < 4) ∧ r.results = none ∧
      r.gradeState ≠ .graded) ∧
    (let q := { r with gradeState := .graded, results := some (List.replicate 2 (spec1.grade plate520 [] [])) }
     q.gradeState = .graded ∧ ∀ rs, q.results = some rs → rs.length = q.lanes.length) := by
  refine ⟨by decide +kernel, by decide +kernel, by decide +kernel, by decide +kernel, by decide +kernel, ?_⟩
  rintro rs h
  cases h
  rfl

theorem meets_CinhReadOnlyAtStrobe : Instr.cdone ≠ .cutStrobe ∧ (∀ a, Instr.cdone ≠ .cinhChange a) ∧
    exec .cdone (strobed410 0) = .next (after .cdone (strobed410 0)) :=
  ⟨by decide, by decide, rfl⟩

theorem meets_RowRetirementTakesHead :
    let r := { row 57 .order 5000000 5321000 with gate := .fired, lead := .cut, trail := .cut }
    run57.pinHeld = false ∧ run57.setup = some body.setup ∧ run57.sts.state.run = true ∧ run57.rpl.rows = r :: [] ∧
    r.gate ≠ .waiting ∧ run57.stu.closing = none ∧ r.shiftTag = run57.stu.current.shiftId ∧
    run57.stu.current.rows.length = 3 ∧ run57.stu.current.flawsTo.length = 3 ∧ r.results = none ∧ r.ref = none := by
  decide +kernel

/-- The retiring row carries the closing tally's id: as the last such row, and with another one behind it. Its order has an
entry of its own in the table, with nothing else outstanding. -/
theorem meets_RowRetirementTakesHead_closing :
    let r : Row := { row 57 .order 5000000 5321000 with gate := .fired, lead := .cut, trail := .cut, ref := some (40, 17) }
    let w := Tally.opened 0 0 0
    let stu : TallyUnit := ⟨Tally.opened 1 0 0, some w, false⟩
    (r.shiftTag ≠ stu.current.shiftId ∧ stu.closing = some w ∧ w.shiftId = r.shiftTag ∧ w.rows.length = 3 ∧
      w.flawsTo.length = 3) ∧
    (∃ x ∈ [row 58 .fallback 5321000 5521000], x.shiftTag = w.shiftId) ∧ (∀ x ∈ ([] : List Row), x.shiftTag ≠ w.shiftId) ∧
    ([entry 17 40 { order .placed 0 3 3210 with outstanding := 1 }] =
      [] ++ entry 17 40 { order .placed 0 3 3210 with outstanding := 1 } :: [] ∧
      (entry 17 40 { order .placed 0 3 3210 with outstanding := 1 }).take = 17 ∧
      ∀ e ∈ [entry 18 41 (order .current 1 3 3210)], e.take ≠ 17) := by decide +kernel

theorem meets_CutOrderEntersTable :
    ((inHand (.cut cutBody) (graded idle)).pinHeld = false ∧
      (inHand (.cut cutBody) (graded idle)).sts.state.live = true ∧
      (inHand (.cut cutBody) (graded idle)).exu.phase = .order (blk (.cut cutBody)) ∧
      (blk (.cut cutBody)).body = .cut cutBody ∧ cutRefusal (graded idle) cutBody = none) ∧
    (inHand (.cut cutBody) bare).setup = none ∧
    cutRefusal (graded idle) { cutBody with laneCount := 5 } = some .badValue ∧
    cutRefusal (graded idle) { cutBody with rowMm := 500 } = none ∧
    cutRefusal (graded idle) { cutBody with rowMm := 499 } = some .rowLength ∧
    cutRefusal (graded idle) { cutBody with rowMm := 6000 } = none ∧
    cutRefusal (graded idle) { cutBody with rowMm := 6001 } = some .rowLength ∧
    cutRefusal (graded idle) { cutBody with lanes := [⟨2650, 1, 2, 0⟩, ⟨1350, 3, 3, 1⟩] } = none ∧
    cutRefusal (graded idle) { cutBody with lanes := [⟨2651, 1, 2, 0⟩, ⟨1350, 3, 3, 1⟩] } = some .layout := by
  decide +kernel

theorem meets_CancelByTargetState :
    (run17.pinHeld = false ∧ run17.sts.state.live = true ∧ run17.exu.phase = .order (blk (.cancel 40)) ∧
      (run17.oru.table.map Entry.take).Nodup) ∧
    run17.oru.table = [] ++ entry 17 40 (order .current 1 3 3210) :: [entry 18 41 (order .queued 2 2 2500)] ∧
    (∀ e ∈ run17.oru.table, e.tag ≠ 99) ∧ (order .placed 0 3 3210).state = .placed ∧
    (order .queued 2 2 2500).state = .queued ∧ (order .current 1 3 3210).state = .current := by decide +kernel

theorem meets_CancelByTargetState_other_kind : ∀ o, (⟨40, 1, 0, false, .stop⟩ : Entry).work ≠ .cut o := by
  intro o h; cases h

theorem meets_CloseShiftClosesTally :
    (idle.stu.closing = none ∧ (13#32) ≠ idle.stu.current.shiftId ∧
      ∀ r ∈ idle.rpl.rows, r.shiftTag ≠ idle.stu.current.shiftId) ∧
    (∃ r ∈ (withRows [row 1 .fallback 0 200000] run).rpl.rows, r.shiftTag = run.stu.current.shiftId) ∧
    (inHand (.closeShift 0) idle).exu.phase = .order (blk (.closeShift 0)) ∧ (0#32) = idle.stu.current.shiftId ∧
    ({ idle.stu with closing := some (Tally.opened 1 0 0) }).closing.isSome = true := by decide +kernel

theorem meets_SetupRefusals : (inHand (.setup body) run).sts.state ≠ .idle ∧
    (inHand (.setup body) idle).exu.phase = .order (blk (.setup body)) ∧ idle.oru.table = [] ∧
    ({ body with minArea := 0 }).fieldsOk = false ∧
    (({ spanBody 3000 15751 200 6000 150 with dGc := 4000 }).span = 128 ∧
      ({ spanBody 3000 15751 200 6000 150 with dGc := 4000 }).fieldsOk = true ∧
      ({ spanBody 3000 15750 200 6000 150 with dGc := 4000 }).span = 127) ∧ 0 < body.stripMin ∧
    (withTable [entry 1 1 (order .queued 1 1 3210)] idle).oru.table = [entry 1 1 (order .queued 1 1 3210)] := by
  decide +kernel

theorem meets_SetupAccepted : (inHand (.setup body) bare).pinHeld = false ∧ (inHand (.setup body) bare).sts.state = .idle ∧
    (inHand (.setup body) bare).exu.phase = .order (blk (.setup body)) ∧ bare.oru.table = [] ∧ body.fieldsOk = true ∧
    body.span < 128 ∧ body.masks.length ≤ 32 ∧ bare.sli.chans.length = 16 ∧ bare.cgc.ports.length = 4 := by decide +kernel

theorem meets_StartBeginsRun : (inHand .start run).sts.state ≠ .idle ∧ (inHand .start bare).setup = none ∧
    ((inHand .start idle).sts.state = .idle ∧ (inHand .start idle).exu.phase = .order (blk .start) ∧
      (inHand .start idle).setup = some body.setup ∧ 0 < body.setup.pitch ∧ body.setup.pitch ≤ 100) := by decide +kernel

theorem meets_StopBeginsDrain : (inHand .stop idle).sts.state ≠ .running ∧
    ((inHand .stop run).sts.state = .running ∧ (inHand .stop run).exu.phase = .order (blk .stop) ∧ run.rpl.rows = [] ∧
      (run.fas.yFin - run.rpl.frontier).toNat < 2 ^ 31 ∧ run.sli.chans.length = 16 ∧
      ∀ e ∈ (withTable [⟨40, 17, 0x2000, false, .channel 0b100 0⟩] run).oru.table, e.work ≠ .stop) ∧
    (withRows [row 1 .fallback 0 200000] run).rpl.rows ≠ [] ∧
    2 ^ 31 ≤ (run.fas.yFin - (run.rpl.frontier + 1)).toNat := by decide +kernel

theorem meets_EndOfDrainReturnsIdle : drained.pinHeld = false ∧ drained.setup = some body.setup ∧
    drained.sts.state = .draining ∧ (drained.fas.yFin - drained.rpl.drainEnd).toNat < 2 ^ 31 ∧ drained.rpl.rows = [] ∧
    drained.sli.chans.length = 16 ∧ drained.exu.filling = none ∧ drained.exu.phase = .idle ∧
    drained.oru.table = [⟨9, 3, 0x1000, true, .stop⟩] := by decide +kernel

theorem meets_ChannelEnablesAndDisables :
    ((inHand (.channel 0b11 0b100) run).pinHeld = false ∧ run.sts.state.live = true ∧
      (inHand (.channel 0b11 0b100) run).exu.phase = .order (blk (.channel 0b11 0b100)) ∧
      run.setup = some body.setup ∧ run.sli.chans.length = 16 ∧ (0b11#16) &&& 0b100 = 0 ∧
      ∀ k < 16, ((0b11#16) ||| 0b100).getLsbD k = true → (geomAt body.setup.geom k).installed = true) ∧
    (0b11#16) &&& 0b10 ≠ 0 ∧ ((0b1000#16).getLsbD 3 = true ∧ (geomAt body.setup.geom 3).installed = false) := by
  decide +kernel

/-- The SETUP entries of a table of n. -/
def setupMasks (n : Nat) : List (Option MaskEntry) :=
  List.replicate n (some ⟨0, 1, 2, .setup⟩) ++ List.replicate (32 - n) none

theorem meets_LoadMaskReplacesRunEntries :
    (inHand (.loadMask [⟨1, 0, 5999⟩]) idle).sts.state.live = true ∧ (setupMasks 31).length = 32 ∧
    (inHand (.loadMask [⟨1, 0, 5999⟩]) idle).exu.phase = .order (blk (.loadMask [⟨1, 0, 5999⟩])) ∧ bare.setup = none ∧
    maskOk body.setup.geom ⟨1, 0, 5999⟩ = true ∧ maskOk body.setup.geom ⟨1, 0, 6000⟩ = false ∧
    ((validMasks (setupMasks 31)).filter (fun m => m.origin = .setup)).length + 1 = 32 ∧
    32 < ((validMasks (setupMasks 32)).filter (fun m => m.origin = .setup)).length + 1 := by decide +kernel

theorem meets_LoadOrdersReplaceTables :
    let es := List.replicate 14 ClassEntry.reset
    ((inHand (.loadClasses es) run).sts.state ≠ .idle ∧ idle.sts.state = .idle ∧
      (inHand (.loadClasses es) idle).exu.phase = .order (blk (.loadClasses es)) ∧ ∀ e ∈ es, e.enabled = false) ∧
    (let e := { ClassEntry.reset with enabled := true, sizeMin := 1 }
     e.enabled = true ∧ e.sizeMax < e.sizeMin) ∧
    ((inHand (.loadSpec 7 spec1) idle).exu.phase = .order (blk (.loadSpec 7 spec1)) ∧
      specRefusal idle 7 spec1 = none ∧ specRefusal idle 8 spec1 = some .badValue ∧
      specRefusal idle 7 { spec1 with u := 1001 } = some .badValue ∧ specRefusal (run22 []) 1 spec1 = some .inUse) := by
  decide +kernel

theorem meets_PollReadsChain :
    (attached.pinHeld = false ∧ attached.sts.state.live = true ∧ attached.exu.phase = .idle ∧
      attached.exu.expoll.toNat ≤ (attached.pos.us - attached.exu.pollTimer).toNat ∧
      attached.exu.detachDeferred = false ∧ attached.exu.detachPending = false ∧
      attached.host.readWord attached.exu.base = attached.exu.marker ∧ attached.oru.table.length < 16) ∧
    (attached.host.readAddr (attached.exu.base + 8#64) = 0x80210000#64 ∧
      readBlock attached.host (0x80210000#64 &&& ~~~7#64) = .inl ⟨0x80210000, 7, true, .channel 7 0⟩) ∧
    readBlock attached.host (0x90000000#64 &&& ~~~7#64) = .inr ⟨0x90000000, false, 3, 1, []⟩ ∧
    ({ attached.exu with cursor := some 0x90000000 }).cursor = some 0x90000000 ∧
    attached.host.readAddr 0x90000000 = 0 ∧ attached.exu.staging = [] ∧
    16 ≤ (List.replicate 16 (entry 1 1 (order .queued 1 1 3210))).length := by decide +kernel

theorem meets_PollTakesPage : finishing.pinHeld = false ∧ finishing.sts.state.live = true ∧
    finishing.exu.phase = .finishing ∧ finishing.exu.staging ≠ [] ∧ finishing.exu.filling = none ∧
    finishing.exu.stockAddr ≠ 0 ∧ 1 < finishing.exu.pageCount ∧
    finishing.host.readWord (finishing.exu.descriptor 1) = 0#32 ∧
    finishing.host.readAddr (finishing.exu.descriptor 1 + 8#64) &&& ~~~7#64 ≠ 0 ∧
    finishing.host.readWord (finishing.exu.descriptor 0) ≠ 0#32 ∧ (noStock finishing).exu.stockAddr = 0 := by
  decide +kernel

/-- A page with some bytes written, and one record waiting. -/
def writing (written : Nat) (r : Report) : State :=
  { attached with exu := { attached.exu with
      filling := some ⟨2, 0x90002000, written, 0, none, 20⟩, staging := [⟨5, r⟩] } }

theorem meets_PageRecordWritten :
    let r : Report := .notice (.unexpectedConfirm 5)
    ((writing 4072 r).pinHeld = false ∧ (writing 4072 r).sts.state.live = true ∧ (writing 4072 r).exu.lossPending = false ∧
      4072 + r.size ≤ (writing 4072 r).exu.pageSize ∧ r.closesPage = false) ∧
    (Report.notice (.reportLoss 1)).closesPage = true ∧ (writing 4073 r).exu.pageSize < 4073 + r.size ∧
    ({ (writing 4072 r).exu with lossPending := true }).lossPending = true ∧ essentialBytes [] + 24 ≤ 16384 := by
  decide +kernel

/-- Notices of 24 bytes and a CUT record in staging: at 12,288 bytes a CUT record is dropped; 681 notices leave room for
one more; behind a CUT record the next one evicts it, and behind 682 notices it is dropped. -/
theorem meets_PageRecordWritten_staging :
    let r : Report := .notice (.unexpectedConfirm 5)
    let mark : Report := .cut ⟨0, 0, .cut, .none, 0, []⟩
    (r.droppable = false ∧ r.size = 24 ∧ mark.droppable = true) ∧
    (stagedBytes [] + mark.size ≤ 12288 ∧
      12288 < stagedBytes (List.replicate 512 ⟨0, r⟩) + mark.size) ∧
    (stagedBytes (List.replicate 681 ⟨0, r⟩) + 24 ≤ 16384 ∧ 16384 < stagedBytes (List.replicate 682 ⟨0, r⟩) + 24 ∧
      16384 < essentialBytes (List.replicate 682 ⟨0, r⟩) + 24) ∧
    (16384 < stagedBytes (⟨0, mark⟩ :: List.replicate 681 ⟨0, r⟩) + 24 ∧
      essentialBytes (⟨0, mark⟩ :: List.replicate 681 ⟨0, r⟩) + 24 ≤ 16384) := by decide +kernel

theorem meets_PageFlushCloses :
    ((filling 21000 (some 1000)).pinHeld = false ∧ (filling 21000 (some 1000)).sts.state.live = true ∧
      20 * 1000 ≤ ((filling 21000 (some 1000)).pos.us - 1000).toNat) ∧
    ((filling 20999 (some 1000)).pos.us - 1000).toNat < 20 * 1000 ∧
    (filling 21000 none).exu.filling = some ⟨2, 0x90002000, 92, 3, none, 20⟩ := by decide +kernel

theorem meets_FaultIsEntered :
    (idle.pinHeld = false ∧ idle.sts.state.live = true ∧ idle.pending = []) ∧ faulted.sts.state.live = false ∧
    (attached.exu.phase = .idle ∧ attached.exu.expoll.toNat ≤ (attached.pos.us - attached.exu.pollTimer).toNat ∧
      attached.exu.detachDeferred = false ∧ attached.exu.detachPending = false ∧
      (attached.host.hostWrites [⟨0x80200000, [0]⟩]).readWord attached.exu.base ≠ attached.exu.marker) := by decide +kernel

/-- A page that a flush, a detach in IDLE, a detach that waited, and the end of a drain close. -/
theorem meets_FaultIsEntered_page :
    let p : FillingPage := ⟨2, 0x90002000, 92, 3, some 1000, 20⟩
    let s := filling 21000 (some 1000)
    (s.sts.state.live = true ∧ s.exu.filling = some p ∧ p.firstTime = some 1000 ∧
      p.flushMs * 1000 ≤ (s.pos.us - 1000).toNat) ∧
    (s.sts.state = .idle ∧ s.exu.phase = .idle ∧ s.exu.ien = true ∧
      ({ s.exu with detachDeferred := true }).detachDeferred = true) ∧
    (({ s with pending := [.pageFlush] }).pending = .pageFlush :: [] ∧
      ({ s with pending := [.detach s.exu.ien] }).pending = .detach s.exu.ien :: []) ∧
    (let d := { drained with exu := { drained.exu with detachPending := true, filling := some p }, pending := [.endOfDrain] }
     d.sts.state = .draining ∧ d.pending = .endOfDrain :: [] ∧ d.exu.phase = .idle ∧ d.exu.detachPending = true ∧
     d.exu.filling = some p ∧ d.rpl.rows = [] ∧ (d.fas.yFin - d.rpl.drainEnd).toNat < 2 ^ 31 ∧
     d.oru.table = [⟨9, 3, 0x1000, true, .stop⟩]) := by decide +kernel

/-- A record in a page with room, and an order in hand, each with its command waiting. -/
theorem meets_FaultIsEntered_record :
    let r : Report := .notice (.unexpectedConfirm 5)
    let s := { writing 4072 r with pending := [.pageRecordWrite] }
    (s.sts.state.live = true ∧ s.pending = .pageRecordWrite :: [] ∧
      s.exu.filling = some ⟨2, 0x90002000, 4072, 0, none, 20⟩ ∧ s.exu.staging = ⟨5, r⟩ :: [] ∧
      4072 + r.size ≤ s.exu.pageSize ∧ r.closesPage = false ∧ (⟨5, r⟩ : Staged).bytes.length % 4 = 0) ∧
    (let t := { inHand .start idle with pending := [.start] }
     t.sts.state = .idle ∧ t.pending = .start :: [] ∧ t.exu.phase = .order (blk .start) ∧ (blk .start).body = .start ∧
     t.setup.isSome = true) := by decide +kernel

theorem meets_PartStateTransitions : exec .busError idle = .next (after .busError idle) := rfl

theorem meets_FaultFreezesPart : (faulted.sts.state = .fault ∧ isReset .cdone = false ∧
      exec .cdone faulted = .next (after .cdone faulted)) ∧
    (isReset (.poll area) = false ∧ exec (.poll area) faulted = .next (after (.poll area) faulted)) ∧
    (isReset (.attach true area .ok) = false ∧
      exec (.attach true area .ok) faulted = .next (after (.attach true area .ok) faulted)) :=
  ⟨⟨by decide, by decide, rfl⟩, ⟨by decide, rfl⟩, by decide, rfl⟩

/-- A run with two rows, an order, and a gate event waiting in the queue. -/
def waiting : State :=
  { withTable [entry 22 60 (order .current 5 5 3210)] (run410 6500000) with pending := [.gateEvent] }

theorem meets_MemoryStaysCanonical : attached.host.wf ∧ step attached = .next attached.tick :=
  ⟨by decide +kernel, rfl⟩

theorem meets_RowsStayJoined : waiting.atRest ∧ waiting.rowsSound ∧
    step waiting = .next (after .gateEvent { waiting with pending := [] }) := by
  have ok : portsOk lanes := ⟨by decide +kernel, by decide +kernel⟩
  refine ⟨fun h => absurd h (by decide +kernel), ⟨⟨by decide +kernel, (by decide +kernel : (6500000#32) = waiting.rpl.frontier)⟩, ?_, ?_⟩, rfl⟩
  · intro r hr
    have h : r = row 410 .order 6000000 6250000 ∨ r = row 411 .order 6250000 6500000 := by
      simpa [waiting, withTable, run410, graded, withRows] using hr
    rcases h with rfl | rfl <;> exact ⟨ok, fun rs h => nomatch h⟩
  · intro e he o ho
    have h : e = entry 22 60 (order .current 5 5 3210) := by simpa [waiting, withTable] using he
    subst h
    cases ho
    exact ok

theorem meets_ListsStayBounded : waiting.feedBounds ∧ waiting.planBounds := by
  refine ⟨?_, by decide +kernel, fun b h => ?_, by decide +kernel⟩
  · unfold State.feedBounds; decide +kernel
  · have : waiting.exu.phase = .idle := by decide +kernel
    rw [this] at h; cases h

theorem meets_TalliesStayInAgreement : waiting.talliesAgree := by
  refine ⟨?_, fun t h => ?_, by decide +kernel, by decide +kernel, fun b es h => ?_⟩
  · unfold Tally.countsAgree; decide +kernel
  · have : waiting.stu.closing = none := by decide +kernel
    rw [this] at h; cases h
  · have : waiting.exu.phase = .idle := by decide +kernel
    rw [this] at h; cases h

end Sys2Proof.Tests
end

/-! # The Position Unit: counts, line triggers, the speed window (O2, O15 to O18) -/

section
namespace Sys2Proof.Machine

/-! ## The arms of `exec` -/

theorem exec_forwardCount (s : State) : exec .forwardCount s = s.taken (forwardCount s) := rfl
theorem exec_reverseCount (s : State) : exec .reverseCount s = s.taken (reverseCount s) := rfl
theorem exec_lineTrigger (s : State) : exec .lineTrigger s = s.taken (lineTrigger s) := rfl
theorem exec_speedWindowEnd (s : State) : exec .speedWindowEnd s = s.taken (speedWindowEnd s) := rfl

/-- An event that changes nothing answers the state as it was, whether or not the pin is held. -/
@[simp] theorem State.taken_self (s : State) : s.taken s = .next s := by simp [State.taken]

/-! ## The tick (R11) -/

@[simp] theorem State.tick_of_held (s : State) (h : s.pinHeld = true) : s.tick = s := by simp [State.tick, h]

@[simp] theorem State.tick_of_free (s : State) (h : s.pinHeld = false) :
    s.tick = { s with pos := { s.pos with us := s.pos.us + 1#32 } } := by simp [State.tick, h]

/-- Settles O2: an empty queue ticks. -/
theorem idleStepCountsMicroseconds : Obligations.IdleStepCountsMicroseconds := by
  intro s hq
  refine ⟨fun hp => ?_, fun hp => ?_⟩
  · rw [step_nil s hq, State.tick_of_free s hp]
  · rw [step_nil s hq, State.tick_of_held s hp]

/-! ## Counts (R1 to R3) -/

theorem forwardCount_of_none (s : State) (h : s.setup = none) : forwardCount s = s := by
  unfold forwardCount; rw [h]

theorem forwardCount_of_some (s : State) (c : Setup) (h : s.setup = some c) :
    forwardCount s = { s with pos := s.pos.forward c.scale } := by unfold forwardCount; rw [h]

theorem Position.forward_of_debt (scale : Word) (pos : Position) (h : 0 < pos.debt.toNat) :
    pos.forward scale = { pos with debt := pos.debt - 1 } := by
  have hd : pos.debt ≠ 0 := fun h0 => by simp [h0] at h
  exact if_neg hd

theorem Position.forward_of_no_debt (scale : Word) (pos : Position) (h : pos.debt = 0) :
    pos.forward scale = pos.advance scale := if_pos h

/-- Position and fraction, read as one 48-bit number, advance by the scale (R2). -/
theorem Position.advance_toNat (scale : Word) (pos : Position) :
    (pos.advance scale).p.toNat * 65536 + (pos.advance scale).frac.toNat =
      (pos.p.toNat * 65536 + pos.frac.toNat + scale.toNat) % 2 ^ 48 := by
  have hcat : (pos.p ++ pos.frac).toNat = pos.p.toNat * 65536 + pos.frac.toNat := by
    rw [BitVec.toNat_append, Nat.shiftLeft_eq, ← Nat.shiftLeft_eq, ← Nat.shiftLeft_add_eq_or_of_lt pos.frac.isLt,
      Nat.shiftLeft_eq]
  have hscale := scale.isLt
  simp only [Position.advance, BitVec.extractLsb'_toNat, BitVec.toNat_add, hcat, BitVec.toNat_setWidth,
    Nat.shiftRight_eq_div_pow]
  omega

/-- A scale of at most one pitch moves the integer part by at most one pitch (R4). -/
theorem Position.advance_le_pitch (scale : Word) (pos : Position) (pitch : Nat) (h : scale.toNat ≤ pitch * 65536) :
    ((pos.advance scale).p - pos.p).toNat ≤ pitch := by
  have hsum := pos.advance_toNat scale
  have hp := pos.p.isLt
  have hf := pos.frac.isLt
  have hp' := (pos.advance scale).p.isLt
  have hf' := (pos.advance scale).frac.isLt
  rw [BitVec.toNat_sub]
  omega

/-- Settles O15, by the three cases of a forward count: no setup, debt, no debt. -/
theorem forwardCountAdvances : Obligations.ForwardCountAdvances := by
  refine ⟨fun s hs => ?_, fun s c hp hs hd => ?_, fun s c hp hs hd => ?_⟩
  · rw [exec_forwardCount, forwardCount_of_none s hs, State.taken_self]
  · rw [exec_forwardCount, State.taken_free _ _ hp, forwardCount_of_some s c hs, Position.forward_of_debt _ _ hd]
  · refine ⟨(s.pos.advance c.scale).p, (s.pos.advance c.scale).frac, ?_, s.pos.advance_toNat c.scale,
      s.pos.advance_le_pitch c.scale c.pitch⟩
    rw [exec_forwardCount, State.taken_free _ _ hp, forwardCount_of_some s c hs, Position.forward_of_no_debt _ _ hd]
    rfl

theorem reverseCount_of_none (s : State) (h : s.setup = none) : reverseCount s = s := by
  unfold reverseCount; rw [h]

theorem reverseCount_of_room (s : State) (c : Setup) (hs : s.setup = some c) (h : s.pos.debt.toNat < 65535) :
    reverseCount s = { s with pos := { s.pos with debt := s.pos.debt + 1 } } := by
  simp [reverseCount, hs, h]

/-- At the cap a reverse count stages the one notice since START, or does nothing (R3). -/
theorem reverseCount_of_cap (s : State) (c : Setup) (hs : s.setup = some c) (h : s.pos.debt.toNat = 65535) :
    reverseCount s = if s.sts.state.live = true ∧ s.pos.excess = false then
      State.report [.notice (.reverseExcess s.pos.p)] { s with pos := { s.pos with excess := true } } else s := by
  simp [reverseCount, hs, h]

/-- Settles O16, by the cases of a reverse count: no setup, room for debt, the cap. -/
theorem reverseCountRaisesDebt : Obligations.ReverseCountRaisesDebt := by
  refine ⟨fun s hs => ?_, fun s c hp hs => ⟨fun hd => ?_, fun hd hl he => ?_, fun hd hno => ?_⟩⟩
  · rw [exec_reverseCount, reverseCount_of_none s hs, State.taken_self]
  · rw [exec_reverseCount, State.taken_free _ _ hp, reverseCount_of_room s c hs hd]
  · rw [exec_reverseCount, State.taken_free _ _ hp, reverseCount_of_cap s c hs hd, if_pos ⟨hl, he⟩]
  · have hnot : ¬(s.sts.state.live = true ∧ s.pos.excess = false) := by
      rintro ⟨hl, he⟩
      rcases hno with h | h
      · simp [hl] at h
      · simp [he] at h
    rw [exec_reverseCount, reverseCount_of_cap s c hs hd, if_neg hnot, State.taken_self]

/-! ## Line triggers (R7 to R9) -/

/-- Triggers run in RUNNING, and in DRAINING while y_fin has not reached the drain end (R8). -/
theorem State.triggersRun_iff (s : State) : s.triggersRun = true ↔
    s.sts.state = .running ∨ (s.sts.state = .draining ∧ 2 ^ 31 ≤ (s.fas.yFin - s.rpl.drainEnd).toNat) := by
  unfold State.triggersRun State.drainCondition reaches
  cases s.sts.state <;> simp

theorem lineTrigger_of_due (s : State) (c : Setup) (hs : s.setup = some c) (h : s.triggerDue = true) :
    lineTrigger s = { s with pos := s.pos.trigger c.pitch } := by
  unfold lineTrigger; rw [hs]; simp [h]

/-- Moving the line origin changes the origin alone, and y(L) for no line from the new L0 on (R9). -/
theorem Position.moveOrigin_spec (pitch : Nat) (pos : Position) :
    ∃ (y0 : Pos) (l0 : Line), pos.moveOrigin pitch = { pos with y0 := y0, l0 := l0 } ∧
      ∀ l : Line, (l - l0).toNat < 2 ^ 24 - 2 ^ 22 → yOf (pos.moveOrigin pitch) pitch l = yOf pos pitch l := by
  unfold Position.moveOrigin
  split
  · refine ⟨_, _, rfl, fun l hl => ?_⟩
    have hlines : (l - pos.l0).toNat = 2 ^ 22 + (l - (pos.l0 + BitVec.ofNat 24 (2 ^ 22))).toNat := by
      have hsplit : l - pos.l0 = BitVec.ofNat 24 (2 ^ 22) + (l - (pos.l0 + BitVec.ofNat 24 (2 ^ 22))) := by
        generalize BitVec.ofNat 24 (2 ^ 22) = d; abel
      rw [hsplit, BitVec.toNat_add, BitVec.toNat_ofNat]
      omega
    simp only [yOf, pu, hlines, Nat.add_mul, BitVec.ofNat_add, BitVec.add_assoc]
  · exact ⟨pos.y0, pos.l0, rfl, fun _ _ => rfl⟩

/-- Settles O17: the trigger advances L_t and the next trigger position, then the origin may move. -/
theorem lineTriggerIssuesNextLine : Obligations.LineTriggerIssuesNextLine := by
  intro s c hp hs hrun hreach
  have hdue : s.triggerDue = true := by
    rw [State.triggerDue, s.triggersRun_iff.2 hrun, Bool.true_and]
    exact decide_eq_true hreach
  have hexec : exec .lineTrigger s = .next { s with pos := s.pos.trigger c.pitch } := by
    rw [exec_lineTrigger, State.taken_free _ _ hp, lineTrigger_of_due s c hs hdue]
  obtain ⟨y0, l0, horigin, hy⟩ := Position.moveOrigin_spec c.pitch
    { s.pos with ltrigLine := some s.pos.lt, ltrigCount := s.pos.ltrigCount + 1, lt := s.pos.lt + 1#24,
                 nextTrigger := s.pos.nextTrigger + pu c.pitch }
  rw [Position.trigger, horigin] at hexec
  rw [horigin] at hy
  exact ⟨_, hexec, rfl, rfl, rfl, rfl, rfl, rfl, hy⟩

/-! ## The speed window (R12 to R14) -/

/-- The overspeed test sets the limit flag, with one notice for a rising crossing (R13). -/
theorem overspeedTest_of_some (s : State) (c : Setup) (hs : s.setup = some c) :
    overspeedTest s = State.report
      (if c.maxSpeed < s.pos.lastSpeed.toNat ∧ s.pos.overLimit = false ∧ s.sts.state.live = true then
        [.notice (.overspeed s.pos.lastSpeed c.maxSpeed s.pos.p)] else [])
      { s with pos := { s.pos with overLimit := decide (c.maxSpeed < s.pos.lastSpeed.toNat) } } := by
  have hsome : overspeedTest s =
      if c.maxSpeed < s.pos.lastSpeed.toNat then
        if s.pos.overLimit then s
        else if s.sts.state.live then
          State.report [.notice (.overspeed s.pos.lastSpeed c.maxSpeed s.pos.p)]
            { s with pos := { s.pos with overLimit := true } }
        else { s with pos := { s.pos with overLimit := true } }
      else { s with pos := { s.pos with overLimit := false } } := by
    unfold overspeedTest; split <;> simp_all
  rw [hsome]
  by_cases hv : c.maxSpeed < s.pos.lastSpeed.toNat
  · cases ho : s.pos.overLimit with
    | true =>
      have same : { s with pos := { s.pos with overLimit := true } } = s := by rw [← ho]
      simp [hv, same]
    | false => cases hl : s.sts.state.live <;> simp [hv]
  · simp [hv]

/-- The current tally takes the last speed in RUNNING and DRAINING (R14). -/
theorem handSpeed_eq (s : State) : handSpeed s = { s with stu := { s.stu with current := { s.stu.current with
    maxSpeed := if s.sts.state.run = true ∧ s.stu.current.maxSpeed.toNat < s.pos.lastSpeed.toNat then s.pos.lastSpeed
                else s.stu.current.maxSpeed } } } := by
  unfold handSpeed Tally.raiseSpeed
  cases s.sts.state.run
  · simp
  · by_cases h : s.stu.current.maxSpeed.toNat < s.pos.lastSpeed.toNat <;> simp [h]

/-- Settles O18: the window ends, the limit is tested, the speed is handed to STU. -/
theorem speedWindowMeasures : Obligations.SpeedWindowMeasures := by
  intro s c hp hs hdue
  have hend : speedWindowEnd s = handSpeed (overspeedTest { s with pos := s.pos.endWindow }) := by
    unfold speedWindowEnd Position.windowDue; exact if_pos (decide_eq_true hdue)
  rw [exec_speedWindowEnd, State.taken_free _ _ hp, hend, 
    overspeedTest_of_some { s with pos := s.pos.endWindow } c hs, handSpeed_eq]
  rfl

end Sys2Proof.Machine
end

/-! # The orders SETUP and START (O41, O43) -/

section
namespace Sys2Proof.Machine

/-! ## The taking of an order by its command -/

theorem exec_setup (s : State) : exec .setup s = s.taken (s.takeOrder OrderBody.setup? takeSetup) := rfl
theorem exec_start (s : State) : exec .start s = s.taken (s.takeOrder OrderBody.start? (fun b _ => takeStart b)) := rfl

/-- SETUP takes the block in hand and issues its statuses (R185). -/
theorem exec_setup_of_order (s : State) (b : Block) (x : SetupBody) (hp : s.pinHeld = false)
    (hl : s.sts.state.live = true) (hb : s.exu.phase = .order b) (hx : b.body = .setup x) :
    exec .setup s = .next (State.issue (takeSetup b x (s.cursorTo b))) := by
  rw [exec_setup, State.taken_free _ _ hp, State.takeOrder_some _ _ s b x hb hl (by rw [hx]; rfl)]

/-- START takes the block in hand and issues its statuses (R185). -/
theorem exec_start_of_order (s : State) (b : Block) (hp : s.pinHeld = false)
    (hl : s.sts.state.live = true) (hb : s.exu.phase = .order b) (hx : b.body = .start) :
    exec .start s = .next (State.issue (takeStart b (s.cursorTo b))) := by
  rw [exec_start, State.taken_free _ _ hp, State.takeOrder_some _ _ s b () hb hl (by rw [hx]; rfl)]

/-! ## SETUP: the refusals in the order of R166 -/

theorem Entry.cut?_eq_some (e : Entry) (o : CutOrder) : e.cut? = some o ↔ e.work = .cut o := by
  unfold Entry.cut?; split <;> simp_all

/-- The table holds no CUT order. -/
theorem OrderUnit.cutOrders_isEmpty (u : OrderUnit) :
    u.cutOrders.isEmpty = true ↔ ∀ e ∈ u.table, ∀ o, e.work ≠ .cut o := by
  simp only [OrderUnit.cutOrders, List.isEmpty_iff, List.filterMap_eq_nil_iff, Option.eq_none_iff_forall_ne_some, ne_eq,
    Entry.cut?_eq_some]

theorem setupRefusal_of_not_idle (s : State) (x : SetupBody) (h : s.sts.state ≠ .idle) :
    setupRefusal s x = some .wrongState := if_pos h

/-- In IDLE the checks that follow the part state decide. -/
theorem setupRefusal_of_idle (s : State) (x : SetupBody) (h : s.sts.state = .idle) :
    setupRefusal s x = if !s.oru.cutOrders.isEmpty then some .inUse else if !x.fieldsOk then some .badValue
      else if 128 ≤ x.span then some .setupSpan else none := if_neg (not_not_intro h)

theorem setupRefusal_of_cut (s : State) (x : SetupBody) (h : s.sts.state = .idle)
    (hc : ∃ e ∈ s.oru.table, ∃ o, e.work = .cut o) : setupRefusal s x = some .inUse := by
  obtain ⟨e, he, o, ho⟩ := hc
  have hne : s.oru.cutOrders.isEmpty = false := by
    rw [Bool.eq_false_iff]; exact fun hempty => s.oru.cutOrders_isEmpty.1 hempty e he o ho
  simp [setupRefusal_of_idle s x h, hne]

/-- In IDLE with no CUT order, the fields and the span decide. -/
theorem setupRefusal_of_no_cut (s : State) (x : SetupBody) (h : s.sts.state = .idle)
    (hc : ∀ e ∈ s.oru.table, ∀ o, e.work ≠ .cut o) :
    setupRefusal s x = if x.fieldsOk = false then some .badValue else if 128 ≤ x.span then some .setupSpan
      else none := by
  simp [setupRefusal_of_idle s x h, s.oru.cutOrders_isEmpty.2 hc]

/-- A refused SETUP writes its status and does nothing else. -/
theorem issue_takeSetup_of_refusal (b : Block) (x : SetupBody) (s : State) (r : Reason)
    (h : setupRefusal s x = some r) :
    State.issue (takeSetup b x s) = s.writeStatus ⟨b.addr, b.notify, 3, r.code, []⟩ := by
  unfold takeSetup; rw [h]; rfl

/-- The four refusals of SETUP, each after those before it (R166). -/
theorem setup_refused_in_order (s : State) (b : Block) (x : SetupBody) (hp : s.pinHeld = false)
    (hl : s.sts.state.live = true) (hb : s.exu.phase = .order b) (hx : b.body = .setup x) :
    let refused (code : Nat) := (s.cursorTo b).writeStatus ⟨b.addr, b.notify, 3, code, []⟩
    (s.sts.state ≠ .idle → exec .setup s = .next (refused 3)) ∧
    (s.sts.state = .idle → (∃ e ∈ s.oru.table, ∃ o, e.work = .cut o) → exec .setup s = .next (refused 5)) ∧
    (s.sts.state = .idle → (∀ e ∈ s.oru.table, ∀ o, e.work ≠ .cut o) → x.fieldsOk = false →
      exec .setup s = .next (refused 4)) ∧
    (s.sts.state = .idle → (∀ e ∈ s.oru.table, ∀ o, e.work ≠ .cut o) → x.fieldsOk = true → 128 ≤ x.span →
      exec .setup s = .next (refused 13)) := by
  have answer : ∀ r, setupRefusal (s.cursorTo b) x = some r →
      exec .setup s = .next ((s.cursorTo b).writeStatus ⟨b.addr, b.notify, 3, r.code, []⟩) := by
    intro r hr
    rw [exec_setup_of_order s b x hp hl hb hx, issue_takeSetup_of_refusal b x _ r hr]
  refine ⟨fun hi => answer .wrongState (setupRefusal_of_not_idle _ x hi),
    fun hi hc => answer .inUse (setupRefusal_of_cut _ x hi hc),
    fun hi hc hf => answer .badValue ?_, fun hi hc hf hn => answer .setupSpan ?_⟩
  · rw [setupRefusal_of_no_cut (s.cursorTo b) x hi hc, if_pos hf]
  · rw [setupRefusal_of_no_cut (s.cursorTo b) x hi hc, if_neg (by simp [hf]), if_pos hn]

/-- N - 2 strips of the shortest length hold the rows that can stand, and one strip less does not (R168). -/
theorem SetupBody.span_bounds (x : SetupBody) (h : 0 < x.stripMin) :
    x.dCommit + max x.dCg (x.dConfirm + x.rowMax) ≤ (x.span - 2) * x.stripMin ∧
    (x.span - 2) * x.stripMin < x.dCommit + max x.dCg (x.dConfirm + x.rowMax) + x.stripMin := by
  unfold SetupBody.span
  generalize x.dCommit + max x.dCg (x.dConfirm + x.rowMax) = d
  rw [Nat.add_sub_cancel]
  have hdiv := Nat.div_add_mod' (d + (x.stripMin - 1)) x.stripMin
  have hmod := Nat.mod_lt (d + (x.stripMin - 1)) h
  omega

/-! ## SETUP: the checks of the fields -/

/-- The installed channels, without their numbers. -/
theorem installedFrom_map_snd : ∀ (gs : List Geometry) (k : Nat),
    (installedFrom k gs).map Prod.snd = gs.filter Geometry.installed
  | [], _ => rfl
  | g :: gs, k => by
    unfold installedFrom
    cases h : g.installed <;> simp [h, installedFrom_map_snd gs (k + 1)]

/-- The installed span begins with the first installed channel and ends with the last (R77). -/
theorem installedSpan_eq (gs : List Geometry) (h : gs.filter Geometry.installed ≠ []) :
    installedSpan gs = (((gs.filter Geometry.installed).head h).x0, ((gs.filter Geometry.installed).getLast h).x1) := by
  have hsnd := installedFrom_map_snd gs 0
  unfold installedSpan installedChans
  generalize installedFrom 0 gs = cs at hsnd ⊢
  generalize gs.filter Geometry.installed = is at hsnd h ⊢
  subst hsnd
  cases cs with
  | nil => exact absurd rfl h
  | cons c rest =>
    rcases List.eq_nil_or_concat rest with rfl | ⟨front, last, rfl⟩
    · rfl
    · simp

/-- A relation between the entries d + 1 places apart, by the head of a list. -/
theorem forall_apart_cons {α : Type} (R : α → α → Prop) (d : Nat) (x : α) (l : List α) :
    (∀ (i : Nat) (a b : α), (x :: l)[i]? = some a → (x :: l)[i + (d + 1)]? = some b → R a b) ↔
    (∀ b, l[d]? = some b → R x b) ∧
      ∀ (i : Nat) (a b : α), l[i]? = some a → l[i + (d + 1)]? = some b → R a b := by
  constructor
  · refine fun h => ⟨fun b hb => h 0 x b rfl (by simpa using hb), fun i a b ha hb => h (i + 1) a b ha ?_⟩
    rw [Nat.add_right_comm]; exact hb
  · rintro ⟨hhead, htail⟩ i a b ha hb
    cases i with
    | zero =>
      obtain rfl : x = a := by simpa using ha
      exact hhead b (by simpa using hb)
    | succ i =>
      rw [Nat.add_right_comm] at hb
      exact htail i a b ha hb

/-- R16's overlaps, written for the places of the installed channels. -/
theorem orderOk_iff : ∀ gs : List Geometry, orderOk gs = true ↔
    (∀ (i : Nat) (a b : Geometry), gs[i]? = some a → gs[i + 1]? = some b →
      a.x0 < b.x0 ∧ a.x1 < b.x1 ∧ b.x0 ≤ a.x1) ∧
    (∀ (i : Nat) (a b : Geometry), gs[i]? = some a → gs[i + 2]? = some b → a.x1 ≤ b.x0)
  | [] => by simp [orderOk]
  | [a] => by simp [orderOk]
  | [a, b] => by
    rw [forall_apart_cons _ 0, forall_apart_cons _ 1]
    simp [orderOk, pairOk, and_assoc]
  | a :: b :: c :: rest => by
    rw [forall_apart_cons _ 0, forall_apart_cons _ 1, and_and_and_comm, ← orderOk_iff (b :: c :: rest)]
    simp [orderOk, pairOk, and_assoc]

theorem Geometry.x1_eq (g : Geometry) : g.x1 = g.x0 + (g.n - 1) * g.cp / 256 + g.cp / 256 := rfl

theorem Geometry.ok_iff (g : Geometry) :
    g.ok = true ↔ 512 ≤ g.cp ∧ g.cp ≤ 25600 ∧ 1 ≤ g.n ∧ g.n ≤ 16384 ∧ g.x1 ≤ 524288 := by
  simp [Geometry.ok, and_assoc]

theorem maskOk_iff (gs : List Geometry) (m : MaskSpec) : maskOk gs m = true ↔
    (geomAt gs m.channel).installed = true ∧ m.first ≤ m.last ∧ m.last < (geomAt gs m.channel).n := by
  simp [maskOk, and_assoc]

/-- R4. -/
theorem SetupBody.posOk_iff (x : SetupBody) : x.posOk = true ↔ 5 ≤ x.pitch ∧ x.pitch ≤ 100 ∧ 0x4000 ≤ x.scale ∧
    x.scale ≤ x.pitch * 0x10000 ∧ 100 ≤ x.maxSpeed ∧ x.maxSpeed ≤ 1000 := by
  simp [SetupBody.posOk, and_assoc]

/-- R16 and R29. -/
theorem SetupBody.sliOk_iff (x : SetupBody) : x.sliOk = true ↔
    let gs := x.geom.filter Geometry.installed
    gs ≠ [] ∧ (∀ g ∈ gs, g.ok = true) ∧ orderOk gs = true ∧ ∀ m ∈ x.masks, maskOk x.geom m = true := by
  simp only [SetupBody.sliOk, installedChans, installedFrom_map_snd, Bool.and_eq_true, List.all_eq_true,
    Bool.not_eq_true', ← Bool.not_eq_true, List.isEmpty_iff, ne_eq, and_assoc]

/-- R36. -/
theorem SetupBody.fasOk_iff (x : SetupBody) : x.fasOk = true ↔ 1 ≤ x.minArea ∧ x.minArea ≤ 255 := by
  simp [SetupBody.fasOk]

/-- R77, for a ribbon with an installed channel. -/
theorem SetupBody.oruOk_iff (x : SetupBody) (h : x.geom.filter Geometry.installed ≠ []) : x.oruOk = true ↔
    let gs := x.geom.filter Geometry.installed
    x.netWidth ≠ 0 ∧ (∀ g ∈ gs.head?, g.x0 ≤ x.netLeft) ∧
      (∀ g ∈ gs.getLast?, x.netLeft + 100 * x.netWidth ≤ g.x1) ∧ x.runwayWarn ≤ 200000 := by
  simp only [SetupBody.oruOk, installedSpan_eq x.geom h]
  generalize x.geom.filter Geometry.installed = gs at h ⊢
  simp [List.head?_eq_some_head h, List.getLast?_eq_some_getLast h, and_assoc]

/-- R117. -/
theorem SetupBody.cgcOk_iff (x : SetupBody) : x.cgcOk = true ↔ x.ports ≠ 0 ∧ x.scrapCode ≤ 7 := by
  simp [SetupBody.cgcOk]

/-- Table 10-4. -/
theorem SetupBody.distancesOk_iff (x : SetupBody) : x.distancesOk = true ↔
    3000 ≤ x.dGc ∧ x.dGc ≤ 40000 ∧ 300 ≤ x.dCommit ∧ x.dCommit + 500 ≤ x.dGc ∧ x.dLead + 100 ≤ x.dCommit ∧
    10 ≤ x.dConfirm ∧ x.dConfirm ≤ 1000 ∧ 500 ≤ x.dCg ∧ x.dCg ≤ 20000 ∧
    150 ≤ x.stripMin ∧ x.stripMin ≤ 1000 ∧ x.stripMin ≤ x.stripMax ∧ x.stripMax ≤ 2000 ∧
    x.stripMin ≤ x.rowMin ∧ x.rowMin ≤ 6000 ∧ x.rowMin ≤ x.rowMax ∧ x.rowMax ≤ 12000 ∧
    x.rowMin ≤ x.fallbackLen ∧ x.fallbackLen ≤ x.rowMax ∧ 10 ≤ x.cutoutMargin ∧ x.cutoutMargin ≤ 500 ∧
    x.maxCutouts ≤ 3 := by
  simp [SetupBody.distancesOk, and_assoc]

/-- The checks of a SETUP body, unit by unit. -/
theorem SetupBody.fieldsOk_iff (x : SetupBody) : x.fieldsOk = true ↔ x.posOk = true ∧ x.sliOk = true ∧
    x.fasOk = true ∧ x.oruOk = true ∧ x.cgcOk = true ∧ x.distancesOk = true := by
  simp [SetupBody.fieldsOk, and_assoc]

/-- Settles O41, from the refusals in order, the bounds of N, and the check of each unit's fields. -/
theorem setupRefusals : Obligations.SetupRefusals := by
  refine ⟨setup_refused_in_order, SetupBody.span_bounds, fun x => ?_⟩
  have hsli := x.sliOk_iff
  simp only [Geometry.ok_iff, orderOk_iff, maskOk_iff, and_assoc] at hsli
  rw [x.fieldsOk_iff, x.posOk_iff, hsli, x.fasOk_iff, x.cgcOk_iff, x.distancesOk_iff]
  constructor
  · rintro ⟨hpos, hsli, hfas, horu, hrest⟩
    exact ⟨hpos, hsli, hfas, (x.oruOk_iff hsli.1).1 horu, hrest⟩
  · rintro ⟨hpos, hsli, hfas, horu, hrest⟩
    exact ⟨hpos, hsli, hfas, (x.oruOk_iff hsli.1).2 horu, hrest⟩

/-! ## START (R170) -/

theorem takeStart_of_not_idle (b : Block) (s : State) (h : s.sts.state ≠ .idle) :
    takeStart b s = (s, [b.refused .wrongState]) := if_pos h

theorem takeStart_of_no_setup (b : Block) (s : State) (h : s.sts.state = .idle) (hs : s.setup = none) :
    takeStart b s = (s, [b.refused .noSetup]) := by
  simp [takeStart, h, hs]

theorem takeStart_of_setup (b : Block) (s : State) (c : Setup) (h : s.sts.state = .idle) (hs : s.setup = some c) :
    takeStart b s = (s.startRun c, [b.done]) := by
  simp [takeStart, h, hs]

/-! What START leaves in each unit, and what the taking of a block leaves in EXU and host memory. -/

@[simp] theorem State.startRun_pos (c : Setup) (s : State) : (s.startRun c).pos = s.pos.start c.pitch := rfl
@[simp] theorem State.startRun_sli (c : Setup) (s : State) : (s.startRun c).sli = s.sli.start := rfl
@[simp] theorem State.startRun_fas (c : Setup) (s : State) :
    (s.startRun c).fas = { s.fas with yFin := roundUp c.pitch s.pos.p } := rfl
@[simp] theorem State.startRun_rbm (c : Setup) (s : State) :
    (s.startRun c).rbm = s.rbm.start (roundUp c.pitch s.pos.p) c.geom := rfl
@[simp] theorem State.startRun_rpl (c : Setup) (s : State) :
    (s.startRun c).rpl = s.rpl.start (roundUp c.pitch s.pos.p) := rfl
@[simp] theorem State.startRun_cgc (c : Setup) (s : State) :
    (s.startRun c).cgc = { s.cgc with armed := s.cgc.armed ++ [⟨roundUp c.pitch s.pos.p, 0⟩] } := rfl
@[simp] theorem State.cursorTo_exu (b : Block) (s : State) :
    (s.cursorTo b).exu = { s.exu with cursor := some b.addr, phase := .finishing } := rfl
@[simp] theorem State.writeStatus_host (w : StatusWrite) (s : State) :
    (s.writeStatus w).host = s.host.writeStatus w := rfl

/-- The line origin is the least multiple of pitch that is P or more, as an unsigned number, mod 2^32 (R6). -/
theorem roundUp_spec (pitch : Nat) (p : Pos) (h : 0 < pitch) (hle : pitch ≤ 100) :
    ∃ k, p.toNat ≤ k * pitch ∧ k * pitch < p.toNat + pitch ∧ roundUp pitch p = BitVec.ofNat 32 (k * pitch) ∧
      (roundUp pitch p - p).toNat < pitch := by
  have hdiv := Nat.div_add_mod' (p.toNat + pitch - 1) pitch
  have hmod := Nat.mod_lt (p.toNat + pitch - 1) h
  have hp := p.isLt
  refine ⟨(p.toNat + pitch - 1) / pitch, by omega, by omega, rfl, ?_⟩
  unfold roundUp pu
  generalize (p.toNat + pitch - 1) / pitch * pitch = y at *
  rw [BitVec.toNat_sub, BitVec.toNat_ofNat]
  omega

/-- Settles O43: two refusals, and the accepted START block by block. -/
theorem startBeginsRun : Obligations.StartBeginsRun := by
  intro s b hp hl hb hx
  rw [exec_start_of_order s b hp hl hb hx]
  refine ⟨fun hi => ?_, fun hi hs => ?_, fun c hi hs hpos hle => ?_⟩
  · rw [takeStart_of_not_idle b (s.cursorTo b) hi]; rfl
  · rw [takeStart_of_no_setup b (s.cursorTo b) hi hs]; rfl
  · obtain ⟨k, hlow, hhigh, hk, hdist⟩ := roundUp_spec c.pitch s.pos.p hpos hle
    rw [takeStart_of_setup b (s.cursorTo b) c hi hs]
    refine ⟨_, k, rfl, rfl, hlow, hhigh, hk, hdist, ?_⟩
    simp [Position.start, Intake.start, RibbonMap.start, Planner.start, Block.done, statusDone]

end Sys2Proof.Machine
end

/-! # The resets (O6, O8) -/

section
namespace Sys2Proof.Machine

theorem exec_powerOnReset (s : State) : exec .powerOnReset s = .next (powerOnReset s) := rfl
theorem exec_pinReset (s : State) : exec .pinReset s = .next (pinReset s) := rfl
theorem exec_softResetWithKeep (s : State) : exec .softResetWithKeep s = s.taken (softResetWithKeep s) := rfl

/-! ## Reset values that lists hold (Tables 2-6, 8-7) -/

/-- Every channel is at its reset values where the channels are those of a reset. -/
@[simp] theorem Intake.chan_of_reset (i : Intake) (k : Nat) (h : i.chans = Intake.reset.chans) :
    i.chan k = Channel.reset := by
  simp only [Intake.chan, h, Intake.reset, List.getD_eq_getElem?_getD, List.getElem?_replicate]
  split <;> rfl

@[simp] theorem Intake.reset_la : Intake.reset.la = 0 := rfl
@[simp] theorem validMasks_reset : validMasks Intake.reset.mask = [] := rfl

@[simp] theorem Grader.reset_loaded (i : Nat) : Grader.reset.loaded i = false := by
  simp only [Grader.loaded, Grader.reset, List.getElem?_replicate]
  split <;> rfl

/-! ## The registers as they read (R178 to R180) -/

@[simp] theorem registerRead_exbl (s : State) : registerRead s 0x00 = s.exu.exbl := rfl
@[simp] theorem registerRead_exbh (s : State) : registerRead s 0x04 = s.exu.exbh := rfl
@[simp] theorem registerRead_excause (s : State) : registerRead s 0x10 = s.exu.causes.zeroExtend 32 := rfl
@[simp] theorem registerRead_expoll (s : State) : registerRead s 0x14 = s.exu.expoll := rfl

/-- In DETACHED, with IEN clear, EXCTL reads 0. -/
@[simp] theorem registerRead_exctl_of_detached (s : State) (h : s.sts.state = .detached) (hi : s.exu.ien = false) :
    registerRead s 0x08 = 0 := by
  simp [registerRead, State.attachBit, h, hi, bit]

/-- Settles O6: both resets leave `State.cleared` with their cause. -/
theorem powerOnAndPinReset : Obligations.PowerOnAndPinReset := by
  intro c cause s hc
  refine ⟨{ s.cleared cause s.exu.cleared with pinHeld := s.pinHeld || decide (c = .pinReset) }, ?_, ?_⟩
  · rcases hc with ⟨rfl, rfl⟩ | ⟨rfl, rfl⟩
    · simp [exec_powerOnReset, powerOnReset, State.cleared]
    · simp [exec_pinReset, pinReset]
  · simp [State.cleared, State.reset, Position.cleared, Position.reset, Channel.reset, Assembler.reset,
      ClassEntry.reset, RibbonMap.reset, OrderUnit.reset, Planner.reset, Cutter.cleared, Cutter.reset, TallyUnit.reset,
      Exchange.cleared, Exchange.reset]

/-! ## What a reset with KEEP brings to the tallies (R72, R115, R164) -/

/-- Flaws and rows lost together, for the tally that a tag names, or for the current tally. -/
structure Loss where
  owner : Option Word
  flaws : Nat
  rows : Nat

/-- A loss counted in one tally. -/
def Tally.charge (l : Loss) (t : Tally) : Tally :=
  { t with flawsLost := t.flawsLost + BitVec.ofNat 64 l.flaws, rowsLost := satAdd t.rowsLost l.rows }

/-- A loss counted in the tally that it is for. -/
def TallyUnit.charge (u : TallyUnit) (l : Loss) : TallyUnit :=
  match l.owner with
  | some tag => u.toTag tag (Tally.charge l)
  | none => u.toCurrent (Tally.charge l)

/-- The shift tag of the row that holds a position. -/
def tagAt (rows : List Row) (y : Pos) : Option Word := (rowAt rows y).map Row.shiftTag

/-- What a map and a row list lose to a reset, in the order in which STU takes it. -/
def lossesOf (m : RibbonMap) (rows : List Row) : List Loss :=
  m.flaws.map (fun w => ⟨tagAt rows w.yCenter, 1, 0⟩) ++
  m.unseen.map (fun i => ⟨tagAt rows i.yStart, i.folded, 0⟩) ++
  rows.map (fun r => ⟨some r.shiftTag, 0, 1⟩)

/-- The losses of a list that are for the owners a test picks, as one loss. -/
def shareOf (mine : Option Word → Bool) (ls : List Loss) : Loss where
  owner := none
  flaws := ((ls.filter (fun l => mine l.owner)).map Loss.flaws).sum
  rows := ((ls.filter (fun l => mine l.owner)).map Loss.rows).sum

@[simp] theorem satAdd_zero (c : Word) : satAdd c 0 = c := by
  have hc := c.isLt
  apply BitVec.eq_of_toNat_eq
  rw [satAdd, BitVec.toNat_ofNat]
  omega

theorem satAdd_satAdd (c : Word) (m n : Nat) : satAdd (satAdd c m) n = satAdd c (m + n) := by
  unfold satAdd
  congr 1
  rw [BitVec.toNat_ofNat]
  omega

theorem Tally.charge_none (t : Tally) (o : Option Word) : t.charge ⟨o, 0, 0⟩ = t := by
  simp [Tally.charge]

theorem Tally.charge_charge (t : Tally) (a b c : Loss) (hf : c.flaws = a.flaws + b.flaws)
    (hr : c.rows = a.rows + b.rows) :
    (t.charge a).charge b = t.charge c := by
  simp [Tally.charge, hf, hr, satAdd_satAdd, BitVec.ofNat_add, BitVec.add_assoc]

@[simp] theorem Tally.charge_shiftId (t : Tally) (l : Loss) : (t.charge l).shiftId = t.shiftId := rfl

theorem Tally.addLost_eq_charge (n : Nat) (o : Option Word) : Tally.addLost n = Tally.charge ⟨o, n, 0⟩ := by
  funext t; simp [Tally.addLost, Tally.charge, add64]

theorem Tally.addRowLost_eq_charge (o : Option Word) : Tally.addRowLost = Tally.charge ⟨o, 0, 1⟩ := by
  funext t; simp [Tally.addRowLost, Tally.charge]

theorem TallyUnit.loseAt_eq_charge (rows : List Row) (y : Pos) (n : Nat) (u : TallyUnit) :
    u.loseAt rows y n = u.charge ⟨tagAt rows y, n, 0⟩ := by
  unfold TallyUnit.loseAt TallyUnit.charge tagAt
  cases rowAt rows y <;> simp [← Tally.addLost_eq_charge]

theorem TallyUnit.toTag_eq_charge (tag : Word) (u : TallyUnit) :
    u.toTag tag Tally.addRowLost = u.charge ⟨some tag, 0, 1⟩ := by
  unfold TallyUnit.charge; rw [Tally.addRowLost_eq_charge]

/-- STU takes the losses of a reset one by one, then is interrupted when a closing tally is present (R164). -/
theorem TallyUnit.takeLosses_eq (m : RibbonMap) (rows : List Row) (u : TallyUnit) :
    u.takeLosses m rows = { (lossesOf m rows).foldl TallyUnit.charge u with
      interrupted := ((lossesOf m rows).foldl TallyUnit.charge u).closing.isSome } := by
  simp only [TallyUnit.takeLosses, lossesOf, List.foldl_append, List.foldl_map, TallyUnit.loseAt_eq_charge,
    TallyUnit.toTag_eq_charge]

/-! ### The sums that reach each tally -/

/-- A loss that is for the current tally. -/
def forCurrent (id : Word) (o : Option Word) : Bool := o = none ∨ o = some id

/-- A loss that is for a closing tally. -/
def forTag (id : Word) (o : Option Word) : Bool := o = some id

theorem forCurrent_some (id tag : Word) : forCurrent id (some tag) = decide (tag = id) := by simp [forCurrent]

theorem forTag_some (id tag : Word) : forTag id (some tag) = decide (tag = id) := by simp [forTag]

/-- Both tallies with their shares of some losses; a closing tally with the current tally's id takes none. -/
def TallyUnit.chargeAll (ls : List Loss) (u : TallyUnit) : TallyUnit :=
  { u with
    current := u.current.charge (shareOf (forCurrent u.current.shiftId) ls)
    closing := u.closing.map (fun t =>
      if t.shiftId = u.current.shiftId then t else t.charge (shareOf (forTag t.shiftId) ls)) }

@[simp] theorem shareOf_nil (mine : Option Word → Bool) : shareOf mine [] = ⟨none, 0, 0⟩ := rfl

theorem Tally.charge_shareOf_cons (t : Tally) (mine : Option Word → Bool) (l : Loss) (ls : List Loss) :
    t.charge (shareOf mine (l :: ls)) = (if mine l.owner then t.charge l else t).charge (shareOf mine ls) := by
  cases h : mine l.owner
  · simp [shareOf, h]
  · exact (Tally.charge_charge t l _ _ (by simp [shareOf, h]) (by simp [shareOf, h])).symm

/-- One loss, tally by tally. -/
theorem TallyUnit.charge_eq (u : TallyUnit) (l : Loss) : u.charge l =
    { u with
      current := if forCurrent u.current.shiftId l.owner then u.current.charge l else u.current
      closing := u.closing.map (fun t => if t.shiftId = u.current.shiftId then t
        else if forTag t.shiftId l.owner then t.charge l else t) } := by
  cases u with | mk now closing interrupted =>
  unfold TallyUnit.charge
  cases l.owner with
  | none => cases closing <;> simp [TallyUnit.toCurrent, forCurrent, forTag]
  | some tag =>
    by_cases hnow : now.shiftId = tag
    · subst hnow
      cases closing with
      | none => simp [TallyUnit.toTag, forCurrent]
      | some t =>
        by_cases ht : t.shiftId = now.shiftId
        · simp [TallyUnit.toTag, forCurrent, ht]
        · simp [TallyUnit.toTag, forCurrent, forTag, ht, Ne.symm ht]
    · cases closing with
      | none => simp [TallyUnit.toTag, forCurrent, hnow, Ne.symm hnow]
      | some t =>
        by_cases ht : t.shiftId = tag
        · subst ht; simp [TallyUnit.toTag, forCurrent, forTag, hnow, Ne.symm hnow]
        · simp [TallyUnit.toTag, forCurrent, forTag, hnow, Ne.symm hnow, ht, Ne.symm ht]

@[simp] theorem TallyUnit.charge_current_shiftId (u : TallyUnit) (l : Loss) :
    (u.charge l).current.shiftId = u.current.shiftId := by
  rw [u.charge_eq]; dsimp only; split <;> rfl

@[simp] theorem TallyUnit.charge_closing_shiftId (u : TallyUnit) (l : Loss) :
    (u.charge l).closing.map Tally.shiftId = u.closing.map Tally.shiftId := by
  rw [u.charge_eq, Option.map_map]
  refine Option.map_congr (fun t _ => ?_)
  dsimp only [Function.comp]
  split
  · rfl
  · split <;> rfl

/-- One loss, and then the shares of the others. -/
theorem TallyUnit.chargeAll_cons (l : Loss) (ls : List Loss) (u : TallyUnit) :
    u.chargeAll (l :: ls) = (u.charge l).chargeAll ls := by
  unfold TallyUnit.chargeAll
  rw [TallyUnit.charge_current_shiftId, u.charge_eq, Tally.charge_shareOf_cons]
  simp only [Option.map_map, TallyUnit.mk.injEq, true_and, and_true]
  refine Option.map_congr (fun t _ => ?_)
  by_cases ht : t.shiftId = u.current.shiftId
  · simp [ht]
  · cases h : forTag t.shiftId l.owner <;> simp [ht, h, Tally.charge_shareOf_cons]

theorem TallyUnit.foldl_charge (ls : List Loss) (u : TallyUnit) : ls.foldl TallyUnit.charge u = u.chargeAll ls := by
  induction ls generalizing u with
  | nil => cases u with | mk c cl i => simp [TallyUnit.chargeAll, Tally.charge_none]
  | cons l ls ih => rw [List.foldl_cons, ih, TallyUnit.chargeAll_cons]

/-! ### Every loss is counted once -/

/-- An owner whose losses one of the tallies takes: no row, or a tag that names a tally. -/
def TallyUnit.takes (u : TallyUnit) (o : Option Word) : Prop :=
  ∀ tag, o = some tag → tag = u.current.shiftId ∨ u.closing.map Tally.shiftId = some tag

theorem TallyUnit.takes_charge (u : TallyUnit) (l : Loss) (o : Option Word) : (u.charge l).takes o ↔ u.takes o := by
  simp [TallyUnit.takes]

/-- A loss that a tally takes adds its flaws to those that the tallies hold as lost (R164). -/
theorem TallyUnit.lost_charge (u : TallyUnit) (l : Loss) (h : u.takes l.owner) :
    (u.charge l).lost = u.lost + BitVec.ofNat 64 l.flaws := by
  cases ho : l.owner with
  | none => simp [TallyUnit.charge, ho, TallyUnit.toCurrent, TallyUnit.lost, Tally.charge]; ac_rfl
  | some tag =>
    have hcharge : u.charge l = u.toTag tag (Tally.charge l) := by simp [TallyUnit.charge, ho]
    rcases u.toTag_cases tag (Tally.charge l) with ⟨_, e⟩ | ⟨_, t, ht, _, e⟩ | ⟨hnow, hclosing, _⟩
    · simp [hcharge, e, TallyUnit.lost, Tally.charge]; ac_rfl
    · simp [hcharge, e, ht, TallyUnit.lost, Tally.charge]; ac_rfl
    · rcases h tag ho with hc | hc
      · exact absurd hc.symm hnow
      · obtain ⟨t, ht, hid⟩ := Option.map_eq_some_iff.1 hc
        exact absurd hid (hclosing t ht)

theorem TallyUnit.lost_foldl_charge (ls : List Loss) (u : TallyUnit) (h : ∀ l ∈ ls, u.takes l.owner) :
    (ls.foldl TallyUnit.charge u).lost = u.lost + BitVec.ofNat 64 (ls.map Loss.flaws).sum := by
  induction ls generalizing u with
  | nil => simp
  | cons l ls ih =>
    rw [List.foldl_cons, ih _ (fun k hk => (u.takes_charge l _).2 (h k (List.mem_cons_of_mem _ hk))),
      u.lost_charge l (h l List.mem_cons_self), List.map_cons, List.sum_cons, BitVec.ofNat_add, BitVec.add_assoc]

/-- The flaws lost of a map, in all. -/
theorem lossesOf_flaws_sum (m : RibbonMap) (rows : List Row) :
    ((lossesOf m rows).map Loss.flaws).sum = m.flaws.length + (m.unseen.map Interval.folded).sum := by
  simp [lossesOf, Function.comp_def]

/-- Where every row's tag names a tally, a tally takes every loss. -/
theorem takes_of_mem_lossesOf (u : TallyUnit) (m : RibbonMap) (rows : List Row)
    (h : ∀ r ∈ rows, r.shiftTag = u.current.shiftId ∨ ∃ t, u.closing = some t ∧ r.shiftTag = t.shiftId) :
    ∀ l ∈ lossesOf m rows, u.takes l.owner := by
  have hrow : ∀ r ∈ rows, u.takes (some r.shiftTag) := by
    rintro r hr tag heq
    obtain rfl : r.shiftTag = tag := by simpa using heq
    refine (h r hr).imp_right ?_
    rintro ⟨t, ht, hid⟩
    simp [ht, hid]
  have htag : ∀ y, u.takes (tagAt rows y) := by
    intro y
    unfold tagAt
    cases hr : rowAt rows y with
    | none => exact fun tag heq => by simp at heq
    | some r => exact hrow r (List.mem_of_find?_eq_some hr)
  intro l hl
  simp only [lossesOf, List.mem_append, List.mem_map] at hl
  rcases hl with (⟨w, _, rfl⟩ | ⟨i, _, rfl⟩) | ⟨r, hr, rfl⟩
  · exact htag _
  · exact htag _
  · exact hrow r hr

/-- The share of a map's and a row list's losses, spelled out. -/
theorem shareOf_lossesOf (mine : Option Word → Bool) (m : RibbonMap) (rows : List Row) :
    shareOf mine (lossesOf m rows) = ⟨none,
      (m.flaws.filter (fun w => mine (tagAt rows w.yCenter))).length +
        ((m.unseen.filter (fun i => mine (tagAt rows i.yStart))).map Interval.folded).sum,
      (rows.filter (fun r => mine (some r.shiftTag))).length⟩ := by
  simp [shareOf, lossesOf, List.filter_map, Function.comp_def]

/-! ### STU after a reset with KEEP -/

theorem TallyUnit.takeLosses_current (m : RibbonMap) (rows : List Row) (u : TallyUnit) :
    (u.takeLosses m rows).current =
      u.current.charge (shareOf (forCurrent u.current.shiftId) (lossesOf m rows)) := by
  rw [TallyUnit.takeLosses_eq, TallyUnit.foldl_charge]; rfl

theorem TallyUnit.takeLosses_closing (m : RibbonMap) (rows : List Row) (u : TallyUnit) :
    (u.takeLosses m rows).closing = u.closing.map (fun t => if t.shiftId = u.current.shiftId then t
      else t.charge (shareOf (forTag t.shiftId) (lossesOf m rows))) := by
  rw [TallyUnit.takeLosses_eq, TallyUnit.foldl_charge]; rfl

theorem TallyUnit.takeLosses_interrupted (m : RibbonMap) (rows : List Row) (u : TallyUnit) :
    (u.takeLosses m rows).interrupted = u.closing.isSome := by
  rw [TallyUnit.takeLosses_eq, TallyUnit.foldl_charge]; exact Option.isSome_map

theorem TallyUnit.takeLosses_lost (m : RibbonMap) (rows : List Row) (u : TallyUnit)
    (h : ∀ r ∈ rows, r.shiftTag = u.current.shiftId ∨ ∃ t, u.closing = some t ∧ r.shiftTag = t.shiftId) :
    (u.takeLosses m rows).lost =
      u.lost + BitVec.ofNat 64 (m.flaws.length + (m.unseen.map Interval.folded).sum) := by
  rw [← lossesOf_flaws_sum m rows, ← u.lost_foldl_charge _ (takes_of_mem_lossesOf u m rows h),
    TallyUnit.takeLosses_eq]
  rfl

/-- A tally with its share, as the rows and flaws that are its own count: its own rows are those that name it. -/
theorem Tally.charge_shareOf_lossesOf (t : Tally) (mine : Option Word → Bool) (m : RibbonMap) (rows : List Row)
    (h : ∀ tag, mine (some tag) = decide (tag = t.shiftId)) :
    t.charge (shareOf mine (lossesOf m rows)) = { t with
      flawsLost := t.flawsLost + BitVec.ofNat 64
        ((m.flaws.filter (fun w => mine (tagAt rows w.yCenter))).length +
          ((m.unseen.filter (fun i => mine (tagAt rows i.yStart))).map Interval.folded).sum)
      rowsLost := satAdd t.rowsLost (rows.filter (fun r => r.shiftTag = t.shiftId)).length } := by
  simp only [shareOf_lossesOf, Tally.charge, h]

/-- Settles O8: what the other units keep or clear, and each tally with its share of the losses. -/
theorem keepResetKeepsTables : Obligations.KeepResetKeepsTables := by
  intro s hp now rowTag flawsOf rowsOf
  have hcurrent : (s.stu.takeLosses s.rbm s.rpl.rows).current = { now with
      flawsLost := now.flawsLost + BitVec.ofNat 64 (flawsOf (fun o => o = none ∨ o = some now.shiftId))
      rowsLost := satAdd now.rowsLost (rowsOf now.shiftId) } := by
    rw [TallyUnit.takeLosses_current, Tally.charge_shareOf_lossesOf _ _ _ _ (forCurrent_some _)]; rfl
  have hclosing := s.stu.takeLosses_closing s.rbm s.rpl.rows
  simp only [Tally.charge_shareOf_lossesOf _ _ _ _ (forTag_some _)] at hclosing
  have hsame : ∀ u, s.stu.closing = some u → u.shiftId = now.shiftId →
      (s.stu.takeLosses s.rbm s.rpl.rows).closing = some u := by
    intro u hu hid
    rw [hclosing, hu]; exact congrArg some (if_pos hid)
  have hother : ∀ u, s.stu.closing = some u → u.shiftId ≠ now.shiftId →
      (s.stu.takeLosses s.rbm s.rpl.rows).closing = some { u with
        flawsLost := u.flawsLost + BitVec.ofNat 64 (flawsOf (fun o => o = some u.shiftId))
        rowsLost := satAdd u.rowsLost (rowsOf u.shiftId) } := by
    intro u hu hid
    rw [hclosing, hu]; exact congrArg some (if_neg hid)
  have hnone : s.stu.closing = none → (s.stu.takeLosses s.rbm s.rpl.rows).closing = none := by
    intro h; rw [hclosing, h]; rfl
  refine ⟨softResetWithKeep s, by rw [exec_softResetWithKeep, State.taken_free _ _ hp], ?_⟩
  simpa [softResetWithKeep, State.cleared, State.reset, Position.kept, Position.cleared, Position.reset, Channel.reset,
    Assembler.reset, RibbonMap.reset, OrderUnit.reset, Planner.reset, Cutter.cleared, Cutter.reset,
    Exchange.softCleared, Exchange.cleared, Exchange.reset, TallyUnit.takeLosses_interrupted] using
    (⟨hcurrent, hnone, hsame, hother, s.stu.takeLosses_lost s.rbm s.rpl.rows⟩ : _ ∧ _ ∧ _ ∧ _ ∧ _)

end Sys2Proof.Machine
end

/-! # Invariants of every step: an idle part is empty, the rows join, the lists keep their sizes (O57, O58) -/

section
-- One declaration after the other: a thread for each exceeds the memory that the check allows.
set_option Elab.async false
namespace Sys2Proof.Machine

/-! ## What an event may do to the invariants -/

/-- An event keeps the four invariants; the rows of a part at rest are what START relies on, so that the rows are sound
after it where the part was at rest before it. -/
structure State.Keeps (s t : State) : Prop where
  rest : s.atRest → t.atRest
  rows : s.atRest → s.rowsSound → t.rowsSound
  feed : s.feedBounds → t.feedBounds
  plan : s.planBounds → t.planBounds

theorem State.Keeps.refl (s : State) : s.Keeps s := ⟨id, fun _ => id, id, id⟩

theorem State.Keeps.trans {s t u : State} (h : s.Keeps t) (k : t.Keeps u) : s.Keeps u where
  rest := k.rest ∘ h.rest
  rows := fun hrest hrows => k.rows (h.rest hrest) (h.rows hrest hrows)
  feed := k.feed ∘ h.feed
  plan := k.plan ∘ h.plan

/-- DETACHED and IDLE: no run is on. -/
def State.calm (s : State) : Prop := s.sts.state = .detached ∨ s.sts.state = .idle

/-- An event that leaves the lists of the invariants as they are, or within their sizes, and takes no block in hand
without room in the order table. -/
structure State.Quiet (s t : State) : Prop where
  calm : t.calm → s.calm := by simp [State.calm]
  chans : t.sli.chans = s.sli.chans := by simp
  mask : t.sli.mask.length = s.sli.mask.length := by simp
  blobs : t.fas.blobs = s.fas.blobs := by simp
  dense : t.fas.dense = s.fas.dense := by simp
  flaws : t.rbm.flaws = s.rbm.flaws := by simp
  unseen : t.rbm.unseen = s.rbm.unseen := by simp
  table : t.oru.table = s.oru.table := by simp
  rows : t.rpl.rows = s.rpl.rows := by simp
  frontier : t.rpl.frontier = s.rpl.frontier := by simp
  outstanding : t.cgc.outstanding.length ≤ max s.cgc.outstanding.length 8 := by simp
  ports : t.cgc.ports.length = s.cgc.ports.length := by simp
  gateStrobes : t.cgc.gateStrobes.length = s.cgc.gateStrobes.length := by simp
  specs : t.grd.specs.length = s.grd.specs.length := by simp
  phase : ∀ b, t.exu.phase = .order b → s.exu.phase = .order b ∨ s.oru.table.length < 16 := by simp +contextual
  staging : stagedBytes s.exu.staging ≤ 16384 → stagedBytes t.exu.staging ≤ 16384 := by simp
  expoll : t.exu.expoll = s.exu.expoll ∨ (50 ≤ t.exu.expoll.toNat ∧ t.exu.expoll.toNat ≤ 10000) := by simp

theorem State.Quiet.keeps {s t : State} (h : s.Quiet t) : s.Keeps t where
  rest := by
    intro hrest hcalm
    have := hrest (h.calm hcalm)
    rwa [h.rows, h.blobs, h.dense, h.flaws, h.unseen, h.chans]
  rows := by
    intro _ hrows
    unfold State.rowsSound
    rwa [h.frontier, h.rows, h.table]
  feed := by
    intro hfeed
    unfold State.feedBounds
    rwa [h.chans, h.mask, h.blobs, h.flaws, h.unseen]
  plan := by
    rintro ⟨htable, hphase, hrows, hout, hports, hgates, hspecs, hstaging, hpoll⟩
    refine ⟨by rwa [h.table], fun b hb => ?_, by rwa [h.rows], ?_, by rwa [h.ports], by rwa [h.gateStrobes],
      by rwa [h.specs], h.staging hstaging, ?_⟩
    · rw [h.table]; exact (h.phase b hb).elim (hphase b) id
    · exact h.outstanding.trans (max_le hout le_rfl)
    · rcases h.expoll with he | he
      · rwa [he]
      · exact he

theorem State.report_quiet (rs : List Report) (s : State) : s.Quiet (s.report rs) where
  staging := State.report_bounded rs s

theorem State.writeStatuses_quiet (ws : List StatusWrite) (s : State) : s.Quiet (s.writeStatuses ws) where

theorem State.cursorTo_quiet (b : Block) (s : State) : s.Quiet (s.cursorTo b) where

theorem State.Keeps.report {s t : State} (h : s.Keeps t) (rs : List Report) : s.Keeps (t.report rs) :=
  h.trans (t.report_quiet rs).keeps

theorem State.Keeps.issue {s : State} {e : State × List StatusWrite} (h : s.Keeps e.1) : s.Keeps (State.issue e) :=
  h.trans (e.1.writeStatuses_quiet e.2).keeps

/-! ## Events that leave the lists as they are -/

theorem State.Quiet.refl (s : State) : s.Quiet s where

theorem State.Quiet.trans {s t u : State} (h : s.Quiet t) (k : t.Quiet u) : s.Quiet u where
  calm := h.calm ∘ k.calm
  chans := k.chans.trans h.chans
  mask := k.mask.trans h.mask
  blobs := k.blobs.trans h.blobs
  dense := k.dense.trans h.dense
  flaws := k.flaws.trans h.flaws
  unseen := k.unseen.trans h.unseen
  table := k.table.trans h.table
  rows := k.rows.trans h.rows
  frontier := k.frontier.trans h.frontier
  outstanding := k.outstanding.trans (max_le h.outstanding (le_max_right _ _))
  ports := k.ports.trans h.ports
  gateStrobes := k.gateStrobes.trans h.gateStrobes
  specs := k.specs.trans h.specs
  phase := fun b hb => (k.phase b hb).elim (h.phase b) fun room => .inr (h.table ▸ room)
  staging := k.staging ∘ h.staging
  expoll := k.expoll.elim (fun e => e ▸ h.expoll) .inr

theorem State.Quiet.report {s t : State} (h : s.Quiet t) (rs : List Report) : s.Quiet (t.report rs) :=
  h.trans (t.report_quiet rs)

theorem forwardCount_quiet (s : State) : s.Quiet (forwardCount s) := by
  cases hs : s.setup with
  | none => rw [forwardCount_of_none s hs]; exact .refl s
  | some c => rw [forwardCount_of_some s c hs]; exact {}

theorem reverseCount_quiet (s : State) : s.Quiet (reverseCount s) := by
  unfold reverseCount
  split
  · exact .refl s
  · split
    · exact {}
    · split
      · exact State.Quiet.report {} _
      · exact .refl s

theorem lineTrigger_quiet (s : State) : s.Quiet (lineTrigger s) := by
  unfold lineTrigger
  split
  · exact .refl s
  · split
    · exact {}
    · exact .refl s

theorem overspeedTest_quiet (s : State) : s.Quiet (overspeedTest s) := by
  cases hs : s.setup with
  | none => unfold overspeedTest; rw [hs]; exact .refl s
  | some c => rw [overspeedTest_of_some s c hs]; exact State.Quiet.report {} _

theorem speedWindowEnd_quiet (s : State) : s.Quiet (speedWindowEnd s) := by
  unfold speedWindowEnd
  split
  · have hend : s.Quiet { s with pos := s.pos.endWindow } := {}
    rw [handSpeed_eq]
    exact (hend.trans (overspeedTest_quiet _)).trans {}
  · exact .refl s

theorem State.tick_quiet (s : State) : s.Quiet s.tick := by
  unfold State.tick
  split
  · exact .refl s
  · exact {}

theorem State.ienWritten_quiet (v : Bool) (s : State) : s.Quiet (s.ienWritten v) where
  phase := fun _ hb => .inl hb
  staging := id
  expoll := .inl rfl

theorem State.hostWrites_quiet (ws : List HostWrite) (s : State) : s.Quiet (s.hostWrites ws) where

theorem excause_quiet (v : Word) (s : State) : s.Quiet (excause v s) := by
  unfold excause; exact {}

/-- The clamp of EXPOLL (R179). -/
theorem expoll_quiet (v : Word) (s : State) : s.Quiet (expoll v s) := by
  have hclamp : (BitVec.ofNat 32 (max 50 (min 10000 v.toNat))).toNat = max 50 (min 10000 v.toNat) := by
    rw [BitVec.toNat_ofNat]; omega
  unfold expoll
  exact { expoll := .inr (by simp only [hclamp]; omega) }

theorem exbl_quiet (v : Word) (s : State) : s.Quiet (exbl v s) := by
  unfold exbl; split
  · exact {}
  · exact .refl s

theorem exbh_quiet (v : Word) (s : State) : s.Quiet (exbh v s) := by
  unfold exbh; split
  · exact {}
  · exact .refl s

/-! Pages, attach and detach. -/

/-- The close of a page clears the page being filled and keeps staging, the poll and EXPOLL. -/
theorem State.closePage_quiet (s : State) : s.Quiet s.closePage where
  phase := by unfold State.closePage; split <;> simp +contextual
  staging := by unfold State.closePage; split <;> simp
  expoll := by unfold State.closePage; split <;> simp

theorem State.doDetach_quiet (s : State) (h : s.calm) : s.Quiet s.doDetach where
  calm := fun _ => h
  phase := fun b hb => s.closePage_quiet.phase b hb
  staging := s.closePage_quiet.staging
  expoll := s.closePage_quiet.expoll

theorem State.detachWritten_quiet (s : State) : s.Quiet s.detachWritten := by
  unfold State.detachWritten
  split
  · rename_i hidle
    split
    · exact {}
    · exact s.doDetach_quiet (.inr hidle)
  · exact {}
  · exact {}
  · exact .refl s
  · exact .refl s

theorem deferredDetach_quiet (s : State) : s.Quiet (deferredDetach s) := by
  unfold deferredDetach
  split
  · split
    · rename_i hidle; exact s.doDetach_quiet (.inr hidle)
    · exact {}
    · exact {}
    · exact .refl s
    · exact .refl s
  · exact .refl s

theorem State.reportInterrupted_quiet (s : State) : s.Quiet s.reportInterrupted := by
  unfold State.reportInterrupted
  split
  · split
    · exact State.Quiet.report {} _
    · exact .refl s
  · exact .refl s

theorem State.writeMirror_quiet (s : State) : s.Quiet s.writeMirror where

theorem State.failAttach_quiet (e : AttachError) (s : State) : s.Quiet (s.failAttach e) := by
  unfold State.failAttach; exact {}

/-- What an attach reads of the header. -/
theorem State.attached_quiet (s : State) : s.Quiet { s with exu := s.exu.attached s.host } := by
  unfold Exchange.attached; exact {}

/-- A part that is DETACHED becomes IDLE. -/
theorem State.attached_idle_quiet (s : State) (h : s.sts.state = .detached) (m : Memory) : s.Quiet { s with
    sts := { s.sts with state := .idle, attachError := .none }
    exu := { s.exu with pollTimer := s.pos.us }
    host := m } :=
  { calm := fun _ => .inl h }

theorem State.attach_quiet (err : AccessError) (s : State) (h : s.sts.state = .detached) :
    s.Quiet (s.attach err) := by
  have hbase : s.Quiet { s with exu := { s.exu with base := s.exu.exbh ++ s.exu.exbl } } := {}
  unfold State.attach
  dsimp only
  split
  · exact hbase.trans (State.failAttach_quiet _ _)
  · split
    · exact hbase.trans (State.failAttach_quiet _ _)
    · have hread := hbase.trans (State.attached_quiet _)
      split
      · exact hread.trans (State.failAttach_quiet _ _)
      · exact ((hread.trans (State.attached_idle_quiet _ (by exact h) _)).trans (State.writeMirror_quiet _)).trans
          (State.reportInterrupted_quiet _)

theorem State.attachWritten_quiet (err : AccessError) (s : State) : s.Quiet (s.attachWritten err) := by
  unfold State.attachWritten
  split
  · rename_i h; exact s.attach_quiet err h
  · exact {}

/-! Records and polls. -/

/-- The record written leaves staging; the loss that waits is tried again (R190). -/
theorem State.recordWritten_quiet (p : FillingPage) (r : Staged) (rest : List Staged) (s : State)
    (h : s.exu.staging = r :: rest) : s.Quiet (s.recordWritten p r rest) where
  phase := by simp +contextual [State.recordWritten]
  staging := by
    intro hs
    refine Exchange.tryLoss_bounded _ _ (le_trans ?_ hs)
    simp only [h, stagedBytes]; omega
  expoll := by simp [State.recordWritten]

theorem State.writeRecord_quiet (p : FillingPage) (r : Staged) (rest : List Staged) (s : State)
    (h : s.exu.staging = r :: rest) : s.Quiet (s.writeRecord p r rest) := by
  unfold State.writeRecord
  split
  · have hwritten : s.Quiet (State.recordWritten p r rest { s with host := s.host.writeBytes p.next r.bytes }) :=
      State.Quiet.trans (t := { s with host := s.host.writeBytes p.next r.bytes }) {}
        (State.recordWritten_quiet p r rest _ h)
    dsimp only
    split
    · exact hwritten.trans (State.closePage_quiet _)
    · exact hwritten
  · exact s.closePage_quiet

theorem pageRecordWrite_quiet (s : State) : s.Quiet (pageRecordWrite s) := by
  unfold pageRecordWrite
  split
  · rename_i p r rest _ h
    split
    · exact s.writeRecord_quiet p r rest h
    · exact .refl s
  · exact .refl s

theorem pageFlush_quiet (s : State) : s.Quiet (pageFlush s) := by
  unfold pageFlush
  split
  · exact s.closePage_quiet
  · exact .refl s

/-- FAULT is no part state at rest. -/
theorem State.enterFault_quiet (k : FaultCause) (s : State) : s.Quiet (s.enterFault k) := by
  unfold State.enterFault
  split
  · exact { calm := by simp [State.calm] }
  · exact .refl s

theorem State.pageStep_quiet (s : State) : s.Quiet s.pageStep := by
  unfold State.pageStep
  split
  · exact {}
  · exact .refl s

theorem State.finishPoll_quiet (s : State) : s.Quiet s.finishPoll := by
  unfold State.finishPoll
  exact (s.pageStep_quiet.trans (State.writeMirror_quiet _)).trans { }

theorem State.chainStep_quiet (s : State) : s.Quiet s.chainStep := by
  unfold State.chainStep
  split
  · rename_i h
    have room : s.oru.table.length < 16 := of_decide_eq_true (Bool.and_eq_true_iff.1 h).1
    split
    · exact { phase := fun _ _ => .inr room }
    · rename_i w _
      have hcursor : s.Quiet { s with exu := { s.exu with cursor := some (aligned8 s.nextLink) } } := {}
      exact (hcursor.trans (State.writeStatuses_quiet [w] _)).trans (State.finishPoll_quiet _)
  · exact s.finishPoll_quiet

theorem State.beginPoll_quiet (s : State) : s.Quiet s.beginPoll := by
  have htimer : s.Quiet { s with exu := { s.exu with pollTimer := s.pos.us } } := {}
  unfold State.beginPoll
  dsimp only
  split
  · exact htimer.trans (State.enterFault_quiet _ _)
  · exact htimer.trans (State.chainStep_quiet _)

theorem poll_quiet (s : State) : s.Quiet (poll s) := by
  unfold poll
  split
  · split
    · split
      · exact s.beginPoll_quiet
      · exact .refl s
    · exact .refl s
    · exact s.finishPoll_quiet
  · exact .refl s

/-! ## The intake: channels whose queues do not grow -/

/-- Channel by channel, the queues of one list are no longer than those of another. -/
def queuesShrink (cs ds : List Channel) : Prop :=
  ds.length = cs.length ∧ ∀ d ∈ ds, ∃ c ∈ cs, d.queue.length ≤ c.queue.length

theorem queuesShrink.refl (cs : List Channel) : queuesShrink cs cs := ⟨rfl, fun d hd => ⟨d, hd, le_rfl⟩⟩

theorem queuesShrink.trans {cs ds es : List Channel} (h : queuesShrink cs ds) (k : queuesShrink ds es) :
    queuesShrink cs es := by
  refine ⟨k.1.trans h.1, fun e he => ?_⟩
  obtain ⟨d, hd, hde⟩ := k.2 e he
  obtain ⟨c, hc, hcd⟩ := h.2 d hd
  exact ⟨c, hc, hde.trans hcd⟩

/-- A change of each channel by its place that lengthens no queue. -/
theorem queuesShrink_of_getElem? {cs ds : List Channel} (g : Nat → Channel → Channel) (hlen : ds.length = cs.length)
    (h : ∀ i, ds[i]? = cs[i]?.map (g i)) (hg : ∀ i c, (g i c).queue.length ≤ c.queue.length) :
    queuesShrink cs ds := by
  refine ⟨hlen, fun d hd => ?_⟩
  obtain ⟨i, hi⟩ := List.mem_iff_getElem?.1 hd
  rw [h i, Option.map_eq_some_iff] at hi
  obtain ⟨c, hc, rfl⟩ := hi
  exact ⟨c, List.mem_of_getElem? hc, hg i c⟩

theorem Channel.toOff_queue (c : Channel) : c.toOff.queue = [] := rfl

theorem turnOffFrom_shrinks (names : Nat → Bool) (line : Line) (cs : List Channel) :
    queuesShrink cs (turnOffFrom names line 0 cs).1 :=
  queuesShrink_of_getElem? _ (turnOffFrom_length names line 0 cs) (turnOffFrom_getElem? names line 0 cs)
    (fun i c => by split <;> simp [Channel.toOff_queue])

theorem turnOffSets_shrinks (line : Line) (ds : List (BitVec 16)) (cs : List Channel) :
    queuesShrink cs (turnOffSets line cs ds).1 :=
  queuesShrink_of_getElem? _ (turnOffSets_length line ds cs) (turnOffSets_getElem? line ds cs)
    (fun i c => by split <;> simp [Channel.toOff_queue])

theorem judgeFrom_shrinks (la : Line) (cs : List Channel) (gs : List Geometry) :
    queuesShrink cs ((judgeFrom la 0 cs gs).map Judgment.chan) :=
  queuesShrink_of_getElem? (fun i c => (c.judge (0 + i) (geomAt gs i).n la).chan) (by simp)
    (fun i => by simp [judgeFrom_getElem?, Option.map_map, Function.comp_def])
    (fun i c => c.judge_queue (0 + i) (geomAt gs i).n la)

theorem settleFrom_shrinks (n : Nat) (la : Line) (cs : List Channel) :
    queuesShrink cs (settleFrom n la 0 cs).1 :=
  queuesShrink_of_getElem? _ (settleFrom_length n la 0 cs) (settleFrom_getElem? n la 0 cs)
    (fun i c => by unfold Channel.settleLine; split <;> [split; skip] <;> rfl)

theorem discardStaleFrom_shrinks (la : Line) (cs : List Channel) :
    queuesShrink cs (discardStaleFrom la 0 cs).1 :=
  queuesShrink_of_getElem? _ (discardStaleFrom_length la 0 cs) (discardStaleFrom_getElem? la 0 cs)
    (fun i c => c.discardStale_queue (0 + i) la)

theorem Channel.enable_queue (n k : Nat) (lost : Bool) (la : Line) (c : Channel) :
    (c.enable n k lost la).1.queue.length ≤ c.queue.length := by
  unfold Channel.enable
  split
  · rfl
  · split
    · split
      · rfl
      · simp [Channel.toFaulted]
    · rfl

/-- The enables of a set, channel by channel. -/
theorem enableFrom_getElem? (n : Nat) (set lost : BitVec 16) (la : Line) : ∀ (k : Nat) (cs : List Channel) (i : Nat),
    (enableFrom n set lost la k cs).1[i]? =
      cs[i]?.map (fun c => if set.getLsbD (k + i) = true then (c.enable n (k + i) (lost.getLsbD (k + i)) la).1 else c)
  | _, [], _ => by simp [enableFrom]
  | k, c :: cs, i => by
    have hcons : (enableFrom n set lost la k (c :: cs)).1 =
        (if set.getLsbD k = true then (c.enable n k (lost.getLsbD k) la).1 else c) ::
          (enableFrom n set lost la (k + 1) cs).1 := by
      by_cases h : set.getLsbD k = true <;> simp [enableFrom, inSet, h]
    rw [hcons]
    cases i with
    | zero => simp
    | succ i =>
      have e : k + 1 + i = k + (i + 1) := by omega
      simp [enableFrom_getElem? n set lost la (k + 1) cs i, e]

@[simp] theorem enableFrom_length (n : Nat) (set lost : BitVec 16) (la : Line) : ∀ (k : Nat) (cs : List Channel),
    (enableFrom n set lost la k cs).1.length = cs.length
  | _, [] => rfl
  | k, c :: cs => by
    simp only [enableFrom]
    split <;> simp [enableFrom_length n set lost la (k + 1) cs]

theorem enableFrom_shrinks (n : Nat) (set lost : BitVec 16) (la : Line) (cs : List Channel) :
    queuesShrink cs (enableFrom n set lost la 0 cs).1 :=
  queuesShrink_of_getElem? _ (enableFrom_length n set lost la 0 cs) (enableFrom_getElem? n set lost la 0 cs)
    (fun i c => by split <;> [exact c.enable_queue _ _ _ _; rfl])

/-- Changing channels without lengthening a queue keeps the invariants. -/
theorem State.shrink_keeps (s : State) (i : Intake)
    (hmask : i.mask.length = s.sli.mask.length ∨ i.mask.length = 32)
    (h : queuesShrink s.sli.chans i.chans) : s.Keeps { s with sli := i } where
  rest := by
    intro hrest hcalm
    obtain ⟨hrows, hblobs, hdense, hflaws, hunseen, hqueues⟩ := hrest hcalm
    refine ⟨hrows, hblobs, hdense, hflaws, hunseen, fun d hd => ?_⟩
    obtain ⟨c, hc, hle⟩ := h.2 d hd
    rw [hqueues c hc] at hle
    exact List.eq_nil_of_length_eq_zero (Nat.le_zero.1 hle)
  rows := fun _ hrows => hrows
  feed := by
    rintro ⟨hlen, hqueues, hm, hlists⟩
    refine ⟨h.1.trans hlen, fun d hd => ?_, hmask.elim (·.trans hm) id, hlists⟩
    obtain ⟨c, hc, hle⟩ := h.2 d hd
    exact hle.trans (hqueues c hc)
  plan := id

theorem State.chans_keeps (s : State) (cs : List Channel) (h : queuesShrink s.sli.chans cs) :
    s.Keeps { s with sli := { s.sli with chans := cs } } := s.shrink_keeps _ (.inl rfl) h

/-- Setting one channel to one with a shorter queue. -/
theorem queuesShrink_setChan (i : Intake) (k : Nat) (c : Channel) (h : c.queue = []) :
    queuesShrink i.chans (i.setChan k c).chans := by
  refine ⟨by simp, fun d hd => ?_⟩
  obtain ⟨j, hj⟩ := List.mem_iff_getElem?.1 hd
  simp only [Intake.setChan, List.getElem?_set] at hj
  split at hj
  · split at hj
    · rename_i hlt
      obtain rfl : c = d := by simpa using hj
      subst k
      exact ⟨_, List.getElem_mem hlt, by simp [h]⟩
    · cases hj
  · exact ⟨d, List.mem_of_getElem? hj, le_rfl⟩

theorem channelFault_keeps (k : Nat) (why : ChanFault) (s : State) : s.Keeps (channelFault k why s) := by
  unfold channelFault
  dsimp only
  split
  · exact (s.shrink_keeps _ (.inl (by simp)) (queuesShrink_setChan s.sli k _ rfl)).report _
  · exact .refl s

theorem headStatus_keeps (k : Nat) (code : Byte) (s : State) : s.Keeps (headStatus k code s) := by
  unfold headStatus
  split
  · exact .refl s
  · exact channelFault_keeps k _ s

theorem State.not_calm_of_run (s : State) (h : s.sts.state.run = true) : ¬s.calm := by
  rintro (hc | hc) <;> simp [hc, PartState.run] at h

/-- In a run a channel takes a word without passing 512 words. -/
theorem queueWord_keeps (k : Nat) (w : ScanWord) (s : State) : s.Keeps (queueWord k w s) := by
  unfold queueWord
  dsimp only
  split
  · rename_i hrun
    have hnot : ¬s.calm := s.not_calm_of_run (Bool.and_eq_true_iff.1 hrun).1
    refine State.Keeps.report ?_ _
    refine ⟨fun _ hcalm => absurd hcalm hnot, fun _ hrows => hrows, ?_, id⟩
    rintro ⟨hlen, hqueues, hlists⟩
    refine ⟨by simpa using hlen, fun d hd => ?_, hlists⟩
    rcases List.mem_or_eq_of_mem_set hd with hd | rfl
    · exact hqueues d hd
    · have hold : (s.sli.chan k).queue.length ≤ 512 := by
        unfold Intake.chan
        rw [List.getD_eq_getElem?_getD]
        cases hc : s.sli.chans[k]? with
        | none => simp [Channel.reset]
        | some c => simpa using hqueues c (List.mem_of_getElem? hc)
      exact (Channel.discardStale_queue _ _ _).trans (Channel.arrive_queue w _ hold)
  · exact .refl s

theorem scanWord_keeps (k : Nat) (w : ScanWord) (s : State) : s.Keeps (scanWord k w s) := by
  unfold scanWord
  split
  · exact headStatus_keeps k _ s
  · exact queueWord_keeps k _ s

/-! ## The assembly of a line -/

theorem State.gateReady_run (c : Setup) (s : State) (h : s.gateReady c = true) : s.sts.state.run = true := by
  simp only [State.gateReady, Bool.and_eq_true] at h
  exact h.1.1

theorem State.assemble_shrinks (c : Setup) (s : State) : queuesShrink s.sli.chans (s.assemble c).chans :=
  ((((turnOffSets_shrinks _ _ _).trans (judgeFrom_shrinks _ _ _)).trans (discardStaleFrom_shrinks _ _)).trans
    (settleFrom_shrinks _ _ _)).trans (discardStaleFrom_shrinks _ _)

/-- The lists of the assembler and the map after a line. -/
theorem State.assemble_bounds (c : Setup) (s : State) (hblobs : s.fas.blobs.length ≤ 256)
    (hflaws : s.rbm.flaws.length ≤ 4096) (hunseen : s.rbm.unseen.length ≤ 256) :
    (s.assemble c).fas.blobs.length ≤ 256 ∧ (s.assemble c).rbm.flaws.length ≤ 4096 ∧
      (s.assemble c).rbm.unseen.length ≤ 256 := by
  unfold State.assemble
  dsimp only
  generalize yOf s.pos c.pitch s.sli.la = y
  generalize unseenSpans _ _ _ = spans
  generalize handedRunsFrom _ _ _ _ = handed
  have hruns := s.fas.takeRuns_length c s.sli.la y handed hblobs
  generalize s.fas.takeRuns c s.sli.la y handed = runs at hruns ⊢
  unfold Bench.endLine
  dsimp only
  obtain ⟨hu, hf, _, _, hb, _⟩ := Bench.finalizes_spec c s.pos
    ((runs.1.frontStep s.sli.la).closedSet c s.sli.la)
    ⟨(runs.1.frontStep s.sli.la).afterLine c s.sli.la, s.rbm, s.stu, []⟩ hunseen hflaws
  have hmap := RibbonMap.takeSpans_spec y c.pitch spans _ hu
  obtain ⟨hmf, _, _, _, hmu⟩ := hmap
  refine ⟨?_, hmf ▸ hf, hmu⟩
  calc _ = ((runs.1.frontStep s.sli.la).afterLine c s.sli.la).blobs.length := hb
    _ ≤ (runs.1.frontStep s.sli.la).blobs.length := List.length_filterMap_le _ _
    _ = runs.1.blobs.length := by simp [Assembler.frontStep]
    _ ≤ 256 := hruns

theorem State.assembled_keeps (c : Setup) (s : State) (hrun : s.sts.state.run = true) :
    s.Keeps (s.assembled c).1 := by
  unfold State.assembled
  refine State.Keeps.report ?_ _
  refine ⟨fun _ hcalm => absurd hcalm (s.not_calm_of_run hrun), ?_, ?_, ?_⟩
  · rintro _ ⟨hjoin, hrows, htable⟩
    exact ⟨hjoin, hrows, fun e he => htable e (List.mem_of_mem_filter he)⟩
  · rintro ⟨hlen, hqueues, hmask, hblobs, hflaws, hunseen⟩
    have hshrink := s.assemble_shrinks c
    refine ⟨hshrink.1.trans hlen, fun d hd => ?_, hmask, s.assemble_bounds c hblobs hflaws hunseen⟩
    obtain ⟨e, he, hle⟩ := hshrink.2 d hd
    exact hle.trans (hqueues e he)
  · rintro ⟨htable, hphase, hrest⟩
    exact ⟨(List.length_filter_le _ _).trans htable,
      fun b hb => (List.length_filter_le _ _).trans_lt (hphase b hb), hrest⟩

theorem lineAssembly_keeps (s : State) : s.Keeps (lineAssembly s) := by
  unfold lineAssembly
  split
  · exact .refl s
  · rename_i c _
    split
    · rename_i h; exact (s.assembled_keeps c (s.gateReady_run c h)).issue
    · exact .refl s

/-! ## Rows -/

/-- A row has a port of its own for each lane, and a computed grade a result for each lane (R78, R145). -/
def Row.sound (r : Row) : Prop := portsOk r.lanes ∧ ∀ rs, r.results = some rs → rs.length = r.lanes.length

/-- Rows join by their places alone (R94). -/
theorem rowsJoin_congr (frontier : Pos) : ∀ rows qs : List Row,
    rows.map (fun r => (r.f, r.t)) = qs.map (fun r => (r.f, r.t)) → rowsJoin frontier rows → rowsJoin frontier qs
  | [], qs, h, _ => by
    obtain rfl : qs = [] := by simpa using h.symm
    trivial
  | [r], qs, h, hjoin => by
    obtain ⟨q, rfl, ht⟩ : ∃ q, qs = [q] ∧ r.t = q.t := by
      rcases qs with _ | ⟨q, _ | ⟨_, _⟩⟩ <;> simp_all
    exact ht.symm.trans hjoin
  | r :: r' :: rest, qs, h, hjoin => by
    obtain ⟨q, q', rest', rfl, ht, hf, hrest⟩ : ∃ q q' rest', qs = q :: q' :: rest' ∧ r.t = q.t ∧ r'.f = q'.f ∧
        (r' :: rest).map (fun r => (r.f, r.t)) = (q' :: rest').map (fun r => (r.f, r.t)) := by
      rcases qs with _ | ⟨q, _ | ⟨q', rest'⟩⟩ <;> simp_all
    exact ⟨ht.symm.trans (hjoin.1.trans hf), rowsJoin_congr frontier _ _ hrest hjoin.2⟩

theorem rowsJoin_tail (frontier : Pos) : ∀ (r : Row) (rest : List Row), rowsJoin frontier (r :: rest) →
    rowsJoin frontier rest
  | _, [], _ => trivial
  | _, _ :: _, h => h.2

/-- A row placed at the frontier joins the rows before it (R109). -/
theorem rowsJoin_place (r : Row) : ∀ rows : List Row, rowsJoin r.f rows → rowsJoin r.t (rows ++ [r])
  | [], _ => rfl
  | [_], h => ⟨h, rfl⟩
  | _ :: q :: rest, h => ⟨h.1, rowsJoin_place r (q :: rest) h.2⟩

/-- A change of each row that keeps its place and its soundness keeps the invariants. -/
theorem State.mapRows_keeps (s : State) (p : Planner) (f : Row → Row) (hp : p.rows = s.rpl.rows.map f)
    (hfrontier : p.frontier = s.rpl.frontier) (hplace : ∀ r, (f r).f = r.f ∧ (f r).t = r.t)
    (hsound : ∀ r, r.sound → (f r).sound) : s.Keeps { s with rpl := p } where
  rest := by
    intro hrest hcalm
    obtain ⟨hrows, hlists⟩ := hrest hcalm
    exact ⟨by rw [show ({ s with rpl := p } : State).rpl.rows = _ from hp, hrows]; rfl, hlists⟩
  rows := by
    rintro _ ⟨hjoin, hrows, htable⟩
    refine ⟨?_, ?_, htable⟩
    · simp only [hp, hfrontier]
      refine rowsJoin_congr _ _ _ ?_ hjoin
      simp [List.map_map, Function.comp_def, hplace]
    · simp only [hp, List.mem_map]
      rintro r ⟨q, hq, rfl⟩
      exact hsound q (hrows q hq)
  feed := id
  plan := by
    rintro ⟨htable, hphase, hrows, hrest⟩
    exact ⟨htable, hphase, by simpa [hp] using hrows, hrest⟩

/-- Updating one row keeps the invariants where the update keeps its place and its soundness. -/
theorem State.updateRow_keeps (s : State) (id : Word) (f : Row → Row) (hplace : ∀ r, (f r).f = r.f ∧ (f r).t = r.t)
    (hsound : ∀ r, r.sound → (f r).sound) : s.Keeps { s with rpl := s.rpl.updateRow id f } :=
  s.mapRows_keeps _ (fun r => if r.id = id then f r else r) rfl rfl
    (fun r => by split <;> simp [hplace]) (fun r hr => by split <;> [exact hsound r hr; exact hr])

/-! Grading (R145). -/

@[simp] theorem gradeLanes_length (g : Grader) (m : RibbonMap) (lanes : List Lane) (f t : Pos) :
    (gradeLanes g m lanes f t).length = lanes.length := by simp [gradeLanes]

theorem Row.graded_sound (g : Grader) (m : RibbonMap) (r : Row) (h : r.sound) : (r.graded g m).sound := by
  refine ⟨h.1, fun rs hrs => ?_⟩
  obtain rfl : gradeLanes g m r.lanes r.f r.t = rs := by simpa [Row.graded] using hrs
  simp [Row.graded]

theorem gradingEvent_keeps (s : State) : s.Keeps (gradingEvent s) := by
  unfold gradingEvent
  split
  · exact .refl s
  · split
    · exact s.updateRow_keeps _ _ (fun _ => ⟨rfl, rfl⟩) (fun r hr => r.graded_sound _ _ hr)
    · exact .refl s

/-! Cuts (R119 to R126). -/

/-- Writing a cut state keeps each row's place and soundness. -/
theorem State.writeCut_keeps (row : Word) (pos : Pos) (st : CutState) (s : State) :
    s.Keeps { s with rpl := s.rpl.writeCut row pos st } :=
  s.mapRows_keeps _ _ rfl rfl (fun _ => ⟨rfl, rfl⟩) (fun _ hr => hr)

theorem State.mergeRows_keeps (row : Word) (pos : Pos) (s : State) :
    s.Keeps { s with rpl := s.rpl.mergeRows row pos } :=
  s.mapRows_keeps _ _ rfl rfl (fun r => by split <;> exact ⟨rfl, rfl⟩) (fun r hr => by split <;> exact hr)

theorem State.resolveCut_keeps (row : Word) (pos : Pos) (out : CutState) (why : InhibitCause) (time : Word)
    (s : State) :
    s.Keeps (s.resolveCut row pos out why time) := by
  have hwrite := s.writeCut_keeps row pos out
  unfold State.resolveCut
  dsimp only
  split
  · exact hwrite.report _
  · have hmerge := hwrite.trans (State.mergeRows_keeps row pos _)
    exact State.Keeps.report (hmerge.trans (State.Quiet.keeps {})) _

theorem State.strobe_keeps (c : Setup) (a : ArmedCut) (s : State) : s.Keeps (s.strobe c a) := by
  unfold State.strobe
  split
  · exact s.resolveCut_keeps ..
  · split
    · exact s.resolveCut_keeps ..
    · rename_i hroom
      refine (s.writeCut_keeps a.row a.pos .strobed).trans (State.Quiet.keeps { outstanding := ?_ })
      simp [outstandingLimit] at hroom ⊢
      omega

theorem cutStrobe_keeps (s : State) : s.Keeps (cutStrobe s) := by
  unfold cutStrobe
  split
  · split
    · exact State.Keeps.trans (State.Quiet.keeps {}) (State.strobe_keeps ..)
    · exact .refl s
  · exact .refl s

/-- The oldest outstanding cut leaves the list and is resolved. -/
theorem State.popCut_keeps (o : OutCut) (rest : List OutCut) (out : CutState) (s : State)
    (h : s.cgc.outstanding = o :: rest) : s.Keeps (State.resolveCut o.row o.pos out .none o.strobeTime
      { s with cgc := { s.cgc with outstanding := rest } }) :=
  State.Keeps.trans (State.Quiet.keeps { outstanding := by simp only [h, List.length_cons]; omega })
    (State.resolveCut_keeps ..)

theorem cdone_keeps (s : State) : s.Keeps (cdone s) := by
  unfold cdone
  split
  · split
    · rename_i o rest h; exact s.popCut_keeps o rest _ h
    · exact (State.Quiet.keeps {}).report _
  · exact .refl s

theorem confirmWindowExpiry_keeps (s : State) : s.Keeps (confirmWindowExpiry s) := by
  unfold confirmWindowExpiry
  split
  · rename_i o rest h
    split
    · exact s.popCut_keeps o rest _ h
    · exact .refl s
  · exact .refl s

/-! Gates (R127, R128). -/

/-- Driving ports keeps how many ports and gate strobes there are, and the cuts. -/
theorem Cutter.drives_spec : ∀ (ds : List (Nat × BitVec 3)) (g : Cutter),
    (ds.foldl Cutter.drive g).ports.length = g.ports.length ∧
    (ds.foldl Cutter.drive g).gateStrobes.length = g.gateStrobes.length ∧
    (ds.foldl Cutter.drive g).outstanding = g.outstanding
  | [], _ => ⟨rfl, rfl, rfl⟩
  | d :: ds, g => by
    obtain ⟨hports, hgates, hout⟩ := Cutter.drives_spec ds (g.drive d)
    exact ⟨hports.trans (by simp [Cutter.drive]), hgates.trans (by simp [Cutter.drive]), hout⟩

theorem gateEvent_keeps (s : State) : s.Keeps (gateEvent s) := by
  unfold gateEvent
  split
  · rename_i c r _ _
    split
    · obtain ⟨hports, hgates, hout⟩ := Cutter.drives_spec (r.drives c s.grd) s.cgc
      have hrow := s.updateRow_keeps r.id (Row.gated s.grd) (fun _ => ⟨rfl, rfl⟩) (fun _ hr => hr)
      exact (hrow.trans (State.Quiet.keeps
        { outstanding := by simp [hout], ports := hports, gateStrobes := hgates })).report _
    · exact .refl s
  · exact .refl s

/-! ## The order table -/

/-- A table whose entries were there before, or hold the lanes of one that was. -/
def OrderUnit.lanesFrom (u o : OrderUnit) : Prop :=
  o.table.length ≤ u.table.length ∧
  ∀ e ∈ o.table, ∀ k, e.work = .cut k → ∃ d ∈ u.table, ∃ j, d.work = .cut j ∧ k.lanes = j.lanes

theorem OrderUnit.lanesFrom_of_sublist (u o : OrderUnit) (h : o.table.Sublist u.table) : u.lanesFrom o :=
  ⟨h.length_le, fun e he k hk => ⟨e, h.subset he, k, hk, rfl⟩⟩

theorem OrderUnit.lanesFrom_trans {u o v : OrderUnit} (h : u.lanesFrom o) (g : o.lanesFrom v) : u.lanesFrom v := by
  refine ⟨g.1.trans h.1, fun e he k hk => ?_⟩
  obtain ⟨d, hd, j, hj, hkj⟩ := g.2 e he k hk
  obtain ⟨c, hc, i, hi, hji⟩ := h.2 d hd j hj
  exact ⟨c, hc, i, hi, hkj.trans hji⟩

theorem OrderUnit.updateCut_lanesFrom (u : OrderUnit) (take : Word) (f : CutOrder → CutOrder)
    (hf : ∀ c, (f c).lanes = c.lanes) : u.lanesFrom (u.updateCut take f) := by
  refine ⟨by simp, fun e he k hk => ?_⟩
  rcases u.mem_updateCut take f e he with h | ⟨d, hd, c, hc, rfl⟩
  · exact ⟨e, h, k, hk, rfl⟩
  · obtain rfl : f c = k := by simpa using hk
    exact ⟨d, hd, c, hc, hf c⟩

theorem OrderUnit.computeRunway_lanesFrom (u : OrderUnit) (c : Option Setup) : u.lanesFrom (u.computeRunway c).1 :=
  u.lanesFrom_of_sublist _ (by simp)

/-- A table with lanes that were there before keeps the invariants. -/
theorem State.table_keeps (s : State) (o : OrderUnit) (h : s.oru.lanesFrom o) : s.Keeps { s with oru := o } where
  rest := id
  rows := by
    rintro _ ⟨hjoin, hrows, htable⟩
    refine ⟨hjoin, hrows, fun e he k hk => ?_⟩
    obtain ⟨d, hd, j, hj, hlanes⟩ := h.2 e he k hk
    exact hlanes ▸ htable d hd j hj
  feed := id
  plan := by
    rintro ⟨htable, hphase, hrest⟩
    exact ⟨h.1.trans htable, fun b hb => h.1.trans_lt (hphase b hb), hrest⟩

/-! ## Placement (R99 to R110) -/

/-- What a placement decides for the invariants: a row at the frontier whose lanes have ports of their own, before it
the rows as they were, and a table that keeps them. -/
structure Decision.Sound (s : State) (d : Decision) : Prop where
  rows : d.rpl.rows = s.rpl.rows
  start : d.row.f = s.rpl.frontier
  ports : s.rowsSound → portsOk d.row.lanes
  results : d.row.results = none
  table : s.oru.lanesFrom d.oru

theorem portsOk_nil : portsOk [] := ⟨List.nodup_nil, fun _ h => nomatch h⟩

theorem decideFallback_sound (c : Setup) (s : State) : Decision.Sound s (decideFallback c s) :=
  ⟨rfl, rfl, fun _ => portsOk_nil, rfl, s.oru.lanesFrom_of_sublist _ (List.Sublist.refl _)⟩

theorem decideOrder_sound (c : Setup) (s : State) (e : Entry) (o : CutOrder) (he : e ∈ s.oru.table)
    (ho : e.work = .cut o) : Decision.Sound s (decideOrder c s e o) := by
  unfold decideOrder
  dsimp only
  split
  · exact ⟨rfl, rfl, fun _ => portsOk_nil, rfl, s.oru.updateCut_lanesFrom _ _ (fun _ => rfl)⟩
  · exact ⟨rfl, rfl, fun h => h.2.2 e he o ho, rfl, s.oru.updateCut_lanesFrom _ _ (fun _ => rfl)⟩

/-- The serving order stands in the table (R80). -/
theorem OrderUnit.serving_mem (u : OrderUnit) (e : Entry) (o : CutOrder) (h : u.serving = some (e, o)) :
    e ∈ u.table ∧ e.work = .cut o := by
  unfold OrderUnit.serving at h
  obtain ⟨d, hd, hpick⟩ := List.exists_of_findSome?_eq_some h
  split at hpick
  · rename_i c hc
    split at hpick
    · cases hpick; exact ⟨hd, hc⟩
    · cases hpick
  · cases hpick

theorem State.decide_sound (c : Setup) (s : State) : Decision.Sound s (s.decide c) := by
  unfold State.decide
  split
  · exact decideFallback_sound c s
  · rename_i e o h
    obtain ⟨he, ho⟩ := s.oru.serving_mem e o h
    exact decideOrder_sound c s e o he ho

/-- In a run with room in the row list a row may be placed. -/
theorem State.place_keeps (s : State) (p : Planner) (r : Row) (hrun : s.sts.state.run = true)
    (hroom : s.rpl.rows.length < 128) (hrows : p.rows = s.rpl.rows) (hf : r.f = s.rpl.frontier)
    (hports : s.rowsSound → portsOk r.lanes) (hres : r.results = none) : s.Keeps { s with rpl := p.place r } where
  rest := fun _ hcalm => absurd hcalm (s.not_calm_of_run hrun)
  rows := by
    intro _ h
    have hports := hports h
    obtain ⟨hjoin, hsound, htable⟩ := h
    refine ⟨?_, ?_, htable⟩
    · simp only [Planner.place, hrows]
      exact rowsJoin_place r _ (hf ▸ hjoin)
    · simp only [Planner.place, hrows, List.mem_append, List.mem_singleton]
      rintro q (hq | rfl)
      · exact hsound q hq
      · exact ⟨hports, fun rs hrs => by simp [hres] at hrs⟩
  feed := id
  plan := by
    rintro ⟨htable, hphase, _, hrest⟩
    refine ⟨htable, hphase, ?_, hrest⟩
    simp only [Planner.place, hrows, List.length_append, List.length_singleton]
    omega

theorem placement_keeps (s : State) : s.Keeps (placement s) := by
  unfold placement
  split
  · exact .refl s
  · rename_i c _
    split
    · rename_i hdue
      simp only [State.placementDue, rowLimit, Bool.and_eq_true] at hdue
      obtain ⟨⟨hrunning, _⟩, hroom⟩ := hdue
      obtain ⟨hrows, hf, hports, hres, htable⟩ := s.decide_sound c
      have hrun : s.sts.state.run = true := by rw [of_decide_eq_true hrunning]; rfl
      have hplace := s.place_keeps (s.decide c).rpl (s.decide c).row hrun (of_decide_eq_true hroom) hrows hf hports hres
      have htable' := hplace.trans (State.table_keeps _ _ (OrderUnit.lanesFrom_trans htable
        ((s.decide c).oru.computeRunway_lanesFrom s.setup)))
      exact (htable'.trans (State.Quiet.keeps {})).report _
    · exact .refl s

/-! ## Retirement (R113) -/

theorem OrderUnit.retireRow_lanesFrom (u : OrderUnit) (r : Row) (finals : List Grade) :
    u.lanesFrom (u.retireRow r finals).1 := by
  unfold OrderUnit.retireRow
  split
  · rename_i take _
    exact OrderUnit.lanesFrom_trans (u.updateCut_lanesFrom take (CutOrder.rowRetired finals) (fun _ => rfl))
      (OrderUnit.lanesFrom_of_sublist _ _ (OrderUnit.completeCut_sublist _ _))
  · exact u.lanesFrom_of_sublist _ (List.Sublist.refl _)

/-- The head row leaves the list, and the map loses what lies in its span. -/
theorem State.dropHead_keeps (s : State) (r : Row) (rest : List Row) (o : OrderUnit) (u : TallyUnit)
    (h : s.rpl.rows = r :: rest) (ho : s.oru.lanesFrom o) :
    s.Keeps { s with rbm := s.rbm.retire r, stu := u, oru := o, rpl := { s.rpl with rows := rest } } := by
  refine (s.table_keeps o ho).trans ⟨?_, ?_, ?_, ?_⟩
  · exact fun hrest hcalm => absurd ((hrest hcalm).1.symm.trans h) (by simp)
  · rintro _ ⟨hjoin, hrows, htable⟩
    simp only [h] at hjoin hrows
    exact ⟨rowsJoin_tail _ _ _ hjoin, fun q hq => hrows q (List.mem_cons_of_mem _ hq), htable⟩
  · rintro ⟨hlen, hqueues, hmask, hblobs, hflaws, hunseen⟩
    exact ⟨hlen, hqueues, hmask, hblobs, (List.length_filter_le _ _).trans hflaws,
      (List.length_filter_le _ _).trans hunseen⟩
  · rintro ⟨htable, hphase, hrows, hlists⟩
    simp only [h, List.length_cons] at hrows
    exact ⟨htable, hphase, by dsimp only; omega, hlists⟩

theorem State.retire_keeps (c : Setup) (r : Row) (rest : List Row) (s : State) (h : s.rpl.rows = r :: rest) :
    s.Keeps (s.retire c r rest).1 := by
  have horder := s.oru.retireRow_lanesFrom r (r.retirement c s.grd s.rbm s.fas.yFin).finals
  unfold State.retire
  refine State.Keeps.report (s.dropHead_keeps r rest _ _ h ?_) _
  refine OrderUnit.lanesFrom_trans horder (OrderUnit.lanesFrom_of_sublist _ _ ?_)
  dsimp only
  split
  · exact List.Sublist.refl _
  · exact List.filter_sublist

theorem rowRetirement_keeps (s : State) : s.Keeps (rowRetirement s) := by
  unfold rowRetirement
  split
  · rename_i h
    split
    · exact (s.retire_keeps _ _ _ h).issue
    · exact .refl s
  · exact .refl s

/-! ## The end of a drain (R173) -/

/-- At the end of a drain no channel holds a word (R34). -/
theorem drained_queues (line : Line) (ds : List (BitVec 16)) (cs : List Channel) :
    ∀ c ∈ (turnOffSets line (cs.map Channel.drained) ds).1, c.queue = [] := by
  intro c hc
  obtain ⟨d, hd, hle⟩ := (turnOffSets_shrinks line ds (cs.map Channel.drained)).2 c hc
  obtain ⟨e, _, rfl⟩ := List.mem_map.1 hd
  exact List.eq_nil_of_length_eq_zero (Nat.le_zero.1 hle)

/-- The end of a drain leaves every list of the intake, the assembler and the map empty. -/
theorem State.endDrain_keeps (s : State) (h : s.rpl.rows = []) : s.Keeps s.endDrain.1 := by
  have hqueues := drained_queues s.sli.la (disableSets s.oru.table) s.sli.chans
  unfold State.endDrain
  refine State.Keeps.report ?_ _
  refine ⟨fun _ _ => ⟨h, rfl, rfl, rfl, rfl, hqueues⟩, ?_, ?_, ?_⟩
  · rintro _ ⟨hjoin, hrows, htable⟩
    exact ⟨hjoin, hrows, fun e he => htable e (List.mem_of_mem_filter he)⟩
  · rintro ⟨hlen, _, hmask, _⟩
    exact ⟨by simpa using hlen, fun c hc => by simp [hqueues c hc], hmask, by simp [Assembler.drained],
      by simp [RibbonMap.drained], by simp [RibbonMap.drained]⟩
  · rintro ⟨htable, hphase, hrest⟩
    exact ⟨(List.length_filter_le _ _).trans htable, fun b hb => (List.length_filter_le _ _).trans_lt (hphase b hb),
      hrest⟩

theorem State.drainEnded_rows (s : State) (h : s.drainEnded = true) : s.rpl.rows = [] := by
  simp only [State.drainEnded, Bool.and_eq_true, List.isEmpty_iff] at h
  exact h.2

theorem State.drainOver_rows (s : State) (h : s.drainOver = true) : s.rpl.rows = [] := by
  simp only [State.drainOver, Bool.and_eq_true] at h
  exact s.drainEnded_rows h.2

theorem State.pendingDetach_keeps (s : State) (h : s.calm) : s.Keeps s.pendingDetach := by
  unfold State.pendingDetach
  split
  · exact (s.doDetach_quiet h).keeps
  · exact .refl s

theorem State.endDrain_calm (s : State) : (State.issue s.endDrain).calm := .inr (by simp [State.endDrain, State.issue])

theorem endOfDrain_keeps (s : State) : s.Keeps (endOfDrain s) := by
  unfold endOfDrain
  split
  · rename_i h
    exact (s.endDrain_keeps (s.drainOver_rows h)).issue.trans (State.pendingDetach_keeps _ s.endDrain_calm)
  · exact .refl s

/-! ## The orders of a poll -/

/-- The taking of an order keeps the invariants where its act does, on the state with the cursor moved. -/
theorem State.takeOrder_keeps {α : Type} (pick : OrderBody → Option α)
    (act : Block → α → State → State × List StatusWrite) (s : State)
    (h : ∀ b x, s.exu.phase = .order b → s.Keeps (act b x (s.cursorTo b)).1) : s.Keeps (s.takeOrder pick act) := by
  rcases s.takeOrder_cases pick act with ⟨b, x, hb, _, _, heq⟩ | heq
  · rw [heq]; exact (h b x hb).issue
  · rw [heq]; exact .refl s

theorem State.cursorTo_keeps (b : Block) (s : State) : s.Keeps (s.cursorTo b) := (s.cursorTo_quiet b).keeps

/-- A block in hand has room in the order table, and enters it (R74, R185). -/
theorem State.enter_keeps (s : State) (b : Block) (w : Work) (h : s.exu.phase = .order b)
    (hw : s.rowsSound → ∀ o, w = .cut o → portsOk o.lanes) :
    s.Keeps { s.cursorTo b with oru := s.oru.enter b w } where
  rest := id
  rows := by
    intro _ hsound
    have hw := hw hsound
    obtain ⟨hjoin, hrows, htable⟩ := hsound
    refine ⟨hjoin, hrows, fun e he o ho => ?_⟩
    rcases List.mem_append.1 he with he | he
    · exact htable e he o ho
    · obtain rfl := List.mem_singleton.1 he
      exact hw o ho
  feed := id
  plan := by
    rintro ⟨_, hphase, hrest⟩
    refine ⟨?_, fun _ hb => (nomatch hb), hrest⟩
    have hroom := hphase b h
    simp only [OrderUnit.enter_table, List.length_append, List.length_singleton]
    omega

/-- Turning channels OFF, then the mask table, the ports and the setup of a SETUP. -/
theorem State.applySetup_keeps (x : SetupBody) (s : State) : s.Keeps (s.applySetup x) := by
  have hoff := turnOffFrom_shrinks (fun k => !(geomAt x.geom k).installed) s.sli.la s.sli.chans
  unfold State.applySetup
  refine State.Keeps.report ?_ _
  refine (s.shrink_keeps { s.sli with chans := _, mask := x.maskTable } (.inr ?_) hoff).trans (State.Quiet.keeps ?_)
  · simp [SetupBody.maskTable]
  · exact { outstanding := by simp [Cutter.setPorts], ports := by simp [Cutter.setPorts],
            gateStrobes := by simp [Cutter.setPorts] }

theorem takeSetup_keeps (b : Block) (x : SetupBody) (s : State) : s.Keeps (takeSetup b x (s.cursorTo b)).1 := by
  unfold takeSetup
  split
  · exact s.cursorTo_keeps b
  · exact (s.cursorTo_keeps b).trans (State.applySetup_keeps x _)

/-- START leaves a part with no row a new frontier (R98). -/
theorem State.startRun_keeps (c : Setup) (s : State) (h : s.sts.state = .idle) : s.Keeps (s.startRun c) where
  rest := fun _ hcalm => absurd hcalm (by simp [State.startRun])
  rows := by
    rintro hrest ⟨_, _, htable⟩
    have hnone : s.rpl.rows = [] := (hrest (.inr h)).1
    have hrows : (s.startRun c).rpl.rows = [] := by simp [Planner.start, hnone]
    exact ⟨by rw [hrows]; trivial, fun r hr => absurd (hrows ▸ hr) List.not_mem_nil, htable⟩
  feed := by
    rintro ⟨hlen, hqueues, hlists⟩
    refine ⟨by simpa [Intake.start] using hlen, fun d hd => ?_, hlists⟩
    obtain ⟨e, he, rfl⟩ := List.mem_map.1 hd
    exact hqueues e he
  plan := id

theorem takeStart_keeps (b : Block) (s : State) : s.Keeps (takeStart b (s.cursorTo b)).1 := by
  unfold takeStart
  split
  · exact s.cursorTo_keeps b
  · rename_i h
    split
    · exact s.cursorTo_keeps b
    · exact (s.cursorTo_keeps b).trans (State.startRun_keeps _ _ (not_not.1 h))

theorem State.stopped_quiet (s : State) : s.Quiet s.stopped where
  calm := by simp [State.calm, State.stopped]
  rows := rfl
  frontier := rfl
  outstanding := by unfold State.stopped Cutter.withdrawHead; dsimp only; split <;> simp
  ports := by unfold State.stopped Cutter.withdrawHead; dsimp only; split <;> rfl
  gateStrobes := by unfold State.stopped Cutter.withdrawHead; dsimp only; split <;> rfl

theorem takeStop_keeps (b : Block) (s : State) (hb : s.exu.phase = .order b) :
    s.Keeps (takeStop b (s.cursorTo b)).1 := by
  unfold takeStop
  split
  · exact s.cursorTo_keeps b
  · dsimp only
    split
    · rename_i hend
      exact ((s.cursorTo_keeps b).trans (State.stopped_quiet _).keeps).trans
        (State.endDrain_keeps _ (State.drainEnded_rows _ hend))
    · exact s.stopped_quiet.keeps.trans (s.stopped.enter_keeps b .stop hb (fun _ _ h => (nomatch h)))

/-- The lanes of an accepted CUT order have ports of their own (R78). -/
theorem CutBody.order_ports (s : State) (c : Setup) (x : CutBody) (hs : s.setup = some c)
    (h : cutRefusal s x = none) : portsOk (x.order c).lanes := by
  unfold cutRefusal at h
  rw [hs] at h
  dsimp only at h
  split at h
  · cases h
  split at h
  · cases h
  split at h
  · cases h
  rename_i hlayout
  simp only [Bool.or_eq_true, not_or, Bool.not_eq_true, List.any_eq_false, Bool.not_eq_eq_eq_not,
    Bool.not_true, decide_eq_true_eq] at hlayout
  obtain ⟨⟨⟨_, _⟩, hport⟩, hnodup⟩ := hlayout
  refine ⟨?_, ?_⟩
  · simpa [CutBody.order] using hnodup
  · intro l hl
    have hl : l.port ∈ (layLanes c.netLeft x.used).map Lane.port := List.mem_map_of_mem hl
    rw [layLanes_ports, List.mem_map] at hl
    obtain ⟨k, hk, hkl⟩ := hl
    have hinstalled := hport k hk
    simp only [Bool.not_eq_false, Bool.and_eq_true, decide_eq_true_eq] at hinstalled
    exact hkl ▸ hinstalled.1

theorem OrderUnit.supersede_lanesFrom (u : OrderUnit) : u.lanesFrom u.supersede := by
  refine ⟨by simp, fun e he k hk => ?_⟩
  simp only [OrderUnit.supersede, List.mem_map] at he
  obtain ⟨d, hd, rfl⟩ := he
  split at hk
  · rename_i c hc
    obtain rfl := Work.cut.inj hk
    exact ⟨d, hd, c, hc, by split <;> rfl⟩
  · exact ⟨d, hd, k, hk, rfl⟩

theorem takeCut_keeps (b : Block) (x : CutBody) (s : State) (hb : s.exu.phase = .order b) :
    s.Keeps (takeCut b x (s.cursorTo b)).1 := by
  unfold takeCut
  split
  · exact s.cursorTo_keeps b
  · exact s.cursorTo_keeps b
  · rename_i c hnone hs
    have hports := CutBody.order_ports _ c x hs hnone
    have hsup := s.table_keeps s.oru.supersede s.oru.supersede_lanesFrom
    have henter := hsup.trans (State.enter_keeps { s with oru := s.oru.supersede } b (.cut (x.order c)) hb
      (fun _ o ho => Work.cut.inj ho ▸ hports))
    exact (henter.trans (State.table_keeps _ _ (OrderUnit.computeRunway_lanesFrom _ s.setup))).report _

theorem OrderUnit.cancel_lanesFrom (u o : OrderUnit) (target : Word) (ws : List StatusWrite)
    (h : u.cancel target = .inr (o, ws)) : u.lanesFrom o := by
  unfold OrderUnit.cancel at h
  split at h
  · cases h
  · rename_i e _
    split at h
    · rename_i c _
      split at h
      · cases h; exact u.lanesFrom_of_sublist _ List.filter_sublist
      · have hend := u.updateCut_lanesFrom e.take CutOrder.endShort (fun _ => rfl)
        have := OrderUnit.lanesFrom_trans hend
          (OrderUnit.lanesFrom_of_sublist _ _ (OrderUnit.completeCut_sublist e.take _))
        rw [Sum.inr.inj h] at this
        exact this
      · cases h
    · cases h

theorem takeCancel_keeps (b : Block) (target : Word) (s : State) : s.Keeps (takeCancel b target (s.cursorTo b)).1 := by
  unfold takeCancel
  split
  · exact s.cursorTo_keeps b
  · rename_i o ws h
    have hcancel := OrderUnit.cancel_lanesFrom _ o target ws h
    exact ((s.cursorTo_keeps b).trans (State.table_keeps _ _ (OrderUnit.lanesFrom_trans hcancel
      (o.computeRunway_lanesFrom s.setup)))).report _

theorem takeDisable_keeps (b : Block) (d : BitVec 16) (s : State) (hb : s.exu.phase = .order b) (rs : List Report) :
    s.Keeps (takeDisable b d (State.report rs (s.cursorTo b))).1 := by
  unfold takeDisable
  split
  · exact (s.cursorTo_keeps b).report rs
  · split
    · exact (s.enter_keeps b (.channel d s.sli.la) hb (fun _ _ h => (nomatch h))).report rs
    · exact (((s.cursorTo_keeps b).report rs).trans
        (State.chans_keeps _ _ (turnOffFrom_shrinks (inSet d) s.sli.la s.sli.chans))).report _

theorem takeChannel_keeps (b : Block) (en dis : BitVec 16) (s : State) (hb : s.exu.phase = .order b) :
    s.Keeps (takeChannel b en dis (s.cursorTo b)).1 := by
  unfold takeChannel
  split
  · exact s.cursorTo_keeps b
  · let on := enableFrom ((s.setup.map Setup.settleLines).getD 0) en s.inputs.linkLost s.sli.la 0 s.sli.chans
    have hon : queuesShrink s.sli.chans on.1 := enableFrom_shrinks _ _ _ _ _
    exact (s.chans_keeps on.1 hon).trans
      (takeDisable_keeps b dis { s with sli := { s.sli with chans := on.1 } } hb on.2)

theorem takeLoadMask_keeps (b : Block) (es : List MaskSpec) (s : State) :
    s.Keeps (takeLoadMask b es (s.cursorTo b)).1 := by
  unfold takeLoadMask
  split
  · exact s.cursorTo_keeps b
  · exact (s.cursorTo_keeps b).trans (State.shrink_keeps _ _ (.inl (by simp)) (queuesShrink.refl _))

theorem takeLoadClasses_keeps (b : Block) (es : List ClassEntry) (s : State) :
    s.Keeps (takeLoadClasses b es (s.cursorTo b)).1 := by
  unfold takeLoadClasses
  split
  · exact s.cursorTo_keeps b
  · exact (s.cursorTo_keeps b).trans (State.Quiet.keeps {})

theorem takeLoadSpec_keeps (b : Block) (id : Nat) (q : Spec) (s : State) :
    s.Keeps (takeLoadSpec b id q (s.cursorTo b)).1 := by
  unfold takeLoadSpec
  split
  · exact s.cursorTo_keeps b
  · exact (s.cursorTo_keeps b).trans (State.Quiet.keeps {})

theorem takeCloseShift_keeps (b : Block) (n : Word) (s : State) (hb : s.exu.phase = .order b) :
    s.Keeps (takeCloseShift b n (s.cursorTo b)).1 := by
  unfold takeCloseShift
  split
  · exact s.cursorTo_keeps b
  · dsimp only
    split
    · exact ((s.cursorTo_keeps b).trans (State.Quiet.keeps {})).report _
    · exact (s.enter_keeps b .closeShift hb (fun _ _ h => (nomatch h))).trans (State.Quiet.keeps {})

/-! ## Resets -/

/-- What a reset leaves for the invariants: every list of rows, blobs, flaws, orders, cuts and records empty, every
channel at its reset values. -/
structure State.Emptied (s t : State) : Prop where
  rows : t.rpl.rows = [] := by rfl
  blobs : t.fas.blobs = [] := by rfl
  dense : t.fas.dense = none := by rfl
  flaws : t.rbm.flaws = [] := by rfl
  unseen : t.rbm.unseen = [] := by rfl
  chans : t.sli.chans = Intake.reset.chans := by rfl
  mask : t.sli.mask.length = 32 ∨ t.sli.mask.length = s.sli.mask.length := by exact .inl rfl
  table : t.oru.table = [] := by rfl
  outstanding : t.cgc.outstanding = [] := by rfl
  ports : t.cgc.ports.length = 4 := by rfl
  gateStrobes : t.cgc.gateStrobes.length = s.cgc.gateStrobes.length := by rfl
  specs : t.grd.specs.length = 8 ∨ t.grd.specs.length = s.grd.specs.length := by exact .inl rfl
  phase : t.exu.phase = .idle := by rfl
  staging : t.exu.staging = [] := by rfl
  expoll : t.exu.expoll = 1000 ∨ t.exu.expoll = s.exu.expoll

theorem Intake.reset_queues : ∀ c ∈ Intake.reset.chans, c.queue = [] := by
  intro c hc
  rw [List.eq_of_mem_replicate hc]; rfl

theorem State.Emptied.keeps {s t : State} (h : s.Emptied t) : s.Keeps t where
  rest := fun _ _ => ⟨h.rows, h.blobs, h.dense, h.flaws, h.unseen, by rw [h.chans]; exact Intake.reset_queues⟩
  rows := by
    rintro _ -
    unfold State.rowsSound
    rw [h.rows, h.table]
    exact ⟨trivial, fun _ hr => (nomatch hr), fun _ he => (nomatch he)⟩
  feed := by
    rintro ⟨-, -, hmask, -⟩
    unfold State.feedBounds
    rw [h.chans, h.blobs, h.flaws, h.unseen]
    exact ⟨rfl, fun c hc => by simp [Intake.reset_queues c hc],
      h.mask.elim id (·.trans hmask), by simp, by simp, by simp⟩
  plan := by
    rintro ⟨-, -, -, -, -, hgates, hspecs, -, hpoll⟩
    unfold State.planBounds
    rw [h.table, h.rows, h.outstanding, h.staging, h.phase]
    refine ⟨by simp, fun _ hb => (nomatch hb), by simp, by simp, h.ports, h.gateStrobes.trans hgates,
      h.specs.elim id (·.trans hspecs), by simp [stagedBytes], ?_⟩
    rcases h.expoll with he | he
    · rw [he]; decide
    · rwa [he]

theorem powerOnReset_keeps (s : State) : s.Keeps (powerOnReset s) := State.Emptied.keeps { expoll := .inl rfl }
theorem pinReset_keeps (s : State) : s.Keeps (pinReset s) := State.Emptied.keeps { expoll := .inl rfl }
theorem softReset_keeps (s : State) : s.Keeps (softReset s) := State.Emptied.keeps { expoll := .inr rfl }
theorem softResetWithKeep_keeps (s : State) : s.Keeps (softResetWithKeep s) :=
  State.Emptied.keeps { mask := .inr rfl, specs := .inr rfl, expoll := .inr rfl }

theorem exctl_keeps (v : Word) (s : State) : s.Keeps (exctl v s) := by
  unfold exctl
  split
  · split
    · exact softResetWithKeep_keeps s
    · exact softReset_keeps s
  · have hien := (s.ienWritten_quiet (v.getLsbD 1)).keeps
    dsimp only
    split
    · exact hien.trans (State.attachWritten_quiet _ _).keeps
    · exact hien.trans (State.detachWritten_quiet _).keeps

theorem registerWrite_keeps (off : Nat) (v : Word) (s : State) : s.Keeps (registerWrite off v s) := by
  unfold registerWrite
  split
  · exact (exbl_quiet v s).keeps
  · exact (exbh_quiet v s).keeps
  · exact exctl_keeps v s
  · exact (excause_quiet v s).keeps
  · exact (expoll_quiet v s).keeps
  · exact .refl s

/-! ## BUS_ERROR (R174, R178) -/

/-- Accesses change host memory and causes alone. -/
theorem State.attempt_quiet (n : Nat) (ops : List PortOp) (s : State) : s.Quiet (s.attempt n ops).1 := by
  obtain ⟨hstate, hexu⟩ := State.attempt_spec n ops s
  have hshape : ∃ m k g, (s.attempt n ops).1 =
      { s with host := m, exu := { s.exu with causes := k, messages := g } } := by
    generalize (s.attempt n ops).1 = t at hstate hexu
    refine ⟨t.host, t.exu.causes, t.exu.messages, ?_⟩
    rw [← hexu]
    cases t
    cases s
    simp_all
  obtain ⟨m, k, g, hshape⟩ := hshape
  rw [hshape]
  exact {}

theorem State.cutAt_quiet {n : Nat} {ops : List PortOp} {s t : State} (h : s.cutAt n ops = some t) : s.Quiet t := by
  have hquiet := s.attempt_quiet n ops
  unfold State.cutAt at h
  split at h
  · rename_i heq; rw [heq] at hquiet; cases h; exact hquiet
  · cases h

theorem State.cutClose_quiet {n : Nat} {s t : State} (h : s.cutClose n = some t) : s.Quiet t := by
  unfold State.cutClose at h
  split at h
  · cases h
  · exact State.cutAt_quiet h

theorem State.cutRecord_quiet {n : Nat} {s t : State} (h : s.cutRecord n = some t) : s.Quiet t := by
  unfold State.cutRecord at h
  split at h
  · rename_i p r rest _ hstaging
    split at h
    · split at h
      · have hquiet := s.attempt_quiet n (wordOps p.next r.bytes)
        have hsame : (s.attempt n (wordOps p.next r.bytes)).1.exu.staging = s.exu.staging := by
          have := congrArg Exchange.staging (State.attempt_spec n (wordOps p.next r.bytes) s).2
          exact this
        split at h
        · rename_i heq; rw [heq] at hquiet; cases h; exact hquiet
        · rename_i u k heq
          rw [heq] at hquiet hsame
          split at h
          · exact (hquiet.trans (u.recordWritten_quiet p r rest (hsame.trans hstaging))).trans (State.cutClose_quiet h)
          · cases h
      · exact State.cutClose_quiet h
    · cases h
  · cases h

theorem State.cutChain_quiet {n : Nat} {s t : State} (h : s.cutChain n = some t) : s.Quiet t := by
  unfold State.cutChain at h
  split at h
  · split at h
    · cases h
    · rename_i w _
      have hquiet := s.attempt_quiet n w.ops
      split at h
      · rename_i heq; rw [heq] at hquiet; cases h; exact hquiet
      · rename_i u k heq
        rw [heq] at hquiet
        have hcursor : u.Quiet { u with exu := { u.exu with cursor := some (aligned8 s.nextLink) } } := {}
        exact (hquiet.trans hcursor).trans (State.cutAt_quiet h)
  · exact State.cutAt_quiet h

theorem State.cutPoll_quiet {n : Nat} {s t : State} (h : s.cutPoll n = some t) : s.Quiet t := by
  have htimer : s.Quiet { s with exu := { s.exu with pollTimer := s.pos.us } } := {}
  unfold State.cutPoll at h
  split at h
  · split at h
    · split at h
      · unfold State.cutBegin at h
        dsimp only at h
        split at h
        · cases h; exact htimer
        · split at h
          · cases h
          · exact htimer.trans (State.cutChain_quiet h)
      · cases h
    · cases h
    · exact State.cutAt_quiet h
  · cases h

theorem State.cutOrder_quiet {α : Type} {pick : OrderBody → Option α}
    {act : Block → α → State → State × List StatusWrite} {n : Nat} {s t : State}
    (h : s.cutOrder pick act n = some t) : s.Quiet t := by
  unfold State.cutOrder at h
  split at h
  · split at h
    · split at h
      · exact State.cutAt_quiet h
      · cases h
    · cases h
  · cases h

theorem State.cutAssembly_keeps {n : Nat} {s t : State} (h : s.cutAssembly n = some t) : s.Keeps t := by
  unfold State.cutAssembly at h
  split at h
  · cases h
  · rename_i c _
    split at h
    · rename_i hready
      exact (s.assembled_keeps c (s.gateReady_run c hready)).trans (State.cutAt_quiet h).keeps
    · cases h

theorem State.cutRetirement_keeps {n : Nat} {s t : State} (h : s.cutRetirement n = some t) : s.Keeps t := by
  unfold State.cutRetirement at h
  split at h
  · rename_i c r rest _ hrows
    split at h
    · exact (s.retire_keeps c r rest hrows).trans (State.cutAt_quiet h).keeps
    · cases h
  · cases h

theorem State.cutDrain_keeps {n : Nat} {s t : State} (h : s.cutDrain n = some t) : s.Keeps t := by
  unfold State.cutDrain at h
  split at h
  · rename_i hover
    have hdrain := (s.endDrain_keeps (s.drainOver_rows hover)).trans
      (s.endDrain.1.attempt_quiet n (statusOps s.endDrain.2)).keeps
    split at h
    · rename_i heq; rw [heq] at hdrain; cases h; exact hdrain
    · rename_i u k heq
      rw [heq] at hdrain
      split at h
      · exact hdrain.trans (State.cutClose_quiet h).keeps
      · cases h
  · cases h

theorem State.cutDetach_quiet {ien : Bool} {n : Nat} {s t : State} (h : s.cutDetach ien n = some t) : s.Quiet t := by
  unfold State.cutDetach at h
  split at h
  · exact (s.ienWritten_quiet ien).trans (State.cutClose_quiet h)
  · cases h

/-- Within whatever event an access fails, the invariants are kept. -/
theorem State.cutEvent_keeps {c : Instr} {n : Nat} {s t : State} (h : s.cutEvent c n = some t) : s.Keeps t := by
  unfold State.cutEvent at h
  cases c with
  | poll _ => exact (State.cutPoll_quiet h).keeps
  | setup | start | stop | cut | cancel | channel | loadMask | loadClasses | loadSpec | closeShift =>
    exact (State.cutOrder_quiet h).keeps
  | lineAssembly => exact State.cutAssembly_keeps h
  | rowRetirement => exact State.cutRetirement_keeps h
  | endOfDrain => exact State.cutDrain_keeps h
  | pageRecordWrite => exact (State.cutRecord_quiet h).keeps
  | pageFlush =>
    simp only [State.cutFlush] at h
    split at h
    · exact (State.cutClose_quiet h).keeps
    · cases h
  | detach ien => exact (State.cutDetach_quiet h).keeps
  | registerWrite off v =>
    simp only [State.cutWindow] at h
    split at h
    · exact (State.cutDetach_quiet h).keeps
    · cases h
  | deferredDetach =>
    simp only [State.cutDeferred] at h
    split at h
    · exact (State.cutClose_quiet h).keeps
    · cases h
  | _ => cases h

theorem State.failing_keeps (s : State) : s.Keeps s.failing := by
  unfold State.failing
  split
  · exact .refl s
  · split
    · rename_i h; exact (State.cutEvent_keeps h).trans (State.Quiet.keeps {})
    · exact .refl s

theorem busError_keeps (s : State) : s.Keeps (busError s) :=
  s.failing_keeps.trans (State.enterFault_quiet _ _).keeps

/-! ## Every command -/

/-- An event that the part takes, or passes over while the reset pin is held. -/
theorem State.taken_keeps {s u t : State} (h : s.Keeps u) (ht : s.taken u = .next t) : s.Keeps t := by
  rcases s.taken_cases u t ht with ⟨_, rfl⟩ | ⟨_, rfl⟩
  · exact h
  · exact .refl _

/-- Every command keeps the four invariants. -/
theorem exec_keeps (c : Instr) (s t : State) (h : exec c s = .next t) : s.Keeps t := by
  cases c with
  | powerOnReset => cases h; exact powerOnReset_keeps s
  | pinReset => cases h; exact pinReset_keeps s
  | softReset => exact State.taken_keeps (softReset_keeps s) h
  | softResetWithKeep => exact State.taken_keeps (softResetWithKeep_keeps s) h
  | attach ien host err =>
    have hien := (State.ienWritten_quiet ien (s.hostWrites host)).trans (State.attachWritten_quiet err _)
    exact (s.hostWrites_quiet host).keeps.trans (State.taken_keeps hien.keeps h)
  | detach ien => exact State.taken_keeps ((s.ienWritten_quiet ien).trans (State.detachWritten_quiet _)).keeps h
  | deferredDetach => exact State.taken_keeps (deferredDetach_quiet s).keeps h
  | ien v => exact State.taken_keeps (s.ienWritten_quiet v).keeps h
  | excause v => exact State.taken_keeps (excause_quiet v s).keeps h
  | expoll v => exact State.taken_keeps (expoll_quiet v s).keeps h
  | exbl v => exact State.taken_keeps (exbl_quiet v s).keeps h
  | exbh v => exact State.taken_keeps (exbh_quiet v s).keeps h
  | registerWrite off v => exact State.taken_keeps (registerWrite_keeps off v s) h
  | forwardCount => exact State.taken_keeps (forwardCount_quiet s).keeps h
  | reverseCount => exact State.taken_keeps (reverseCount_quiet s).keeps h
  | lineTrigger => exact State.taken_keeps (lineTrigger_quiet s).keeps h
  | speedWindowEnd => exact State.taken_keeps (speedWindowEnd_quiet s).keeps h
  | scanWord ch w => exact State.taken_keeps (scanWord_keeps ch _ s) h
  | headStatus ch code => exact State.taken_keeps (headStatus_keeps ch code s) h
  | lossOfSignal ch =>
    have hlevel : s.Quiet { s with inputs := s.inputs.setLost ch true } := {}
    exact hlevel.keeps.trans (State.taken_keeps (channelFault_keeps ch .linkLost _) h)
  | returnOfSignal ch => cases h; exact State.Quiet.keeps {}
  | lineAssembly => exact State.taken_keeps (lineAssembly_keeps s) h
  | gradingEvent => exact State.taken_keeps (gradingEvent_keeps s) h
  | placement => exact State.taken_keeps (placement_keeps s) h
  | cutStrobe => exact State.taken_keeps (cutStrobe_keeps s) h
  | cinhChange a => cases h; exact State.Quiet.keeps {}
  | cdone => exact State.taken_keeps (cdone_keeps s) h
  | confirmWindowExpiry => exact State.taken_keeps (confirmWindowExpiry_keeps s) h
  | gateEvent => exact State.taken_keeps (gateEvent_keeps s) h
  | rowRetirement => exact State.taken_keeps (rowRetirement_keeps s) h
  | endOfDrain => exact State.taken_keeps (endOfDrain_keeps s) h
  | poll host => exact (s.hostWrites_quiet host).keeps.trans (State.taken_keeps (poll_quiet _).keeps h)
  | setup => exact State.taken_keeps (s.takeOrder_keeps _ _ fun b x _ => takeSetup_keeps b x s) h
  | start => exact State.taken_keeps (s.takeOrder_keeps _ _ fun b _ _ => takeStart_keeps b s) h
  | stop => exact State.taken_keeps (s.takeOrder_keeps _ _ fun b _ hb => takeStop_keeps b s hb) h
  | cut => exact State.taken_keeps (s.takeOrder_keeps _ _ fun b x hb => takeCut_keeps b x s hb) h
  | cancel => exact State.taken_keeps (s.takeOrder_keeps _ _ fun b x _ => takeCancel_keeps b x s) h
  | channel => exact State.taken_keeps (s.takeOrder_keeps _ _ fun b x hb => takeChannel_keeps b x.1 x.2 s hb) h
  | loadMask => exact State.taken_keeps (s.takeOrder_keeps _ _ fun b x _ => takeLoadMask_keeps b x s) h
  | loadClasses => exact State.taken_keeps (s.takeOrder_keeps _ _ fun b x _ => takeLoadClasses_keeps b x s) h
  | loadSpec => exact State.taken_keeps (s.takeOrder_keeps _ _ fun b x _ => takeLoadSpec_keeps b x.1 x.2 s) h
  | closeShift => exact State.taken_keeps (s.takeOrder_keeps _ _ fun b x hb => takeCloseShift_keeps b x s hb) h
  | pageRecordWrite => exact State.taken_keeps (pageRecordWrite_quiet s).keeps h
  | pageFlush => exact State.taken_keeps (pageFlush_quiet s).keeps h
  | busError => exact State.taken_keeps (busError_keeps s) h
  | resetPinRelease => cases h; exact State.Quiet.keeps {}

/-- Every step keeps the four invariants. -/
theorem step_keeps (s t : State) (h : step s = .next t) : s.Keeps t := by
  cases hq : s.pending with
  | nil =>
    rw [step_nil s hq] at h
    cases h
    exact s.tick_quiet.keeps
  | cons c rest =>
    rw [step_cons c rest s hq] at h
    have hpop : s.Quiet { s with pending := rest } := {}
    exact hpop.keeps.trans (exec_keeps c _ t h)

/-- Settles O57, by the cases of `exec_keeps`. -/
theorem rowsStayJoined : Obligations.RowsStayJoined :=
  fun s t hrest hrows h => ⟨(step_keeps s t h).rest hrest, (step_keeps s t h).rows hrest hrows⟩

/-- Settles O58, by the cases of `exec_keeps`. -/
theorem listsStayBounded : Obligations.ListsStayBounded :=
  fun s t h => ⟨(step_keeps s t h).feed, (step_keeps s t h).plan⟩

end Sys2Proof.Machine
end

/-! # Words and events on a link (O5, O19, O20) -/

section
-- One declaration after the other: a thread for each exceeds the memory that the check allows.
set_option Elab.async false
namespace Sys2Proof.Machine

/-! ## The levels (logs 13 and 14) -/

theorem exec_returnOfSignal (ch : Ch) (s : State) :
    exec (.returnOfSignal ch) s = .next { s with inputs := s.inputs.setLost ch false } := rfl

/-- A return of signal clears the bit of its own link alone (R18). -/
theorem Inputs.setLost_false_getLsbD (ch : Ch) (i : Inputs) (k : Nat) (hk : k < 16) :
    (i.setLost ch false).linkLost.getLsbD k = (i.linkLost.getLsbD k && decide (k ≠ ch.val)) := by
  have hbit : (1#16 <<< ch.val).getLsbD k = decide (k = ch.val) := by
    simp only [BitVec.getLsbD_shiftLeft, hk, BitVec.getLsbD_one, decide_true, Bool.true_and]
    by_cases h : k = ch.val
    · simp [h]
    · simp [h]; omega
  simp only [Inputs.setLost, Bool.false_eq_true, if_false, BitVec.getLsbD_and, BitVec.getLsbD_not, hbit, hk,
    decide_true, Bool.true_and, decide_not]

/-- Settles O5, level by level. -/
theorem levelsFollow : Obligations.LevelsFollow :=
  ⟨fun _ => rfl, fun _ _ => rfl, fun ch s =>
    ⟨(s.inputs.setLost ch false).linkLost, exec_returnOfSignal ch s,
      fun k hk => s.inputs.setLost_false_getLsbD ch k hk⟩⟩

/-! ## Faults of a link (R18) -/

theorem exec_headStatus (ch : Ch) (code : Byte) (s : State) :
    exec (.headStatus ch code) s = s.taken (headStatus ch code s) := rfl

theorem exec_lossOfSignal (ch : Ch) (s : State) (h : s.pinHeld = false) : exec (.lossOfSignal ch) s =
    .next (channelFault ch .linkLost { s with inputs := s.inputs.setLost ch true }) :=
  State.taken_free { s with inputs := s.inputs.setLost ch true } _ h

/-- A channel that takes words, in a part that is attached and not in FAULT, becomes FAULTED (R18, R33). -/
theorem channelFault_of_takes (k : Nat) (why : ChanFault) (s : State)
    (h : s.sts.state.live = true ∧ (s.sli.chan k).state.takesWords = true) :
    channelFault k why s = State.report [.channel ⟨k, (s.sli.chan k).state, .faulted, why.cause, s.sli.la⟩]
      { s with sli := s.sli.setChan k ((s.sli.chan k).toFaulted why) } :=
  if_pos (by simp [h.1, h.2])

theorem channelFault_of_not_takes (k : Nat) (why : ChanFault) (s : State)
    (h : ¬(s.sts.state.live = true ∧ (s.sli.chan k).state.takesWords = true)) : channelFault k why s = s :=
  if_neg (by simpa using h)

/-- Settles O20, by whether the channel takes words and the part its events. -/
theorem linkFaultsChannel : Obligations.LinkFaultsChannel := by
  intro ch code s hp
  dsimp only
  rw [exec_headStatus, State.taken_free _ _ hp, exec_lossOfSignal ch s hp]
  unfold headStatus
  refine ⟨fun hcode htakes => ?_, fun htakes => ?_, fun hno => ?_, fun hno => ?_⟩
  · rw [if_neg hcode, channelFault_of_takes ch _ s htakes]; rfl
  · exact congrArg _ (channelFault_of_takes ch .linkLost { s with inputs := s.inputs.setLost ch true } htakes)
  · split
    · rfl
    · rename_i hcode
      rw [channelFault_of_not_takes ch _ s (hno.resolve_left hcode)]
  · exact congrArg _ (channelFault_of_not_takes ch .linkLost { s with inputs := s.inputs.setLost ch true } hno)

/-! ## A word at a channel's queue (R19, R20) -/

theorem exec_scanWord (ch : Ch) (w : BitVec 64) (s : State) :
    exec (.scanWord ch w) s = s.taken (scanWord ch (decodeScanWord w) s) := rfl

theorem scanWord_headStatus (k : Nat) (code : Byte) (s : State) : scanWord k (.headStatus code) s =
    headStatus k code s :=
  rfl

theorem scanWord_queued (k : Nat) (w : ScanWord) (s : State) (h : ∀ code, w ≠ .headStatus code) :
    scanWord k w s = queueWord k w s := by
  unfold scanWord
  split
  · rename_i code; exact absurd rfl (h code)
  · rfl

/-- A channel or a part that takes no words discards them (R19). -/
theorem queueWord_of_not_taken (k : Nat) (w : ScanWord) (s : State)
    (h : s.sts.state.run = false ∨ (s.sli.chan k).state.takesWords = false) : queueWord k w s = s :=
  if_neg (by rcases h with h | h <;> simp [h])

/-- The notice of an arrival that cuts a line (R20). -/
def cutNotices (k : Nat) (la : Line) : Option (Option Line) → List Report
  | none => []
  | some line => [.notice (.intakeOverflow k line la)]

/-- A word at a channel that takes it: the arrival, then the discard at the head. -/
theorem queueWord_of_taken (k : Nat) (w : ScanWord) (s : State) (old c d : Channel) (cut : Option (Option Line))
    (rs : List Report) (hold : s.sli.chan k = old) (hrun : s.sts.state.run = true)
    (htakes : old.state.takesWords = true)
    (harrive : old.arrive w = (c, cut)) (hdiscard : c.discardStale k s.sli.la = (d, rs)) :
    queueWord k w s = State.report (cutNotices k s.sli.la cut ++ rs) { s with sli := s.sli.setChan k d } := by
  unfold queueWord
  simp only [hold, hrun, htakes, Bool.and_true, if_true, harrive, hdiscard]
  cases cut <;> rfl

/-- With room a word is queued, a RUN or LINE_END only while dropping is clear; dropping is clear then (R19, R20). -/
theorem Channel.arrive_of_room (w : ScanWord) (c : Channel) (hroom : c.queue.length < 512)
    (hstart : c.dropping = false ∨ ∃ l, w = .lineStart l) :
    c.arrive w = ({ c with queue := c.queue ++ [w], dropping := false }, none) := by
  unfold Channel.arrive
  split
  · rw [if_pos (by exact hroom)]
  · rename_i hnot
    have hd : c.dropping = false := hstart.resolve_right fun ⟨l, hl⟩ => hnot l hl
    rw [if_neg (by simp [hd]), if_pos (by exact hroom), hd]

/-- At a full queue a LINE_START cuts its own line (R20, log 47). -/
theorem Channel.arrive_start_of_full (l : Line) (c : Channel) (hfull : 512 ≤ c.queue.length) :
    c.arrive (.lineStart l) = c.overflow (some l) := if_neg (by unfold queueLimit; omega)

/-- At a full queue, with dropping clear, a RUN or LINE_END cuts the line of the last LINE_START queued (R20). -/
theorem Channel.arrive_of_full (w : ScanWord) (c : Channel) (hfull : 512 ≤ c.queue.length) (hd : c.dropping = false)
    (hstart : ¬∃ l, w = .lineStart l) : c.arrive w = c.overflow (lastLineStart c.queue) := by
  unfold Channel.arrive
  split
  · rename_i l; exact absurd ⟨l, rfl⟩ hstart
  · rw [if_neg (by simp [hd]), if_neg (by unfold queueLimit; omega)]

/-- While dropping is set a RUN or LINE_END is dropped in silence (R20). -/
theorem Channel.arrive_of_dropping (w : ScanWord) (c : Channel) (hd : c.dropping = true)
    (hstart : ¬∃ l, w = .lineStart l) : c.arrive w = (c, none) := by
  unfold Channel.arrive
  split
  · rename_i l; exact absurd ⟨l, rfl⟩ hstart
  · rw [if_pos hd]

theorem Channel.overflow_of_clear (line : Option Line) (c : Channel) (hd : c.dropping = false) :
    c.overflow line = ({ c with dropping := true, cutLine := line }, some line) := by
  simp [Channel.overflow, hd]

/-- A line cut while dropping is set is reported unless it was the cut line already (logs 47 and 60). -/
theorem Channel.overflow_of_dropping (line : Option Line) (c : Channel) (hd : c.dropping = true) :
    c.overflow line = ({ c with cutLine := line }, if c.cutLine = line then none else some line) := by
  simp only [Channel.overflow, hd, Bool.true_and, decide_eq_true_eq]

/-! ## The stale words at the head (R21) -/

/-- Nothing is discarded behind a head that is not stale. -/
theorem Channel.discardStale_of_fresh (k : Nat) (la : Line) (c : Channel)
    (h : ∀ w ∈ c.queue.head?, staleLineOf la w = none) : c.discardStale k la = (c, []) := by
  unfold Channel.discardStale
  cases hq : c.queue with
  | nil => simp [dropStale, ← hq]
  | cons w q =>
    have hw : staleLineOf la w = none := h w (by simp [hq])
    simp [dropStale, hw, ← hq]

/-- The line that a notice of a stale word carries: none for a RUN (R21). -/
def ScanWord.noticeLine : ScanWord → Option Line
  | .lineStart l => some l
  | .lineEnd l _ => some l
  | _ => none

/-- A word at the head is stale unless it is a LINE_START of L_a or after it (R21). -/
theorem staleLineOf_eq (la : Line) (w : ScanWord) :
    ((∀ l, w = .lineStart l → 1 ≤ (la - l).toNat ∧ (la - l).toNat ≤ 2 ^ 23 - 1) →
      staleLineOf la w = some w.noticeLine) ∧
    (¬(∀ l, w = .lineStart l → 1 ≤ (la - l).toNat ∧ (la - l).toNat ≤ 2 ^ 23 - 1) → staleLineOf la w = none) := by
  cases w with
  | lineStart l =>
    refine ⟨fun h => ?_, fun h => ?_⟩
    · have hl : lineAfter la l = true := by simpa only [lineAfter, Bool.and_eq_true, decide_eq_true_eq] using h l rfl
      simp [staleLineOf, ScanWord.noticeLine, hl]
    · have hnot : ¬(1 ≤ (la - l).toNat ∧ (la - l).toNat ≤ 2 ^ 23 - 1) := by
        intro hl; exact h fun m hm => by cases hm; exact hl
      have hfresh : lineAfter la l = false := by
        simpa only [lineAfter, Bool.and_eq_false_iff, decide_eq_false_iff_not, not_and_or] using hnot
      simp [staleLineOf, hfresh]
  | _ => exact ⟨fun _ => rfl, fun h => absurd (fun l hl => nomatch hl) h⟩

/-- Stale words that follow a notice of their own event, or one of fewer than 1024 lines before, go in silence. -/
theorem dropStale_of_reported (k : Nat) (la : Line) (left : List ScanWord) (st : Option Line)
    (hst : staleDue la st = false) (hleft : ∀ w ∈ left.head?, staleLineOf la w = none) :
    ∀ gone : List ScanWord, (∀ w ∈ gone, (staleLineOf la w).isSome = true) →
      dropStale k la (gone ++ left) st = (left, st, [])
  | [], _ => by
    cases left with
    | nil => rfl
    | cons w q =>
      have hw : staleLineOf la w = none := hleft w rfl
      simp [dropStale, hw]
  | w :: gone, h => by
    have ih := dropStale_of_reported k la left st hst hleft gone fun v hv => h v (List.mem_cons_of_mem _ hv)
    obtain ⟨l, hl⟩ := Option.isSome_iff_exists.1 (h w List.mem_cons_self)
    simp [dropStale, hl, hst, ih]

theorem staleDue_self (la : Line) : staleDue la (some la) = false := by simp [staleDue]

theorem staleDue_iff (la : Line) (st : Option Line) : staleDue la st = true ↔
    ∀ l, st = some l → 1024 ≤ (la - l).toNat := by
  cases st <;> simp [staleDue]

/-- The stale words at the head go, with one notice of the first of them when one is due. -/
theorem dropStale_of_stale (k : Nat) (la : Line) (first : ScanWord) (gone left : List ScanWord) (st l : Option Line)
    (hfirst : staleLineOf la first = some l) (hgone : ∀ w ∈ gone, (staleLineOf la w).isSome = true)
    (hleft : ∀ w ∈ left.head?, staleLineOf la w = none) :
    dropStale k la (first :: gone ++ left) st =
      if staleDue la st = true then (left, some la, [.notice (.staleWords k l la)]) else (left, st, []) := by
  simp only [List.cons_append, dropStale, hfirst]
  split
  · simp [dropStale_of_reported k la left (some la) (staleDue_self la) hleft gone hgone]
  · rename_i h
    exact dropStale_of_reported k la left st (by simpa using h) hleft gone hgone

theorem Intake.setChan_chan (i : Intake) (k : Nat) : i.setChan k (i.chan k) = i := by
  have hset : i.chans.set k (i.chan k) = i.chans := by
    apply List.ext_getElem?
    intro j
    rw [List.getElem?_set, Intake.chan, List.getD_eq_getElem?_getD]
    split
    · subst j
      split
      · rename_i hlt; simp [hlt]
      · rename_i hge; simp [not_lt.1 hge]
    · rfl
  simp [Intake.setChan, hset]

/-- Settles O19, by the cases of the arrival and of the head discard. -/
theorem scanWordQueued : Obligations.ScanWordQueued := by
  refine ⟨fun ch w code s hw => ?_, fun ch w s hp hw => ?_⟩
  · rw [exec_scanWord, hw, scanWord_headStatus, exec_headStatus]
  dsimp only
  rw [exec_scanWord, State.taken_free _ _ hp, scanWord_queued _ _ s hw]
  generalize decodeScanWord w = sw
  generalize hc : s.sli.chan ch = c
  refine ⟨fun hno => ?_, fun hrun htakes hroom hstart hfresh => ?_, fun hrun htakes hfull hd hfresh => ?_,
    fun hrun htakes hd hstart hfresh => ?_, fun l hl hrun htakes hfull hd hfresh => ?_,
    fun first gone left hrun htakes hroom hstart hqueue hfirst hgone hleft => ?_⟩
  · rw [queueWord_of_not_taken _ _ s (by rw [hc]; exact hno)]
  · have hdiscard := Channel.discardStale_of_fresh ch s.sli.la { c with queue := c.queue ++ [sw], dropping := false }
      hfresh
    rw [queueWord_of_taken ch sw s c _ _ _ _ hc hrun htakes (c.arrive_of_room sw hroom hstart) hdiscard]
    rfl
  · obtain ⟨line, hline, hlast, harrive⟩ : ∃ line, (∀ l, sw = .lineStart l → line = some l) ∧
        ((¬∃ l, sw = .lineStart l) → line = lastLineStart c.queue) ∧ c.arrive sw = c.overflow line := by
      by_cases hs : ∃ l, sw = .lineStart l
      · obtain ⟨l, rfl⟩ := hs
        exact ⟨some l, fun m hm => by cases hm; rfl, fun h => absurd ⟨l, rfl⟩ h, c.arrive_start_of_full l hfull⟩
      · exact ⟨_, fun l hl => absurd ⟨l, hl⟩ hs, fun _ => rfl, c.arrive_of_full sw hfull hd hs⟩
    refine ⟨line, hline, hlast, ?_⟩
    rw [c.overflow_of_clear line hd] at harrive
    rw [queueWord_of_taken ch sw s c _ _ _ _ hc hrun htakes (harrive)
      (Channel.discardStale_of_fresh ch s.sli.la { c with dropping := true, cutLine := line } hfresh)]
    rfl
  · rw [queueWord_of_taken ch sw s c _ _ _ _ hc hrun htakes (c.arrive_of_dropping sw hd hstart)
      (c.discardStale_of_fresh ch s.sli.la hfresh), ← hc, Intake.setChan_chan]
    rfl
  · subst hl
    have harrive := (c.arrive_start_of_full l hfull).trans (c.overflow_of_dropping (some l) hd)
    rw [queueWord_of_taken ch _ s c _ _ _ _ hc hrun htakes (harrive)
      (Channel.discardStale_of_fresh ch s.sli.la { c with cutLine := some l } hfresh)]
    split <;> rfl
  · have hdrop := dropStale_of_stale ch s.sli.la first gone left c.staleLine _
      ((staleLineOf_eq s.sli.la first).1 hfirst)
      (fun v hv => by rw [(staleLineOf_eq s.sli.la v).1 (hgone v hv)]; rfl)
      (fun v hv => (staleLineOf_eq s.sli.la v).2 (hleft v hv))
    have hdiscard : Channel.discardStale ch s.sli.la { c with queue := c.queue ++ [sw], dropping := false } =
        ({ c with queue := left, dropping := false,
                  staleLine := if staleDue s.sli.la c.staleLine = true then some s.sli.la else c.staleLine },
         if staleDue s.sli.la c.staleLine = true then [.notice (.staleWords ch first.noticeLine s.sli.la)]
         else []) := by
      simp only [Channel.discardStale, hqueue, hdrop]
      split <;> rfl
    rw [queueWord_of_taken ch sw s c _ _ _ _ hc hrun htakes (c.arrive_of_room sw hroom hstart) hdiscard]
    refine ⟨fun hdue => ?_, fun hdue => ?_⟩
    · rw [if_pos ((staleDue_iff _ _).2 hdue), if_pos ((staleDue_iff _ _).2 hdue)]
      cases first <;> rfl
    · rw [if_neg (fun h => hdue ((staleDue_iff _ _).1 h)), if_neg (fun h => hdue ((staleDue_iff _ _).1 h))]
      rfl

end Sys2Proof.Machine
end

/-! # The orders SETUP, STOP, CHANNEL and LOAD MASK, and the end of a drain (O42, O44 to O47) -/

section
-- One declaration after the other: a thread for each exceeds the memory that the check allows.
set_option Elab.async false
namespace Sys2Proof.Machine

/-! ## The taking of an order by its command -/

/-- A command that takes an order takes the block in hand (R185). -/
theorem State.taken_order {α : Type} (pick : OrderBody → Option α)
    (act : Block → α → State → State × List StatusWrite) (s : State) (b : Block) (x : α) (hp : s.pinHeld = false)
    (hl : s.sts.state.live = true) (hb : s.exu.phase = .order b) (hx : pick b.body = some x) :
    s.taken (s.takeOrder pick act) = .next (State.issue (act b x (s.cursorTo b))) := by
  rw [State.taken_free _ _ hp, State.takeOrder_some pick act s b x hb hl hx]

theorem exec_stop_of_order (s : State) (b : Block) (hp : s.pinHeld = false) (hl : s.sts.state.live = true)
    (hb : s.exu.phase = .order b) (hx : b.body = .stop) :
    exec .stop s = .next (State.issue (takeStop b (s.cursorTo b))) :=
  State.taken_order OrderBody.stop? (fun b _ => takeStop b) s b () hp hl hb (by rw [hx]; rfl)

theorem exec_channel_of_order (s : State) (b : Block) (en dis : BitVec 16) (hp : s.pinHeld = false)
    (hl : s.sts.state.live = true) (hb : s.exu.phase = .order b) (hx : b.body = .channel en dis) :
    exec .channel s = .next (State.issue (takeChannel b en dis (s.cursorTo b))) :=
  State.taken_order OrderBody.channel? (fun b p => takeChannel b p.1 p.2) s b (en, dis) hp hl hb (by rw [hx]; rfl)

theorem exec_loadMask_of_order (s : State) (b : Block) (es : List MaskSpec) (hp : s.pinHeld = false)
    (hl : s.sts.state.live = true) (hb : s.exu.phase = .order b) (hx : b.body = .loadMask es) :
    exec .loadMask s = .next (State.issue (takeLoadMask b es (s.cursorTo b))) :=
  State.taken_order OrderBody.loadMask? takeLoadMask s b es hp hl hb (by rw [hx]; rfl)

/-! ## The mask table (R29, R30) -/

theorem validMasks_cons_none (ms : List (Option MaskEntry)) : validMasks (none :: ms) = validMasks ms := rfl
theorem validMasks_cons_some (m : MaskEntry) (ms : List (Option MaskEntry)) :
    validMasks (some m :: ms) = m :: validMasks ms := rfl

/-- Filling with nothing changes nothing. -/
theorem fillMask_nil : ∀ ms : List (Option MaskEntry), fillMask ms [] = ms
  | [] => rfl
  | m :: ms => by simp [fillMask, fillMask_nil ms]

/-- Entries put into the free places: those of a test that holds of none of them stay, and those of a test that none
of the valid ones passes are the new ones in order, where they find room. -/
theorem fillMask_filter (p : MaskEntry → Bool) : ∀ (ms : List (Option MaskEntry)) (es : List MaskEntry),
    (validMasks ms).length + es.length ≤ ms.length →
    ((∀ e ∈ es, p e = false) → (validMasks (fillMask ms es)).filter p = (validMasks ms).filter p) ∧
    ((∀ e ∈ es, p e = true) → (∀ m ∈ validMasks ms, p m = false) → (validMasks (fillMask ms es)).filter p = es)
  | [], es, h => by
    obtain rfl : es = [] := List.eq_nil_of_length_eq_zero (by simp only [List.length_nil] at h; omega)
    simp [fillMask, validMasks]
  | m :: ms, [], _ => by
    rw [fillMask_nil]
    refine ⟨fun _ => rfl, fun _ hm => ?_⟩
    simpa using hm
  | some m :: ms, e :: es, h => by
    simp only [validMasks_cons_some, List.length_cons] at h
    obtain ⟨hkeep, hnew⟩ := fillMask_filter p ms (e :: es) (by simp only [List.length_cons]; omega)
    simp only [fillMask, validMasks_cons_some, List.filter_cons]
    refine ⟨fun he => by rw [hkeep he], fun he hm => ?_⟩
    rw [hm m List.mem_cons_self, hnew he fun v hv => hm v (List.mem_cons_of_mem _ hv)]
    rfl
  | none :: ms, e :: es, h => by
    simp only [validMasks_cons_none, List.length_cons] at h
    obtain ⟨hkeep, hnew⟩ := fillMask_filter p ms es (by omega)
    simp only [fillMask, validMasks_cons_some, validMasks_cons_none, List.filter_cons]
    refine ⟨fun he => ?_, fun he hm => ?_⟩
    · rw [he e List.mem_cons_self, hkeep fun v hv => he v (List.mem_cons_of_mem _ hv)]
      rfl
    · rw [he e List.mem_cons_self, hnew (fun v hv => he v (List.mem_cons_of_mem _ hv)) hm]
      rfl

/-- Clearing an origin leaves the valid entries of the other origins. -/
theorem validMasks_clearMask (o : MaskOrigin) : ∀ ms : List (Option MaskEntry),
    validMasks (clearMask o ms) = (validMasks ms).filter (fun m => m.origin ≠ o)
  | [] => rfl
  | none :: ms => validMasks_clearMask o ms
  | some m :: ms => by
    have ih := validMasks_clearMask o ms
    by_cases h : m.origin = o
    · simpa [clearMask, validMasks, h] using ih
    · simpa [clearMask, validMasks, h] using ih

theorem MaskOrigin.ne_run_iff (o : MaskOrigin) : o ≠ .run ↔ o = .setup := by cases o <;> simp

/-- The masks that a LOAD MASK leaves: the SETUP entries as they stood, then its own as RUN entries (R30). -/
theorem loadMask_table (ms : List (Option MaskEntry)) (es : List MaskSpec)
    (hroom : ((validMasks ms).filter (fun m => m.origin = .setup)).length + es.length ≤ ms.length) :
    let mask := fillMask (clearMask .run ms) (es.map (MaskSpec.entry .run))
    (validMasks mask).filter (fun m => m.origin = .setup) = (validMasks ms).filter (fun m => m.origin = .setup) ∧
    (validMasks mask).filter (fun m => m.origin = .run) = es.map (fun m => ⟨m.channel, m.first, m.last, .run⟩) := by
  have hcleared : validMasks (clearMask .run ms) = (validMasks ms).filter (fun m => m.origin = .setup) := by
    simp only [validMasks_clearMask, MaskOrigin.ne_run_iff]
  have hfill := fun p => fillMask_filter p (clearMask .run ms) (es.map (MaskSpec.entry .run))
    (by rw [hcleared, clearMask_length, List.length_map]; exact hroom)
  refine ⟨((hfill _).1 ?_).trans ?_, (hfill _).2 ?_ ?_⟩
  · simp [MaskSpec.entry]
  · rw [hcleared, List.filter_filter]; simp
  · simp [MaskSpec.entry]
  · rw [hcleared]
    intro m hm
    have horigin : m.origin = .setup := by simpa using (List.mem_filter.1 hm).2
    simp [horigin]

/-- When LOAD MASK is refused (R30). -/
theorem maskRefused_iff (s : State) (es : List MaskSpec) (c : Setup) (hs : s.setup = some c) :
    maskRefused s es = true ↔ (∃ m ∈ es, maskOk c.geom m = false) ∨
      32 < ((validMasks s.sli.mask).filter (fun m => m.origin = .setup)).length + es.length := by
  simp only [maskRefused, Bool.or_eq_true, decide_eq_true_eq]
  simp [State.geom, Intake.setupMasks, hs]

theorem maskRefused_of_no_setup (s : State) (es : List MaskSpec) (hs : s.setup = none) : maskRefused s es = true := by
  simp [maskRefused, hs]

theorem issue_takeLoadMask_of_refused (b : Block) (es : List MaskSpec) (s : State) (h : maskRefused s es = true) :
    State.issue (takeLoadMask b es s) = s.writeStatus ⟨b.addr, b.notify, 3, 4, []⟩ := by
  unfold takeLoadMask; rw [if_pos h]; rfl

/-- Settles O47, from the masks that a LOAD MASK leaves. -/
theorem loadMaskReplacesRunEntries : Obligations.LoadMaskReplacesRunEntries := by
  intro s c b es hp hl hb hx hmask
  dsimp only
  rw [exec_loadMask_of_order s b es hp hl hb hx]
  refine ⟨fun hs => ?_, fun hs hno => ?_, fun hs hok hroom => ?_⟩
  · rw [issue_takeLoadMask_of_refused b es _ (maskRefused_of_no_setup (s.cursorTo b) es hs)]
  · rw [issue_takeLoadMask_of_refused b es _ ((maskRefused_iff (s.cursorTo b) es c hs).2 hno)]
  · have haccepted : ¬maskRefused (s.cursorTo b) es = true := by
      rw [maskRefused_iff (s.cursorTo b) es c hs]
      rintro (⟨m, hm, hbad⟩ | hfull)
      · simp [hok m hm] at hbad
      · exact absurd hfull (not_lt.2 hroom)
    obtain ⟨hkept, hnew⟩ := loadMask_table s.sli.mask es (by rw [hmask]; exact hroom)
    refine ⟨fillMask (clearMask .run s.sli.mask) (es.map (MaskSpec.entry .run)), ?_, by simp [hmask], hkept, hnew⟩
    unfold takeLoadMask
    rw [if_neg haccepted]
    rfl

/-! ## CHANNEL (R31 to R33) -/

/-- A channel of a list that another list maps, place by place. -/
theorem Intake.chan_of_map (i j : Intake) (k : Nat) (g : Channel → Channel) (hk : k < i.chans.length)
    (h : j.chans[k]? = i.chans[k]?.map g) : j.chan k = g (i.chan k) := by
  have hold : i.chans[k]? = some i.chans[k] := List.getElem?_eq_getElem hk
  simp only [Intake.chan, List.getD_eq_getElem?_getD, h, hold, Option.map_some, Option.getD_some]

/-- A channel of a list from which named channels were turned off. -/
theorem Intake.chan_of_turnOff (i j : Intake) (names : Nat → Bool) (line : Line) (k : Nat)
    (hj : j.chans = (turnOffFrom names line 0 i.chans).1) (hk : k < i.chans.length) :
    j.chan k = if names k = true ∧ (i.chan k).state ≠ .off then (i.chan k).toOff else i.chan k := by
  have h := turnOffFrom_getElem? names line 0 i.chans k
  rw [Nat.zero_add, ← hj] at h
  exact Intake.chan_of_map i j k (fun c => if names k = true ∧ c.state ≠ .off then c.toOff else c) hk h

/-- What the enable of a channel leaves: a channel that takes words as it was, else FAULTED while its link reports
loss, else SETTLING or ACTIVE (R31). -/
theorem Channel.enable_spec (n k : Nat) (lost : Bool) (la : Line) (c : Channel) :
    (c.state.takesWords = true → (c.enable n k lost la).1 = c) ∧
    (c.state.takesWords = false → lost = true →
      (c.enable n k lost la).1.state = .faulted ∧ (c.enable n k lost la).1.why = some .linkLost) ∧
    (c.state.takesWords = false → lost = false →
      (c.enable n k lost la).1.state = (if n = 0 then .active else .settling) ∧
      (c.enable n k lost la).1.settle = 0 ∧ (c.enable n k lost la).1.why = none) := by
  unfold Channel.enable
  refine ⟨fun h => by rw [if_pos h], fun h hlost => ?_, fun h hlost => ?_⟩
  · rw [if_neg (by simp [h]), if_pos hlost]
    split
    · rename_i hsame; simpa using hsame
    · exact ⟨rfl, rfl⟩
  · rw [if_neg (by simp [h]), if_neg (by simp [hlost])]
    exact ⟨rfl, rfl, rfl⟩

/-- When CHANNEL is refused (R31). -/
theorem channelRefused_iff (s : State) (c : Setup) (en dis : BitVec 16) (hs : s.setup = some c) :
    channelRefused s en dis = true ↔ en &&& dis ≠ 0 ∨
      ∃ k < 16, (en ||| dis).getLsbD k = true ∧ (geomAt c.geom k).installed = false := by
  simp [channelRefused, State.geom, hs, inSet]

/-- What the enables leave of an intake (R31). -/
def Intake.enabled (settleLines : Nat) (en lost : BitVec 16) (i : Intake) : Intake :=
  { i with chans := (enableFrom settleLines en lost i.la 0 i.chans).1 }

/-- What the disables leave of an intake (R32). -/
def Intake.disabled (dis : BitVec 16) (i : Intake) : Intake :=
  { i with chans := (turnOffFrom (inSet dis) i.la 0 i.chans).1 }

theorem Intake.enabled_chan (n : Nat) (en lost : BitVec 16) (i : Intake) (k : Nat) (hk : k < i.chans.length) :
    (i.enabled n en lost).chan k =
      if en.getLsbD k = true then ((i.chan k).enable n k (lost.getLsbD k) i.la).1 else i.chan k := by
  have h := enableFrom_getElem? n en lost i.la 0 i.chans k
  rw [Nat.zero_add] at h
  exact Intake.chan_of_map i (i.enabled n en lost) k
    (fun c => if en.getLsbD k = true then (c.enable n k (lost.getLsbD k) i.la).1 else c) hk h

theorem Intake.disabled_chan (dis : BitVec 16) (i : Intake) (k : Nat) (hk : k < i.chans.length) :
    (i.disabled dis).chan k = if dis.getLsbD k = true ∧ (i.chan k).state ≠ .off then (i.chan k).toOff else i.chan k :=
  i.chan_of_turnOff (i.disabled dis) (inSet dis) i.la k rfl hk

/-- What the enables of a CHANNEL leave of one channel (R31). -/
theorem Intake.enabled_spec (n : Nat) (en lost : BitVec 16) (i : Intake) (k : Nat) (hk : k < i.chans.length) :
    let old := i.chan k
    let new := (i.enabled n en lost).chan k
    (en.getLsbD k = true → old.state.takesWords = true → new = old) ∧
    (en.getLsbD k = true → old.state.takesWords = false → lost.getLsbD k = true →
      new.state = .faulted ∧ new.why = some .linkLost) ∧
    (en.getLsbD k = true → old.state.takesWords = false → lost.getLsbD k = false →
      new.state = (if n = 0 then .active else .settling) ∧ new.settle = 0 ∧ new.why = none) ∧
    (en.getLsbD k = false → new = old) := by
  obtain ⟨hkeep, hlost, hfresh⟩ := (i.chan k).enable_spec n k (lost.getLsbD k) i.la
  intro old new
  have hnew : new = _ := i.enabled_chan n en lost k hk
  rw [hnew]
  refine ⟨fun h => ?_, fun h => ?_, fun h => ?_, fun h => if_neg (by simp [h])⟩
  · rw [if_pos h]; exact hkeep
  · rw [if_pos h]; exact hlost
  · rw [if_pos h]; exact hfresh

theorem Intake.disabled_none (i : Intake) (k : Nat) (hk : k < i.chans.length) (dis : BitVec 16)
    (h : dis.getLsbD k = false) : (i.disabled dis).chan k = i.chan k := by
  rw [i.disabled_chan dis k hk, if_neg (by simp [h])]

theorem Intake.disabled_off (i : Intake) (k : Nat) (hk : k < i.chans.length) (dis : BitVec 16)
    (h : dis.getLsbD k = true) : ((i.disabled dis).chan k).state = .off := by
  rw [i.disabled_chan dis k hk]
  split
  · rfl
  · rename_i hoff; simpa [h] using hoff

/-- An accepted CHANNEL without a disable set is DONE after its enables (R31). -/
theorem takeChannel_of_no_disable (b : Block) (en : BitVec 16) (s : State) (c : Setup) (hs : s.setup = some c)
    (hok : ¬channelRefused s en 0 = true) : ∃ rs, takeChannel b en 0 s =
      (State.report rs { s with sli := s.sli.enabled c.settleLines en s.inputs.linkLost }, [b.done]) := by
  unfold takeChannel takeDisable
  rw [if_neg hok, hs]
  exact ⟨_, rfl⟩

/-- In a run the disable set waits in the table (R32). -/
theorem takeChannel_of_run (b : Block) (en dis : BitVec 16) (s : State) (c : Setup) (hs : s.setup = some c)
    (hok : ¬channelRefused s en dis = true) (hdis : dis ≠ 0) (hrun : s.sts.state.run = true) : ∃ rs,
      takeChannel b en dis s =
      ({ State.report rs { s with sli := s.sli.enabled c.settleLines en s.inputs.linkLost } with
          oru := s.oru.enter b (.channel dis s.sli.la) }, [b.taken s.oru.nextTake]) := by
  unfold takeChannel takeDisable
  rw [if_neg hok, hs, if_neg hdis, if_pos (by exact hrun)]
  exact ⟨_, rfl⟩

/-- In IDLE the disable set acts at once (R32). -/
theorem takeChannel_of_idle (b : Block) (en dis : BitVec 16) (s : State) (c : Setup) (hs : s.setup = some c)
    (hok : ¬channelRefused s en dis = true) (hdis : dis ≠ 0) (hidle : s.sts.state = .idle) : ∃ rs rs',
      takeChannel b en dis s = (State.report rs' (State.report rs { s with
        sli := (s.sli.enabled c.settleLines en s.inputs.linkLost).disabled dis }), [b.done]) := by
  unfold takeChannel takeDisable
  rw [if_neg hok, hs, if_neg hdis, if_neg (by simp [hidle, PartState.run])]
  exact ⟨_, _, rfl⟩

/-- Settles O46, by whether there is a disable set and whether it acts at once. -/
theorem channelEnablesAndDisables : Obligations.ChannelEnablesAndDisables := by
  intro s c b en dis hp hl hb hx hs hlen
  rw [exec_channel_of_order s b en dis hp hl hb hx]
  have hrefused := channelRefused_iff (s.cursorTo b) c en dis hs
  refine ⟨fun hno => ?_, fun hdisjoint hinstalled => ⟨_, rfl, ?_⟩⟩
  · unfold takeChannel
    rw [if_pos (hrefused.2 hno)]
    rfl
  have hok : ¬channelRefused (s.cursorTo b) en dis = true := by
    rw [hrefused]
    rintro (h | ⟨k, hk, hbit, hnot⟩)
    · exact h hdisjoint
    · simp [hinstalled k hk hbit] at hnot
  have happart : ∀ k, en.getLsbD k = true → dis.getLsbD k = false := by
    intro k hen
    have h := congrArg (fun v => v.getLsbD k) hdisjoint
    simpa [hen] using h
  have henabled := fun k (hk : k < 16) => s.sli.enabled_spec c.settleLines en s.inputs.linkLost k (hlen ▸ hk)
  have henlen : (s.sli.enabled c.settleLines en s.inputs.linkLost).chans.length = 16 := by simp [Intake.enabled, hlen]
  by_cases hdis : dis = 0
  · subst hdis
    obtain ⟨rs, htake⟩ := takeChannel_of_no_disable b en (s.cursorTo b) c hs hok
    rw [htake]
    refine ⟨fun k hk => ?_, fun _ => ⟨rfl, rfl⟩, fun h => absurd rfl h,
      rfl, rfl, rfl, rfl, rfl, rfl, rfl, rfl, rfl, rfl, rfl⟩
    obtain ⟨hkeep, hlost, hfresh, hother⟩ := henabled k hk
    exact ⟨hkeep, hlost, hfresh, fun hen _ => hother hen, by simp, by simp⟩
  by_cases hidle : s.sts.state = .idle
  · obtain ⟨rs, rs', htake⟩ := takeChannel_of_idle b en dis (s.cursorTo b) c hs hok hdis hidle
    rw [htake]
    refine ⟨fun k hk => ?_, fun _ => ⟨rfl, rfl⟩, fun _ h => absurd hidle h,
      rfl, rfl, rfl, rfl, rfl, rfl, rfl, rfl, rfl, rfl, rfl⟩
    obtain ⟨hkeep, hlost, hfresh, hother⟩ := henabled k hk
    have hnone := Intake.disabled_none _ k (henlen ▸ hk) dis
    have hoff := Intake.disabled_off _ k (henlen ▸ hk) dis
    exact ⟨fun hen => (hnone (happart k hen)).symm ▸ hkeep hen, fun hen => (hnone (happart k hen)).symm ▸ hlost hen,
      fun hen => (hnone (happart k hen)).symm ▸ hfresh hen, fun hen hd => (hnone hd).trans (hother hen),
      fun hd _ => hoff hd, fun _ h => absurd hidle h⟩
  · have hrun : s.sts.state.run = true := by
      revert hl hidle; cases s.sts.state <;> simp [PartState.live, PartState.run]
    obtain ⟨rs, htake⟩ := takeChannel_of_run b en dis (s.cursorTo b) c hs hok hdis hrun
    rw [htake]
    refine ⟨fun k hk => ?_, fun h => (h.elim hdis hidle).elim, fun _ _ => ⟨rfl, rfl, rfl⟩,
      rfl, rfl, rfl, rfl, rfl, rfl, rfl, rfl, rfl, rfl, rfl⟩
    obtain ⟨hkeep, hlost, hfresh, hother⟩ := henabled k hk
    refine ⟨hkeep, hlost, hfresh, fun hen _ => hother hen, fun _ h => absurd h hidle, fun hd _ => hother ?_⟩
    by_contra hen
    simp [happart k (by simpa using hen)] at hd

/-! ## SETUP (R16, R29, R36, R117, R167, R169) -/

theorem clampK_spec (n : Nat) : 4 ≤ clampK n ∧ clampK n ≤ 64 ∧ (n = 0 → clampK n = 16) ∧
    (1 ≤ n → n < 4 → clampK n = 4) ∧ (4 ≤ n → n ≤ 64 → clampK n = n) ∧ (64 < n → clampK n = 64) := by
  unfold clampK; split <;> omega

theorem clampSettle_spec (n : Nat) : clampSettle n ≤ 4095 ∧ (n = 0xFFFF → clampSettle n = 64) ∧
    (n ≤ 4095 → clampSettle n = n) ∧ (4095 < n → n ≠ 0xFFFF → clampSettle n = 4095) := by
  unfold clampSettle; split <;> omega

theorem clampJoinTol_spec (n : Nat) : clampJoinTol n ≤ 2000 ∧ (n = 0xFFFF → clampJoinTol n = 50) ∧
    (n ≤ 2000 → clampJoinTol n = n) ∧ (2000 < n → n ≠ 0xFFFF → clampJoinTol n = 2000) := by
  unfold clampJoinTol; split <;> omega

theorem clampCloseGap_spec (n : Nat) : clampCloseGap n ≤ 15 ∧ (n = 0xFFFF → clampCloseGap n = 2) ∧
    (n ≤ 15 → clampCloseGap n = n) ∧ (15 < n → n ≠ 0xFFFF → clampCloseGap n = 15) := by
  unfold clampCloseGap; split <;> omega

theorem clampBlobLines_spec (n : Nat) : 256 ≤ clampBlobLines n ∧ (n = 0 → clampBlobLines n = 20000) ∧
    (1 ≤ n → n < 256 → clampBlobLines n = 256) ∧ (256 ≤ n → clampBlobLines n = n) := by
  unfold clampBlobLines; split <;> omega

theorem clampFlush_spec (n : Nat) : 1 ≤ clampFlush n ∧ clampFlush n ≤ 1000 ∧ (n = 0 → clampFlush n = 20) ∧
    (1 ≤ n → n ≤ 1000 → clampFlush n = n) ∧ (1000 < n → clampFlush n = 1000) := by
  unfold clampFlush; split <;> omega

/-- The scrap code of a setup that passes its checks fits its field. -/
theorem SetupBody.scrapCode_toNat (x : SetupBody) (h : x.fieldsOk = true) :
    (BitVec.ofNat 3 x.scrapCode).toNat = x.scrapCode := by
  obtain ⟨-, -, -, -, hcgc, -⟩ := x.fieldsOk_iff.1 h
  have hle := (x.cgcOk_iff.1 hcgc).2
  rw [BitVec.toNat_ofNat]
  omega

/-- The entries of a SETUP are the whole table (R29). -/
theorem SetupBody.validMasks_maskTable (x : SetupBody) (h : x.masks.length ≤ 32) :
    validMasks x.maskTable = x.masks.map (fun m => ⟨m.channel, m.first, m.last, .setup⟩) := by
  have hnone : validMasks (List.replicate 32 none) = [] := rfl
  have hfill := (fillMask_filter (fun _ => true) (List.replicate 32 none) (x.masks.map (MaskSpec.entry .setup))
    (by rw [hnone, List.length_map, List.length_replicate]; exact Nat.le_trans (Nat.le_of_eq (Nat.zero_add _)) h)).2
    (fun _ _ => rfl) (by rw [hnone]; exact fun _ hm => nomatch hm)
  rw [List.filter_true] at hfill
  exact hfill

/-- What an accepted SETUP leaves of a channel (R169). -/
theorem Intake.chan_of_setup (i j : Intake) (gs : List Geometry) (k : Nat) (hk : k < i.chans.length)
    (hj : j.chans = (turnOffFrom (fun k => !(geomAt gs k).installed) i.la 0 i.chans).1) :
    ((geomAt gs k).installed = true → j.chan k = i.chan k) ∧
    ((geomAt gs k).installed = false → (j.chan k).state = .off) := by
  rw [i.chan_of_turnOff j _ i.la k hj hk]
  refine ⟨fun h => if_neg (by simp [h]), fun h => ?_⟩
  split
  · rfl
  · rename_i hoff; simpa [h] using hoff

theorem Cutter.setPorts_getD (p : BitVec 4) (g : Cutter) (k : Nat) (hk : k < g.ports.length) :
    (g.setPorts p).ports.getD k 0 = if p.getLsbD k = true then g.ports.getD k 0 else 0 := by
  simp [Cutter.setPorts, List.getD_eq_getElem?_getD, List.getElem?_mapIdx, List.getElem?_eq_getElem hk]

/-- An accepted SETUP is applied and DONE (R169). -/
theorem issue_takeSetup_of_accepted (b : Block) (x : SetupBody) (s : State) (h : setupRefusal s x = none) :
    ∃ rs, State.issue (takeSetup b x s) = (State.report rs { s with
      setup := some x.setup
      sli := { s.sli with
        chans := (turnOffFrom (fun k => !(geomAt x.geom k).installed) s.sli.la 0 s.sli.chans).1, mask := x.maskTable }
      cgc := s.cgc.setPorts x.ports }).writeStatus b.done := by
  unfold takeSetup
  rw [h]
  exact ⟨_, rfl⟩

/-- Settles O42, from what the clamps, the masks and the channels become. -/
theorem setupAccepted : Obligations.SetupAccepted := by
  intro s b x hp hidle hb hx hcuts hfields hspan hmasks hlen hports
  have haccepted : setupRefusal (s.cursorTo b) x = none := by
    rw [setupRefusal_of_no_cut (s.cursorTo b) x hidle hcuts, if_neg (by simp [hfields]), if_neg (by omega)]
  obtain ⟨rs, htake⟩ := issue_takeSetup_of_accepted b x (s.cursorTo b) haccepted
  have hexec := exec_setup_of_order s b x hp (by rw [hidle]; rfl) hb hx
  rw [htake] at hexec
  obtain ⟨hk₁, hk₂, hk₃, hk₄, hk₅, hk₆⟩ := clampK_spec x.deadline
  obtain ⟨hs₁, hs₂, hs₃, hs₄⟩ := clampSettle_spec x.settleLines
  obtain ⟨hj₁, hj₂, hj₃, hj₄⟩ := clampJoinTol_spec x.joinTol
  obtain ⟨hg₁, hg₂, hg₃, hg₄⟩ := clampCloseGap_spec x.closeGap
  obtain ⟨hb₁, hb₂, hb₃, hb₄⟩ := clampBlobLines_spec x.maxBlobLines
  obtain ⟨hf₁, hf₂, hf₃, hf₄, hf₅⟩ := clampFlush_spec x.flushTime
  refine ⟨_, x.setup, hexec, rfl, rfl, rfl, rfl, rfl, rfl, rfl, rfl, rfl, Nat.mul_comm .., Nat.mul_comm ..,
    Nat.mul_comm .., Nat.mul_comm .., Nat.mul_comm .., Nat.mul_comm .., Nat.mul_comm .., Nat.mul_comm ..,
    Nat.mul_comm .., Nat.mul_comm .., Nat.mul_comm .., rfl, x.scrapCode_toNat hfields, rfl, rfl, rfl,
    hk₁, hk₂, hk₃, hk₄, hk₅, hk₆, hs₁, hs₂, hs₃, hs₄, hj₁, hj₂, hj₃, hj₄, hg₁, hg₂, hg₃, hg₄, hb₁, hb₂, hb₃, hb₄,
    hf₁, hf₂, hf₃, hf₄, hf₅, x.validMasks_maskTable hmasks, ?_, rfl, ?_,
    rfl, ?_, ?_, rfl, rfl, rfl, rfl, rfl, rfl, rfl, rfl, rfl⟩
  · exact fun k hk => s.sli.chan_of_setup _ x.geom k (by omega) rfl
  · exact fun k hk => s.cgc.setPorts_getD x.ports k (by omega)
  · simp
  · simp

/-! ## The end of a drain (R172, R173) -/

/-- When the end of the drain is due (R172). -/
theorem State.drainEnded_iff (s : State) :
    s.drainEnded = true ↔ (s.fas.yFin - s.rpl.drainEnd).toNat < 2 ^ 31 ∧ s.rpl.rows = [] := by
  simp only [State.drainEnded, State.drainCondition, Bool.and_eq_true, List.isEmpty_iff, reaches,
    decide_eq_true_eq]

theorem Entry.isStop_iff (e : Entry) : e.isStop = true ↔ e.work = .stop := by
  unfold Entry.isStop; split <;> simp_all

/-- A STOP entry is no CHANNEL entry. -/
theorem Entry.disable?_of_stop (e : Entry) (h : e.work = .stop) : e.disable? = none := by
  unfold Entry.disable?; rw [h]

/-- The memory after the statuses of a list of entries that complete. -/
theorem State.writeStatuses_host (ws : List StatusWrite) (s : State) :
    (s.writeStatuses ws).host = ws.foldl Memory.writeStatus s.host := by
  induction ws generalizing s with
  | nil => rfl
  | cons w ws ih => rw [State.writeStatuses_cons, ih, State.writeStatus_host, List.foldl_cons]

/-- What the end of a drain leaves of one channel (R34, R173). -/
def Channel.drainEnd (ds : List (BitVec 16)) (k : Nat) (c : Channel) : Channel :=
  if ds.any (fun d => d.getLsbD k) = true ∧ c.state ≠ .off then c.drained.toOff else c.drained

theorem Channel.drainEnd_spec (ds : List (BitVec 16)) (k : Nat) (c : Channel) :
    (c.drainEnd ds k).queue = [] ∧ (c.drainEnd ds k).dropping = false ∧ (c.drainEnd ds k).cutLine = none ∧
    (c.drainEnd ds k).state = if ds.any (fun d => d.getLsbD k) = true then .off else c.state := by
  unfold Channel.drainEnd
  split
  · rename_i h; exact ⟨rfl, rfl, rfl, (if_pos h.1).symm⟩
  · rename_i h
    refine ⟨rfl, rfl, rfl, ?_⟩
    split
    · rename_i hnamed; simpa [hnamed, Channel.drained] using h
    · rfl

theorem State.endDrain_chan (s : State) (k : Nat) (hk : k < s.sli.chans.length) :
    s.endDrain.1.sli.chan k = (s.sli.chan k).drainEnd (disableSets s.oru.table) k := by
  refine Intake.chan_of_map s.sli s.endDrain.1.sli k (Channel.drainEnd (disableSets s.oru.table) k) hk ?_
  have h := turnOffSets_getElem? s.sli.la (disableSets s.oru.table) (s.sli.chans.map Channel.drained) k
  rw [List.getElem?_map, Option.map_map] at h
  exact h

/-- The statuses that the end of a drain writes (R173). -/
def State.drainStatuses (s : State) : List StatusWrite :=
  (s.oru.table.filter (fun e => e.disable?.isSome)).map Entry.done ++ (s.oru.table.filter Entry.isStop).map Entry.done

/-- The end of a drain, but for its channels and its records (R34, R54, R70, R173). -/
theorem State.endDrain_fields (s : State) :
    s.endDrain.1.sts = { s.sts with state := .idle } ∧ s.endDrain.1.sli.la = s.sli.la ∧
    s.endDrain.1.sli.mask = s.sli.mask ∧
    s.endDrain.1.fas = s.fas.drained (yOf s.pos ((s.setup.map Setup.pitch).getD 0) s.sli.la) ∧
    s.endDrain.1.rbm = s.rbm.drained ∧ s.endDrain.1.stu = s.stu.toCurrent (Tally.addUnplaced s.rbm.held) ∧
    s.endDrain.1.oru = { s.oru with table := s.oru.table.filter (fun e => e.disable?.isNone && !e.isStop) } ∧
    s.endDrain.1.host = s.host ∧ s.endDrain.2 = s.drainStatuses :=
  ⟨rfl, rfl, rfl, rfl, rfl, rfl, rfl, rfl, rfl⟩

theorem State.endDrain_exu (s : State) : s.endDrain.1.exu.phase = s.exu.phase ∧
    s.endDrain.1.exu.filling = s.exu.filling ∧ s.endDrain.1.exu.detachPending = s.exu.detachPending := by
  simp [State.endDrain]

/-- A pending detach is taken when no poll is in progress; with no page filling it changes the part state and the two
detach flags alone (R173, R183). -/
theorem State.pendingDetach_of_idle (s : State) (hphase : s.exu.phase = .idle) (hfilling : s.exu.filling = none) :
    s.pendingDetach = if s.exu.detachPending = true then
      { s with sts := { s.sts with state := .detached }
               exu := { s.exu with detachPending := false, detachDeferred := false } } else s := by
  unfold State.pendingDetach State.detachDue State.doDetach State.closePage Exchange.polling
  simp [hphase, hfilling]

/-- With no page filling and no poll, a detach pending changes the part state and the exchange unit alone. -/
theorem State.pendingDetach_spec (s : State) (hphase : s.exu.phase = .idle) (hfilling : s.exu.filling = none) :
    ∃ e : Exchange, e.detachPending = false ∧ s.pendingDetach = { s with
      sts := { s.sts with state := if s.exu.detachPending = true then .detached else s.sts.state }, exu := e } := by
  rw [s.pendingDetach_of_idle hphase hfilling]
  split
  · exact ⟨_, rfl, rfl⟩
  · rename_i h; exact ⟨s.exu, by simpa using h, rfl⟩

/-- The map's flaws and folded counts go to the unplaced count (R70, R154). -/
theorem TallyUnit.toCurrent_addUnplaced (u : TallyUnit) (m : RibbonMap) :
    u.toCurrent (Tally.addUnplaced m.held) = { u with current := { u.current with
      unplaced := u.current.unplaced + BitVec.ofNat 64 (m.flaws.length + (m.unseen.map Interval.folded).sum) } } := rfl

/-- The statuses of the end of a drain whose table holds the STOP alone. -/
theorem State.drainStatuses_of_lone_stop (s : State) (e : Entry) (ht : s.oru.table = [e]) (he : e.work = .stop) :
    s.drainStatuses = [e.done] := by
  simp [State.drainStatuses, ht, e.disable?_of_stop he, e.isStop_iff.2 he]

/-- Settles O45. -/
theorem endOfDrainReturnsIdle : Obligations.EndOfDrainReturnsIdle := by
  intro s c hp hc hdrain hfin hrows hlen hfilling hphase
  have hover : s.drainOver = true := by simp [State.drainOver, hdrain, s.drainEnded_iff.2 ⟨hfin, hrows⟩]
  have hexec : exec .endOfDrain s = .next (State.issue s.endDrain).pendingDetach :=
    (State.taken_free _ _ hp).trans (congrArg _ (if_pos hover))
  obtain ⟨hephase, hefilling, hepending⟩ := s.endDrain_exu
  obtain ⟨hsts, hla, hmask, hfas, hrbm, hstu, horu, hhost, hstatuses⟩ := s.endDrain_fields
  obtain ⟨e, hpending, ht⟩ := (State.issue s.endDrain).pendingDetach_spec
    (by simp [State.issue, hephase, hphase]) (by simp [State.issue, hefilling, hfilling])
  rw [ht] at hexec
  have hsli : (State.issue s.endDrain).sli = s.endDrain.1.sli := by simp [State.issue]
  refine ⟨_, hexec, ?_, hpending, fun k hk => ?_, ?_, ?_, ?_, ?_, ?_, ?_, fun x hx hwork => ⟨?_, ?_⟩,
    ?_, ?_, ?_, ?_, ?_, ?_⟩
  · simp [State.issue, hsts, hepending]
  · have h := s.endDrain_chan k (by omega)
    dsimp only
    rw [hsli, h]
    exact Channel.drainEnd_spec _ _ _
  · exact (congrArg Intake.la hsli).trans hla
  · exact (congrArg Intake.mask hsli).trans hmask
  · simpa [State.issue, Assembler.drained, hc] using hfas
  · simpa [State.issue, RibbonMap.drained] using hrbm
  · simpa [State.issue, TallyUnit.toCurrent_addUnplaced] using hstu
  · simpa [State.issue] using horu
  · simp only [State.issue, State.writeStatuses_host, hstatuses, hhost, s.drainStatuses_of_lone_stop x hx hwork]
    rfl
  · simp [State.issue, horu, hx, x.isStop_iff.2 hwork]
  all_goals simp [State.issue]

/-! ## STOP (R114, R171) -/

/-- The head cut of a STOP: withdrawn when no row has been placed (R114, R118). -/
theorem Cutter.withdrawHead_eq (placed : Bool) (g : Cutter) : g.withdrawHead placed =
    { g with armed := if placed = true then g.armed else g.armed.filter (fun a => a.row ≠ 0) } := by
  unfold Cutter.withdrawHead
  split <;> rfl

theorem State.stopped_drainEnded_iff (s : State) : s.stopped.drainEnded = true ↔
    (s.fas.yFin - s.rpl.frontier).toNat < 2 ^ 31 ∧ s.rpl.rows = [] := s.stopped.drainEnded_iff

/-- A STOP that ends the drain at once (R173). -/
theorem takeStop_of_ended (b : Block) (s : State) (hrun : s.sts.state = .running) (hend : s.stopped.drainEnded = true) :
    takeStop b s = (s.stopped.endDrain.1, s.stopped.endDrain.2 ++ [b.done]) := by
  unfold takeStop
  rw [if_neg (by simp [hrun])]
  exact if_pos hend

/-- A STOP that enters the table (R171). -/
theorem takeStop_of_draining (b : Block) (s : State) (hrun : s.sts.state = .running)
    (hend : ¬s.stopped.drainEnded = true) :
    takeStop b s = ({ s.stopped with oru := s.oru.enter b .stop }, [b.taken s.oru.nextTake]) := by
  unfold takeStop
  rw [if_neg (by simp [hrun])]
  exact if_neg hend

/-- With no STOP in the table, the CHANNEL orders alone complete at the end of the drain. -/
theorem State.drainStatuses_of_no_stop (s : State) (h : ∀ e ∈ s.oru.table, e.work ≠ .stop) :
    s.drainStatuses = (s.oru.table.filter (fun e => e.disable?.isSome)).map Entry.done ∧
    s.oru.table.filter (fun e => e.disable?.isNone && !e.isStop) = s.oru.table.filter (fun e => e.disable?.isNone) := by
  have hnone : ∀ e ∈ s.oru.table, e.isStop = false := fun e he => by
    rw [Bool.eq_false_iff]
    exact fun hs => h e he (e.isStop_iff.1 hs)
  refine ⟨?_, List.filter_congr fun e he => by simp [hnone e he]⟩
  have hstops : s.oru.table.filter Entry.isStop = [] := List.filter_eq_nil_iff.2 fun e he => by simp [hnone e he]
  simp [State.drainStatuses, hstops]

/-- Settles O44, by the part state and whether the drain ends at once. -/
theorem stopBeginsDrain : Obligations.StopBeginsDrain := by
  intro s b hp hl hb hx
  rw [exec_stop_of_order s b hp hl hb hx]
  refine ⟨fun hno => ?_, fun hrun hwait => ?_, fun hrun hrows hfin hlen hstop => ⟨_, rfl, ?_⟩⟩
  · unfold takeStop
    rw [if_pos (by exact hno)]
    rfl
  · have hend : ¬(s.cursorTo b).stopped.drainEnded = true := by
      rw [State.stopped_drainEnded_iff]
      rintro ⟨hreach, hnil⟩
      exact hwait.elim (fun h => h hnil) (fun h => absurd hreach (not_lt.2 h))
    rw [takeStop_of_draining b (s.cursorTo b) hrun hend]
    simp only [State.stopped, Cutter.withdrawHead_eq]
    rfl
  · have hend := (State.stopped_drainEnded_iff (s.cursorTo b)).2 ⟨hfin, hrows⟩
    rw [takeStop_of_ended b (s.cursorTo b) hrun hend]
    obtain ⟨hephase, hefilling, hepending⟩ := (s.cursorTo b).stopped.endDrain_exu
    obtain ⟨hsts, hla, hmask, hfas, hrbm, hstu, horu, hhost, hstatuses⟩ := (s.cursorTo b).stopped.endDrain_fields
    obtain ⟨hdone, htable⟩ := (s.cursorTo b).stopped.drainStatuses_of_no_stop hstop
    have hsli := State.writeStatuses_sli ((s.cursorTo b).stopped.endDrain.2 ++ [b.done])
      (s.cursorTo b).stopped.endDrain.1
    refine ⟨?_, ?_, ?_, ?_, fun k hk => ?_, ?_, ?_, ?_, ?_, ?_, ?_, ?_, ?_, ?_⟩
    · exact (State.writeStatuses_sts _ _).trans hsts
    · simp [State.issue, State.stopped]
    · simp [State.issue, State.stopped, Cutter.withdrawHead_eq]
    · rw [State.issue_mk, State.writeStatuses_oru, horu, htable]
      rfl
    · have h := (s.cursorTo b).stopped.endDrain_chan k (by exact hlen ▸ hk)
      rw [State.issue_mk, hsli, h]
      exact Channel.drainEnd_spec _ _ _
    · simp [State.issue, hrbm, RibbonMap.drained]
    · simp [State.issue, hrbm, RibbonMap.drained]
    · simp [State.issue, hfas, Assembler.drained]
    · simp [State.issue, hfas, Assembler.drained]
    · simpa [State.issue, TallyUnit.toCurrent_addUnplaced] using hstu
    · rw [State.issue_mk, State.writeStatuses_host, hstatuses, hdone, hhost, List.foldl_append, List.foldl_map]
      rfl
    · simpa [State.issue] using hepending
    · simpa [State.issue] using hephase
    · simpa [State.issue] using hefilling

end Sys2Proof.Machine
end

/-! # The cover of the installed width and the entry of a span (O22) -/

section
-- One declaration after the other: a thread for each exceeds the memory that the check allows.
set_option Elab.async false
namespace Sys2Proof.Machine

/-! ## Ranges -/

/-- A range holds x. -/
def covers (r : Ivl) (x : Nat) : Prop := r.1 ≤ x ∧ x < r.2

theorem ivlMinus_covers (r c : Ivl) (x : Nat) (hr : covers r x) (hc : ¬covers c x) :
    ∃ q ∈ ivlMinus r c, covers q x := by
  obtain ⟨hlo, hhi⟩ := hr
  by_cases hleft : x < c.1
  · exact ⟨(r.1, min r.2 c.1), by simp only [ivlMinus]; rw [if_pos (by omega)]; simp, hlo, by simp; omega⟩
  · have hright : c.2 ≤ x := by
      by_contra h
      exact hc ⟨by omega, by omega⟩
    exact ⟨(max r.1 c.2, r.2), by simp only [ivlMinus]; rw [if_pos (c := max r.1 c.2 < r.2) (by omega)]; simp,
      by simp; omega, hhi⟩

theorem ivlsMinus1_covers (rs : List Ivl) (c : Ivl) (x : Nat) (hr : ∃ r ∈ rs, covers r x) (hc : ¬covers c x) :
    ∃ q ∈ ivlsMinus1 rs c, covers q x := by
  obtain ⟨r, hmem, hcov⟩ := hr
  unfold ivlsMinus1
  split
  · obtain ⟨q, hq, hqx⟩ := ivlMinus_covers r c x hcov hc
    exact ⟨q, List.mem_flatMap.2 ⟨r, hmem, hq⟩, hqx⟩
  · exact ⟨r, hmem, hcov⟩

/-- An x of some ranges that lies in none of several others stays when these are taken away. -/
theorem ivlsMinus_covers (x : Nat) : ∀ (cs rs : List Ivl), (∃ r ∈ rs, covers r x) → (∀ c ∈ cs, ¬covers c x) →
    ∃ q ∈ ivlsMinus rs cs, covers q x
  | [], _, hr, _ => hr
  | c :: cs, rs, hr, hcs =>
    ivlsMinus_covers x cs (ivlsMinus1 rs c) (ivlsMinus1_covers rs c x hr (hcs c List.mem_cons_self))
      (fun d hd => hcs d (List.mem_cons_of_mem _ hd))

/-! ## The spans of a line (R27) -/

/-- The x range of a channel. -/
def Geometry.range (g : Geometry) : Ivl := (g.x0, g.x1)

/-- The spans handed for what is left of a range hold each x of it that was not taken away. -/
theorem handed_covers (k : Nat) (cause : UnseenCause) (x : Nat) (own : Ivl) (left right : List Ivl) (h : covers own x)
    (hleft : ∀ c ∈ left, ¬covers c x) (hright : ∀ c ∈ right, ¬covers c x) :
    ∃ sp ∈ (ivlsMinus (ivlsMinus [own] left) right).map (fun r => (⟨k, r, cause⟩ : Span)), covers sp.x x := by
  obtain ⟨q, hq, hqx⟩ := ivlsMinus_covers x right _
    (ivlsMinus_covers x left [own] ⟨own, List.mem_singleton_self _, h⟩ hleft) hright
  exact ⟨_, List.mem_map.2 ⟨q, hq, rfl⟩, hqx⟩

/-- A channel that does not contribute hands an x of its range that no neighbour which counts covers. -/
theorem Side.spans_covers (ms : List (Option MaskEntry)) (prev : Option (Side × List Span)) (next : Option Side)
    (d : Side)
    (x : Nat) (hoff : d.contributes = false) (hd : covers d.g.range x)
    (hprev : ∀ p ∈ prev, ¬covers p.1.g.range x) (hnext : ∀ q ∈ next, q.contributes = true → ¬covers q.g.range x) :
    ∃ sp ∈ d.spans ms prev next, covers sp.x x := by
  unfold Side.spans
  rw [if_neg (by simp [hoff])]
  refine handed_covers d.k _ x d.g.range _ _ hd ?_ ?_
  · intro c hc
    cases prev with
    | none => cases hc
    | some p =>
      have hmem : c ∈ [p.1.g.range] := by
        dsimp only at hc
        split at hc
        · exact hc
        · cases hc
      exact List.mem_singleton.1 hmem ▸ hprev p rfl
  · intro c hc
    cases next with
    | none => cases hc
    | some q =>
      dsimp only at hc
      split at hc
      · rename_i hon
        exact List.mem_singleton.1 hc ▸ hnext q rfl hon
      · cases hc

/-- An x that some channel covers and no contributing one: the leftmost channel that covers it hands it. -/
theorem spansFrom_covers (ms : List (Option MaskEntry)) (x : Nat) :
    ∀ (ds : List Side) (prev : Option (Side × List Span)),
    (∀ p ∈ prev, ¬covers p.1.g.range x) → (∃ d ∈ ds, covers d.g.range x) →
    (∀ d ∈ ds, d.contributes = true → ¬covers d.g.range x) → ∃ sp ∈ spansFrom ms prev ds, covers sp.x x
  | [], _, _, ⟨_, hd, _⟩, _ => nomatch hd
  | d :: ds, prev, hprev, hex, hon => by
    unfold spansFrom
    by_cases hd : covers d.g.range x
    · have hoff : d.contributes = false := by
        rw [Bool.eq_false_iff]
        exact fun h => hon d List.mem_cons_self h hd
      obtain ⟨sp, hsp, hx⟩ := d.spans_covers ms prev ds.head? x hoff hd hprev
        fun q hq => hon q (List.mem_cons_of_mem _ (List.mem_of_mem_head? hq))
      exact ⟨sp, List.mem_append_left _ hsp, hx⟩
    · obtain ⟨c, hc, hcx⟩ := hex
      have htail : c ∈ ds := (List.mem_cons.1 hc).resolve_left fun h => hd (h ▸ hcx)
      obtain ⟨sp, hsp, hx⟩ := spansFrom_covers ms x ds (some (d, d.spans ms prev ds.head?))
        (by rintro p ⟨⟩; exact hd) ⟨c, htail, hcx⟩ fun q hq => hon q (List.mem_cons_of_mem _ hq)
      exact ⟨sp, List.mem_append_right _ hsp, hx⟩

/-- Channels that follow without a gap cover every x from the first to the last (R16). -/
theorem orderOk_covers (x : Nat) : ∀ (g : Geometry) (gs : List Geometry), orderOk (g :: gs) = true → g.x0 ≤ x →
    x < ((gs.getLast?).map Geometry.x1).getD g.x1 → ∃ h ∈ g :: gs, covers h.range x
  | g, [], _, hlo, hhi => ⟨g, List.mem_cons_self, hlo, hhi⟩
  | g, h :: gs, hok, hlo, hhi => by
    have hpair : pairOk g h = true ∧ orderOk (h :: gs) = true := by
      cases gs with
      | nil => exact ⟨hok, rfl⟩
      | cons k gs =>
        simp only [orderOk, Bool.and_eq_true] at hok
        exact ⟨hok.1.1, hok.2⟩
    by_cases hx : x < g.x1
    · exact ⟨g, List.mem_cons_self, hlo, hx⟩
    · have hnext : h.x0 ≤ x := by
        simp only [pairOk, Bool.and_eq_true, decide_eq_true_eq] at hpair
        omega
      have hlast : x < ((gs.getLast?).map Geometry.x1).getD h.x1 := by
        cases gs with
        | nil => exact hhi
        | cons k gs => simpa [List.getLast?_cons] using hhi
      obtain ⟨c, hc, hcx⟩ := orderOk_covers x h gs hpair.2 hnext hlast
      exact ⟨c, List.mem_cons_of_mem _ hc, hcx⟩

/-- Every x of the installed width lies in the range of an installed channel (R16). -/
theorem installedSpan_covered (gs : List Geometry) (x : Nat) (hok : orderOk ((installedChans gs).map Prod.snd) = true)
    (hx : covers (installedSpan gs) x) : ∃ p ∈ installedChans gs, covers p.2.range x := by
  unfold installedSpan at hx
  split at hx
  · exact absurd hx.2 (Nat.not_lt_zero x)
  · rename_i k g rest heq
    rw [heq] at hok ⊢
    obtain ⟨h, hmem, hh⟩ := orderOk_covers x g (rest.map Prod.snd) hok hx.1
      (by simpa [List.getLast?_map, Option.map_map, Function.comp_def] using hx.2)
    have hmem' : h ∈ ((k, g) :: rest).map Prod.snd := hmem
    obtain ⟨p, hp, rfl⟩ := List.mem_map.1 hmem'
    exact ⟨p, hp, hh⟩

/-- Every x of the installed width is covered by a contributing channel or handed (R27). -/
theorem installed_width_covered (ms : List (Option MaskEntry)) (gs : List Geometry) (js : List Judgment) (x : Nat)
    (hok : orderOk ((installedChans gs).map Prod.snd) = true) (hx : covers (installedSpan gs) x) :
    (∃ d ∈ sidesOf gs js, d.contributes = true ∧ covers d.g.range x) ∨ ∃ sp ∈ unseenSpans ms gs js, covers sp.x x := by
  by_cases hon : ∃ d ∈ sidesOf gs js, d.contributes = true ∧ covers d.g.range x
  · exact .inl hon
  · obtain ⟨p, hp, hpx⟩ := installedSpan_covered gs x hok hx
    refine .inr (spansFrom_covers ms x (sidesOf gs js) none (fun _ h => nomatch h) ⟨_, List.mem_map_of_mem hp, hpx⟩ ?_)
    exact fun d hd h hdx => hon ⟨d, hd, h, hdx⟩

/-! ## The entry of a span (R61 to R63) -/

/-- A span of the line whose y is given continues an interval (R62). -/
def Interval.goesOn (y : Pos) (sp : Span) (i : Interval) : Prop :=
  i.channel = some sp.channel ∧ i.cause = sp.cause ∧ i.xa = sp.x.1 ∧ i.xb = sp.x.2 ∧ i.yEnd = y

theorem Interval.goesOn_iff (y : Pos) (sp : Span) (i : Interval) : (i.channel = some sp.channel && i.cause = sp.cause &&
    i.xa = sp.x.1 && i.xb = sp.x.2 && i.yEnd = y : Bool) = true ↔ i.goesOn y sp := by
  simp [Interval.goesOn, and_assoc]

theorem Interval.goesOn_eq_false (y : Pos) (sp : Span) (i : Interval) (h : ¬i.goesOn y sp) :
    (i.channel = some sp.channel && i.cause = sp.cause && i.xa = sp.x.1 && i.xb = sp.x.2 && i.yEnd = y : Bool) =
    false := by
  rw [Bool.eq_false_iff]
  exact fun h' => h ((i.goesOn_iff y sp).1 h')

/-- A span whose glass has retired is dropped (R62). -/
theorem RibbonMap.takeSpan_of_retired (m : RibbonMap) (y : Pos) (pitch : Nat) (sp : Span)
    (h : (m.retiredEdge - (y + BitVec.ofNat 32 pitch)).toNat < 2 ^ 31) : m.takeSpan y pitch sp = (m, []) :=
  if_pos (decide_eq_true h)

/-- A span lengthens the last interval that it continues (R62). -/
theorem RibbonMap.takeSpan_of_goesOn (m : RibbonMap) (y : Pos) (pitch : Nat) (sp : Span) (front back : List Interval)
    (i : Interval) (h : 2 ^ 31 ≤ (m.retiredEdge - (y + BitVec.ofNat 32 pitch)).toNat)
    (hm : m.unseen = front ++ i :: back) (hi : i.goesOn y sp) (hback : ∀ j ∈ back, ¬j.goesOn y sp) :
    m.takeSpan y pitch sp =
      ({ m with unseen := front ++ { i with yEnd := y + BitVec.ofNat 32 pitch } :: back }, []) := by
  have hlast := lastWhere_some _ i back ((i.goesOn_iff y sp).2 hi) (fun j hj => j.goesOn_eq_false y sp (hback j hj))
    front
  unfold RibbonMap.takeSpan
  rw [if_neg (by simpa [reaches, pu] using h), hm, hlast]
  simp [pu]

/-- A span that continues no interval is entered (R62). -/
theorem RibbonMap.takeSpan_of_new (m : RibbonMap) (y : Pos) (pitch : Nat) (sp : Span)
    (h : 2 ^ 31 ≤ (m.retiredEdge - (y + BitVec.ofNat 32 pitch)).toNat) (hnone : ∀ i ∈ m.unseen, ¬i.goesOn y sp) :
    m.takeSpan y pitch sp =
      m.enter ⟨some sp.channel, sp.x.1, sp.x.2, y, y + BitVec.ofNat 32 pitch, sp.cause, 0, false⟩ := by
  have hlast := lastWhere_none _ m.unseen (fun j hj => j.goesOn_eq_false y sp (hnone j hj))
  unfold RibbonMap.takeSpan
  rw [if_neg (by simpa [reaches, pu] using h), hlast]
  rfl

/-- The two intervals of an entry to a full list merged, with the comparisons spelled (R63). -/
theorem Interval.merge_eq (old i : Interval) : old.merge i = {
    channel := if old.channel = i.channel then old.channel else none
    xa := min old.xa i.xa
    xb := max old.xb i.xb
    yStart := if (i.yStart - old.yStart).toNat < 2 ^ 31 then old.yStart else i.yStart
    yEnd := if (i.yEnd - old.yEnd).toNat < 2 ^ 31 then i.yEnd else old.yEnd
    cause := if old.cause = .saturated ∨ i.cause = .saturated then .saturated else .lapsed
    folded := min (old.folded + i.folded) 65535
    capReported := old.capReported || i.capReported || decide (65535 < old.folded + i.folded) } := by
  simp only [Interval.merge, earlierPos, laterPos, reaches, foldLimit, decide_eq_true_eq, Bool.or_eq_true]
  congr

/-- Replacing the last interval: in its place, or moved to where its y_start belongs (R61). -/
theorem replaceInterval_last (front : List Interval) (old new : Interval) :
    replaceInterval ((front ++ [old]).length - 1) old new (front ++ [old]) =
      if new.yStart = old.yStart then front ++ [new] else insertInterval new front := by
  unfold replaceInterval
  have hlen : (front ++ [old]).length - 1 = front.length := by simp
  rw [hlen]
  split
  · simp
  · congr 1
    rw [List.eraseIdx_append_of_length_le (Nat.le_refl _)]
    simp

/-- An entry to a full list is merged into its last interval (R63; the order of the notices, log 44). -/
theorem RibbonMap.enter_of_full (m : RibbonMap) (i old : Interval) (front : List Interval)
    (hm : m.unseen = front ++ [old])
    (hfull : 256 ≤ m.unseen.length) : m.enter i =
      ({ m with unseen := if (old.merge i).yStart = old.yStart then front ++ [old.merge i]
                          else insertInterval (old.merge i) front, fullReported := true },
       (if 65535 < old.folded + i.folded ∧ old.capReported = false ∧ i.capReported = false
          then [.notice (.foldCountCapped (old.merge i).yStart)] else []) ++
       (if m.fullReported = true then [] else [.notice (.unseenListFull i.yStart 256)])) := by
  unfold RibbonMap.enter
  rw [if_neg (by exact not_lt.2 hfull), hm, List.getLast?_concat]
  dsimp only
  rw [replaceInterval_last]
  have hcap : (decide (foldLimit < old.folded + i.folded) && !old.capReported && !i.capReported) = true ↔
      65535 < old.folded + i.folded ∧ old.capReported = false ∧ i.capReported = false := by
    rw [Bool.and_eq_true, Bool.and_eq_true, decide_eq_true_eq, Bool.not_eq_true', Bool.not_eq_true', and_assoc]
    rfl
  simp only [hcap]
  rfl

/-- Settles O22: the cover, by the leftmost channel over x; the entry of a span, by whether its glass has retired,
whether it continues an interval and whether the list is full. -/
theorem installedWidthIsCovered : Obligations.InstalledWidthIsCovered := by
  refine ⟨fun ms gs js x hok _ hlo hhi => installed_width_covered ms gs js x hok ⟨hlo, hhi⟩, fun m y pitch sp => ?_,
    fun m i => ⟨fun hroom => ?_, fun front old hm hfull => ?_⟩⟩
  · exact ⟨m.takeSpan_of_retired y pitch sp,
      fun h => ⟨fun front i back => m.takeSpan_of_goesOn y pitch sp front back i h,
      m.takeSpan_of_new y pitch sp h⟩⟩
  · obtain ⟨front, back, hlist, hout, hbefore, hafter⟩ := insertInterval_spec i m.unseen
    exact ⟨_, if_pos hroom, front, back, hlist, hout, hbefore, hafter⟩
  · intro new capped full
    have hnew : old.merge i = new := old.merge_eq i
    have henter := m.enter_of_full i old front hm hfull
    rw [hnew] at henter
    refine ⟨_, henter, fun h => if_pos h, fun h => ?_⟩
    obtain ⟨before, after, hlist, hout, hbefore, hafter⟩ := insertInterval_spec new front
    exact ⟨before, after, hlist, (if_neg h).trans hout, hbefore, hafter⟩

end Sys2Proof.Machine
end

/-! # The assembly of a line (O21) -/

section
-- One declaration after the other: a thread for each exceeds the memory that the check allows.
set_option Elab.async false
namespace Sys2Proof.Machine

/-! ## Fronts (R39) -/

/-- Some range of a list holds x. -/
def frontCovers (l : List Ivl) (x : Nat) : Prop := ∃ i ∈ l, covers i x

/-- A front as R39 keeps it: ranges that are not empty, in rising order, none touching the next. -/
def frontSound (l : List Ivl) : Prop := (∀ i ∈ l, i.1 < i.2) ∧ l.Pairwise (fun i j => i.2 < j.1)

theorem frontCovers_cons (c : Ivl) (l : List Ivl) (x : Nat) :
    frontCovers (c :: l) x ↔ covers c x ∨ frontCovers l x := by
  simp [frontCovers]

theorem frontSound_cons (c : Ivl) (l : List Ivl) :
    frontSound (c :: l) ↔ c.1 < c.2 ∧ (∀ j ∈ l, c.2 < j.1) ∧ frontSound l := by
  simp only [frontSound, List.forall_mem_cons, List.pairwise_cons]
  tauto

/-- What lies to the right of a bound still does after an insertion that does. -/
theorem ivlInsert_gt (b : Nat) : ∀ (l : List Ivl) (r : Ivl), b < r.1 → (∀ i ∈ l, b < i.1) → ∀ i ∈ ivlInsert r l, b < i.1
  | [], r, hr, _ => by simpa [ivlInsert] using hr
  | c :: cs, r, hr, hl => by
    obtain ⟨hc, hcs⟩ := List.forall_mem_cons.1 hl
    unfold ivlInsert
    split
    · exact List.forall_mem_cons.2 ⟨hr, hl⟩
    · split
      · exact List.forall_mem_cons.2 ⟨hc, ivlInsert_gt b cs r hr hcs⟩
      · exact ivlInsert_gt b cs _ (lt_min hr hc) hcs

/-- Two ranges that overlap or touch cover together what their hull covers. -/
theorem covers_hull (r c : Ivl) (x : Nat) (h : r.1 ≤ c.2) (h' : c.1 ≤ r.2) :
    covers (min r.1 c.1, max r.2 c.2) x ↔ covers r x ∨ covers c x := by
  simp only [covers]; omega

/-- Inserting a range into a sound front leaves one that covers the range too. -/
theorem ivlInsert_spec : ∀ (l : List Ivl) (r : Ivl), r.1 < r.2 → frontSound l →
    frontSound (ivlInsert r l) ∧ ∀ x, frontCovers (ivlInsert r l) x ↔ frontCovers l x ∨ covers r x
  | [], r, hr, _ => ⟨by simp [ivlInsert, frontSound, hr], fun x => by simp [ivlInsert, frontCovers]⟩
  | c :: cs, r, hr, hl => by
    obtain ⟨hc, hright, hcs⟩ := (frontSound_cons c cs).1 hl
    unfold ivlInsert
    split
    · rename_i hbefore
      refine ⟨(frontSound_cons r _).2 ⟨hr, List.forall_mem_cons.2 ⟨hbefore, fun j hj => ?_⟩, hl⟩, fun x => ?_⟩
      · have := hright j hj; omega
      · rw [frontCovers_cons]; tauto
    · split
      · rename_i hafter
        obtain ⟨hsound, hcovers⟩ := ivlInsert_spec cs r hr hcs
        refine ⟨(frontSound_cons c _).2 ⟨hc, ivlInsert_gt c.2 cs r hafter hright, hsound⟩, fun x => ?_⟩
        rw [frontCovers_cons, frontCovers_cons, hcovers]; tauto
      · obtain ⟨hsound, hcovers⟩ := ivlInsert_spec cs (min r.1 c.1, max r.2 c.2) (by simp; omega) hcs
        refine ⟨hsound, fun x => ?_⟩
        rw [hcovers, frontCovers_cons, covers_hull r c x (by omega) (by omega)]; tauto

/-- A range overlaps or touches one of a front. -/
def touches (r : Ivl) (l : List Ivl) : Prop := ∃ i ∈ l, r.1 ≤ i.2 ∧ i.1 ≤ r.2

theorem ivlInsert_length_le : ∀ (l : List Ivl) (r : Ivl), (ivlInsert r l).length ≤ l.length + 1
  | [], r => by simp [ivlInsert]
  | c :: cs, r => by
    unfold ivlInsert
    split
    · simp
    · split
      · simpa using ivlInsert_length_le cs r
      · exact (ivlInsert_length_le cs _).trans (by simp)

/-- A range that joins one of a sound front does not lengthen it. -/
theorem ivlInsert_length_of_touches : ∀ (l : List Ivl) (r : Ivl), frontSound l → touches r l →
    (ivlInsert r l).length ≤ l.length
  | [], _, _, ⟨_, hi, _⟩ => nomatch hi
  | c :: cs, r, hl, ⟨i, hi, hlo, hhi⟩ => by
    obtain ⟨hc, hright, hcs⟩ := (frontSound_cons c cs).1 hl
    unfold ivlInsert
    split
    · rename_i hbefore
      rcases List.mem_cons.1 hi with rfl | hmem
      · omega
      · have := hright i hmem; omega
    · split
      · rename_i hafter
        have hmem : i ∈ cs := (List.mem_cons.1 hi).resolve_left fun h => by subst h; omega
        simpa using ivlInsert_length_of_touches cs r hcs ⟨i, hmem, hlo, hhi⟩
      · exact (ivlInsert_length_le cs _).trans (by simp)

theorem touchesFront_iff (r : Ivl) (l : List Ivl) : touchesFront r l = true ↔ touches r l := by
  simp [touchesFront, touches]

/-- The nearest range of a front that is not empty, the one at lower x among equals (R39). -/
theorem nearestIvl_spec (r : Ivl) : ∀ l : List Ivl, frontSound l → l ≠ [] → ∃ n ∈ l, nearestIvl r l = some n ∧
    ∀ i ∈ l, ivlGap r n < ivlGap r i ∨ (ivlGap r n = ivlGap r i ∧ n.1 ≤ i.1)
  | [], _, h => absurd rfl h
  | [c], _, _ => ⟨c, List.mem_cons_self, rfl, fun i hi => by obtain rfl := List.mem_singleton.1 hi; omega⟩
  | c :: d :: cs, hl, _ => by
    obtain ⟨hc, hright, hcs⟩ := (frontSound_cons c (d :: cs)).1 hl
    obtain ⟨n, hn, hnearest, hmin⟩ := nearestIvl_spec r (d :: cs) hcs (List.cons_ne_nil _ _)
    unfold nearestIvl
    rw [hnearest]
    by_cases hle : ivlGap r c ≤ ivlGap r n
    · refine ⟨c, List.mem_cons_self, if_pos hle, List.forall_mem_cons.2 ⟨by omega, fun i hi => ?_⟩⟩
      have := hmin i hi
      have := hright i hi
      omega
    · exact ⟨n, List.mem_cons_of_mem _ hn, if_neg hle, List.forall_mem_cons.2 ⟨by omega, hmin⟩⟩

/-- Taking one range out of a front and putting in one that holds it covers what both covered. -/
theorem frontCovers_filter_ne (l : List Ivl) (n u : Ivl) (x : Nat) (hsub : covers n x → covers u x) :
    frontCovers (l.filter (fun d => d ≠ n)) x ∨ covers u x ↔ frontCovers l x ∨ covers u x := by
  constructor
  · rintro (⟨i, hi, hix⟩ | hu)
    · exact .inl ⟨i, List.mem_of_mem_filter hi, hix⟩
    · exact .inr hu
  · rintro (⟨i, hi, hix⟩ | hu)
    · by_cases h : i = n
      · exact .inr (hsub (h ▸ hix))
      · exact .inl ⟨i, List.mem_filter.2 ⟨hi, by simpa using h⟩, hix⟩
    · exact .inr hu

theorem frontSound.filter {l : List Ivl} (p : Ivl → Bool) (h : frontSound l) : frontSound (l.filter p) :=
  ⟨fun i hi => h.1 i (List.mem_of_mem_filter hi), h.2.sublist List.filter_sublist⟩

/-- With room, or where it joins a range of the front, a range is inserted (R39). -/
theorem addFront_of_room (v : Ivl) (l : List Ivl) (h : touches v l ∨ l.length < 8) : addFront v l = ivlInsert v l := by
  unfold addFront
  rw [if_pos]
  simp only [Bool.or_eq_true, touchesFront_iff, decide_eq_true_eq]
  exact h

/-- Apart from all of a full front, a range joins the nearest (R39). -/
theorem addFront_of_full (v n : Ivl) (l : List Ivl) (h : ¬touches v l) (hfull : l.length = 8)
    (hn : nearestIvl v l = some n) :
    addFront v l = ivlInsert (min v.1 n.1, max v.2 n.2) (l.filter (fun d => d ≠ n)) := by
  unfold addFront
  rw [if_neg (by simp [← touchesFront_iff] at h; simp [h, hfull, frontLimit]), hn]

/-- What a range added to a sound front of at most 8 leaves (R39). -/
theorem addFront_spec (v : Ivl) (front : List Ivl) (hv : v.1 < v.2) (hsound : frontSound front)
    (hlen : front.length ≤ 8) :
    (addFront v front).length ≤ 8 ∧ frontSound (addFront v front) ∧
    (touches v front ∨ front.length < 8 → ∀ x, frontCovers (addFront v front) x ↔ frontCovers front x ∨ covers v x) ∧
    (¬touches v front → front.length = 8 →
      ∃ n ∈ front, (∀ i ∈ front, ivlGap v n < ivlGap v i ∨ (ivlGap v n = ivlGap v i ∧ n.1 ≤ i.1)) ∧
        ∀ x, frontCovers (addFront v front) x ↔ frontCovers front x ∨ covers (min v.1 n.1, max v.2 n.2) x) := by
  by_cases hroom : touches v front ∨ front.length < 8
  · rw [addFront_of_room v front hroom]
    obtain ⟨hs, hc⟩ := ivlInsert_spec front v hv hsound
    refine ⟨?_, hs, fun _ => hc, fun hno hfull => absurd hroom (by simp [hno, hfull])⟩
    rcases hroom with htouch | hlt
    · exact (ivlInsert_length_of_touches front v hsound htouch).trans hlen
    · exact (ivlInsert_length_le front v).trans hlt
  · obtain ⟨hno, hge⟩ := not_or.1 hroom
    have hfull : front.length = 8 := by omega
    obtain ⟨n, hn, hnearest, hmin⟩ := nearestIvl_spec v front hsound (by rintro rfl; simp at hfull)
    have hnn := hsound.1 n hn
    rw [addFront_of_full v n front hno hfull hnearest]
    obtain ⟨hs, hc⟩ := ivlInsert_spec (front.filter (fun d => d ≠ n)) (min v.1 n.1, max v.2 n.2) (by simp; omega)
      (hsound.filter _)
    have hshorter : (front.filter (fun d => d ≠ n)).length < front.length :=
      List.length_filter_lt_length_iff_exists.2 ⟨n, hn, by simp⟩
    refine ⟨(ivlInsert_length_le _ _).trans (by omega), hs, fun h => absurd h hroom,
      fun _ _ => ⟨n, hn, hmin, fun x => ?_⟩⟩
    rw [hc, frontCovers_filter_ne front n _ x]
    simp only [covers]
    omega

/-! ## Runs and blobs (R38 to R42) -/

/-- A run is near a blob (R40). -/
theorem Blob.near_iff (joinTol closeGap : Nat) (la : Line) (r : PlacedRun) (b : Blob) :
    b.near joinTol closeGap la r = true ↔
      ((la - b.last).toNat ≤ closeGap + 1 ∧ ∃ i ∈ b.lastFront, r.x.1 - joinTol < i.2 ∧ i.1 < r.x.2 + joinTol) ∨
      ∃ i ∈ b.curFront, r.x.1 - joinTol < i.2 ∧ i.1 < r.x.2 + joinTol := by
  simp [Blob.near]

/-- What a blob takes of a run, with its x range spelled (R38, R42). -/
theorem Blob.take_eq (b : Blob) (r : PlacedRun) : b.take r = { b with
    xr := some (match b.xr with | none => r.x | some v => (min v.1 r.x.1, max v.2 r.x.2))
    area := min (b.area + r.pixels) (2 ^ 24 - 1)
    peak := max b.peak r.peak
    modes := b.modes ||| (1#3 <<< r.mode.toNat)
    chset := b.chset ||| (1#16 <<< r.channel)
    runs := min (b.runs + 1) 65535 } := by
  have hxr : coverIvl b.xr (some r.x) =
      some (match b.xr with | none => r.x | some v => (min v.1 r.x.1, max v.2 r.x.2)) := by
    cases b.xr <;> rfl
  unfold Blob.take
  rw [hxr]
  rfl

/-- The merge of a blob into the survivor, with its x range spelled (R41). -/
theorem Blob.absorb_eq (s b : Blob) : s.absorb b = { s with
    first := if lineAfter s.first b.first then b.first else s.first
    last := if lineAfter b.last s.last then b.last else s.last
    xr := (match s.xr, b.xr with
      | none, x => x
      | x, none => x
      | some v, some w => some (min v.1 w.1, max v.2 w.2))
    lastFront := b.lastFront.foldl (fun f i => addFront i f) s.lastFront
    curFront := b.curFront.foldl (fun f i => addFront i f) s.curFront
    area := min (s.area + b.area) (2 ^ 24 - 1)
    peak := max s.peak b.peak
    modes := s.modes ||| b.modes
    chset := s.chset ||| b.chset
    runs := min (s.runs + b.runs) 65535 } := by
  unfold Blob.absorb coverIvl
  cases s.xr <;> cases b.xr <;> rfl

theorem Blob.foldl_absorb_id (bs : List Blob) (s : Blob) : (bs.foldl Blob.absorb s).id = s.id := by
  induction bs generalizing s with
  | nil => rfl
  | cons b bs ih => rw [List.foldl_cons, ih]; rfl

/-! ### The place of a blob in the table (R38) -/

/-- The lowest free index follows the indices in use from 0 without a gap. -/
theorem freeIndex_of_range (upper : List Blob) : ∀ (lower : List Blob) (n : Nat),
    lower.map Blob.id = List.range' n lower.length → (∀ b ∈ upper, n + lower.length < b.id) →
    freeIndex n (lower ++ upper) = n + lower.length
  | [], n, _, hup => by
    cases upper with
    | nil => rfl
    | cons c cs =>
      have := hup c List.mem_cons_self
      simp only [List.length_nil, Nat.add_zero] at this
      exact if_neg (by omega)
  | b :: lower, n, hid, hup => by
    rw [List.length_cons, List.range'_succ, List.map_cons] at hid
    obtain ⟨hb, hrest⟩ := List.cons.inj hid
    rw [List.cons_append, freeIndex, if_pos hb, freeIndex_of_range upper lower (n + 1) hrest
      (fun c hc => by have := hup c hc; simp only [List.length_cons] at this; omega), List.length_cons]
    omega

/-- A blob goes after the lower ids and before the higher ones. -/
theorem insertBlob_of_ids (m : Blob) (upper : List Blob) (hup : ∀ b ∈ upper, m.id < b.id) : ∀ lower : List Blob,
    (∀ b ∈ lower, b.id < m.id) → insertBlob m (lower ++ upper) = lower ++ m :: upper
  | [], _ => by
    cases upper with
    | nil => rfl
    | cons c cs => exact if_pos (hup c List.mem_cons_self)
  | b :: lower, hlow => by
    obtain ⟨hb, hrest⟩ := List.forall_mem_cons.1 hlow
    rw [List.cons_append, insertBlob, if_neg (by omega), insertBlob_of_ids m upper hup lower hrest, List.cons_append]

/-- Blobs by rising id split at an id that none of them has. -/
theorem split_at_id (n : Nat) : ∀ l : List Blob, l.Pairwise (fun a b => a.id < b.id) → (∀ b ∈ l, b.id ≠ n) →
    ∃ lower upper, l = lower ++ upper ∧ (∀ b ∈ lower, b.id < n) ∧ ∀ b ∈ upper, n < b.id
  | [], _, _ => ⟨[], [], rfl, by simp, by simp⟩
  | b :: l, hsorted, hne => by
    obtain ⟨hb, hl⟩ := List.pairwise_cons.1 hsorted
    obtain ⟨hbn, hln⟩ := List.forall_mem_cons.1 hne
    rcases Nat.lt_or_gt_of_ne hbn with hlt | hgt
    · obtain ⟨lower, upper, rfl, hlow, hup⟩ := split_at_id n l hl hln
      exact ⟨b :: lower, upper, rfl, List.forall_mem_cons.2 ⟨hlt, hlow⟩, hup⟩
    · exact ⟨[], b :: l, rfl, by simp, List.forall_mem_cons.2 ⟨hgt, fun c hc => hgt.trans (hb c hc)⟩⟩

/-! ### A run near no blob (R38, R42) -/

/-- A run near no blob begins one at the lowest free index while the table has room (R38). -/
theorem Assembler.takeRun_of_room (c : Setup) (la : Line) (y : Pos) (f : Assembler) (r : PlacedRun)
    (lower upper : List Blob) (hf : f.blobs = lower ++ upper)
    (hno : f.blobs.filter (Blob.near c.joinTol c.closeGap la r) = []) (hroom : f.blobs.length < 256)
    (hlow : lower.map Blob.id = List.range lower.length) (hup : ∀ b ∈ upper, lower.length < b.id) :
    f.takeRun c la y r = ({ f with blobs := lower ++ Blob.begin lower.length la r :: upper }, []) := by
  have hfree : freeIndex 0 f.blobs = lower.length := by
    rw [hf, freeIndex_of_range upper lower 0 (by rw [hlow, List.range_eq_range']) (by simpa using hup), Nat.zero_add]
  have hinsert : insertBlob (Blob.begin lower.length la r) f.blobs =
      lower ++ Blob.begin lower.length la r :: upper := by
    refine hf ▸ insertBlob_of_ids _ upper hup lower fun b hb => ?_
    have hmem : b.id ∈ List.range lower.length := hlow ▸ List.mem_map_of_mem hb
    exact List.mem_range.1 hmem
  unfold Assembler.takeRun
  simp only [hno]
  rw [if_pos (by exact hroom), hfree, hinsert]

/-- A run near no blob goes to the dense record when the table is full (R42). -/
theorem Assembler.takeRun_of_full (c : Setup) (la : Line) (y : Pos) (f : Assembler) (r : PlacedRun)
    (hno : f.blobs.filter (Blob.near c.joinTol c.closeGap la r) = []) (hfull : 256 ≤ f.blobs.length) :
    f.takeRun c la y r = f.toDense la y r := by
  unfold Assembler.takeRun
  simp only [hno]
  exact if_neg (by exact not_lt.2 hfull)

theorem Assembler.toDense_of_none (la : Line) (y : Pos) (r : PlacedRun) (f : Assembler) (h : f.dense = none) :
    f.toDense la y r = ({ f with dense := some { Blob.begin 256 la r with curFront := [] } },
      [.notice (.blobTableFull la y f.blobs.length)]) := by
  unfold Assembler.toDense; rw [h]; rfl

theorem Assembler.toDense_of_some (la : Line) (y : Pos) (r : PlacedRun) (f : Assembler) (d : Blob)
    (h : f.dense = some d) :
    f.toDense la y r = ({ f with dense := some { d.take r with last := la } }, []) := by
  unfold Assembler.toDense; rw [h]

/-! ### A run near one blob (R38) -/

/-- Replacing the blob of an id that no blob has changes nothing. -/
theorem map_replace_id (n : Nat) (m : Blob) (l : List Blob) (h : ∀ x ∈ l, x.id ≠ n) :
    l.map (fun x => if x.id = n then m else x) = l :=
  (List.map_congr_left fun x hx => if_neg (h x hx)).trans (List.map_id' l)

/-- A run near one blob joins it (R38). -/
theorem Assembler.takeRun_of_one (c : Setup) (la : Line) (y : Pos) (f : Assembler) (r : PlacedRun)
    (lower upper : List Blob) (b : Blob) (hf : f.blobs = lower ++ b :: upper)
    (hb : b.near c.joinTol c.closeGap la r = true)
    (hno : ∀ x ∈ lower ++ upper, ¬x.near c.joinTol c.closeGap la r = true ∧ x.id ≠ b.id) :
    f.takeRun c la y r = ({ f with blobs := lower ++ b.join r :: upper }, []) := by
  have hone : f.blobs.filter (Blob.near c.joinTol c.closeGap la r) = [b] := by
    have hnil := fun l (hl : l ⊆ lower ++ upper) =>
      List.filter_eq_nil_iff.2 fun x (hx : x ∈ l) => (hno x (hl hx)).1
    rw [hf, List.filter_append, List.filter_cons, if_pos hb, hnil lower (List.subset_append_left ..),
      hnil upper (List.subset_append_right ..), List.nil_append]
  have hmap : f.blobs.map (fun x => if x.id = b.id then b.join r else x) = lower ++ b.join r :: upper := by
    have hid := fun l (hl : l ⊆ lower ++ upper) => map_replace_id b.id (b.join r) l fun x hx => (hno x (hl hx)).2
    rw [hf, List.map_append, List.map_cons, if_pos rfl, hid lower (List.subset_append_left ..),
      hid upper (List.subset_append_right ..)]
  unfold Assembler.takeRun
  simp only [hone, hmap]

/-! ### A run near several blobs (R41) -/

/-- Of two lines within 2^23 lines of L_a, one is after the other when it is the younger. -/
theorem lineAfter_iff_age (la m n : Line) (hm : (la - m).toNat < 2 ^ 23) (hn : (la - n).toNat < 2 ^ 23) :
    lineAfter m n = true ↔ (la - m).toNat < (la - n).toNat := by
  have hdiff : m - n = (la - n) - (la - m) := by abel
  have htoNat := BitVec.toNat_sub (la - n) (la - m)
  rw [← hdiff] at htoNat
  simp only [lineAfter, Bool.and_eq_true, decide_eq_true_eq]
  omega

/-- Two lines of one age are the same line. -/
theorem eq_of_age_eq (la m n : Line) (h : (la - m).toNat = (la - n).toNat) : m = n := by
  have hsub : la - m = la - n := BitVec.eq_of_toNat_eq h
  calc m = la - (la - m) := by abel
    _ = la - (la - n) := by rw [hsub]
    _ = n := by abel

/-- A blob is begun before another one, or with it and with the lower id (R41). -/
def Blob.precedes (la : Line) (b c : Blob) : Prop :=
  (la - c.first).toNat < (la - b.first).toNat ∨ (c.first = b.first ∧ b.id < c.id)

theorem Blob.precedes.trans {la : Line} {b c d : Blob} (h : b.precedes la c) (h' : c.precedes la d) :
    b.precedes la d := by
  rcases h with h | ⟨h, hid⟩ <;> rcases h' with h' | ⟨h', hid'⟩
  · exact .inl (h'.trans h)
  · exact .inl (h' ▸ h)
  · exact .inl (h ▸ h')
  · exact .inr ⟨h'.trans h, hid.trans hid'⟩

/-- The earliest of some blobs by rising id is one of them and precedes the others (R41). -/
theorem earliestBlob_spec (la : Line) : ∀ (bs : List Blob) (b : Blob), (b :: bs).Pairwise (fun a b => a.id < b.id) →
    (∀ c ∈ b :: bs, (la - c.first).toNat < 2 ^ 23) →
    earliestBlob b bs ∈ b :: bs ∧ ∀ c ∈ b :: bs, c = earliestBlob b bs ∨ (earliestBlob b bs).precedes la c
  | [], b, _, _ => ⟨List.mem_cons_self, fun c hc => .inl (List.mem_singleton.1 hc)⟩
  | c :: cs, b, hsorted, hage => by
    obtain ⟨hbc, hbcs⟩ := List.forall_mem_cons.1 (List.pairwise_cons.1 hsorted).1
    obtain ⟨hc, hcs⟩ := List.pairwise_cons.1 (List.pairwise_cons.1 hsorted).2
    obtain ⟨hab, hac, hacs⟩ := List.forall_mem_cons.1 hage |>.imp id List.forall_mem_cons.1
    have hafter := lineAfter_iff_age la b.first c.first hab hac
    unfold earliestBlob
    by_cases h : lineAfter b.first c.first = true
    · rw [if_pos h]
      obtain ⟨hmem, hfirst⟩ := earliestBlob_spec la cs c (List.pairwise_cons.2 ⟨hc, hcs⟩)
        (List.forall_mem_cons.2 ⟨hac, hacs⟩)
      refine ⟨List.mem_cons_of_mem _ hmem, List.forall_mem_cons.2 ⟨.inr ?_, hfirst⟩⟩
      have hcb : c.precedes la b := .inl (hafter.1 h)
      rcases hfirst c List.mem_cons_self with heq | hlt
      · rwa [← heq]
      · exact hlt.trans hcb
    · rw [if_neg h]
      obtain ⟨hmem, hfirst⟩ := earliestBlob_spec la cs b (List.pairwise_cons.2 ⟨hbcs, hcs⟩)
        (List.forall_mem_cons.2 ⟨hab, hacs⟩)
      obtain ⟨hb, hrest⟩ := List.forall_mem_cons.1 hfirst
      refine ⟨?_, List.forall_mem_cons.2 ⟨hb, List.forall_mem_cons.2 ⟨.inr ?_, hrest⟩⟩⟩
      · exact List.mem_cons.2 ((List.mem_cons.1 hmem).imp id (List.mem_cons_of_mem _))
      · have hle : (la - c.first).toNat ≤ (la - b.first).toNat := by rw [hafter] at h; omega
        have hbc' : b.precedes la c := by
          rcases Nat.lt_or_eq_of_le hle with hlt | heq
          · exact .inl hlt
          · exact .inr ⟨eq_of_age_eq la _ _ heq, hbc⟩
        rcases hb with heq | hlt
        · rwa [← heq]
        · exact hlt.trans hbc'

/-! ### The merge of several blobs (R41) -/

/-- Of blobs by rising id, one has each id. -/
theorem eq_of_id_eq {l : List Blob} (h : l.Pairwise (fun a b => a.id < b.id)) {x y : Blob} (hx : x ∈ l) (hy : y ∈ l)
    (hid : x.id = y.id) : x = y :=
  List.inj_on_of_nodup_map (List.pairwise_map.2 (h.imp ne_of_lt)) hx hy hid

theorem survivorLink_of_own (s : Blob) (others : List Blob) (h : s.contFrom.isSome = true) :
    survivorLink s others = s.contFrom := by
  obtain ⟨n, hn⟩ := Option.isSome_iff_exists.1 h
  simp [survivorLink, hn]

theorem survivorLink_of_nobody (s : Blob) (others : List Blob) (h : s.contFrom = none)
    (hnone : ∀ b ∈ others, b.contFrom = none) : survivorLink s others = none := by
  have hnil : others.filter (fun b => b.contFrom.isSome) = [] :=
    List.filter_eq_nil_iff.2 fun b hb => by simp [hnone b hb]
  simp [survivorLink, h, hnil]

/-- Without one of its own the survivor takes the link of the earliest blob that has one (R41). -/
theorem survivorLink_of_other (la : Line) (s : Blob) (others : List Blob) (h : s.contFrom = none)
    (hsorted : others.Pairwise (fun a b => a.id < b.id)) (hage : ∀ b ∈ others, (la - b.first).toNat < 2 ^ 23)
    (hex : ∃ b ∈ others, b.contFrom.isSome = true) : ∃ b ∈ others, b.contFrom.isSome = true ∧
      survivorLink s others = b.contFrom ∧ ∀ q ∈ others, q.contFrom.isSome = true → q = b ∨ b.precedes la q := by
  obtain ⟨b, hb, hlink⟩ := hex
  have hmem : b ∈ others.filter (fun b => b.contFrom.isSome) := List.mem_filter.2 ⟨hb, hlink⟩
  have hsub := List.filter_sublist (p := fun b : Blob => b.contFrom.isSome) (l := others)
  cases hl : others.filter (fun b => b.contFrom.isSome) with
  | nil => rw [hl] at hmem; cases hmem
  | cons d ds =>
    rw [hl] at hsub
    obtain ⟨hin, hfirst⟩ := earliestBlob_spec la ds d (hsorted.sublist hsub) fun c hc => hage c (hsub.subset hc)
    have hiff := fun q => List.mem_filter (p := fun b : Blob => b.contFrom.isSome) (as := others) (x := q)
    rw [hl] at hiff
    obtain ⟨hothers, hsome⟩ := (hiff _).1 hin
    exact ⟨_, hothers, hsome, by simp [survivorLink, h, hl], fun q hq hqs => hfirst q ((hiff q).2 ⟨hq, hqs⟩)⟩

/-- The survivor of a merge: the earliest of the near blobs (R41). -/
def survivorOf : List Blob → Option Blob
  | [] => none
  | b :: bs => some (earliestBlob b bs)

/-- A run near several blobs is joined to what they merge into, in the survivor's place (R41). -/
theorem Assembler.takeRun_of_several (c : Setup) (la : Line) (y : Pos) (f : Assembler) (r : PlacedRun) (sv : Blob)
    (hseveral : 2 ≤ (f.blobs.filter (Blob.near c.joinTol c.closeGap la r)).length)
    (hsv : survivorOf (f.blobs.filter (Blob.near c.joinTol c.closeGap la r)) = some sv)
    (hmem : sv ∈ f.blobs.filter (Blob.near c.joinTol c.closeGap la r))
    (hsorted : f.blobs.Pairwise (fun a b => a.id < b.id)) :
    let others := (f.blobs.filter (Blob.near c.joinTol c.closeGap la r)).filter (fun b => b.id ≠ sv.id)
    let merged : Blob := { others.foldl Blob.absorb sv with contFrom := survivorLink sv others }
    ∃ lower upper : List Blob,
      f.blobs.filter (fun b => !b.near c.joinTol c.closeGap la r) = lower ++ upper ∧ (∀ b ∈ lower, b.id < sv.id) ∧
      (∀ b ∈ upper, sv.id < b.id) ∧
      f.takeRun c la y r = ({ f with blobs := lower ++ merged.join r :: upper }, []) := by
  intro others merged
  obtain ⟨hsvmem, hsvnear⟩ := List.mem_filter.1 hmem
  obtain ⟨lower, upper, hsplit, hlow, hup⟩ := split_at_id sv.id
    (f.blobs.filter (fun b => !b.near c.joinTol c.closeGap la r)) (hsorted.sublist List.filter_sublist) (by
      intro b hb hid
      obtain ⟨hbmem, hbfar⟩ := List.mem_filter.1 hb
      rw [eq_of_id_eq hsorted hbmem hsvmem hid] at hbfar
      simp [hsvnear] at hbfar)
  refine ⟨lower, upper, hsplit, hlow, hup, ?_⟩
  have hid : (merged.join r).id = sv.id := Blob.foldl_absorb_id others sv
  have hinsert := insertBlob_of_ids (merged.join r) upper (by rwa [hid]) lower (by rwa [hid])
  have hkeep : f.blobs.filter (fun x => !((f.blobs.filter (Blob.near c.joinTol c.closeGap la r)).map
      Blob.id).contains x.id) = lower ++ upper := by
    rw [← hsplit]
    refine List.filter_congr fun x hx => congrArg _ ?_
    rw [Bool.eq_iff_iff, List.contains_iff_mem, List.mem_map]
    constructor
    · rintro ⟨z, hz, hzid⟩
      obtain ⟨hzmem, hznear⟩ := List.mem_filter.1 hz
      rwa [← eq_of_id_eq hsorted hzmem hx hzid]
    · exact fun hnear => ⟨x, List.mem_filter.2 ⟨hx, hnear⟩, rfl⟩
  unfold Assembler.takeRun
  subst merged others
  revert hseveral hsv hkeep hinsert
  generalize f.blobs.filter (Blob.near c.joinTol c.closeGap la r) = near
  intro hseveral hsv hkeep hinsert
  match near, hseveral, hsv with
  | b :: d :: ds, _, hsv =>
    obtain rfl : earliestBlob b (d :: ds) = sv := Option.some.inj hsv
    simp only [hkeep]
    exact congrArg (fun l => ({ f with blobs := l }, [])) hinsert

/-- The survivor is near, and precedes the other near blobs (R41). -/
theorem survivorOf_spec (la : Line) (near : List Blob) (hne : near ≠ [])
    (hsorted : near.Pairwise (fun a b => a.id < b.id))
    (hage : ∀ b ∈ near, (la - b.first).toNat < 2 ^ 23) : ∃ sv ∈ near, survivorOf near = some sv ∧
      ∀ b ∈ near.filter (fun b => b.id ≠ sv.id), sv.precedes la b := by
  cases near with
  | nil => exact absurd rfl hne
  | cons b bs =>
    obtain ⟨hmem, hfirst⟩ := earliestBlob_spec la bs b hsorted hage
    refine ⟨_, hmem, rfl, fun c hc => ?_⟩
    obtain ⟨hcmem, hcid⟩ := List.mem_filter.1 hc
    exact (hfirst c hcmem).resolve_left fun h => by simp [← h] at hcid

/-! ## The end of a line (R43 to R45) -/

/-- An entry of the order in which closed blobs are finalized (R45). -/
def Closed.notAfter (la : Line) (x y : Closed) : Prop :=
  (la - y.blob.first).toNat < (la - x.blob.first).toNat ∨
    ((la - y.blob.first).toNat = (la - x.blob.first).toNat ∧
      (y.dense = true ∨ (x.dense = false ∧ x.blob.id ≤ y.blob.id)))

theorem Closed.notAfter_of_isBefore (la : Line) (x y : Closed) (h : x.isBefore la y = true) : x.notAfter la y := by
  simp only [Closed.isBefore, Bool.or_eq_true, Bool.and_eq_true, decide_eq_true_eq, Bool.not_eq_true'] at h
  unfold Closed.notAfter
  rcases h with h | ⟨h, hx, hy | hid⟩
  · exact .inl h
  · exact .inr ⟨h.symm, .inl hy⟩
  · exact .inr ⟨h.symm, .inr ⟨hx, hid.le⟩⟩

theorem Closed.notAfter_of_not_isBefore (la : Line) (x y : Closed) (h : ¬x.isBefore la y = true) : y.notAfter la x := by
  simp only [Closed.isBefore, Bool.or_eq_true, Bool.and_eq_true, decide_eq_true_eq, Bool.not_eq_true', not_or, not_and,
    not_lt, Bool.not_eq_true] at h
  obtain ⟨hle, heq⟩ := h
  unfold Closed.notAfter
  rcases Nat.lt_or_eq_of_le hle with hlt | hage
  · exact .inl hlt
  · refine .inr ⟨hage, ?_⟩
    cases hx : x.dense with
    | true => exact .inl rfl
    | false => exact .inr (heq hage hx)

theorem Closed.notAfter.trans {la : Line} {x y z : Closed} (h : x.notAfter la y) (h' : y.notAfter la z) :
    x.notAfter la z := by
  unfold Closed.notAfter at *
  rcases h with h | ⟨h, hxy⟩ <;> rcases h' with h' | ⟨h', hyz⟩
  · exact .inl (h'.trans h)
  · exact .inl (h' ▸ h)
  · exact .inl (h ▸ h')
  · refine .inr ⟨h'.trans h, ?_⟩
    rcases hyz with hz | ⟨hy, hid⟩
    · exact .inl hz
    · rcases hxy with hy' | ⟨hx, hid'⟩
      · simp [hy] at hy'
      · exact .inr ⟨hx, hid'.trans hid⟩

theorem mem_insertClosed (la : Line) (a x : Closed) : ∀ l : List Closed, x ∈ insertClosed la a l ↔ x = a ∨ x ∈ l
  | [] => by simp [insertClosed]
  | b :: bs => by
    unfold insertClosed
    split
    · simp
    · simp [mem_insertClosed la a x bs]; tauto

/-- Inserting keeps the order of finalization. -/
theorem insertClosed_ordered (la : Line) (a : Closed) : ∀ l : List Closed, l.Pairwise (Closed.notAfter la) →
    (insertClosed la a l).Pairwise (Closed.notAfter la)
  | [], _ => List.pairwise_singleton _ _
  | b :: bs, h => by
    obtain ⟨hb, hbs⟩ := List.pairwise_cons.1 h
    unfold insertClosed
    split
    · rename_i hbefore
      have hab := a.notAfter_of_isBefore la b hbefore
      exact List.pairwise_cons.2 ⟨List.forall_mem_cons.2 ⟨hab, fun x hx => hab.trans (hb x hx)⟩, h⟩
    · rename_i hnot
      refine List.pairwise_cons.2 ⟨fun x hx => ?_, insertClosed_ordered la a bs hbs⟩
      rcases (mem_insertClosed la a x bs).1 hx with rfl | hmem
      · exact x.notAfter_of_not_isBefore la b hnot
      · exact hb x hmem

/-- A list inserted into another one, entry by entry. -/
theorem foldl_insertClosed (la : Line) : ∀ (l acc : List Closed), acc.Pairwise (Closed.notAfter la) →
    (∀ x, x ∈ l.foldl (fun acc x => insertClosed la x acc) acc ↔ x ∈ l ∨ x ∈ acc) ∧
    (l.foldl (fun acc x => insertClosed la x acc) acc).Pairwise (Closed.notAfter la)
  | [], acc, h => ⟨by simp, h⟩
  | a :: l, acc, h => by
    obtain ⟨hmem, hord⟩ := foldl_insertClosed la l (insertClosed la a acc) (insertClosed_ordered la a acc h)
    refine ⟨fun x => ?_, hord⟩
    rw [List.foldl_cons, hmem, mem_insertClosed, List.mem_cons]
    tauto

/-- A blob closes by gap at the end of a line (R43). -/
def Blob.closesByGap (c : Setup) (la : Line) (b : Blob) : Bool := c.closeGap + 1 ≤ (la - b.last).toNat

/-- A blob is split at the end of a line (R44). -/
def Blob.splits (c : Setup) (la : Line) (b : Blob) : Bool :=
  !b.closesByGap c la && c.maxBlobLines ≤ ((la - b.first).toNat + 1) % 2 ^ 24

theorem Blob.fate_eq (c : Setup) (la : Line) (b : Blob) : b.fate c la =
    if b.closesByGap c la = true then .gap else if b.splits c la = true then .split else .stays := by
  by_cases hgap : b.closesByGap c la = true
  · rw [if_pos hgap]
    exact if_pos (of_decide_eq_true hgap)
  · have hfate : b.fate c la = if c.maxBlobLines ≤ ((la - b.first).toNat + 1) % 2 ^ 24 then .split else .stays :=
      if_neg fun h => hgap (decide_eq_true h)
    have hsplits : b.splits c la = decide (c.maxBlobLines ≤ ((la - b.first).toNat + 1) % 2 ^ 24) := by
      rw [Blob.splits, Bool.eq_false_iff.2 hgap]
      rfl
    rw [if_neg hgap, hfate, hsplits]
    simp only [decide_eq_true_eq]

theorem Blob.splits_of_gap (c : Setup) (la : Line) (b : Blob) (h : b.closesByGap c la = true) :
    b.splits c la = false := by
  simp [Blob.splits, h]

/-- What is closed of one blob (R43, R44). -/
theorem Blob.mem_closed (c : Setup) (la : Line) (dense : Bool) (b : Blob) (x : Closed) : x ∈ b.closed c la dense ↔
    (b.closesByGap c la = true ∧ b.runs ≠ 0 ∧ x = ⟨dense, b⟩) ∨
    (b.splits c la = true ∧ x = ⟨dense, { b with segment := true }⟩) := by
  unfold Blob.closed
  rw [Blob.fate_eq]
  by_cases hgap : b.closesByGap c la = true
  · by_cases hruns : b.runs = 0 <;> simp [hgap, hruns, b.splits_of_gap c la hgap]
  · by_cases hsplit : b.splits c la = true <;> simp [hgap, hsplit]

/-- What stays in the entry of a blob (R43 to R45). -/
theorem Blob.remains_eq (c : Setup) (la : Line) (b : Blob) : b.remains c la =
    if b.closesByGap c la = true then none else if b.splits c la = true then some (b.continuation la) else some b := by
  unfold Blob.remains
  rw [Blob.fate_eq]
  by_cases hgap : b.closesByGap c la = true
  · simp only [if_pos hgap]
  · by_cases hsplit : b.splits c la = true
    · simp only [if_neg hgap, if_pos hsplit]
    · simp only [if_neg hgap, if_neg hsplit]

theorem Blob.endLine_eq (la : Line) (b : Blob) : b.endLine la =
    if b.curFront = [] then b else { b with lastFront := b.curFront, curFront := [], last := la } := by
  simp only [Blob.endLine, List.isEmpty_iff]

/-- The closed blobs of a line: what closed of the table and of the dense record, in the order of R45. -/
theorem Assembler.closedSet_spec (c : Setup) (la : Line) (f : Assembler) :
    (∀ x, x ∈ f.closedSet c la ↔ (∃ e ∈ f.blobs, x ∈ e.closed c la false) ∨ ∃ d ∈ f.dense, x ∈ d.closed c la true) ∧
    (f.closedSet c la).Pairwise (Closed.notAfter la) := by
  obtain ⟨hmem, hord⟩ := foldl_insertClosed la (f.blobs.flatMap (Blob.closed c la false) ++
    (match f.dense with | none => [] | some d => d.closed c la true)) [] List.Pairwise.nil
  refine ⟨fun x => (hmem x).trans ?_, hord⟩
  cases f.dense <;> simp

/-- The dense record after the end of a line (R43, R44). -/
theorem Assembler.afterLine_eq (c : Setup) (la : Line) (f : Assembler) : f.afterLine c la = { f with
    blobs := f.blobs.filterMap (fun e => if e.closesByGap c la = true then none
      else if e.splits c la = true then some (e.continuation la) else some e)
    dense := f.dense.filter (fun d => !d.closesByGap c la && !d.splits c la) } := by
  have hblobs : Blob.remains c la = fun e => if e.closesByGap c la = true then none
      else if e.splits c la = true then some (e.continuation la) else some e := funext (Blob.remains_eq c la)
  have hdense : (match f.dense with | none => none | some d => if d.fate c la = .stays then some d else none) =
      f.dense.filter (fun d => !d.closesByGap c la && !d.splits c la) := by
    cases f.dense with
    | none => rfl
    | some d =>
      simp only [Blob.fate_eq, Option.filter]
      by_cases hgap : d.closesByGap c la = true <;> by_cases hsplit : d.splits c la = true <;> simp [hgap, hsplit]
  unfold Assembler.afterLine
  rw [hblobs]
  exact congrArg (fun d => ({ f with blobs := _, dense := d } : Assembler)) hdense

/-! ## What FAS and RBM leave at the end of a line -/

@[simp] theorem RibbonMap.enter_retiredEdge (i : Interval) (m : RibbonMap) :
    (m.enter i).1.retiredEdge = m.retiredEdge := by
  unfold RibbonMap.enter
  split
  · rfl
  · split <;> rfl

@[simp] theorem RibbonMap.takeSpan_retiredEdge (y : Pos) (pitch : Nat) (m : RibbonMap) (sp : Span) :
    (m.takeSpan y pitch sp).1.retiredEdge = m.retiredEdge := by
  unfold RibbonMap.takeSpan
  dsimp only
  split
  · rfl
  · split
    · rfl
    · exact RibbonMap.enter_retiredEdge _ m

@[simp] theorem RibbonMap.takeSpans_retiredEdge (y : Pos) (pitch : Nat) : ∀ (sps : List Span) (m : RibbonMap),
    (m.takeSpans y pitch sps).1.retiredEdge = m.retiredEdge
  | [], _ => rfl
  | sp :: sps, m => (RibbonMap.takeSpans_retiredEdge y pitch sps _).trans (m.takeSpan_retiredEdge y pitch sp)

@[simp] theorem RibbonMap.fold_retiredEdge (f : Flaw) (m : RibbonMap) : (m.fold f).1.retiredEdge = m.retiredEdge := by
  unfold RibbonMap.fold
  cases lastWhere (fun i => i.cause = .saturated && reaches i.yEnd f.yTop && reaches f.yBottom i.yStart) m.unseen with
  | some p => dsimp only; split <;> rfl
  | none => dsimp only; split <;> exact RibbonMap.enter_retiredEdge _ m

@[simp] theorem RibbonMap.takeFlaw_retiredEdge (f : Flaw) (m : RibbonMap) :
    (m.takeFlaw f).1.retiredEdge = m.retiredEdge := by
  unfold RibbonMap.takeFlaw
  split
  · rfl
  · split
    · rfl
    · exact m.fold_retiredEdge f

/-- The finalization of a blob moves neither the retired edge nor the closing tally. -/
theorem Bench.finalize_kept (c : Setup) (pos : Position) (b : Bench) (x : Closed) :
    (b.finalize c pos x).rbm.retiredEdge = b.rbm.retiredEdge ∧ (b.finalize c pos x).stu.closing = b.stu.closing := by
  unfold Bench.finalize
  split
  · exact ⟨rfl, rfl⟩
  · refine ⟨b.rbm.takeFlaw_retiredEdge _, ?_⟩
    dsimp only
    split <;> rfl

theorem Bench.finalizes_kept (c : Setup) (pos : Position) : ∀ (xs : List Closed) (b : Bench),
    (xs.foldl (Bench.finalize c pos) b).rbm.retiredEdge = b.rbm.retiredEdge ∧
    (xs.foldl (Bench.finalize c pos) b).stu.closing = b.stu.closing
  | [], _ => ⟨rfl, rfl⟩
  | x :: xs, b => by
    obtain ⟨hedge, hclosing⟩ := b.finalize_kept c pos x
    obtain ⟨hedge', hclosing'⟩ := Bench.finalizes_kept c pos xs (b.finalize c pos x)
    exact ⟨hedge'.trans hedge, hclosing'.trans hclosing⟩

/-! ## The judgment of a channel (R24, R25) -/

theorem splitRuns_fst : ∀ q : List ScanWord, (splitRuns q).1 = q.takeWhile ScanWord.isRun
  | [] => rfl
  | w :: q => by
    unfold splitRuns
    by_cases h : w.isRun = true
    · simp [h, splitRuns_fst q]
    · simp [h]

theorem Channel.runsOf_eq (c : Channel) : c.runsOf = c.queue.tail.takeWhile ScanWord.isRun := by
  unfold Channel.runsOf
  cases c.queue with
  | nil => rfl
  | cons w q => exact splitRuns_fst q

/-- A channel contributes line L_a (R24). -/
def Channel.whole (n : Nat) (la : Line) (c : Channel) : Prop :=
  (c.state = .active ∨ c.state = .lapsed) ∧ c.cond n la = .complete

/-- The judgment of a channel by its state and the condition of its line (R24). -/
theorem Channel.judge_spec (k n : Nat) (la : Line) (c : Channel) :
    ((c.judge k n la).contributes = true ↔ c.whole n la) ∧
    (c.whole n la → (c.judge k n la).runs = c.queue.tail.takeWhile ScanWord.isRun) ∧
    (c.state = .off ∨ c.state = .settling ∨ c.state = .faulted → (c.judge k n la).chan.state = c.state) ∧
    (c.state = .active ∨ c.state = .lapsed →
      (c.judge k n la).chan.state = if c.cond n la = .complete then .active else .lapsed) ∧
    (c.judge k n la).chan.settle = c.settle ∧ (∀ r ∈ (c.judge k n la).records, ∃ x, r = .channel x) := by
  unfold Channel.judge Channel.whole
  rw [← Channel.runsOf_eq]
  cases hs : c.state with
  | off => simp [hs]
  | faulted => simp [hs]
  | settling => simp [hs]
  | active => cases hc : c.cond n la <;> simp [hs]
  | lapsed => cases hc : c.cond n la <;> simp [hs]

/-! ## One channel over the assembly of a line (R24, R25, R32) -/

/-- A channel after the disables whose effect line it is (R32). -/
def Channel.disabledBy (ds : List (BitVec 16)) (k : Nat) (x : Channel) : Channel :=
  if ds.any (fun d => d.getLsbD k) = true ∧ x.state ≠ .off then x.toOff else x

theorem Channel.disabledBy_off (ds : List (BitVec 16)) (k : Nat) (x : Channel)
    (h : ds.any (fun d => d.getLsbD k) = true) : (x.disabledBy ds k).state = .off := by
  unfold Channel.disabledBy
  split
  · rfl
  · rename_i hoff; simpa [h] using hoff

theorem Channel.disabledBy_none (ds : List (BitVec 16)) (k : Nat) (x : Channel)
    (h : ¬ds.any (fun d => d.getLsbD k) = true) : x.disabledBy ds k = x := if_neg fun h' => h h'.1

theorem Channel.settleLine_state (n k : Nat) (la : Line) (x : Channel) (h : x.state ≠ .settling) :
    (x.settleLine n k la).1 = x := by
  unfold Channel.settleLine; rw [if_neg h]

theorem Channel.settleLine_settling (n k : Nat) (la : Line) (x : Channel) (h : x.state = .settling) :
    (x.settleLine n k la).1.settle = x.settle + 1 ∧
    (x.settleLine n k la).1.state = if n ≤ x.settle + 1 then .active else .settling := by
  unfold Channel.settleLine
  rw [if_pos h]
  by_cases hn : n ≤ x.settle + 1 <;> simp [hn, h]

/-- A channel when the line is over. -/
def Channel.lineOver (c : Setup) (ds : List (BitVec 16)) (la : Line) (k : Nat) (x : Channel) : Channel :=
  (Channel.discardStale k (la + 1#24)
    (Channel.settleLine c.settleLines k la
      (Channel.discardStale k la ((x.disabledBy ds k).judge k (geomAt c.geom k).n la).chan).1).1).1

/-- A channel that the judgment does not leave SETTLING keeps the state it leaves. -/
theorem Channel.lineOver_state (c : Setup) (ds : List (BitVec 16)) (la : Line) (k : Nat) (x : Channel) (st : ChanState)
    (h : ((x.disabledBy ds k).judge k (geomAt c.geom k).n la).chan.state = st) (hst : st ≠ .settling) :
    (x.lineOver c ds la k).state = st := by
  unfold Channel.lineOver
  rw [Channel.discardStale_state, Channel.settleLine_state _ _ _ _ (by simpa [h] using hst),
    Channel.discardStale_state, h]

theorem Channel.lineOver_spec (c : Setup) (ds : List (BitVec 16)) (la : Line) (k : Nat) (x : Channel) :
    let disabled := ds.any (fun d => d.getLsbD k) = true
    (disabled → (x.lineOver c ds la k).state = .off) ∧
    (¬disabled → x.state = .off → (x.lineOver c ds la k).state = .off) ∧
    (¬disabled → x.state = .faulted → (x.lineOver c ds la k).state = .faulted) ∧
    (¬disabled → x.state = .active ∨ x.state = .lapsed →
      (x.lineOver c ds la k).state = if x.cond (geomAt c.geom k).n la = .complete then .active else .lapsed) ∧
    (¬disabled → x.state = .settling → (x.lineOver c ds la k).settle = x.settle + 1 ∧
      (x.lineOver c ds la k).state = if c.settleLines ≤ x.settle + 1 then .active else .settling) := by
  intro disabled
  obtain ⟨-, -, hidle, hline, hsettle, -⟩ := (x.disabledBy ds k).judge_spec k (geomAt c.geom k).n la
  have hover := x.lineOver_state c ds la k
  refine ⟨fun hd => ?_, fun hd h => ?_, fun hd h => ?_, fun hd h => ?_, fun hd h => ?_⟩
  · have hoff := x.disabledBy_off ds k hd
    exact hover .off ((hidle (.inl hoff)).trans hoff) (by simp)
  all_goals rw [x.disabledBy_none ds k hd] at hidle hline hsettle hover
  · exact hover _ ((hidle (.inl h)).trans h) (by simp)
  · exact hover _ ((hidle (.inr (.inr h))).trans h) (by simp)
  · exact hover _ (hline h) (by split <;> simp)
  · have hsettling := (hidle (.inr (.inl h))).trans h
    obtain ⟨hcount, hstate⟩ := Channel.settleLine_settling c.settleLines k la
      (Channel.discardStale k la (x.judge k (geomAt c.geom k).n la).chan).1 hsettling
    rw [Channel.discardStale_settle, hsettle] at hcount hstate
    unfold Channel.lineOver
    rw [x.disabledBy_none ds k hd, Channel.discardStale_settle, Channel.discardStale_state]
    exact ⟨hcount, hstate⟩

/-! ## The parts of an assembly (R24, R26, R32) -/

/-- The judgments of the line, after the disables whose effect line it is (R24, R32). -/
def State.judgments (c : Setup) (s : State) : List Judgment :=
  judgeFrom s.sli.la 0 (turnOffSets s.sli.la s.sli.chans (effectSets s.sli.la s.oru.table)).1 c.geom

theorem State.judgments_length (c : Setup) (s : State) : (s.judgments c).length = s.sli.chans.length := by
  simp [State.judgments]

theorem State.judgments_getElem? (c : Setup) (s : State) (k : Nat) : (s.judgments c)[k]? = s.sli.chans[k]?.map
    (fun x => (x.disabledBy (effectSets s.sli.la s.oru.table) k).judge k (geomAt c.geom k).n s.sli.la) := by
  unfold State.judgments
  rw [judgeFrom_getElem?, turnOffSets_getElem?, Option.map_map, Nat.zero_add]
  rfl

/-- The channels when the line is over, one by one. -/
theorem State.assemble_chans (c : Setup) (s : State) (k : Nat) : (s.assemble c).chans[k]? = s.sli.chans[k]?.map
    (Channel.lineOver c (effectSets s.sli.la s.oru.table) s.sli.la k) := by
  unfold State.assemble
  dsimp only
  rw [discardStaleFrom_getElem?, settleFrom_getElem?, discardStaleFrom_getElem?, List.getElem?_map, ← State.judgments,
    s.judgments_getElem?, Nat.zero_add]
  simp only [Option.map_map]
  rfl

/-- The judgment of channel k (R24). -/
theorem State.judgments_spec (c : Setup) (s : State) (k : Nat) (j : Judgment) (hj : (s.judgments c)[k]? = some j) :
    let old := s.sli.chan k
    let disabled := (effectSets s.sli.la s.oru.table).any (fun d => d.getLsbD k) = true
    let whole := ¬disabled ∧ (old.state = .active ∨ old.state = .lapsed) ∧
      old.cond (geomAt c.geom k).n s.sli.la = .complete
    (j.contributes = true ↔ whole) ∧ (whole → j.runs = old.queue.tail.takeWhile ScanWord.isRun) ∧
    (disabled ∨ old.state = .off → j.chan.state = .off) ∧
    (¬disabled → old.state = .settling ∨ old.state = .faulted → j.chan.state = old.state) ∧
    (¬disabled → old.state = .active ∨ old.state = .lapsed → ¬whole → j.chan.state = .lapsed) := by
  rw [s.judgments_getElem?] at hj
  obtain ⟨x, hx, hjudge⟩ := Option.map_eq_some_iff.1 hj
  have hold : s.sli.chan k = x := by simp [Intake.chan, List.getD_eq_getElem?_getD, hx]
  intro old disabled whole
  have hchan : old = x := hold
  obtain ⟨hon, hruns, hidle, hline, -, -⟩ :=
    (x.disabledBy (effectSets s.sli.la s.oru.table) k).judge_spec k (geomAt c.geom k).n s.sli.la
  rw [hjudge] at hon hruns hidle hline
  by_cases hd : disabled
  · have hoff := x.disabledBy_off (effectSets s.sli.la s.oru.table) k hd
    refine ⟨⟨fun h => ?_, fun h => absurd hd h.1⟩, fun h => absurd hd h.1, fun _ => (hidle (.inl hoff)).trans hoff,
      fun h => absurd hd h, fun h => absurd hd h⟩
    simpa [Channel.whole, hoff] using (hon.1 h).1
  · rw [x.disabledBy_none _ k hd] at hon hruns hidle hline
    subst hchan
    refine ⟨hon.trans ⟨fun h => ⟨hd, h⟩, fun h => h.2⟩, fun h => hruns h.2, fun h => ?_, fun _ h => ?_,
      fun _ h hnot => ?_⟩
    · have hoff := h.resolve_left hd
      exact (hidle (.inl hoff)).trans hoff
    · exact hidle (.inr h)
    · exact (hline h).trans (if_neg fun hc => hnot ⟨hd, h, hc⟩)

/-! ## The records of the channels (R33, R21) -/

theorem turnOffFrom_records (names : Nat → Bool) (line : Line) : ∀ (k : Nat) (cs : List Channel),
    ∀ r ∈ (turnOffFrom names line k cs).2, ∃ x, r = .channel x
  | _, [], _, h => nomatch h
  | k, c :: cs, r, h => by
    simp only [turnOffFrom] at h
    split at h
    · rcases List.mem_cons.1 h with rfl | h
      · exact ⟨_, rfl⟩
      · exact turnOffFrom_records names line (k + 1) cs r h
    · exact turnOffFrom_records names line (k + 1) cs r h

theorem turnOffSets_records (line : Line) : ∀ (ds : List (BitVec 16)) (cs : List Channel),
    ∀ r ∈ (turnOffSets line cs ds).2, ∃ x, r = .channel x
  | [], _, _, h => nomatch h
  | d :: ds, cs, r, h => (List.mem_append.1 h).elim (turnOffFrom_records (inSet d) line 0 cs r)
      (turnOffSets_records line ds _ r)

theorem Channel.settleLine_records (n k : Nat) (la : Line) (x : Channel) :
    ∀ r ∈ (x.settleLine n k la).2, ∃ x, r = .channel x := by
  intro r h
  unfold Channel.settleLine at h
  split at h
  · split at h
    · exact ⟨_, List.mem_singleton.1 h⟩
    · cases h
  · cases h

theorem settleFrom_records (n : Nat) (la : Line) : ∀ (k : Nat) (cs : List Channel),
    ∀ r ∈ (settleFrom n la k cs).2, ∃ x, r = .channel x
  | _, [], _, h => nomatch h
  | k, c :: cs, r, h => (List.mem_append.1 h).elim (c.settleLine_records n k la r)
      (settleFrom_records n la (k + 1) cs r)

theorem dropStale_records (k : Nat) (la : Line) : ∀ (q : List ScanWord) (st : Option Line),
    ∀ r ∈ (dropStale k la q st).2.2, ∃ l, r = .notice (.staleWords k l la)
  | [], _, _, h => nomatch h
  | w :: q, st, r, h => by
    unfold dropStale at h
    split at h
    · cases h
    · split at h
      · rcases List.mem_cons.1 h with rfl | h
        · exact ⟨_, rfl⟩
        · exact dropStale_records k la q _ r h
      · exact dropStale_records k la q _ r h

theorem discardStaleFrom_records (la : Line) : ∀ (k : Nat) (cs : List Channel),
    ∀ r ∈ (discardStaleFrom la k cs).2, ∃ n l, r = .notice (.staleWords n l la)
  | _, [], _, h => nomatch h
  | k, c :: cs, r, h => (List.mem_append.1 h).elim (fun h => ⟨k, dropStale_records k la c.queue c.staleLine r h⟩)
      (discardStaleFrom_records la (k + 1) cs r)

theorem State.judgments_records (c : Setup) (s : State) :
    ∀ r ∈ (s.judgments c).flatMap Judgment.records, ∃ x, r = .channel x := by
  intro r h
  obtain ⟨j, hj, hr⟩ := List.mem_flatMap.1 h
  obtain ⟨k, hk⟩ := List.mem_iff_getElem?.1 hj
  rw [s.judgments_getElem?] at hk
  obtain ⟨x, -, rfl⟩ := Option.map_eq_some_iff.1 hk
  obtain ⟨-, -, -, -, -, hrecords⟩ := (x.disabledBy _ k).judge_spec k (geomAt c.geom k).n s.sli.la
  exact hrecords r hr

/-! ## The assembly of a line that is due (R21 to R26, R32, R50) -/

/-- The line gate may assemble (R23, log 39). -/
theorem State.gateReady_iff (c : Setup) (s : State) : s.gateReady c = true ↔ s.sts.state.run = true ∧
    1 ≤ (s.pos.lt - s.sli.la).toNat ∧ (waitSetSettled s.sli.la s.sli.chans c.geom = true ∨
      (s.triggersRun = true ∧ c.deadline ≤ (s.pos.lt - s.sli.la).toNat)) := by
  simp only [State.gateReady, Bool.and_eq_true, Bool.or_eq_true, decide_eq_true_eq, and_assoc]
  rfl

/-- A line that is due is assembled, and the CHANNEL orders that complete are issued (R24, R32). -/
theorem exec_lineAssembly_of_ready (s : State) (c : Setup) (hp : s.pinHeld = false) (hc : s.setup = some c)
    (h : s.gateReady c = true) : exec .lineAssembly s = .next (State.issue (s.assembled c)) := by
  have hline : lineAssembly s = State.issue (s.assembled c) := by
    unfold lineAssembly
    simp only [hc]
    exact if_pos h
  exact (State.taken_free _ _ hp).trans (congrArg _ hline)

/-- The runs of the line at FAS (R26). -/
def State.lineRuns (c : Setup) (s : State) : Assembler × List Report :=
  s.fas.takeRuns c s.sli.la (yOf s.pos c.pitch s.sli.la) (handedRunsFrom s.sli.mask 0 (s.judgments c) c.geom)

/-- What FAS, RBM and STU hold after the end of the line (R43 to R45). -/
def State.lineBench (c : Setup) (s : State) : Bench :=
  Bench.endLine c s.pos s.sli.la ⟨(s.lineRuns c).1, s.rbm, s.stu, []⟩

/-- The unseen spans of the line at RBM (R26). -/
def State.lineMap (c : Setup) (s : State) : RibbonMap × List Report :=
  (s.lineBench c).rbm.takeSpans (yOf s.pos c.pitch s.sli.la) c.pitch (unseenSpans s.sli.mask c.geom (s.judgments c))

theorem State.assemble_fas (c : Setup) (s : State) :
    (s.assemble c).fas = (s.lineBench c).fas.setYFin s.pos c.pitch (s.sli.la + 1#24) := rfl
theorem State.assemble_rbm (c : Setup) (s : State) : (s.assemble c).rbm = (s.lineMap c).1 := rfl
theorem State.assemble_stu (c : Setup) (s : State) : (s.assemble c).stu = (s.lineBench c).stu := rfl

/-- A line keeps the retired edge and the closing tally. -/
theorem State.assemble_kept (c : Setup) (s : State) :
    (s.assemble c).rbm.retiredEdge = s.rbm.retiredEdge ∧ (s.assemble c).stu.closing = s.stu.closing := by
  obtain ⟨hedge, hclosing⟩ := Bench.finalizes_kept c s.pos (((s.lineRuns c).1.frontStep s.sli.la).closedSet c s.sli.la)
    ⟨((s.lineRuns c).1.frontStep s.sli.la).afterLine c s.sli.la, s.rbm, s.stu, []⟩
  exact ⟨(RibbonMap.takeSpans_retiredEdge _ _ _ _).trans hedge, hclosing⟩

/-- A record of the channels: a CHANNEL record, or a STALE_WORDS notice of L_a as it was or as it is (R33, R21). -/
def Report.ofChannels (la : Line) (r : Report) : Prop :=
  (∃ x, r = .channel x) ∨ ∃ k l m, r = .notice (.staleWords k l m) ∧ (m = la ∨ m = la + 1#24)

/-- The records of a line: those of the runs, the end of the line and the spans stand between those of the channels
(logs 23, 30 and 51). -/
theorem State.assemble_records (c : Setup) (s : State) : ∃ before after : List Report,
    (s.assemble c).records = before ++ (s.lineRuns c).2 ++ (s.lineBench c).out ++ (s.lineMap c).2 ++ after ∧
    ∀ r ∈ before ++ after, r.ofChannels s.sli.la := by
  let off := turnOffSets s.sli.la s.sli.chans (effectSets s.sli.la s.oru.table)
  let heads := discardStaleFrom s.sli.la 0 ((s.judgments c).map Judgment.chan)
  let settled := settleFrom c.settleLines s.sli.la 0 heads.1
  let stale := discardStaleFrom (s.sli.la + 1#24) 0 settled.1
  refine ⟨off.2 ++ (s.judgments c).flatMap Judgment.records ++ heads.2, settled.2 ++ stale.2, ?_, fun r hr => ?_⟩
  · exact (List.append_assoc _ _ _)
  · have hchannel : (∃ x, r = .channel x) → r.ofChannels s.sli.la := .inl
    simp only [List.mem_append] at hr
    rcases hr with ((hr | hr) | hr) | hr | hr
    · exact hchannel (turnOffSets_records _ _ _ r hr)
    · exact hchannel (s.judgments_records c r hr)
    · obtain ⟨k, l, heq⟩ := discardStaleFrom_records _ _ _ r hr
      exact .inr ⟨k, l, _, heq, .inl rfl⟩
    · exact hchannel (settleFrom_records _ _ _ _ r hr)
    · obtain ⟨k, l, heq⟩ := discardStaleFrom_records _ _ _ r hr
      exact .inr ⟨k, l, _, heq, .inr rfl⟩

/-- The finality frontier of a line (R50). -/
theorem Assembler.setYFin_spec (pos : Position) (pitch : Nat) (la : Line) (f : Assembler) :
    ∃ m : Line, (f.setYFin pos pitch la).yFin = yOf pos pitch m ∧
      (m = la ∨ ∃ b ∈ f.blobs ++ f.dense.toList, b.first = m) ∧
      ((∀ b ∈ f.blobs ++ f.dense.toList, (la - b.first).toNat < 2 ^ 23) →
        ∀ b ∈ f.blobs ++ f.dense.toList, (la - b.first).toNat ≤ (la - m).toNat) := by
  obtain ⟨horigin, hearliest⟩ := frontLine_spec (f.blobs ++ f.dense.toList) la la
  refine ⟨_, rfl, horigin, fun h => ?_⟩
  obtain ⟨-, -, hle⟩ := hearliest (by simp) h
  exact hle

theorem Assembler.setYFin_blobs (pos : Position) (pitch : Nat) (la : Line) (f : Assembler) :
    (f.setYFin pos pitch la).blobs = f.blobs ∧ (f.setYFin pos pitch la).dense = f.dense ∧
    f.setYFin pos pitch la = { f with yFin := (f.setYFin pos pitch la).yFin } := ⟨rfl, rfl, rfl⟩

/-- The blocks that an assembly feeds (R24, R26, R32). -/
theorem State.issue_assembled_blocks (c : Setup) (s : State) :
    (State.issue (s.assembled c)).sli.la = s.sli.la + 1#24 ∧ (State.issue (s.assembled c)).sli.mask = s.sli.mask ∧
    (State.issue (s.assembled c)).sli.chans = (s.assemble c).chans ∧
    (State.issue (s.assembled c)).fas = (s.lineBench c).fas.setYFin s.pos c.pitch (s.sli.la + 1#24) ∧
    (State.issue (s.assembled c)).rbm = (s.lineMap c).1 ∧ (State.issue (s.assembled c)).stu = (s.lineBench c).stu ∧
    (State.issue (s.assembled c)).exu.staging = (s.report (s.assemble c).records).exu.staging ∧
    (State.issue (s.assembled c)).oru =
      { s.oru with table := s.oru.table.filter (fun e => !e.disableDone c.closeGap s.sli.la) } := by
  have hsli : (State.issue (s.assembled c)).sli = ⟨(s.assemble c).chans, s.sli.la + 1#24, s.sli.mask⟩ :=
    State.writeStatuses_sli (s.assembled c).2 (s.assembled c).1
  have hexu : (s.assembled c).1.exu = (s.report (s.assemble c).records).exu := rfl
  refine ⟨by rw [hsli], by rw [hsli], by rw [hsli], ?_, ?_, ?_, ?_, ?_⟩
  · exact (State.writeStatuses_fas (s.assembled c).2 (s.assembled c).1).trans (s.assemble_fas c)
  · exact (State.writeStatuses_rbm (s.assembled c).2 (s.assembled c).1).trans (s.assemble_rbm c)
  · exact (State.writeStatuses_stu (s.assembled c).2 (s.assembled c).1).trans (s.assemble_stu c)
  · exact (State.writeStatuses_exu_staging (s.assembled c).2 (s.assembled c).1).trans (congrArg Exchange.staging hexu)
  · exact State.writeStatuses_oru (s.assembled c).2 (s.assembled c).1

/-- What an assembly leaves unchanged, and its statuses (R32). -/
theorem State.issue_assembled_rest (c : Setup) (s : State) : let t := State.issue (s.assembled c)
    t.host = (s.oru.table.filter (fun e => e.disableDone c.closeGap s.sli.la)).foldl
      (fun m e => m.writeStatus ⟨e.addr, e.notify, 2, 0, []⟩) s.host ∧
    t.sts = s.sts ∧ t.setup = s.setup ∧ t.pos = s.pos ∧ t.rpl = s.rpl ∧ t.cgc = s.cgc ∧ t.grd = s.grd ∧
    t.inputs = s.inputs ∧ t.free = s.free ∧ t.exu.phase = s.exu.phase ∧ t.exu.filling = s.exu.filling ∧
    t.exu.cursor = s.exu.cursor := by
  intro t
  refine ⟨?_, ?_⟩
  · have hhost := State.writeStatuses_host (s.assembled c).2 (s.assembled c).1
    exact hhost.trans List.foldl_map
  · simp [t, State.issue, State.assembled]

/-- Settles O21, part by part: the state after a line, the runs in order, one run by the number of blobs it is near, the
merge of two blobs, a range added to a front, and the end of a line. -/
theorem lineAssemblyAdvances : Obligations.LineAssemblyAdvances := by
  refine ⟨fun s c hp hc hrun hlag hlen hdue => ?_, fun c la y f h hs => ⟨rfl, rfl, rfl⟩, fun c la y f r => ?_,
    Blob.absorb_eq, fun v front hv hne hsep hlen => ?_, fun c pos la b => ?_⟩
  · have hexec := exec_lineAssembly_of_ready s c hp hc ((s.gateReady_iff c).2 ⟨hrun, hlag, hdue⟩)
    obtain ⟨hla, hmask, hchans, hfas, hrbm, hstu, hstaging, horu⟩ := s.issue_assembled_blocks c
    have hrest := s.issue_assembled_rest c
    generalize State.issue (s.assembled c) = t at hexec hla hmask hchans hfas hrbm hstu hstaging horu hrest
    obtain ⟨hhost, hsts, hsetup, hpos, hrpl, hcgc, hgrd, hinputs, hfree, hphase, hfilling, hcursor⟩ := hrest
    obtain ⟨hblobs, hdense, hyfin⟩ := (s.lineBench c).fas.setYFin_blobs s.pos c.pitch (s.sli.la + 1#24)
    obtain ⟨m, hm, hfrom, hearliest⟩ := (s.lineBench c).fas.setYFin_spec s.pos c.pitch (s.sli.la + 1#24)
    obtain ⟨before, after, hrecords, hkinds⟩ := s.assemble_records c
    obtain ⟨hedge, hclosing⟩ := s.assemble_kept c
    rw [← hfas] at hblobs hdense hyfin hm
    rw [← hla, ← hblobs, ← hdense] at hfrom hearliest
    refine ⟨t, hexec, hla, hmask, fun k hk => ?_, ⟨m, hm, hfrom, hearliest⟩,
      ⟨s.judgments c, s.lineRuns c, s.lineBench c, s.lineMap c, before, after, (s.judgments_length c).trans hlen,
        s.judgments_spec c, rfl, rfl, rfl, hyfin, hrbm, hstu, hrecords ▸ hstaging, ?_⟩,
      horu, hhost, hsts, hsetup, hpos, hrpl, hcgc, hgrd, hinputs, hfree, hphase, hfilling, hcursor,
      (congrArg TallyUnit.closing hstu).trans hclosing, (congrArg RibbonMap.retiredEdge hrbm).trans hedge⟩
    · have hchan : t.sli.chan k = (s.sli.chan k).lineOver c (effectSets s.sli.la s.oru.table) s.sli.la k :=
        Intake.chan_of_map s.sli t.sli k _ (hlen ▸ hk) ((congrArg (·[k]?) hchans).trans (s.assemble_chans c k))
      rw [hchan]
      exact Channel.lineOver_spec c _ _ _ _
    · rw [hla]
      exact hkinds
  · intro meets near took joined begun
    have hnear : ∀ b : Blob, b.near c.joinTol c.closeGap la r = true ↔ near b := Blob.near_iff c.joinTol c.closeGap la r
    have htook : ∀ b : Blob, b.take r = took b := fun b => b.take_eq r
    have hjoined : ∀ b : Blob, b.join r = joined b := fun b =>
      congrArg (fun x : Blob => { x with curFront := addFront r.x b.curFront }) (htook b)
    have hnil : (∀ b ∈ f.blobs, ¬near b) → f.blobs.filter (Blob.near c.joinTol c.closeGap la r) = [] :=
      fun h => List.filter_eq_nil_iff.2 fun b hb => (not_congr (hnear b)).2 (h b hb)
    refine ⟨fun lower upper hf hno hroom hlow hup => ?_, fun hno hfull => ⟨fun hd => ?_, fun d hd => ?_⟩,
      fun lower b upper hf hb hno => ?_, fun near' hnear' hseveral hsorted hage => ?_⟩
    · exact f.takeRun_of_room c la y r lower upper hf (hnil hno) hroom hlow hup
    · exact (f.takeRun_of_full c la y r (hnil hno) hfull).trans (f.toDense_of_none la y r hd)
    · rw [f.takeRun_of_full c la y r (hnil hno) hfull, f.toDense_of_some la y r d hd, htook]
    · rw [← hjoined]
      exact f.takeRun_of_one c la y r lower upper b hf ((hnear b).2 hb)
        fun x hx => ⟨(not_congr (hnear x)).2 (hno x hx).1, (hno x hx).2⟩
    · obtain rfl : near' = Blob.near c.joinTol c.closeGap la r :=
        funext fun b => Bool.eq_iff_iff.2 ((hnear' b).trans (hnear b).symm)
      have hsub := List.filter_sublist (p := Blob.near c.joinTol c.closeGap la r) (l := f.blobs)
      obtain ⟨sv, hmem, hsv, hfirst⟩ := survivorOf_spec la _ (List.ne_nil_of_length_pos (by omega))
        (hsorted.sublist hsub) fun b hb => hage b (hsub.subset hb)
      obtain ⟨lower, upper, hsplit, hlow, hup, htake⟩ := f.takeRun_of_several c la y r sv hseveral hsv hmem hsorted
      have hothers := (List.filter_sublist (p := fun b : Blob => b.id ≠ sv.id)).trans hsub
      rw [hjoined] at htake
      exact ⟨sv, _, lower, upper, hmem, hfirst, survivorLink_of_own sv _, survivorLink_of_nobody sv _,
        fun h => survivorLink_of_other la sv _ h (hsorted.sublist hothers) fun b hb => hage b (hothers.subset hb),
        hsplit, hlow, hup, htake⟩
  · intro touching gap holds
    obtain ⟨hlength, ⟨hne', hsep'⟩, hroom, hfull⟩ := addFront_spec v front hv ⟨hne, hsep⟩ hlen
    exact ⟨hlength, hsep', hne', hroom, hfull⟩
  · intro step gap split continuation closes age
    have hstep : b.fas.frontStep la = { b.fas with blobs := b.fas.blobs.map step } :=
      congrArg (fun g => ({ b.fas with blobs := b.fas.blobs.map g } : Assembler)) (funext (Blob.endLine_eq la))
    have hcloses : ∀ (dense : Bool) (e : Blob) (x : Closed), x ∈ e.closed c la dense ↔ closes dense e x :=
      fun dense e x => e.mem_closed c la dense x
    obtain ⟨hmem, hordered⟩ := (b.fas.frontStep la).closedSet_spec c la
    refine ⟨(b.fas.frontStep la).closedSet c la, ?_, fun x => ?_, hordered⟩
    · have hafter := (b.fas.frontStep la).afterLine_eq c la
      refine congrArg (fun f => ((b.fas.frontStep la).closedSet c la).foldl (Bench.finalize c pos) { b with fas := f })
        (hafter.trans ?_)
      rw [hstep]
      rfl
    · rw [hmem, hstep]
      simp only [hcloses]

end Sys2Proof.Machine
end

/-! # The orders LOAD CLASSES and LOAD SPEC (O48) -/

section
-- One declaration after the other: a thread for each exceeds the memory that the check allows.
set_option Elab.async false
namespace Sys2Proof.Machine

/-! ## The taking of an order by its command -/

theorem exec_loadClasses_of_order (s : State) (b : Block) (es : List ClassEntry) (hp : s.pinHeld = false)
    (hl : s.sts.state.live = true) (hb : s.exu.phase = .order b) (hx : b.body = .loadClasses es) :
    exec .loadClasses s = .next (State.issue (takeLoadClasses b es (s.cursorTo b))) :=
  State.taken_order OrderBody.loadClasses? takeLoadClasses s b es hp hl hb (by rw [hx]; rfl)

theorem exec_loadSpec_of_order (s : State) (b : Block) (id : Nat) (q : Spec) (hp : s.pinHeld = false)
    (hl : s.sts.state.live = true) (hb : s.exu.phase = .order b) (hx : b.body = .loadSpec id q) :
    exec .loadSpec s = .next (State.issue (takeLoadSpec b id q (s.cursorTo b))) :=
  State.taken_order OrderBody.loadSpec? (fun b p => takeLoadSpec b p.1 p.2) s b (id, q) hp hl hb (by rw [hx]; rfl)

/-! ## LOAD CLASSES (R52) -/

/-- When an entry fails its check (R52). -/
theorem ClassEntry.not_valid_iff (e : ClassEntry) :
    ¬e.valid = true ↔ e.enabled = true ∧ (e.sizeMax < e.sizeMin ∨ e.required &&& e.excluded ≠ 0) := by
  simp [ClassEntry.valid, imp_iff_not_or]

/-- When a table of entries fails its check (R52). -/
theorem ClassEntry.not_all_valid_iff (es : List ClassEntry) : ¬es.all ClassEntry.valid = true ↔
    ∃ e ∈ es, e.enabled = true ∧ (e.sizeMax < e.sizeMin ∨ e.required &&& e.excluded ≠ 0) := by
  simp only [List.all_eq_true, not_forall, exists_prop, ClassEntry.not_valid_iff]

theorem classesRefusal_of_not_idle (s : State) (es : List ClassEntry) (h : s.sts.state ≠ .idle) :
    classesRefusal s es = some .wrongState := if_pos h

/-- In IDLE the entries decide. -/
theorem classesRefusal_of_idle (s : State) (es : List ClassEntry) (h : s.sts.state = .idle) :
    classesRefusal s es = if ¬es.all ClassEntry.valid = true then some .badValue else none := by
  simp [classesRefusal, h]

/-- A refused LOAD CLASSES writes its status and does nothing else. -/
theorem issue_takeLoadClasses_of_refusal (b : Block) (es : List ClassEntry) (s : State) (r : Reason)
    (h : classesRefusal s es = some r) :
    State.issue (takeLoadClasses b es s) = s.writeStatus ⟨b.addr, b.notify, 3, r.code, []⟩ := by
  unfold takeLoadClasses; rw [h]; rfl

/-- An accepted LOAD CLASSES replaces the class table, then writes DONE. -/
theorem issue_takeLoadClasses_of_accepted (b : Block) (es : List ClassEntry) (s : State)
    (h : classesRefusal s es = none) :
    State.issue (takeLoadClasses b es s) =
      State.writeStatus { s with fas := { s.fas with classes := es } } ⟨b.addr, b.notify, 2, 0, []⟩ := by
  unfold takeLoadClasses; rw [h]; rfl

/-! ## LOAD SPEC (R134, R135) -/

/-- When a spec or its id fails the check (R134). -/
theorem Spec.badValue_iff (id : Nat) (q : Spec) : (7 < id ∨ ¬q.valid = true) ↔
    7 < id ∨ q.b2 ≤ q.b1 ∨ q.b3 ≤ q.b2 ∨ 524288 < q.e ∨ 32 < q.ze ∨ 32 < q.zc ∨ q.tb < q.ta ∨ q.tc < q.tb ∨
      1000 < q.u ∨ ∃ k ∈ q.codes, 7 < k := by
  simp [Spec.valid, imp_iff_not_or, or_assoc]

/-- A lane of a CUT order in the table names the spec. -/
theorem OrderUnit.cutOrders_any_spec (u : OrderUnit) (id : Nat) :
    u.cutOrders.any (fun c => c.lanes.any (fun l => l.spec = id)) = true ↔
      ∃ e ∈ u.table, ∃ o, e.work = .cut o ∧ ∃ l ∈ o.lanes, l.spec = id := by
  simp only [OrderUnit.cutOrders, List.any_eq_true, List.mem_filterMap, Entry.cut?_eq_some, decide_eq_true_eq]
  constructor
  · rintro ⟨o, ⟨e, he, ho⟩, hl⟩; exact ⟨e, he, o, ho, hl⟩
  · rintro ⟨e, he, o, ho, hl⟩; exact ⟨o, ⟨e, he, ho⟩, hl⟩

/-- When a spec is in use (R135). -/
theorem State.specInUse_iff (s : State) (id : Nat) : s.specInUse id = true ↔
    (∃ e ∈ s.oru.table, ∃ o, e.work = .cut o ∧ ∃ l ∈ o.lanes, l.spec = id) ∨
      ∃ r ∈ s.rpl.rows, ∃ l ∈ r.lanes, l.spec = id := by
  rw [State.specInUse, Bool.or_eq_true, OrderUnit.cutOrders_any_spec]
  simp only [List.any_eq_true, decide_eq_true_eq]

/-- The id and the fields are checked before the use of the spec (R134). -/
theorem specRefusal_eq (s : State) (id : Nat) (q : Spec) : specRefusal s id q =
    if 7 < id ∨ ¬q.valid = true then some .badValue else if s.specInUse id = true then some .inUse else none := by
  unfold specRefusal
  by_cases hid : 7 < id <;> simp [hid]

/-- A refused LOAD SPEC writes its status and does nothing else. -/
theorem issue_takeLoadSpec_of_refusal (b : Block) (id : Nat) (q : Spec) (s : State) (r : Reason)
    (h : specRefusal s id q = some r) :
    State.issue (takeLoadSpec b id q s) = s.writeStatus ⟨b.addr, b.notify, 3, r.code, []⟩ := by
  unfold takeLoadSpec; rw [h]; rfl

/-- An accepted LOAD SPEC replaces the one spec, then writes DONE. -/
theorem issue_takeLoadSpec_of_accepted (b : Block) (id : Nat) (q : Spec) (s : State)
    (h : specRefusal s id q = none) :
    State.issue (takeLoadSpec b id q s) = State.writeStatus
      { s with grd := { s.grd with specs := s.grd.specs.set id (some q) } } ⟨b.addr, b.notify, 2, 0, []⟩ := by
  unfold takeLoadSpec; rw [h]; rfl

/-- Settles O48: the refusal of either order on the state with the cursor moved, then its answer. -/
theorem loadOrdersReplaceTables : Obligations.LoadOrdersReplaceTables := by
  intro s b hp hl hb refused done
  refine ⟨fun es hx => ?_, fun id q hx => ?_⟩
  · intro bad
    rw [exec_loadClasses_of_order s b es hp hl hb hx]
    refine ⟨fun hi => ?_, fun hi hbad => ?_, fun hi hok => ?_⟩
    · rw [issue_takeLoadClasses_of_refusal b es _ .wrongState (classesRefusal_of_not_idle (s.cursorTo b) es hi)]
      rfl
    · rw [issue_takeLoadClasses_of_refusal b es _ .badValue ((classesRefusal_of_idle (s.cursorTo b) es hi).trans
        (if_pos ((ClassEntry.not_all_valid_iff es).2 hbad)))]
      rfl
    · rw [issue_takeLoadClasses_of_accepted b es _ ((classesRefusal_of_idle (s.cursorTo b) es hi).trans
        (if_neg (mt (ClassEntry.not_all_valid_iff es).1 hok)))]
      rfl
  · intro bad used
    rw [exec_loadSpec_of_order s b id q hp hl hb hx]
    have hvalid : (7 < id ∨ ¬q.valid = true) ↔ bad := Spec.badValue_iff id q
    have hinUse : (s.cursorTo b).specInUse id = true ↔ used := (s.cursorTo b).specInUse_iff id
    have hrefusal := specRefusal_eq (s.cursorTo b) id q
    refine ⟨fun hbad => ?_, fun hok hused => ?_, fun hok hfree => ?_⟩
    · rw [if_pos (hvalid.2 hbad)] at hrefusal
      rw [issue_takeLoadSpec_of_refusal b id q _ .badValue hrefusal]
      rfl
    · rw [if_neg (mt hvalid.1 hok), if_pos (hinUse.2 hused)] at hrefusal
      rw [issue_takeLoadSpec_of_refusal b id q _ .inUse hrefusal]
      rfl
    · rw [if_neg (mt hvalid.1 hok), if_neg (mt hinUse.1 hfree)] at hrefusal
      rw [issue_takeLoadSpec_of_accepted b id q _ hrefusal]
      rfl

end Sys2Proof.Machine
end

/-! # The finalization of a closed blob (O23) -/

section
-- One declaration after the other: a thread for each exceeds the memory that the check allows.
set_option Elab.async false
namespace Sys2Proof.Machine

/-! ## Bits of a word -/

/-- Every bit of one word is set in the other. -/
theorem bits_subset_iff {n : Nat} (a b : BitVec n) :
    a &&& b = a ↔ ∀ i < n, a.getLsbD i = true → b.getLsbD i = true := by
  simp only [BitVec.eq_of_getLsbD_eq_iff, BitVec.getLsbD_and, Bool.and_eq_left_iff_imp]

/-- No bit of one word is set in the other. -/
theorem bits_disjoint_iff {n : Nat} (a b : BitVec n) :
    a &&& b = 0 ↔ ∀ i < n, a.getLsbD i = true → b.getLsbD i = false := by
  simp only [BitVec.eq_of_getLsbD_eq_iff, BitVec.getLsbD_and, BitVec.ofNat_eq_ofNat, BitVec.getLsbD_zero,
    Bool.and_eq_false_imp]

/-! ## Classification (R51) -/

/-- A flaw satisfies a class entry (Table 3-4). -/
def Flaw.fits (f : Flaw) (k : ClassEntry) : Prop :=
  k.enabled = true ∧
  (∀ i < 3, k.required.getLsbD i = true → f.modes.getLsbD i = true) ∧
  (∀ i < 3, k.excluded.getLsbD i = true → f.modes.getLsbD i = false) ∧
  k.sizeMin ≤ f.size ∧ f.size ≤ k.sizeMax ∧ k.contrastMin ≤ f.peak ∧ k.elongMin ≤ elongation f.length f.width

theorem ClassEntry.admits_iff (f : Flaw) (k : ClassEntry) :
    k.admits f.modes f.size f.peak (elongation f.length f.width) = true ↔ f.fits k := by
  simp only [ClassEntry.admits, Flaw.fits, Bool.and_eq_true, decide_eq_true_eq, bits_subset_iff,
    bits_disjoint_iff, and_assoc]

/-- The class is the place of the first entry that admits (R51). -/
theorem classify_of_first (modes : BitVec 3) (size peak elong : Nat) (k : ClassEntry) (back : List ClassEntry)
    (hk : k.admits modes size peak elong = true) : ∀ (front : List ClassEntry) (n : Nat),
    (∀ q ∈ front, ¬q.admits modes size peak elong = true) →
    classify modes size peak elong n (front ++ k :: back) = n + front.length
  | [], n, _ => if_pos hk
  | q :: front, n, h => by
    obtain ⟨hq, hfront⟩ := List.forall_mem_cons.1 h
    rw [List.cons_append, classify, if_neg hq, classify_of_first modes size peak elong k back hk front (n + 1) hfront,
      List.length_cons]
    omega

/-- Without an entry that admits the class is 14 (R51). -/
theorem classify_of_none (modes : BitVec 3) (size peak elong : Nat) : ∀ (es : List ClassEntry) (n : Nat),
    (∀ k ∈ es, ¬k.admits modes size peak elong = true) → classify modes size peak elong n es = 14
  | [], _, _ => rfl
  | k :: es, n, h => by
    obtain ⟨hk, hes⟩ := List.forall_mem_cons.1 h
    rw [classify, if_neg hk, classify_of_none modes size peak elong es (n + 1) hes]

section
variable (c : Setup) (pos : Position) (classes : List ClassEntry) (id : Word) (x : Closed)

/-! ## Flaw records (R46 to R48) -/

theorem Closed.flaw_cls_of_dense (h : x.dense = true) : (x.flaw c pos classes id).cls = 15 := if_pos h

/-- Outside the dense record the class is that of the flaw's own modes, size, peak and elongation. -/
theorem Closed.flaw_cls (h : x.dense = false) : (x.flaw c pos classes id).cls =
    let f := x.flaw c pos classes id
    classify f.modes f.size f.peak (elongation f.length f.width) 0 classes := if_neg (by simp [h])

/-- A flaw takes the class of the first entry it satisfies. -/
theorem Closed.flaw_cls_of_first (h : x.dense = false) (front back : List ClassEntry) (k : ClassEntry)
    (hclasses : classes = front ++ k :: back) (hfront : ∀ q ∈ front, ¬(x.flaw c pos classes id).fits q)
    (hk : (x.flaw c pos classes id).fits k) : (x.flaw c pos classes id).cls = front.length := by
  rw [x.flaw_cls c pos classes id h]
  simp only [← ClassEntry.admits_iff] at hfront hk
  generalize x.flaw c pos classes id = f at hfront hk ⊢
  rw [hclasses]
  exact (classify_of_first _ _ _ _ k back hk front 0 hfront).trans (Nat.zero_add _)

/-- A flaw that satisfies no entry takes class 14. -/
theorem Closed.flaw_cls_of_none (h : x.dense = false) (hnone : ∀ k ∈ classes, ¬(x.flaw c pos classes id).fits k) :
    (x.flaw c pos classes id).cls = 14 := by
  rw [x.flaw_cls c pos classes id h]
  exact classify_of_none _ _ _ _ classes 0 fun k hk => mt (ClassEntry.admits_iff _ k).1 (hnone k hk)

/-- The x range of the record is the blob's. -/
theorem Closed.flaw_x (v : Ivl) (h : x.blob.xr = some v) :
    (x.flaw c pos classes id).xLeft = v.1 ∧ (x.flaw c pos classes id).xRight = v.2 := by
  simp [Closed.flaw, h]

end

/-! ## What RBM does with a flaw (R58 to R60) -/

theorem RibbonMap.late_iff (m : RibbonMap) (f : Flaw) :
    m.late f = true ↔ 2 ^ 31 ≤ (f.yCenter - m.retiredEdge).toNat := by
  simp [RibbonMap.late, before, reaches]

theorem RibbonMap.late_eq_false_iff (m : RibbonMap) (f : Flaw) :
    m.late f = false ↔ (f.yCenter - m.retiredEdge).toNat < 2 ^ 31 := by
  rw [← Bool.not_eq_true, m.late_iff, not_le]

/-- A late flaw leaves the map as it is (R59). -/
theorem RibbonMap.takeFlaw_of_late (m : RibbonMap) (f : Flaw) (h : m.late f = true) :
    m.takeFlaw f = (m, [.notice (.lateFlaw f.id f.yCenter m.retiredEdge)]) := if_pos h

theorem RibbonMap.takeFlaw_of_room (m : RibbonMap) (f : Flaw) (h : m.late f = false) (hroom : m.flaws.length < 4096) :
    m.takeFlaw f = ({ m with flaws := insertFlaw f m.flaws, folding := false }, []) :=
  (if_neg (by simp [h])).trans (if_pos hroom)

theorem RibbonMap.takeFlaw_of_full (m : RibbonMap) (f : Flaw) (h : m.late f = false)
    (hfull : 4096 ≤ m.flaws.length) : m.takeFlaw f = m.fold f :=
  (if_neg (by simp [h])).trans (if_neg (not_lt.2 hfull))

/-! ## Folding (R60) -/

/-- A SATURATED interval that a flaw meets (R60). -/
def Interval.meets (f : Flaw) (i : Interval) : Prop :=
  i.cause = .saturated ∧ (i.yEnd - f.yTop).toNat < 2 ^ 31 ∧ (f.yBottom - i.yStart).toNat < 2 ^ 31

theorem Interval.meets_iff (f : Flaw) (i : Interval) :
    (i.cause = .saturated && reaches i.yEnd f.yTop && reaches f.yBottom i.yStart : Bool) = true ↔ i.meets f := by
  simp [Interval.meets, reaches, and_assoc]

theorem Interval.meets_eq_false (f : Flaw) (i : Interval) (h : ¬i.meets f) :
    (i.cause = .saturated && reaches i.yEnd f.yTop && reaches f.yBottom i.yStart : Bool) = false := by
  rw [Bool.eq_false_iff]
  exact fun h' => h ((i.meets_iff f).1 h')

/-- An interval after a flaw was folded into it, with the comparisons spelled (R60). -/
def Interval.afterFold (f : Flaw) (i : Interval) : Interval := { i with
  yStart := if (f.yTop - i.yStart).toNat < 2 ^ 31 then i.yStart else f.yTop
  yEnd := if (f.yBottom - i.yEnd).toNat < 2 ^ 31 then f.yBottom else i.yEnd
  folded := min (i.folded + 1) 65535
  capReported := i.capReported || decide (i.folded = 65535) }

/-- The notice that the map folds, staged when it begins to (R60). -/
def RibbonMap.fullNotice (m : RibbonMap) (f : Flaw) : List Report :=
  if m.folding = true then [] else [.notice (.mapFull f.id f.yCenter 4096)]

/-- The end of a fold: the map is folding, and says so when it was not before. -/
theorem RibbonMap.fold_end (m : RibbonMap) (f : Flaw) (e : RibbonMap × List Report) (h : e.1.folding = m.folding) :
    (if m.folding then e else ({ e.1 with folding := true }, e.2 ++ [.notice (.mapFull f.id f.yCenter flawLimit)])) =
      ({ e.1 with folding := true }, e.2 ++ m.fullNotice f) := by
  unfold RibbonMap.fullNotice
  cases hf : m.folding with
  | true =>
    rw [hf] at h
    simp [← h]
  | false => rfl

/-- Replacing an interval at its place: there, or moved to where its y_start belongs (R61). -/
theorem replaceInterval_at (front back : List Interval) (old new : Interval) :
    replaceInterval front.length old new (front ++ old :: back) =
      if new.yStart = old.yStart then front ++ new :: back else insertInterval new (front ++ back) := by
  unfold replaceInterval
  split
  · simp
  · rw [List.eraseIdx_append_of_length_le (Nat.le_refl _)]
    simp

/-- A flaw is folded into the last interval it meets (R60; the order of the notices, log 44). -/
theorem RibbonMap.fold_of_meets (m : RibbonMap) (f : Flaw) (front back : List Interval) (i : Interval)
    (hm : m.unseen = front ++ i :: back) (hi : i.meets f) (hback : ∀ j ∈ back, ¬j.meets f) (hcap : i.folded ≤ 65535) :
    m.fold f =
      ({ m with
          unseen := if (i.afterFold f).yStart = i.yStart then front ++ i.afterFold f :: back
                    else insertInterval (i.afterFold f) (front ++ back)
          folding := true },
       (if i.folded = 65535 ∧ i.capReported = false then [.notice (.foldCountCapped (i.afterFold f).yStart)] else []) ++
         m.fullNotice f) := by
  have hlast := lastWhere_some _ i back ((i.meets_iff f).2 hi) (fun j hj => j.meets_eq_false f (hback j hj)) front
  have hcapped : (decide (foldLimit < i.folded + 1) && !i.capReported) =
      decide (i.folded = 65535 ∧ i.capReported = false) := by
    have hlimit : foldLimit < i.folded + 1 ↔ i.folded = 65535 := by unfold foldLimit; omega
    simp [hlimit]
  have hnew : ({ i with
      yStart := earlierPos i.yStart f.yTop
      yEnd := laterPos i.yEnd f.yBottom
      folded := min (i.folded + 1) foldLimit
      capReported := i.capReported || decide (i.folded = 65535 ∧ i.capReported = false) } : Interval) =
      i.afterFold f := by
    simp only [Interval.afterFold, earlierPos, laterPos, reaches, foldLimit, decide_eq_true_eq]
    cases i.capReported <;> simp
  have hstart : earlierPos i.yStart f.yTop = (i.afterFold f).yStart := congrArg Interval.yStart hnew
  unfold RibbonMap.fold
  rw [hm, hlast]
  dsimp only
  rw [hcapped, hnew, hstart, replaceInterval_at, m.fold_end f _ rfl]
  simp only [decide_eq_true_eq]

theorem RibbonMap.enter_folding (i : Interval) (m : RibbonMap) : (m.enter i).1.folding = m.folding := by
  unfold RibbonMap.enter
  split
  · rfl
  · split <;> rfl

/-- A flaw that meets no interval is folded into a new one over the installed width (R60). -/
theorem RibbonMap.fold_of_new (m : RibbonMap) (f : Flaw) (hnone : ∀ i ∈ m.unseen, ¬i.meets f) :
    m.fold f =
      let e := m.enter ⟨none, m.installedWidth.1, m.installedWidth.2, f.yTop, f.yBottom, .saturated, 1, false⟩
      ({ e.1 with folding := true }, e.2 ++ m.fullNotice f) := by
  have hlast := lastWhere_none _ m.unseen fun j hj => j.meets_eq_false f (hnone j hj)
  unfold RibbonMap.fold
  rw [hlast]
  exact m.fold_end f _ (m.enter_folding _)

/-! ## Finalization (R46 to R49) -/

theorem Closed.discarded_iff (c : Setup) (x : Closed) : x.discarded c = true ↔
    x.blob.segment = false ∧ x.blob.contFrom = none ∧ x.blob.area < c.minArea := by
  simp [Closed.discarded, and_assoc]

theorem Closed.discarded_eq_false_iff (c : Setup) (x : Closed) : x.discarded c = false ↔
    ¬(x.blob.segment = false ∧ x.blob.contFrom = none ∧ x.blob.area < c.minArea) := by
  rw [← Bool.not_eq_true, x.discarded_iff]

/-- The continuation in a segment's entry takes the segment's id (R44). -/
theorem linkContinuation_eq (x : Closed) (id : Word) (blobs : List Blob) :
    linkContinuation x id blobs = blobs.map (fun q =>
      if x.blob.segment = true ∧ x.dense = false ∧ q.id = x.blob.id then { q with contFrom := some id } else q) := by
  unfold linkContinuation
  by_cases h : x.blob.segment = true ∧ x.dense = false
  · simp [h]
  · have hno : ∀ q : Blob, ¬(x.blob.segment = true ∧ x.dense = false ∧ q.id = x.blob.id) :=
      fun q hq => h ⟨hq.1, hq.2.1⟩
    simp only [hno, if_false, List.map_id']
    exact if_neg (by simpa using h)

section
variable (c : Setup) (pos : Position) (b : Bench) (x : Closed)

/-- A discarded blob is counted and leaves nothing else (R46). -/
theorem Bench.finalize_of_discarded (h : x.discarded c = true) : b.finalize c pos x =
    { b with fas := { b.fas with smallDiscarded := b.fas.smallDiscarded + 1#32 } } := if_pos h

/-- The finalization of a blob that becomes a flaw (R46 to R49). -/
theorem Bench.finalize_of_flaw (h : x.discarded c = false) : b.finalize c pos x =
    let f := x.flaw c pos b.fas.classes b.fas.nextFlaw
    { fas := { b.fas with
        nextFlaw := nextId b.fas.nextFlaw
        blobs := linkContinuation x b.fas.nextFlaw b.fas.blobs }
      rbm := (b.rbm.takeFlaw f).1
      stu := if b.rbm.late f then b.stu.toCurrent (Tally.addUnplaced 1) else b.stu
      out := b.out ++ (if c.liveFlaws then [.flaw f] else []) ++ (b.rbm.takeFlaw f).2 } := if_neg (by simp [h])

end

/-! ## Staging (R189) -/

/-- An essential record without a cause is staged as it is while staging holds it (R189). -/
theorem State.report_of_essential (s : State) (r : Report) (hd : r.droppable = false) (ha : r.alerts = false)
    (hroom : stagedBytes s.exu.staging + r.size ≤ 16384) :
    (s.report [r]).exu.staging = s.exu.staging ++ [⟨s.pos.us, r⟩] := by
  have hfits : s.exu.fitsEssential r.size = true :=
    decide_eq_true ((Nat.add_le_add_right (essentialBytes_le s.exu.staging) r.size).trans hroom)
  have hexcess : stagedBytes s.exu.staging + r.size - stagingLimit = 0 := Nat.sub_eq_zero_of_le hroom
  simp [State.report, Exchange.stage, Exchange.put, hd, ha, hfits, Exchange.appendEssential, hexcess]

/-! ## The statement -/

/-- What a late flaw leaves (R59). -/
theorem Bench.finalize_of_late (c : Setup) (pos : Position) (b : Bench) (x : Closed) (h : x.discarded c = false)
    (hlate : b.rbm.late (x.flaw c pos b.fas.classes b.fas.nextFlaw) = true) :
    let f := x.flaw c pos b.fas.classes b.fas.nextFlaw
    (b.finalize c pos x).rbm = b.rbm ∧
    (b.finalize c pos x).stu = { b.stu with current :=
      { b.stu.current with unplaced := b.stu.current.unplaced + 1#64 } } ∧
    (b.finalize c pos x).out = b.out ++ (if c.liveFlaws = true then [.flaw f] else []) ++
      [.notice (.lateFlaw f.id f.yCenter b.rbm.retiredEdge)] := by
  rw [b.finalize_of_flaw c pos x h]
  dsimp only
  rw [b.rbm.takeFlaw_of_late _ hlate]
  exact ⟨rfl, if_pos hlate, rfl⟩

/-- Settles O23: late flaws, the record of a closed blob, and the place of a flaw on the map. -/
theorem lateFlawIsUnplaced : Obligations.LateFlawIsUnplaced := by
  refine ⟨?_, ?_, fun m f hplaced => ⟨fun hroom => ?_, fun hfull => ?_⟩⟩
  · intro c pos b x hkept f notice hlate
    obtain ⟨hrbm, hstu, hout⟩ := b.finalize_of_late c pos x hkept ((b.rbm.late_iff f).2 hlate)
    exact ⟨hrbm, hstu, hout, rfl, rfl, fun s hroom => s.report_of_essential notice rfl rfl hroom⟩
  · intro c pos b x e small
    refine ⟨x.discarded_iff c, fun hsmall => b.finalize_of_discarded c pos x ((x.discarded_iff c).2 hsmall),
      fun hkept => ⟨x.flaw c pos b.fas.classes b.fas.nextFlaw, rfl, ?_⟩⟩
    rw [b.finalize_of_flaw c pos x ((x.discarded_eq_false_iff c).2 hkept), linkContinuation_eq]
    refine ⟨rfl, rfl, fun h => if_neg ?_, rfl, rfl, rfl, rfl, rfl, rfl, rfl, rfl, x.flaw_x c pos _ _, rfl, rfl, rfl,
      rfl, rfl, rfl, rfl, rfl, rfl, rfl, rfl, x.flaw_cls_of_dense c pos _ _, fun hdense => ⟨fun front k back => ?_, ?_⟩⟩
    · rw [Bool.not_eq_true]
      exact (b.rbm.late_eq_false_iff _).2 h
    · exact x.flaw_cls_of_first c pos _ _ hdense front back k
    · exact x.flaw_cls_of_none c pos _ _ hdense
  · obtain ⟨front, back, hlist, hout, hbefore, hafter⟩ := insertFlaw_spec f m.flaws
    refine ⟨front, back, hlist, ?_, hbefore, hafter⟩
    rw [m.takeFlaw_of_room f ((m.late_eq_false_iff f).2 hplaced) hroom, hout]
  · rw [m.takeFlaw_of_full f ((m.late_eq_false_iff f).2 hplaced) hfull]
    intro meets full
    refine ⟨fun front i back hm hi hback hcap => ?_, m.fold_of_new f⟩
    intro new capped
    refine ⟨_, m.fold_of_meets f front back i hm hi hback hcap, fun h => if_pos h, fun h => ?_⟩
    obtain ⟨low, high, hlist, hout, hbefore, hafter⟩ := insertInterval_spec new (front ++ back)
    exact ⟨low, high, hlist, (if_neg h).trans hout, hbefore, hafter⟩

end Sys2Proof.Machine
end

/-! # An invariant of every step: the tallies count flaws by class and by destination alike (O59) -/

section
-- One declaration after the other: a thread for each exceeds the memory that the check allows.
set_option Elab.async false
namespace Sys2Proof.Machine

/-! ## The parts of the agreement -/

/-- Both tallies count alike (R69, R154). -/
def TallyUnit.agrees (u : TallyUnit) : Prop := u.current.countsAgree ∧ ∀ t, u.closing = some t → t.countsAgree

/-- Every flaw of the map has one of the 16 classes (R51). -/
def RibbonMap.classed (m : RibbonMap) : Prop := ∀ w ∈ m.flaws, w.cls < 16

/-- A LOAD CLASSES in hand carries an entry for each of the classes 0 to 13 (R52). -/
def Exchange.classed (e : Exchange) : Prop :=
  ∀ b es, e.phase = .order b → b.body = .loadClasses es → es.length = 14

theorem State.talliesAgree_iff (s : State) : s.talliesAgree ↔
    s.stu.agrees ∧ s.rbm.classed ∧ s.fas.classes.length = 14 ∧ s.exu.classed := by
  unfold State.talliesAgree TallyUnit.agrees
  exact (and_assoc (a := s.stu.current.countsAgree)).symm

theorem RibbonMap.classed_of_nil {m : RibbonMap} (h : m.flaws = []) : m.classed := by
  intro w hw
  rw [h] at hw
  cases hw

theorem Exchange.classed_of_idle {e : Exchange} (h : e.phase = .idle) : e.classed := by
  intro b _ hb
  rw [h] at hb
  cases hb

/-- An event that leaves the tallies, the flaw list and the class table as they are, and takes no block in hand. -/
theorem State.talliesAgree.of_same {s t : State} (h : s.talliesAgree) (stu : t.stu = s.stu := by simp)
    (flaws : t.rbm.flaws = s.rbm.flaws := by simp) (classes : t.fas.classes = s.fas.classes := by simp)
    (phase : ∀ b, t.exu.phase = .order b → s.exu.phase = .order b := by simp) : t.talliesAgree := by
  obtain ⟨hcurrent, hclosing, hflaws, hclasses, hphase⟩ := h
  unfold State.talliesAgree
  rw [stu, flaws, classes]
  exact ⟨hcurrent, hclosing, hflaws, hclasses, fun b es hb => hphase b es (phase b hb)⟩

/-- An event of the tallies alone. -/
theorem State.talliesAgree.withStu {s : State} (h : s.talliesAgree) {u : TallyUnit} (hu : u.agrees) :
    State.talliesAgree { s with stu := u } := by
  rw [State.talliesAgree_iff] at h ⊢
  exact ⟨hu, h.2⟩

theorem State.talliesAgree.stu_agrees {s : State} (h : s.talliesAgree) : s.stu.agrees :=
  ((State.talliesAgree_iff s).1 h).1

theorem State.talliesAgree.report {s : State} {rs : List Report} (h : s.talliesAgree) : (s.report rs).talliesAgree :=
  h.of_same

theorem State.talliesAgree.issue {e : State × List StatusWrite} (h : e.1.talliesAgree) :
    (State.issue e).talliesAgree := h.of_same (by simp [State.issue]) (by simp [State.issue]) (by simp [State.issue])
    (by simp [State.issue])

/-! ## The tallies -/

theorem TallyUnit.agrees.toCurrent {u : TallyUnit} (h : u.agrees) {f : Tally → Tally}
    (hf : ∀ t, t.countsAgree → (f t).countsAgree) : (u.toCurrent f).agrees := ⟨hf _ h.1, h.2⟩

theorem TallyUnit.agrees.toTag {u : TallyUnit} (h : u.agrees) (tag : Word) {f : Tally → Tally}
    (hf : ∀ t, t.countsAgree → (f t).countsAgree) : (u.toTag tag f).agrees := by
  rcases u.toTag_cases tag f with ⟨_, e⟩ | ⟨_, t, ht, _, e⟩ | ⟨_, _, e⟩
  · rw [e]; exact ⟨hf _ h.1, h.2⟩
  · rw [e]
    refine ⟨h.1, fun v hv => ?_⟩
    obtain rfl := Option.some.inj hv
    exact hf t (h.2 t ht)
  · rw [e]; exact h

/-- A tally as opened counts no flaw (R151). -/
theorem Tally.opened_countsAgree (id : Word) (p : Pos) (time : Word) : (Tally.opened id p time).countsAgree :=
  ⟨rfl, rfl, rfl, by simp [Tally.opened]⟩

/-- Flaws change a tally in its two lists of flaws alone (R154). -/
theorem Tally.addFlaws_eq : ∀ (ws : List Flaw) (t : Tally), ws.foldl Tally.addFlaw t =
    { t with flawsByClass := (ws.foldl Tally.addFlaw t).flawsByClass, flawsTo := (ws.foldl Tally.addFlaw t).flawsTo }
  | [], _ => rfl
  | w :: ws, t => by rw [List.foldl_cons, Tally.addFlaws_eq ws (t.addFlaw w)]; rfl

/-- Retired flaws are counted once by class and once by destination (R154). -/
theorem Tally.addFlaws_countsAgree (ws : List Flaw) (hws : ∀ w ∈ ws, w.cls < 16) (t : Tally) (h : t.countsAgree) :
    (ws.foldl Tally.addFlaw t).countsAgree := by
  obtain ⟨hrows, hclass, hto, hsum⟩ := h
  obtain ⟨hclass', hto', hbyClass, hbyDest⟩ := Tally.addFlaws_spec ws t hclass hto hws
  refine ⟨?_, hclass', hto', by rw [hbyClass, hbyDest, hsum]⟩
  rw [Tally.addFlaws_eq ws t]
  exact hrows

theorem Tally.addFoldeds_countsAgree (is : List Interval) (t : Tally) (h : t.countsAgree) :
    (is.foldl (fun t i => t.addFolded i.folded) t).countsAgree := by
  rw [Tally.addFoldeds_spec]; exact h

/-- A row brings no flaw to its tally of its own (R153). -/
theorem Tally.addRow_countsAgree (r : Row) (ps : List (Grade × Nat × Nat)) (t : Tally) (h : t.countsAgree) :
    (t.addRow r ps).countsAgree := by
  obtain ⟨hclass, hto, _, _, _, _, _, hrows⟩ := Tally.addRow_flaws r ps t
  unfold Tally.countsAgree
  rw [hclass, hto, hrows, modifyAt_length]
  exact h

theorem Tally.raiseSpeed_countsAgree (v : Word) (t : Tally) (h : t.countsAgree) : (t.raiseSpeed v).countsAgree := by
  unfold Tally.raiseSpeed
  split <;> exact h

/-- A tally that is removed leaves the current one. -/
theorem TallyUnit.agrees.withoutClosing {u : TallyUnit} (h : u.agrees) (i : Bool) :
    TallyUnit.agrees { u with closing := none, interrupted := i } := ⟨h.1, fun _ ht => nomatch ht⟩

theorem TallyUnit.agrees.finish {u : TallyUnit} (h : u.agrees) (rows : List Row) : (u.finish rows).1.agrees := by
  unfold TallyUnit.finish
  split
  · split
    · exact h.withoutClosing false
    · exact h
  · exact h

/-- CLOSE SHIFT closes a tally that agrees and opens one that counts nothing (R158). -/
theorem TallyUnit.agrees.close {u : TallyUnit} (h : u.agrees) (id : Word) (p : Pos) (time : Word) :
    (u.close id p time).agrees := by
  refine ⟨Tally.opened_countsAgree id p time, fun t ht => ?_⟩
  obtain rfl := Option.some.inj ht
  exact h.1

/-- Losses to a reset are counted apart from flaws retired (R164). -/
theorem TallyUnit.agrees.takeLosses {u : TallyUnit} (h : u.agrees) (m : RibbonMap) (rows : List Row) :
    (u.takeLosses m rows).agrees := by
  refine ⟨by rw [TallyUnit.takeLosses_current]; exact h.1, fun t ht => ?_⟩
  rw [TallyUnit.takeLosses_closing, Option.map_eq_some_iff] at ht
  obtain ⟨v, hv, rfl⟩ := ht
  split <;> exact h.2 v hv

/-- The flaws and folds of a retirement (R67). -/
theorem TallyUnit.agrees.retireMap {u : TallyUnit} (h : u.agrees) (r : Row) {m : RibbonMap} (hm : m.classed) :
    (u.retireMap r m).agrees := by
  have hclasses : ∀ w ∈ m.assigned r, w.cls < 16 := by
    intro w hw
    obtain ⟨v, hv, rfl⟩ := List.mem_map.1 hw
    exact hm v (List.mem_of_mem_filter hv)
  exact h.toTag _ fun t ht => Tally.addFoldeds_countsAgree _ _ (Tally.addFlaws_countsAgree _ hclasses t ht)

/-! ## The map and the classes -/

@[simp] theorem RibbonMap.enter_flaws (i : Interval) (m : RibbonMap) : (m.enter i).1.flaws = m.flaws := by
  unfold RibbonMap.enter
  split
  · rfl
  · split <;> rfl

@[simp] theorem RibbonMap.takeSpan_flaws (y : Pos) (pitch : Nat) (m : RibbonMap) (sp : Span) :
    (m.takeSpan y pitch sp).1.flaws = m.flaws := by
  unfold RibbonMap.takeSpan
  dsimp only
  split
  · rfl
  · split
    · rfl
    · exact m.enter_flaws _

@[simp] theorem RibbonMap.takeSpans_flaws (y : Pos) (pitch : Nat) : ∀ (sps : List Span) (m : RibbonMap),
    (m.takeSpans y pitch sps).1.flaws = m.flaws
  | [], _ => rfl
  | sp :: sps, m => (RibbonMap.takeSpans_flaws y pitch sps _).trans (m.takeSpan_flaws y pitch sp)

/-- A folded flaw leaves the flaw list as it is (R60). -/
@[simp] theorem RibbonMap.fold_flaws (f : Flaw) (m : RibbonMap) : (m.fold f).1.flaws = m.flaws := by
  unfold RibbonMap.fold
  cases lastWhere (fun i => i.cause = .saturated && reaches i.yEnd f.yTop && reaches f.yBottom i.yStart) m.unseen with
  | some p => dsimp only; split <;> rfl
  | none => dsimp only; split <;> exact m.enter_flaws _

/-- The flaw list gains at most the flaw taken (R58 to R60). -/
theorem RibbonMap.classed.takeFlaw {m : RibbonMap} (h : m.classed) {f : Flaw} (hf : f.cls < 16) :
    (m.takeFlaw f).1.classed := by
  rcases m.takeFlaw_cases f with ⟨_, e⟩ | ⟨_, _, e⟩ | ⟨_, _, e⟩
  · exact e ▸ h
  · rw [e]
    intro w hw
    rcases (mem_insertFlaw f w m.flaws).1 hw with rfl | hw
    · exact hf
    · exact h w hw
  · rw [e]
    unfold RibbonMap.classed
    rwa [m.fold_flaws f]

/-- A class is an index of the class table, UNCLASSIFIED or DENSE (R51). -/
theorem Closed.flaw_cls_lt (c : Setup) (pos : Position) (classes : List ClassEntry) (id : Word) (x : Closed)
    (h : classes.length = 14) : (x.flaw c pos classes id).cls < 16 := by
  cases hd : x.dense with
  | true => rw [x.flaw_cls_of_dense c pos classes id hd]; decide
  | false =>
    rw [x.flaw_cls c pos classes id hd]
    exact Nat.lt_succ_of_le ((classify_le _ _ _ _ classes 0 (by omega)).trans (by decide))

/-- What finalization works on agrees as the state does. -/
def Bench.agrees (b : Bench) : Prop := b.stu.agrees ∧ b.rbm.classed ∧ b.fas.classes.length = 14

theorem Bench.agrees.finalize {b : Bench} (h : b.agrees) (c : Setup) (pos : Position) (x : Closed) :
    (b.finalize c pos x).agrees := by
  obtain ⟨hstu, hmap, hclasses⟩ := h
  cases hx : x.discarded c with
  | true => rw [b.finalize_of_discarded c pos x hx]; exact ⟨hstu, hmap, hclasses⟩
  | false =>
    rw [b.finalize_of_flaw c pos x hx]
    refine ⟨?_, hmap.takeFlaw (x.flaw_cls_lt c pos _ _ hclasses), hclasses⟩
    dsimp only
    split
    · exact hstu.toCurrent fun _ ht => ht
    · exact hstu

theorem Bench.agrees.finalizes (c : Setup) (pos : Position) : ∀ (xs : List Closed) {b : Bench}, b.agrees →
    (xs.foldl (Bench.finalize c pos) b).agrees
  | [], _, h => h
  | x :: xs, _, h => Bench.agrees.finalizes c pos xs (h.finalize c pos x)

/-- The runs of a line keep the class table. -/
theorem State.lineRuns_classes (c : Setup) (s : State) : (s.lineRuns c).1.classes = s.fas.classes :=
  Assembler.takeRuns_classes c _ _ _ s.fas

@[simp] theorem Assembler.setYFin_classes (pos : Position) (pitch : Nat) (la : Line) (f : Assembler) :
    (f.setYFin pos pitch la).classes = f.classes := rfl

theorem State.talliesAgree.lineBench {s : State} (h : s.talliesAgree) (c : Setup) : (s.lineBench c).agrees := by
  obtain ⟨hstu, hmap, hclasses, _⟩ := (State.talliesAgree_iff s).1 h
  exact Bench.agrees.finalizes c s.pos _ ⟨hstu, hmap, (congrArg List.length (s.lineRuns_classes c)).trans hclasses⟩

/-! ## The position, the intake and the line -/

theorem forwardCount_agrees {s : State} (h : s.talliesAgree) : (forwardCount s).talliesAgree := by
  unfold forwardCount
  split <;> exact h

theorem reverseCount_agrees {s : State} (h : s.talliesAgree) : (reverseCount s).talliesAgree := by
  unfold reverseCount
  split
  · exact h
  · split
    · exact h
    · split
      · exact State.talliesAgree.report h
      · exact h

theorem lineTrigger_agrees {s : State} (h : s.talliesAgree) : (lineTrigger s).talliesAgree := by
  unfold lineTrigger
  split
  · exact h
  · split <;> exact h

theorem overspeedTest_agrees {s : State} (h : s.talliesAgree) : (overspeedTest s).talliesAgree := by
  cases hs : s.setup with
  | none => unfold overspeedTest; rw [hs]; exact h
  | some c => rw [overspeedTest_of_some s c hs]; exact State.talliesAgree.report h

/-- STU raises a speed (R14). -/
theorem handSpeed_agrees {s : State} (h : s.talliesAgree) : (handSpeed s).talliesAgree := by
  unfold handSpeed
  split
  · exact h.withStu (h.stu_agrees.toCurrent (Tally.raiseSpeed_countsAgree _))
  · exact h

theorem speedWindowEnd_agrees {s : State} (h : s.talliesAgree) : (speedWindowEnd s).talliesAgree := by
  unfold speedWindowEnd
  split
  · exact handSpeed_agrees (overspeedTest_agrees h)
  · exact h

theorem State.talliesAgree.tick {s : State} (h : s.talliesAgree) : s.tick.talliesAgree := by
  unfold State.tick
  split <;> exact h

theorem channelFault_agrees (k : Nat) (why : ChanFault) {s : State} (h : s.talliesAgree) :
    (channelFault k why s).talliesAgree := by
  unfold channelFault
  dsimp only
  split
  · exact State.talliesAgree.report h
  · exact h

theorem headStatus_agrees (k : Nat) (code : Byte) {s : State} (h : s.talliesAgree) :
    (headStatus k code s).talliesAgree := by
  unfold headStatus
  split
  · exact h
  · exact channelFault_agrees k _ h

theorem queueWord_agrees (k : Nat) (w : ScanWord) {s : State} (h : s.talliesAgree) :
    (queueWord k w s).talliesAgree := by
  unfold queueWord
  dsimp only
  split
  · exact State.talliesAgree.report h
  · exact h

theorem scanWord_agrees (k : Nat) (w : ScanWord) {s : State} (h : s.talliesAgree) :
    (scanWord k w s).talliesAgree := by
  unfold scanWord
  split
  · exact headStatus_agrees k _ h
  · exact queueWord_agrees k _ h

/-- The flaws of a line come to the map with a class of the table in force (R49, R51). -/
theorem State.talliesAgree.assembled {s : State} (h : s.talliesAgree) (c : Setup) :
    (s.assembled c).1.talliesAgree := by
  obtain ⟨hstu, hmap, hclasses⟩ := h.lineBench c
  obtain ⟨_, _, _, hphase⟩ := (State.talliesAgree_iff s).1 h
  have hflaws : (s.lineMap c).1.flaws = (s.lineBench c).rbm.flaws := RibbonMap.takeSpans_flaws _ _ _ _
  have hmap' : (s.lineMap c).1.classed := fun w hw => hmap w (hflaws ▸ hw)
  unfold State.assembled
  refine State.talliesAgree.report ((State.talliesAgree_iff _).2 ⟨?_, ?_, ?_, hphase⟩)
  · rw [State.assemble_stu]; exact hstu
  · rw [State.assemble_rbm]; exact hmap'
  · rw [State.assemble_fas, Assembler.setYFin_classes]; exact hclasses

theorem lineAssembly_agrees {s : State} (h : s.talliesAgree) : (lineAssembly s).talliesAgree := by
  unfold lineAssembly
  split
  · exact h
  · split
    · exact (h.assembled _).issue
    · exact h

/-! ## Rows, cuts and gates -/

theorem gradingEvent_agrees {s : State} (h : s.talliesAgree) : (gradingEvent s).talliesAgree := by
  unfold gradingEvent
  split
  · exact h
  · split <;> exact h

theorem placement_agrees {s : State} (h : s.talliesAgree) : (placement s).talliesAgree := by
  unfold placement
  split
  · exact h
  · split
    · exact State.talliesAgree.report h
    · exact h

/-- Gate faults are counted apart from flaws (R126, R155). -/
theorem TallyUnit.agrees.gateFaults : ∀ (rs : List Row) {u : TallyUnit}, u.agrees →
    (rs.foldl (fun u r => u.toTag r.shiftTag Tally.addGateFault) u).agrees
  | [], _, h => h
  | r :: rs, _, h => TallyUnit.agrees.gateFaults rs (h.toTag r.shiftTag fun _ ht => ht)

theorem State.talliesAgree.resolveCut {s : State} {row : Word} {pos : Pos} {out : CutState} {why : InhibitCause}
    {time : Word} (h : s.talliesAgree) : (s.resolveCut row pos out why time).talliesAgree := by
  unfold State.resolveCut
  dsimp only
  split
  · exact State.talliesAgree.report h
  · exact State.talliesAgree.report (h.withStu (TallyUnit.agrees.gateFaults _ h.stu_agrees))

theorem State.talliesAgree.strobe {s : State} {c : Setup} {a : ArmedCut} (h : s.talliesAgree) :
    (s.strobe c a).talliesAgree := by
  unfold State.strobe
  split
  · exact h.resolveCut
  · split
    · exact h.resolveCut
    · exact h

theorem cutStrobe_agrees {s : State} (h : s.talliesAgree) : (cutStrobe s).talliesAgree := by
  unfold cutStrobe
  split
  · split
    · exact State.talliesAgree.strobe h
    · exact h
  · exact h

theorem cdone_agrees {s : State} (h : s.talliesAgree) : (cdone s).talliesAgree := by
  unfold cdone
  split
  · split
    · exact State.talliesAgree.resolveCut h
    · exact State.talliesAgree.report (h.withStu (h.stu_agrees.toCurrent fun _ ht => ht))
  · exact h

theorem confirmWindowExpiry_agrees {s : State} (h : s.talliesAgree) : (confirmWindowExpiry s).talliesAgree := by
  unfold confirmWindowExpiry
  split
  · split
    · exact State.talliesAgree.resolveCut h
    · exact h
  · exact h

theorem gateEvent_agrees {s : State} (h : s.talliesAgree) : (gateEvent s).talliesAgree := by
  unfold gateEvent
  split
  · split
    · exact State.talliesAgree.report h
    · exact h
  · exact h

/-- A retirement moves the flaws of its span from the map to a tally, by class and by destination (R67, R154). -/
theorem State.talliesAgree.retire {s : State} (h : s.talliesAgree) (c : Setup) (r : Row) (rest : List Row) :
    (s.retire c r rest).1.talliesAgree := by
  obtain ⟨hstu, hmap, hclasses, hphase⟩ := (State.talliesAgree_iff s).1 h
  have hrow := (hstu.retireMap r hmap).toTag r.shiftTag
    (Tally.addRow_countsAgree r (r.retirement c s.grd s.rbm s.fas.yFin).counted)
  exact State.talliesAgree.report ((State.talliesAgree_iff _).2
    ⟨hrow.finish rest, fun w hw => hmap w (List.mem_of_mem_filter hw), hclasses, hphase⟩)

theorem rowRetirement_agrees {s : State} (h : s.talliesAgree) : (rowRetirement s).talliesAgree := by
  unfold rowRetirement
  split
  · split
    · exact (h.retire _ _ _).issue
    · exact h
  · exact h

/-! ## Pages, attach and detach -/

theorem State.talliesAgree.closePage {s : State} (h : s.talliesAgree) : s.closePage.talliesAgree :=
  h.of_same (phase := by unfold State.closePage; split <;> simp)

theorem State.talliesAgree.doDetach {s : State} (h : s.talliesAgree) : s.doDetach.talliesAgree :=
  h.closePage.of_same (by simp [State.doDetach]) (by simp) (by simp) (fun _ hb => hb)

theorem State.talliesAgree.detachWritten {s : State} (h : s.talliesAgree) : s.detachWritten.talliesAgree := by
  unfold State.detachWritten
  split
  · split
    · exact h
    · exact h.doDetach
  all_goals exact h

theorem deferredDetach_agrees {s : State} (h : s.talliesAgree) : (deferredDetach s).talliesAgree := by
  unfold deferredDetach
  split
  · split
    · exact h.doDetach
    all_goals exact h
  · exact h

/-- An interrupted closing tally is reported and removed (R164). -/
theorem State.talliesAgree.reportInterrupted {s : State} (h : s.talliesAgree) : s.reportInterrupted.talliesAgree := by
  unfold State.reportInterrupted
  split
  · split
    · exact State.talliesAgree.report (h.withStu (h.stu_agrees.withoutClosing false))
    · exact h
  · exact h

theorem State.talliesAgree.attach {s : State} (h : s.talliesAgree) (err : AccessError) :
    (s.attach err).talliesAgree := by
  unfold State.attach
  dsimp only
  split
  · exact h
  · split
    · exact h
    · split
      · exact h
      · exact State.talliesAgree.reportInterrupted h

theorem State.talliesAgree.attachWritten {s : State} (h : s.talliesAgree) (err : AccessError) :
    (s.attachWritten err).talliesAgree := by
  unfold State.attachWritten
  split
  · exact h.attach err
  · exact h

theorem State.talliesAgree.recordWritten {s : State} (h : s.talliesAgree) (p : FillingPage) (r : Staged)
    (rest : List Staged) : (s.recordWritten p r rest).talliesAgree :=
  h.of_same (phase := by simp [State.recordWritten])

theorem State.talliesAgree.writeRecord {s : State} (h : s.talliesAgree) (p : FillingPage) (r : Staged)
    (rest : List Staged) : (s.writeRecord p r rest).talliesAgree := by
  have hwritten := State.talliesAgree.recordWritten (s := { s with host := s.host.writeBytes p.next r.bytes }) h p r
    rest
  unfold State.writeRecord
  dsimp only
  split
  · split
    · exact hwritten.closePage
    · exact hwritten
  · exact h.closePage

theorem pageRecordWrite_agrees {s : State} (h : s.talliesAgree) : (pageRecordWrite s).talliesAgree := by
  unfold pageRecordWrite
  split
  · split
    · exact h.writeRecord _ _ _
    · exact h
  · exact h

theorem pageFlush_agrees {s : State} (h : s.talliesAgree) : (pageFlush s).talliesAgree := by
  unfold pageFlush
  split
  · exact h.closePage
  · exact h

theorem State.talliesAgree.enterFault {s : State} {k : FaultCause} (h : s.talliesAgree) :
    (s.enterFault k).talliesAgree :=
  h.of_same (phase := by unfold State.enterFault; split <;> simp)

theorem exbl_agrees (v : Word) {s : State} (h : s.talliesAgree) : (exbl v s).talliesAgree := by
  unfold exbl
  split <;> exact h

theorem exbh_agrees (v : Word) {s : State} (h : s.talliesAgree) : (exbh v s).talliesAgree := by
  unfold exbh
  split <;> exact h

/-! ## The poll -/

/-- A block read as LOAD CLASSES carries 14 entries (Table 12-9, R187). -/
theorem parseBody_loadClasses {kind : Nat} {bs : List Byte} {es : List ClassEntry}
    (h : parseBody kind bs = .loadClasses es) : es.length = 14 := by
  unfold parseBody at h
  split at h <;> cases h
  simp [parseClasses]

theorem readBlock_loadClasses {m : Memory} {a : Addr} {b : Block} {es : List ClassEntry}
    (h : readBlock m a = .inl b) (hb : b.body = .loadClasses es) : es.length = 14 := by
  unfold readBlock at h
  dsimp only at h
  split at h
  · cases h
  · split at h
    · cases h
      exact parseBody_loadClasses hb
    · cases h

theorem State.talliesAgree.finishPoll {s : State} (h : s.talliesAgree) : s.finishPoll.talliesAgree :=
  h.of_same (phase := fun _ hb => nomatch hb)

/-- A poll takes in hand a block that EXU has read (R185, R187). -/
theorem State.talliesAgree.chainStep {s : State} (h : s.talliesAgree) : s.chainStep.talliesAgree := by
  unfold State.chainStep
  split
  · split
    · rename_i b hread
      obtain ⟨hstu, hmap, hclasses, _⟩ := (State.talliesAgree_iff s).1 h
      refine (State.talliesAgree_iff _).2 ⟨hstu, hmap, hclasses, fun b' es hb hes => ?_⟩
      obtain rfl := PollPhase.order.inj hb
      exact readBlock_loadClasses hread hes
    · exact State.talliesAgree.finishPoll (h.of_same)
  · exact h.finishPoll

theorem State.talliesAgree.beginPoll {s : State} (h : s.talliesAgree) : s.beginPoll.talliesAgree := by
  unfold State.beginPoll
  dsimp only
  split
  · exact State.talliesAgree.enterFault h
  · exact State.talliesAgree.chainStep h

theorem poll_agrees {s : State} (h : s.talliesAgree) : (poll s).talliesAgree := by
  unfold poll
  split
  · split
    · split
      · exact h.beginPoll
      · exact h
    · exact h
    · exact h.finishPoll
  · exact h

/-! ## The end of a drain and the orders of a poll -/

theorem State.talliesAgree.endDrain {s : State} (h : s.talliesAgree) : s.endDrain.1.talliesAgree := by
  obtain ⟨hstu, _, hclasses, hphase⟩ := (State.talliesAgree_iff s).1 h
  exact State.talliesAgree.report ((State.talliesAgree_iff _).2
    ⟨hstu.toCurrent fun _ ht => ht, RibbonMap.classed_of_nil rfl, hclasses, hphase⟩)

theorem State.talliesAgree.pendingDetach {s : State} (h : s.talliesAgree) : s.pendingDetach.talliesAgree := by
  unfold State.pendingDetach
  split
  · exact h.doDetach
  · exact h

theorem endOfDrain_agrees {s : State} (h : s.talliesAgree) : (endOfDrain s).talliesAgree := by
  unfold endOfDrain
  split
  · exact h.endDrain.issue.pendingDetach
  · exact h

theorem State.talliesAgree.cursorTo {s : State} (h : s.talliesAgree) (b : Block) : (s.cursorTo b).talliesAgree :=
  h.of_same (phase := fun _ hb => nomatch hb)

/-- The taking of an order keeps the agreement where its act does. -/
theorem State.talliesAgree.takeOrder {s : State} (h : s.talliesAgree) {α : Type} (pick : OrderBody → Option α)
    (act : Block → α → State → State × List StatusWrite)
    (hact : ∀ b x, s.exu.phase = .order b → pick b.body = some x → (act b x (s.cursorTo b)).1.talliesAgree) :
    (s.takeOrder pick act).talliesAgree := by
  rcases s.takeOrder_cases pick act with ⟨b, x, hb, _, hx, heq⟩ | heq
  · rw [heq]; exact (hact b x hb hx).issue
  · rw [heq]; exact h

theorem takeSetup_agrees (b : Block) (x : SetupBody) {s : State} (h : s.talliesAgree) :
    (takeSetup b x s).1.talliesAgree := by
  unfold takeSetup
  split
  · exact h
  · exact State.talliesAgree.report h

theorem takeStart_agrees (b : Block) {s : State} (h : s.talliesAgree) : (takeStart b s).1.talliesAgree := by
  unfold takeStart
  split
  · exact h
  · split <;> exact h

theorem takeStop_agrees (b : Block) {s : State} (h : s.talliesAgree) : (takeStop b s).1.talliesAgree := by
  have hstopped : s.stopped.talliesAgree := h
  unfold takeStop
  dsimp only
  split
  · exact h
  · split
    · exact hstopped.endDrain
    · exact h

theorem takeCut_agrees (b : Block) (x : CutBody) {s : State} (h : s.talliesAgree) :
    (takeCut b x s).1.talliesAgree := by
  unfold takeCut
  split
  · exact h
  · exact h
  · exact State.talliesAgree.report h

theorem takeCancel_agrees (b : Block) (target : Word) {s : State} (h : s.talliesAgree) :
    (takeCancel b target s).1.talliesAgree := by
  unfold takeCancel
  split
  · exact h
  · exact State.talliesAgree.report h

theorem takeDisable_agrees (b : Block) (d : BitVec 16) {s : State} (h : s.talliesAgree) :
    (takeDisable b d s).1.talliesAgree := by
  unfold takeDisable
  split
  · exact h
  · split
    · exact h
    · exact State.talliesAgree.report h

theorem takeChannel_agrees (b : Block) (en dis : BitVec 16) {s : State} (h : s.talliesAgree) :
    (takeChannel b en dis s).1.talliesAgree := by
  unfold takeChannel
  split
  · exact h
  · exact takeDisable_agrees b dis (State.talliesAgree.report h)

theorem takeLoadMask_agrees (b : Block) (es : List MaskSpec) {s : State} (h : s.talliesAgree) :
    (takeLoadMask b es s).1.talliesAgree := by
  unfold takeLoadMask
  split <;> exact h

/-- LOAD CLASSES replaces the class table with one of 14 entries (R52). -/
theorem takeLoadClasses_agrees (b : Block) (es : List ClassEntry) {s : State} (h : s.talliesAgree)
    (hes : es.length = 14) : (takeLoadClasses b es s).1.talliesAgree := by
  obtain ⟨hstu, hmap, _, hphase⟩ := (State.talliesAgree_iff s).1 h
  unfold takeLoadClasses
  split
  · exact h
  · exact (State.talliesAgree_iff _).2 ⟨hstu, hmap, hes, hphase⟩

theorem OrderBody.eq_loadClasses {x : OrderBody} {es : List ClassEntry} (h : x.loadClasses? = some es) :
    x = .loadClasses es := by
  cases x <;> cases h
  rfl

theorem takeLoadSpec_agrees (b : Block) (id : Nat) (q : Spec) {s : State} (h : s.talliesAgree) :
    (takeLoadSpec b id q s).1.talliesAgree := by
  unfold takeLoadSpec
  split <;> exact h

theorem takeCloseShift_agrees (b : Block) (n : Word) {s : State} (h : s.talliesAgree) :
    (takeCloseShift b n s).1.talliesAgree := by
  have hclose := h.stu_agrees.close n s.rpl.frontier s.pos.us
  unfold takeCloseShift
  split
  · exact h
  · dsimp only
    split
    · exact State.talliesAgree.report (h.withStu (hclose.finish _))
    · exact h.withStu hclose

/-! ## Resets -/

theorem TallyUnit.reset_agrees : TallyUnit.reset.agrees := ⟨Tally.opened_countsAgree 0 0 0, fun _ ht => nomatch ht⟩

/-- A reset empties the map and ends the poll; tallies and class table are those of reset or those kept (R163, R164). -/
theorem State.cleared_agrees (k : ResetCause) (e : Exchange) (s : State) (he : e.phase = .idle) :
    (s.cleared k e).talliesAgree :=
  (State.talliesAgree_iff _).2
    ⟨TallyUnit.reset_agrees, RibbonMap.classed_of_nil rfl, rfl, Exchange.classed_of_idle he⟩

theorem powerOnReset_agrees (s : State) : (powerOnReset s).talliesAgree := s.cleared_agrees .powerOn s.exu.cleared rfl
theorem pinReset_agrees (s : State) : (pinReset s).talliesAgree := s.cleared_agrees .pin s.exu.cleared rfl
theorem softReset_agrees (s : State) : (softReset s).talliesAgree := s.cleared_agrees .soft s.exu.softCleared rfl

theorem softResetWithKeep_agrees {s : State} (h : s.talliesAgree) : (softResetWithKeep s).talliesAgree := by
  obtain ⟨hstu, _, hclasses, _⟩ := (State.talliesAgree_iff s).1 h
  exact (State.talliesAgree_iff _).2
    ⟨hstu.takeLosses _ _, RibbonMap.classed_of_nil rfl, hclasses, Exchange.classed_of_idle rfl⟩

theorem exctl_agrees (v : Word) {s : State} (h : s.talliesAgree) : (exctl v s).talliesAgree := by
  have hien : (s.ienWritten (v.getLsbD 1)).talliesAgree := h
  unfold exctl
  dsimp only
  split
  · split
    · exact softResetWithKeep_agrees h
    · exact softReset_agrees s
  · split
    · exact hien.attachWritten _
    · exact hien.detachWritten

theorem registerWrite_agrees (off : Nat) (v : Word) {s : State} (h : s.talliesAgree) :
    (registerWrite off v s).talliesAgree := by
  unfold registerWrite
  split
  · exact exbl_agrees v h
  · exact exbh_agrees v h
  · exact exctl_agrees v h
  all_goals exact h

/-! ## BUS_ERROR (R174, R178) -/

/-- Accesses change host memory and causes alone. -/
theorem State.talliesAgree.attempt {s : State} (h : s.talliesAgree) (n : Nat) (ops : List PortOp) :
    (s.attempt n ops).1.talliesAgree := by
  obtain ⟨hstate, hexu⟩ := State.attempt_spec n ops s
  have hstu := congrArg State.stu hstate
  have hrbm := congrArg State.rbm hstate
  have hfas := congrArg State.fas hstate
  have hphase := congrArg Exchange.phase hexu
  exact h.of_same hstu (congrArg RibbonMap.flaws hrbm) (congrArg Assembler.classes hfas)
    fun b hb => hphase.symm.trans hb

theorem State.talliesAgree.cutAt {s t : State} (h : s.talliesAgree) {n : Nat} {ops : List PortOp}
    (ht : s.cutAt n ops = some t) : t.talliesAgree := by
  have hops := h.attempt n ops
  unfold State.cutAt at ht
  split at ht
  · rename_i heq; rw [heq] at hops; cases ht; exact hops
  · cases ht

theorem State.talliesAgree.cutClose {s t : State} (h : s.talliesAgree) {n : Nat} (ht : s.cutClose n = some t) :
    t.talliesAgree := by
  unfold State.cutClose at ht
  split at ht
  · cases ht
  · exact h.cutAt ht

theorem State.talliesAgree.cutRecord {s t : State} (h : s.talliesAgree) {n : Nat} (ht : s.cutRecord n = some t) :
    t.talliesAgree := by
  unfold State.cutRecord at ht
  split at ht
  · rename_i p r rest _ _
    split at ht
    · split at ht
      · have hops := h.attempt n (wordOps p.next r.bytes)
        split at ht
        · rename_i heq; rw [heq] at hops; cases ht; exact hops
        · rename_i heq
          rw [heq] at hops
          split at ht
          · exact (hops.recordWritten p r rest).cutClose ht
          · cases ht
      · exact h.cutClose ht
    · cases ht
  · cases ht

theorem State.talliesAgree.cutChain {s t : State} (h : s.talliesAgree) {n : Nat} (ht : s.cutChain n = some t) :
    t.talliesAgree := by
  unfold State.cutChain at ht
  split at ht
  · split at ht
    · cases ht
    · rename_i w _
      have hops := h.attempt n w.ops
      split at ht
      · rename_i heq; rw [heq] at hops; cases ht; exact hops
      · rename_i heq
        rw [heq] at hops
        exact State.talliesAgree.cutAt (by exact hops) ht
  · exact h.cutAt ht

theorem State.talliesAgree.cutBegin {s t : State} (h : s.talliesAgree) {n : Nat} (ht : s.cutBegin n = some t) :
    t.talliesAgree := by
  unfold State.cutBegin at ht
  dsimp only at ht
  split at ht
  · cases ht; exact h
  · split at ht
    · cases ht
    · exact State.talliesAgree.cutChain (by exact h) ht

theorem State.talliesAgree.cutPoll {s t : State} (h : s.talliesAgree) {n : Nat} (ht : s.cutPoll n = some t) :
    t.talliesAgree := by
  unfold State.cutPoll at ht
  split at ht
  · split at ht
    · split at ht
      · exact h.cutBegin ht
      · cases ht
    · cases ht
    · exact h.cutAt ht
  · cases ht

theorem State.talliesAgree.cutOrder {s t : State} (h : s.talliesAgree) {α : Type} {pick : OrderBody → Option α}
    {act : Block → α → State → State × List StatusWrite} {n : Nat} (ht : s.cutOrder pick act n = some t) :
    t.talliesAgree := by
  unfold State.cutOrder at ht
  split at ht
  · split at ht
    · split at ht
      · exact h.cutAt ht
      · cases ht
    · cases ht
  · cases ht

theorem State.talliesAgree.cutAssembly {s t : State} (h : s.talliesAgree) {n : Nat}
    (ht : s.cutAssembly n = some t) : t.talliesAgree := by
  unfold State.cutAssembly at ht
  split at ht
  · cases ht
  · split at ht
    · exact (h.assembled _).cutAt ht
    · cases ht

theorem State.talliesAgree.cutRetirement {s t : State} (h : s.talliesAgree) {n : Nat}
    (ht : s.cutRetirement n = some t) : t.talliesAgree := by
  unfold State.cutRetirement at ht
  split at ht
  · split at ht
    · exact (h.retire _ _ _).cutAt ht
    · cases ht
  · cases ht

theorem State.talliesAgree.cutDrain {s t : State} (h : s.talliesAgree) {n : Nat} (ht : s.cutDrain n = some t) :
    t.talliesAgree := by
  have hops := h.endDrain.attempt n (statusOps s.endDrain.2)
  unfold State.cutDrain at ht
  split at ht
  · split at ht
    · rename_i heq; rw [heq] at hops; cases ht; exact hops
    · rename_i heq
      rw [heq] at hops
      split at ht
      · exact hops.cutClose ht
      · cases ht
  · cases ht

theorem State.talliesAgree.cutDetach {s t : State} (h : s.talliesAgree) {ien : Bool} {n : Nat}
    (ht : s.cutDetach ien n = some t) : t.talliesAgree := by
  unfold State.cutDetach at ht
  split at ht
  · exact State.talliesAgree.cutClose (by exact h) ht
  · cases ht

/-- Within whatever event an access fails, the agreement is kept. -/
theorem State.talliesAgree.cutEvent {s t : State} (h : s.talliesAgree) {c : Instr} {n : Nat}
    (ht : s.cutEvent c n = some t) : t.talliesAgree := by
  unfold State.cutEvent at ht
  cases c with
  | poll _ => exact h.cutPoll ht
  | setup | start | stop | cut | cancel | channel | loadMask | loadClasses | loadSpec | closeShift =>
    exact h.cutOrder ht
  | lineAssembly => exact h.cutAssembly ht
  | rowRetirement => exact h.cutRetirement ht
  | endOfDrain => exact h.cutDrain ht
  | pageRecordWrite => exact h.cutRecord ht
  | pageFlush =>
    simp only [State.cutFlush] at ht
    split at ht
    · exact h.cutClose ht
    · cases ht
  | detach ien => exact h.cutDetach ht
  | registerWrite off v =>
    simp only [State.cutWindow] at ht
    split at ht
    · exact h.cutDetach ht
    · cases ht
  | deferredDetach =>
    simp only [State.cutDeferred] at ht
    split at ht
    · exact h.cutClose ht
    · cases ht
  | _ => cases ht

theorem State.talliesAgree.failing {s : State} (h : s.talliesAgree) : s.failing.talliesAgree := by
  unfold State.failing
  split
  · exact h
  · split
    · rename_i ht
      have hcut := h.cutEvent ht
      exact hcut
    · exact h

theorem busError_agrees {s : State} (h : s.talliesAgree) : (busError s).talliesAgree := h.failing.enterFault

/-! ## Every command -/

/-- An event that the part takes, or passes over while the reset pin is held. -/
theorem State.talliesAgree.taken {s u t : State} (h : s.talliesAgree) (hu : u.talliesAgree)
    (ht : s.taken u = .next t) : t.talliesAgree := by
  rcases s.taken_cases u t ht with ⟨_, rfl⟩ | ⟨_, rfl⟩
  · exact hu
  · exact h

/-- Every command keeps the agreement. -/
theorem exec_keeps_talliesAgree (c : Instr) {s t : State} (h : s.talliesAgree) (ht : exec c s = .next t) :
    t.talliesAgree := by
  cases c with
  | powerOnReset => cases ht; exact powerOnReset_agrees s
  | pinReset => cases ht; exact pinReset_agrees s
  | softReset => exact h.taken (softReset_agrees s) ht
  | softResetWithKeep => exact h.taken (softResetWithKeep_agrees h) ht
  | attach ien host err =>
    have hhost : (s.hostWrites host).talliesAgree := h
    exact hhost.taken (State.talliesAgree.attachWritten (s := (s.hostWrites host).ienWritten ien) h err) ht
  | detach ien => exact h.taken (State.talliesAgree.detachWritten (s := s.ienWritten ien) h) ht
  | deferredDetach => exact h.taken (deferredDetach_agrees h) ht
  | ien v => exact h.taken (u := s.ienWritten v) h ht
  | excause v => exact h.taken (u := excause v s) h ht
  | expoll v => exact h.taken (u := expoll v s) h ht
  | exbl v => exact h.taken (exbl_agrees v h) ht
  | exbh v => exact h.taken (exbh_agrees v h) ht
  | registerWrite off v => exact h.taken (registerWrite_agrees off v h) ht
  | forwardCount => exact h.taken (forwardCount_agrees h) ht
  | reverseCount => exact h.taken (reverseCount_agrees h) ht
  | lineTrigger => exact h.taken (lineTrigger_agrees h) ht
  | speedWindowEnd => exact h.taken (speedWindowEnd_agrees h) ht
  | scanWord ch w => exact h.taken (scanWord_agrees ch _ h) ht
  | headStatus ch code => exact h.taken (headStatus_agrees ch code h) ht
  | lossOfSignal ch =>
    have hlevel : State.talliesAgree { s with inputs := s.inputs.setLost ch true } := h
    exact hlevel.taken (channelFault_agrees ch .linkLost hlevel) ht
  | returnOfSignal ch => cases ht; exact h
  | lineAssembly => exact h.taken (lineAssembly_agrees h) ht
  | gradingEvent => exact h.taken (gradingEvent_agrees h) ht
  | placement => exact h.taken (placement_agrees h) ht
  | cutStrobe => exact h.taken (cutStrobe_agrees h) ht
  | cinhChange a => cases ht; exact h
  | cdone => exact h.taken (cdone_agrees h) ht
  | confirmWindowExpiry => exact h.taken (confirmWindowExpiry_agrees h) ht
  | gateEvent => exact h.taken (gateEvent_agrees h) ht
  | rowRetirement => exact h.taken (rowRetirement_agrees h) ht
  | endOfDrain => exact h.taken (endOfDrain_agrees h) ht
  | poll host =>
    have hhost : (s.hostWrites host).talliesAgree := h
    exact hhost.taken (poll_agrees hhost) ht
  | setup => exact h.taken (h.takeOrder _ _ fun b x _ _ => takeSetup_agrees b x (h.cursorTo b)) ht
  | start => exact h.taken (h.takeOrder _ _ fun b _ _ _ => takeStart_agrees b (h.cursorTo b)) ht
  | stop => exact h.taken (h.takeOrder _ _ fun b _ _ _ => takeStop_agrees b (h.cursorTo b)) ht
  | cut => exact h.taken (h.takeOrder _ _ fun b x _ _ => takeCut_agrees b x (h.cursorTo b)) ht
  | cancel => exact h.taken (h.takeOrder _ _ fun b x _ _ => takeCancel_agrees b x (h.cursorTo b)) ht
  | channel => exact h.taken (h.takeOrder _ _ fun b x _ _ => takeChannel_agrees b x.1 x.2 (h.cursorTo b)) ht
  | loadMask => exact h.taken (h.takeOrder _ _ fun b x _ _ => takeLoadMask_agrees b x (h.cursorTo b)) ht
  | loadClasses =>
    obtain ⟨_, _, _, hphase⟩ := (State.talliesAgree_iff s).1 h
    exact h.taken (h.takeOrder _ _ fun b x hb hx => takeLoadClasses_agrees b x (h.cursorTo b)
      (hphase b x hb (OrderBody.eq_loadClasses hx))) ht
  | loadSpec => exact h.taken (h.takeOrder _ _ fun b x _ _ => takeLoadSpec_agrees b x.1 x.2 (h.cursorTo b)) ht
  | closeShift => exact h.taken (h.takeOrder _ _ fun b x _ _ => takeCloseShift_agrees b x (h.cursorTo b)) ht
  | pageRecordWrite => exact h.taken (pageRecordWrite_agrees h) ht
  | pageFlush => exact h.taken (pageFlush_agrees h) ht
  | busError => exact h.taken (busError_agrees h) ht
  | resetPinRelease => cases ht; exact h

/-- Settles O59, by the cases of `exec_keeps_talliesAgree`. -/
theorem talliesStayInAgreement : Obligations.TalliesStayInAgreement := by
  intro s t h ht
  cases hq : s.pending with
  | nil =>
    rw [step_nil s hq] at ht
    cases ht
    exact h.tick
  | cons c rest =>
    rw [step_cons c rest s hq] at ht
    exact exec_keeps_talliesAgree c (s := { s with pending := rest }) h ht

end Sys2Proof.Machine
end

/-! # The retirement of the head row (O37) -/

section
-- One declaration after the other: a thread for each exceeds the memory that the check allows.
set_option Elab.async false
namespace Sys2Proof.Machine

/-! ## The taking of the event (R112) -/

theorem CutState.resolved_iff (k : CutState) : k.resolved = true ↔ k = .cut ∨ k = .missed ∨ k = .inhibited := by
  cases k <;> simp [CutState.resolved]

/-- A row may retire when its gate is no longer WAITING and both its cuts are resolved (R112). -/
theorem Row.retirable_of_resolved (r : Row) (hgate : r.gate ≠ .waiting)
    (htrail : r.trail = .cut ∨ r.trail = .missed ∨ r.trail = .inhibited)
    (hlead : r.lead = .cut ∨ r.lead = .missed ∨ r.lead = .inhibited) : r.retirable = true := by
  simp [Row.retirable, hgate, r.trail.resolved_iff.2 htrail, r.lead.resolved_iff.2 hlead]

theorem exec_rowRetirement_of_retirable (s : State) (c : Setup) (r : Row) (rest : List Row) (hp : s.pinHeld = false)
    (hc : s.setup = some c) (hrun : s.sts.state.run = true) (hrows : s.rpl.rows = r :: rest)
    (hr : r.retirable = true) : exec .rowRetirement s = .next (State.issue (s.retire c r rest)) := by
  have hretire : rowRetirement s = State.issue (s.retire c r rest) := by
    unfold rowRetirement
    simp only [hc, hrows]
    exact if_pos (by rw [hrun, hr]; rfl)
  exact (State.taken_free _ _ hp).trans (congrArg _ hretire)

/-! ## What the row brings to its tally (R67, R153, R154) -/

/-- Two contributions by the same tag, the first of which keeps the shift id. -/
theorem TallyUnit.toTag_toTag (tag : Word) (f g : Tally → Tally) (u : TallyUnit)
    (hf : ∀ t, (f t).shiftId = t.shiftId) : (u.toTag tag f).toTag tag g = u.toTag tag (fun t => g (f t)) := by
  rcases u.toTag_cases tag f with ⟨hid, e⟩ | ⟨hid, t, ht, htag, e⟩ | ⟨hid, hno, e⟩
  · rw [e]; simp [TallyUnit.toTag, hf, hid]
  · rw [e]; simp [TallyUnit.toTag, hf, hid, ht, htag]
  · rw [e]
    cases hc : u.closing with
    | none => simp [TallyUnit.toTag, hid, hc]
    | some t => simp [TallyUnit.toTag, hid, hc, hno t hc]

/-- A tally after the retirement of a row: its flaws, its folds, and the row with its plates. -/
def Tally.retired (r : Row) (m : RibbonMap) (plates : List (Grade × Nat × Nat)) (t : Tally) : Tally :=
  ((m.leaving r.t).foldl (fun t i => t.addFolded i.folded) ((m.assigned r).foldl Tally.addFlaw t)).addRow r plates

/-- The two steps in which STU takes a retirement are one contribution to the tally of the row's tag (R152). -/
theorem TallyUnit.retireMap_toTag (r : Row) (m : RibbonMap) (plates : List (Grade × Nat × Nat)) (u : TallyUnit) :
    (u.retireMap r m).toTag r.shiftTag (Tally.addRow r plates) =
      u.toTag r.shiftTag (Tally.retired r m plates) :=
  TallyUnit.toTag_toTag _ _ _ u fun t => by rw [Tally.addFoldeds_spec, Tally.addFlaws_eq]

/-- Flaws are counted by destination, one each (R154). -/
theorem Tally.addFlaws_flawsTo_sum : ∀ (ws : List Flaw) (t : Tally), t.flawsTo.length = 3 →
    (ws.foldl Tally.addFlaw t).flawsTo.sum = t.flawsTo.sum + BitVec.ofNat 64 ws.length
  | [], t, _ => by simp
  | w :: ws, t, h => by
    have hdest : w.assignment.dest < t.flawsTo.length := by
      rw [h]; cases w.assignment <;> simp [Assignment.dest]
    have hone : (t.addFlaw w).flawsTo.sum = t.flawsTo.sum + 1#64 := modifyAt_add64_sum 1 _ _ hdest
    rw [List.foldl_cons, Tally.addFlaws_flawsTo_sum ws _ (by simp [Tally.addFlaw, h]), hone, List.length_cons,
      Nat.add_comm, BitVec.ofNat_add, BitVec.add_assoc]

@[simp] theorem RibbonMap.assigned_length (m : RibbonMap) (r : Row) :
    (m.assigned r).length = (m.flaws.filter (fun w => liesIn w.yCenter r.f r.t)).length := by
  simp [RibbonMap.assigned, RibbonMap.flawsIn]

theorem modifyAt_getD {α : Type} (f : α → α) (i : Nat) (l : List α) (d : α) (h : i < l.length) :
    (modifyAt i f l).getD i d = f (l.getD i d) := by
  simp only [List.getD_eq_getElem?_getD, modifyAt_getElem?, List.getElem?_eq_getElem h, if_true, Option.map_some,
    Option.getD_some]

theorem RowKind.index_lt (k : RowKind) : k.index < 3 := by cases k <;> decide

section
variable (r : Row) (m : RibbonMap) (plates : List (Grade × Nat × Nat)) (t : Tally)

/-- A retirement changes neither the id of its tally nor what is counted outside retirement. -/
theorem Tally.retired_kept : (t.retired r m plates).shiftId = t.shiftId ∧
    (t.retired r m plates).unplaced = t.unplaced ∧ (t.retired r m plates).maxSpeed = t.maxSpeed := by
  obtain ⟨_, _, _, hunplaced, _, hid, hspeed, _⟩ := Tally.addRow_flaws r plates
    ((m.leaving r.t).foldl (fun t i => t.addFolded i.folded) ((m.assigned r).foldl Tally.addFlaw t))
  rw [Tally.addFoldeds_spec, Tally.addFlaws_eq] at hunplaced hid hspeed
  unfold Tally.retired
  rw [Tally.addFoldeds_spec, Tally.addFlaws_eq]
  exact ⟨hid, hunplaced, hspeed⟩

/-- The row is counted by its kind (R153). -/
theorem Tally.retired_rows (h : t.rows.length = 3) :
    (t.retired r m plates).rows.getD r.kind.index 0 = satAdd (t.rows.getD r.kind.index 0) 1 := by
  obtain ⟨_, _, _, _, _, _, _, hrows⟩ := Tally.addRow_flaws r plates
    ((m.leaving r.t).foldl (fun t i => t.addFolded i.folded) ((m.assigned r).foldl Tally.addFlaw t))
  rw [Tally.retired, hrows, Tally.addFoldeds_spec, Tally.addFlaws_eq]
  exact modifyAt_getD _ _ _ _ (h ▸ r.kind.index_lt)

/-- The flaws of the row's span are counted once each by destination (R67, R154). -/
theorem Tally.retired_flawsTo (h : t.flawsTo.length = 3) : (t.retired r m plates).flawsTo.sum = t.flawsTo.sum +
    BitVec.ofNat 64 (m.flaws.filter (fun w => liesIn w.yCenter r.f r.t)).length := by
  obtain ⟨_, hto, _⟩ := Tally.addRow_flaws r plates
    ((m.leaving r.t).foldl (fun t i => t.addFolded i.folded) ((m.assigned r).foldl Tally.addFlaw t))
  rw [Tally.retired, hto, Tally.addFoldeds_spec]
  exact (Tally.addFlaws_flawsTo_sum _ t h).trans (by rw [RibbonMap.assigned_length])

/-- The folded counts of the intervals that leave are counted (R67, R154). -/
theorem Tally.retired_folded : (t.retired r m plates).folded =
    t.folded + BitVec.ofNat 64 ((m.leaving r.t).map Interval.folded).sum := by
  obtain ⟨_, _, hfolded, _⟩ := Tally.addRow_flaws r plates
    ((m.leaving r.t).foldl (fun t i => t.addFolded i.folded) ((m.assigned r).foldl Tally.addFlaw t))
  rw [Tally.retired, hfolded, Tally.addFoldeds_spec, Tally.addFlaws_eq]

end

/-- The tally of a row's tag is the current one or the closing one (R152). -/
theorem TallyUnit.toTag_of_named (u : TallyUnit) (tag : Word) (w : Tally) (f : Tally → Tally)
    (h : (tag = u.current.shiftId ∧ w = u.current) ∨
      (tag ≠ u.current.shiftId ∧ u.closing = some w ∧ w.shiftId = tag)) :
    u.toTag tag f = ⟨if tag = u.current.shiftId then f w else u.current,
      if tag = u.current.shiftId then u.closing else some (f w), u.interrupted⟩ := by
  rcases h with ⟨rfl, rfl⟩ | ⟨hne, hclosing, hid⟩
  · simp [TallyUnit.toTag]
  · simp [TallyUnit.toTag, hne, Ne.symm hne, hclosing, hid]

/-! ## The closing tally (R159) -/

/-- Without a closing tally, or while a row carries its id, STU stays as it is. -/
theorem TallyUnit.finish_of_waiting (rows : List Row) (u : TallyUnit)
    (h : ∀ t, u.closing = some t → ∃ x ∈ rows, x.shiftTag = t.shiftId) : u.finish rows = (u, []) := by
  unfold TallyUnit.finish
  split
  · rename_i t ht
    obtain ⟨x, hx, htag⟩ := h t ht
    refine if_neg fun hall => ?_
    exact of_decide_eq_true (List.all_eq_true.1 hall x hx) htag
  · rfl

/-- When no row carries its id, the closing tally is reported and removed. -/
theorem TallyUnit.finish_of_complete (rows : List Row) (u : TallyUnit) (t : Tally) (ht : u.closing = some t)
    (h : ∀ x ∈ rows, x.shiftTag ≠ t.shiftId) :
    u.finish rows = (⟨u.current, none, false⟩, [.shift t u.interrupted]) := by
  unfold TallyUnit.finish
  rw [ht]
  exact if_pos (List.all_eq_true.2 fun x hx => decide_eq_true (h x hx))

/-! ## The order of the row (R85, R86) -/

/-- A final grade meets a lane's minimum, grade by grade (R85). -/
theorem Grade.meets_eq (g minimum : Grade) : g.meets minimum =
    decide (g = .a ∨ (g = .b ∧ minimum ≠ .a) ∨ (g = .c ∧ minimum ≠ .a ∧ minimum ≠ .b)) := by
  cases g <;> cases minimum <;> rfl

section
variable (o : OrderUnit) (r : Row) (finals : List Grade)

theorem OrderUnit.retireRow_of_none (h : r.ref = none) : o.retireRow r finals = (o, []) := by
  unfold OrderUnit.retireRow; rw [h]

theorem OrderUnit.retireRow_of_some (tag take : Word) (h : r.ref = some (tag, take)) :
    o.retireRow r finals = (o.updateCut take (CutOrder.rowRetired finals)).completeCut take := by
  unfold OrderUnit.retireRow; rw [h]

/-- The report of a retired row changes the table of ORU alone. -/
theorem OrderUnit.retireRow_table :
    (o.retireRow r finals).1 = { o with table := (o.retireRow r finals).1.table } := by
  unfold OrderUnit.retireRow
  split <;> rfl

end

/-- The update of one entry by a take number (R85). -/
def Entry.updateCut (take : Word) (f : CutOrder → CutOrder) (e : Entry) : Entry :=
  if e.take = take then
    match e.work with
    | .cut k => { e with work := .cut (f k) }
    | _ => e
  else e

theorem OrderUnit.updateCut_table (o : OrderUnit) (take : Word) (f : CutOrder → CutOrder) :
    (o.updateCut take f).table = o.table.map (Entry.updateCut take f) := rfl

theorem Entry.updateCut_of_ne {take : Word} (f : CutOrder → CutOrder) {e : Entry} (h : e.take ≠ take) :
    e.updateCut take f = e := if_neg h

theorem Entry.updateCut_of_cut (f : CutOrder → CutOrder) (e : Entry) (k : CutOrder) (h : e.work = .cut k) :
    e.updateCut e.take f = { e with work := .cut (f k) } := by
  unfold Entry.updateCut
  rw [if_pos rfl, h]

/-- Entries with other take numbers are not updated. -/
theorem map_updateCut_of_absent {take : Word} (f : CutOrder → CutOrder) {es : List Entry}
    (h : ∀ e ∈ es, e.take ≠ take) : es.map (Entry.updateCut take f) = es :=
  (List.map_congr_left fun e he => Entry.updateCut_of_ne f (h e he)).trans (List.map_id es)

/-- Entries with other take numbers are not completed. -/
theorem filter_completed_of_absent {take : Word} {es : List Entry} (h : ∀ e ∈ es, e.take ≠ take) :
    es.filter (fun e => !(e.take = take && e.completion.isSome)) = es ∧ es.filter (fun e => e.take = take) = [] :=
  ⟨List.filter_eq_self.2 fun e he => by simp [h e he], List.filter_eq_nil_iff.2 fun e he => by simp [h e he]⟩

/-- The completion of the one entry with a take number (R86). -/
theorem OrderUnit.completeCut_at (o : OrderUnit) (front back : List Entry) (e : Entry)
    (hsplit : o.table = front ++ e :: back) (hno : ∀ x ∈ front ++ back, x.take ≠ e.take) :
    o.completeCut e.take = ({ o with table := if e.completion.isSome then front ++ back else front ++ e :: back },
      e.completion.toList) := by
  obtain ⟨hkeep, hnone⟩ := filter_completed_of_absent fun x hx => hno x (List.mem_append_left back hx)
  obtain ⟨hkeep', hnone'⟩ := filter_completed_of_absent fun x hx => hno x (List.mem_append_right front hx)
  unfold OrderUnit.completeCut
  rw [hsplit, List.filter_append, List.filter_append, List.filter_cons, List.filter_cons, hkeep, hkeep', hnone, hnone']
  cases he : e.completion <;> simp [he]

/-- The completion of a CUT order (R86). -/
theorem Entry.completion_of_cut (e : Entry) (k : CutOrder) (h : e.work = .cut k) :
    e.completion = if k.state = .placed ∧ k.outstanding = 0 then some (e.cutDone k) else none := by
  unfold Entry.completion
  rw [h]
  simp [CutOrder.complete]

section
variable (o : OrderUnit) (r : Row) (finals : List Grade) (tag take : Word) (h : r.ref = some (tag, take))
include h

/-- A row whose order has left the table tells nobody. -/
theorem OrderUnit.retireRow_of_absent (hno : ∀ e ∈ o.table, e.take ≠ take) : o.retireRow r finals = (o, []) := by
  have hupdate : o.updateCut take (CutOrder.rowRetired finals) = o :=
    congrArg (fun table => ({ o with table := table } : OrderUnit)) (map_updateCut_of_absent _ hno)
  obtain ⟨hkeep, hnone⟩ := filter_completed_of_absent hno
  rw [o.retireRow_of_some r finals tag take h, hupdate, OrderUnit.completeCut, hkeep, hnone]
  rfl

/-- The row's order hears of the retirement, and leaves the table when that completes it (R85, R86). -/
theorem OrderUnit.retireRow_of_entry (front back : List Entry) (e : Entry) (k : CutOrder)
    (hsplit : o.table = front ++ e :: back) (he : e.take = take) (hno : ∀ x ∈ front ++ back, x.take ≠ take)
    (hk : e.work = .cut k) :
    let q := k.rowRetired finals
    o.retireRow r finals =
      if q.state = .placed ∧ q.outstanding = 0 then ({ o with table := front ++ back }, [e.cutDone q])
      else ({ o with table := front ++ { e with work := .cut q } :: back }, []) := by
  subst he
  intro q
  have hupdate : (o.updateCut e.take (CutOrder.rowRetired finals)).table =
      front ++ { e with work := .cut q } :: back := by
    rw [OrderUnit.updateCut_table, hsplit, List.map_append, List.map_cons, Entry.updateCut_of_cut _ e k hk,
      map_updateCut_of_absent _ fun x hx => hno x (List.mem_append_left back hx),
      map_updateCut_of_absent _ fun x hx => hno x (List.mem_append_right front hx)]
  have hcomplete := OrderUnit.completeCut_at _ front back { e with work := .cut q } hupdate hno
  rw [o.retireRow_of_some r finals tag e.take h]
  refine hcomplete.trans ?_
  rw [Entry.completion_of_cut { e with work := .cut q } q rfl]
  split <;> rfl

end

/-! ## The reports of the row (R147 to R149) -/

section
variable (c : Setup) (g : Grader) (m : RibbonMap) (yFin : Pos) (r : Row)

theorem Row.retirement_of_order (h : r.kind = .order) : r.retirement c g m yFin =
    ⟨r.plateRecords g yFin (m.assigned r) 0 r.lanes (r.finalResults g m),
      (r.finalResults g m).map (fun x => (r.reported x.grade, x.plateArea, x.unseenArea)),
      r.finals (r.finalResults g m)⟩ := by
  unfold Row.retirement; rw [h]

theorem Row.retirement_of_scrap (h : r.kind ≠ .order) : r.retirement c g m yFin =
    ⟨[r.scrapRecord c (m.assigned r)], [(.scrap, r.scrapArea c, 0)], []⟩ := by
  unfold Row.retirement
  cases hk : r.kind with
  | order => exact absurd hk h
  | strip => rfl
  | fallback => rfl

/-- Each lane has a result, computed before or now (R147). -/
theorem Row.finalResults_length (h : ∀ rs, r.results = some rs → rs.length = r.lanes.length) :
    (r.finalResults g m).length = r.lanes.length := by
  unfold Row.finalResults
  cases hr : r.results with
  | none => exact gradeLanes_length g m r.lanes r.f r.t
  | some rs => exact h rs hr

/-- ORU judges the final grades of the PLATE records of an ORDER row, and nothing of another row (R85, R113). -/
theorem Row.retirement_finals (h : ∀ rs, r.results = some rs → rs.length = r.lanes.length) :
    (r.retirement c g m yFin).finals =
      if r.kind = .order then (r.retirement c g m yFin).plates.map PlateRec.final else [] := by
  by_cases hk : r.kind = .order
  · rw [if_pos hk, r.retirement_of_order c g m yFin hk]
    exact (Row.plateRecords_finals g yFin _ r _ _ 0 (r.finalResults_length g m h)).symm
  · rw [if_neg hk, r.retirement_of_scrap c g m yFin hk]

/-- One PLATE record for each lane of an ORDER row, with the lane's result and final grade (R147, R148). -/
theorem Row.retirement_plates (hk : r.kind = .order) (h : ∀ rs, r.results = some rs → rs.length = r.lanes.length) :
    (r.retirement c g m yFin).plates.length = r.lanes.length ∧
    ∀ (i : Nat) (x : LaneResult), (r.finalResults g m)[i]? = some x →
      ∃ p, (r.retirement c g m yFin).plates[i]? = some p ∧ p.row = r.id ∧ p.lane = some i ∧
        p.computed = some x.grade ∧ p.merged = r.merged ∧ p.late = decide (r.gradeState = .late) ∧
        p.partialGrade = (r.results.isNone && !reaches yFin r.t) ∧
        p.final = (if r.merged = true then .merged else if r.gradeState = .late then .uninspected else x.grade) := by
  have hlength := r.finalResults_length g m h
  rw [r.retirement_of_order c g m yFin hk]
  refine ⟨Row.plateRecords_length g yFin _ r _ _ 0 hlength, fun i x hx => ?_⟩
  obtain ⟨l, hl⟩ := Row.plateRecords_getElem? g yFin (m.assigned r) r r.lanes _ 0 i x hlength hx
  exact ⟨_, hl, rfl, congrArg some (Nat.zero_add i), rfl, rfl, rfl, rfl, rfl⟩

end

/-! ## Statuses leave EXU as it is but for its causes (R188) -/

theorem Exchange.raise_open (c : Nat) (e : Exchange) (k : BitVec 4) (g : Nat) :
    { e.raise c with causes := k, messages := g } = { e with causes := k, messages := g } := by
  unfold Exchange.raise
  split <;> rfl

theorem State.writeStatuses_open (k : BitVec 4) (g : Nat) : ∀ (ws : List StatusWrite) (s : State),
    { (s.writeStatuses ws).exu with causes := k, messages := g } = { s.exu with causes := k, messages := g }
  | [], _ => rfl
  | w :: ws, s => by
    rw [State.writeStatuses_cons, State.writeStatuses_open k g ws]
    unfold State.writeStatus
    dsimp only
    split
    · exact Exchange.raise_open _ _ k g
    · rfl

/-! ## The retirement as a whole (R113) -/

section
variable (c : Setup) (r : Row) (rest : List Row) (s : State)

/-- The reports of a retirement, on the state as it stands. -/
def State.reportsOf : Retirement := r.retirement c s.grd s.rbm s.fas.yFin

/-- ORU after a retirement, with its statuses. -/
def State.ordersAfter : OrderUnit × List StatusWrite := s.oru.retireRow r (s.reportsOf c r).finals

/-- STU after the row was counted, before the closing tally is looked at. -/
def State.talliesAfter : TallyUnit :=
  s.stu.toTag r.shiftTag (Tally.retired r s.rbm (s.reportsOf c r).counted)

/-- A retirement that leaves a closing tally, or finds none (R113). -/
theorem State.retire_of_waiting
    (h : ∀ u, (s.talliesAfter c r).closing = some u → ∃ x ∈ rest, x.shiftTag = u.shiftId) :
    s.retire c r rest = (State.report ((s.reportsOf c r).plates.map Report.plate)
      { s with rbm := s.rbm.retire r, stu := s.talliesAfter c r, oru := (s.ordersAfter c r).1
               rpl := { s.rpl with rows := rest } }, (s.ordersAfter c r).2) := by
  have hfinish := TallyUnit.finish_of_waiting rest _ h
  unfold State.retire
  dsimp only
  rw [TallyUnit.retireMap_toTag]
  unfold State.talliesAfter State.reportsOf at hfinish
  rw [hfinish]
  simp [State.ordersAfter, State.talliesAfter, State.reportsOf]

/-- A retirement that completes the closing tally (R113, R159). -/
theorem State.retire_of_complete (u : Tally) (hu : (s.talliesAfter c r).closing = some u)
    (h : ∀ x ∈ rest, x.shiftTag ≠ u.shiftId) :
    s.retire c r rest = (State.report
      ((s.reportsOf c r).plates.map Report.plate ++ [.shift u (s.talliesAfter c r).interrupted])
      { s with rbm := s.rbm.retire r, stu := ⟨(s.talliesAfter c r).current, none, false⟩
               oru := { (s.ordersAfter c r).1 with
                 table := (s.ordersAfter c r).1.table.filter (fun e => !e.isCloseShift) }
               rpl := { s.rpl with rows := rest } },
      (s.ordersAfter c r).2 ++ ((s.ordersAfter c r).1.table.filter Entry.isCloseShift).map Entry.done) := by
  have hfinish := TallyUnit.finish_of_complete rest _ u hu h
  unfold State.retire
  dsimp only
  rw [TallyUnit.retireMap_toTag]
  unfold State.talliesAfter State.reportsOf at hfinish
  rw [hfinish]
  rfl

/-- What a retirement leaves of the other blocks. -/
theorem State.issue_retire_blocks : let t := State.issue (s.retire c r rest)
    t.rpl = { s.rpl with rows := rest } ∧ t.rbm = s.rbm.retire r ∧ t.sts = s.sts ∧ t.setup = s.setup ∧
    t.pos = s.pos ∧ t.sli = s.sli ∧ t.fas = s.fas ∧ t.cgc = s.cgc ∧ t.grd = s.grd ∧ t.inputs = s.inputs ∧
    t.free = s.free := by
  simp [State.issue, State.retire]

/-- STU, EXU but for its causes, ORU and host memory after a retirement and its statuses. -/
theorem State.issue_retire_of_eq (rs : List Report) (u : TallyUnit) (o : OrderUnit) (ws : List StatusWrite)
    (h : s.retire c r rest = (State.report rs
      { s with rbm := s.rbm.retire r, stu := u, oru := o, rpl := { s.rpl with rows := rest } }, ws))
    (k : BitVec 4) (g : Nat) : let t := State.issue (s.retire c r rest)
    t.stu = u ∧ { t.exu with causes := k, messages := g } = { (s.report rs).exu with causes := k, messages := g } ∧
    t.oru = o ∧ t.host = ws.foldl Memory.writeStatus s.host := by
  rw [h, State.issue_mk]
  exact ⟨State.writeStatuses_stu _ _, State.writeStatuses_open k g _ _, State.writeStatuses_oru _ _,
    State.writeStatuses_host _ _⟩

end

/-- Settles O37: the map, the tally of the row's tag, the PLATE records, the row's order and the closing tally, each by
the lemma about its step of R113. -/
theorem rowRetirementTakesHead : Obligations.RowRetirementTakesHead := by
  intro s c r rest w hp hc hrun hrows hgate htrail hlead htag hwrows hwto hresults
  have hexec := exec_rowRetirement_of_retirable s c r rest hp hc hrun hrows
    (r.retirable_of_resolved hgate htrail hlead)
  obtain ⟨hrpl, hrbm, hkept⟩ := s.issue_retire_blocks c r rest
  obtain ⟨hid, hunplaced, hspeed⟩ := Tally.retired_kept r s.rbm (s.reportsOf c r).counted w
  have hstu : s.talliesAfter c r = _ := s.stu.toTag_of_named r.shiftTag w _ htag
  refine ⟨_, (s.reportsOf c r).plates, w.retired r s.rbm (s.reportsOf c r).counted, (s.ordersAfter c r).1.table,
    (s.ordersAfter c r).2, hexec, hrpl, hrbm, hid, w.retired_rows r s.rbm _ hwrows, w.retired_flawsTo r s.rbm _ hwto,
    w.retired_folded r s.rbm _, hunplaced, hspeed, fun hk => r.retirement_plates c s.grd s.rbm s.fas.yFin hk hresults,
    fun hk => ?_, ?_, ?_, hkept⟩
  · have hscrap := r.retirement_of_scrap c s.grd s.rbm s.fas.yFin hk
    exact ⟨_, congrArg Retirement.plates hscrap, rfl, rfl, rfl, rfl, rfl⟩
  · intro meets judged told
    have hmeets : ∀ (l : Lane) (g : Grade), meets l g = g.meets l.minGrade := fun l g => (g.meets_eq l.minGrade).symm
    have hjudged : ∀ o, judged o = o.lanes.zip (s.reportsOf c r).finals := by
      intro o
      have hfinals : (s.reportsOf c r).finals = _ := r.retirement_finals c s.grd s.rbm s.fas.yFin hresults
      rw [hfinals]
      by_cases hk : r.kind = .order <;> simp [judged, hk, State.reportsOf]
    have htold : ∀ o, told o = o.rowRetired (s.reportsOf c r).finals := by
      intro o
      simp only [told, hjudged, hmeets]
      rfl
    refine ⟨fun href => ?_, fun tag take href hno => ?_, fun tag take front e o back href hsplit he hno hwork => ?_⟩
    · have hretire := s.oru.retireRow_of_none r (s.reportsOf c r).finals href
      exact ⟨congrArg (fun x => x.1.table) hretire, congrArg Prod.snd hretire⟩
    · have hretire := s.oru.retireRow_of_absent r (s.reportsOf c r).finals tag take href hno
      exact ⟨congrArg (fun x => x.1.table) hretire, congrArg Prod.snd hretire⟩
    · have hretire := s.oru.retireRow_of_entry r (s.reportsOf c r).finals tag take href front back e o hsplit he hno
        hwork
      rw [← htold] at hretire
      refine ⟨fun hplaced hnone => ?_, fun hnot => ?_⟩
      · rw [State.ordersAfter, hretire, if_pos ⟨hplaced, hnone⟩]
        exact ⟨rfl, rfl⟩
      · rw [State.ordersAfter, hretire, if_neg fun h => hnot.elim (· h.1) (· h.2)]
        exact ⟨rfl, rfl⟩
  · have horu : (s.ordersAfter c r).1 = { s.oru with table := (s.ordersAfter c r).1.table } :=
      s.oru.retireRow_table r _
    intro current closing records opened
    have hcurrent : (s.talliesAfter c r).current = current := congrArg TallyUnit.current hstu
    have hclosing : (s.talliesAfter c r).closing = closing := congrArg TallyUnit.closing hstu
    have hinterrupted : (s.talliesAfter c r).interrupted = s.stu.interrupted := by rw [hstu]
    refine ⟨fun hwait => ?_, fun u hu hdone => ?_⟩
    · obtain ⟨hstu', hexu, horu', hhost⟩ := s.issue_retire_of_eq c r rest _ _ _ _
        (s.retire_of_waiting c r rest fun u hu => hwait u (hclosing ▸ hu)) s.exu.causes s.exu.messages
      exact ⟨hstu'.trans hstu, hexu, horu'.trans horu, hhost⟩
    · obtain ⟨hstu', hexu, horu', hhost⟩ := s.issue_retire_of_eq c r rest _ _ _ _
        (s.retire_of_complete c r rest u (hclosing.trans hu) hdone) s.exu.causes s.exu.messages
      rw [hcurrent] at hstu'
      rw [hinterrupted] at hexu
      rw [horu] at horu'
      exact ⟨hstu', hexu, horu', hhost⟩

end Sys2Proof.Machine
end

/-! # Placements answered with an order (O27, O28, O30) -/

section
-- One declaration after the other: a thread for each exceeds the memory that the check allows.
set_option Elab.async false
namespace Sys2Proof.Machine

/-! ## The update of one order of the table (R81, R83) -/

/-- An update of the order with a take number, entry by entry. -/
theorem OrderUnit.updateCut_table_of_cases (u : OrderUnit) (take : Word) (f : CutOrder → CutOrder) (g : Entry → Entry)
    (hcut : ∀ x q, x.work = .cut q → g x = if x.take = take then { x with work := .cut (f q) } else x)
    (hother : ∀ x, (∀ q, x.work ≠ .cut q) → g x = x) : (u.updateCut take f).table = u.table.map g := by
  rw [OrderUnit.updateCut_table]
  refine List.map_congr_left fun x _ => ?_
  by_cases hx : ∃ q, x.work = .cut q
  · obtain ⟨q, hq⟩ := hx
    by_cases htake : x.take = take
    · rw [hcut x q hq, if_pos htake, ← htake, Entry.updateCut_of_cut f x q hq]
    · rw [hcut x q hq, if_neg htake, Entry.updateCut_of_ne f htake]
  · simp only [not_exists] at hx
    rw [hother x hx]
    unfold Entry.updateCut
    split
    · split
      · exact absurd ‹_› (hx _)
      · rfl
    · rfl

/-- With take numbers that differ, the entries before and after one have other take numbers. -/
theorem take_ne_of_nodup {table front back : List Entry} {e : Entry} (hsplit : table = front ++ e :: back)
    (h : (table.map Entry.take).Nodup) : ∀ x ∈ front ++ back, x.take ≠ e.take := by
  subst hsplit
  rw [List.map_append, List.map_cons, List.nodup_middle, List.nodup_cons, ← List.map_append] at h
  exact fun x hx heq => h.1 (heq ▸ List.mem_map_of_mem hx)

/-- The update of the one order with a take number, in its place. -/
theorem OrderUnit.updateCut_at (u : OrderUnit) (f : CutOrder → CutOrder) (front back : List Entry) (e : Entry)
    (k : CutOrder) (hsplit : u.table = front ++ e :: back) (hno : ∀ x ∈ front ++ back, x.take ≠ e.take)
    (hk : e.work = .cut k) : (u.updateCut e.take f).table = front ++ { e with work := .cut (f k) } :: back := by
  rw [OrderUnit.updateCut_table, hsplit, List.map_append, List.map_cons, Entry.updateCut_of_cut f e k hk,
    map_updateCut_of_absent f fun x hx => hno x (List.mem_append_left back hx),
    map_updateCut_of_absent f fun x hx => hno x (List.mem_append_right front hx)]

/-- What an ORDER row does to its order, case by case (R81, R83). -/
theorem CutOrder.orderRowPlaced_eq (q : CutOrder) : q.orderRowPlaced = { q with
    remaining := if q.remaining - 1 = 0 ∧ q.standing = true ∧ q.superseded = false then q.rowCount else q.remaining - 1
    state := if q.remaining - 1 = 0 ∧ ¬(q.standing = true ∧ q.superseded = false) then .placed else .current
    rowsPlaced := satAdd q.rowsPlaced 1
    outstanding := q.outstanding + 1 } := by
  simp [CutOrder.orderRowPlaced, imp_iff_not_or]

/-- The last row of a standing order in force reloads it (R83). -/
theorem CutOrder.orderRowPlaced_of_standing (q : CutOrder) (hstanding : q.standing = true)
    (hsuperseded : q.superseded = false) (hlast : q.remaining = 1) : q.orderRowPlaced = { q with
    remaining := q.rowCount
    state := .current
    rowsPlaced := satAdd q.rowsPlaced 1
    outstanding := q.outstanding + 1 } := by
  simp [CutOrder.orderRowPlaced_eq, hstanding, hsuperseded, hlast]

/-! ## The serving order (R80) -/

/-- What an entry answers to a row request: its CUT order, in QUEUED or CURRENT with rows remaining. -/
def Entry.served (e : Entry) : Option (Entry × CutOrder) :=
  match e.work with
  | .cut c => if c.servable then some (e, c) else none
  | _ => none

theorem OrderUnit.serving_eq (u : OrderUnit) : u.serving = u.table.findSome? Entry.served := rfl

theorem Entry.served_of_cut (e : Entry) (c : CutOrder) (h : e.work = .cut c) :
    e.served = if c.servable then some (e, c) else none := by
  unfold Entry.served
  rw [h]

/-- An entry that answers does so with itself and its own order. -/
theorem Entry.eq_of_served {d e : Entry} {o : CutOrder} (h : d.served = some (e, o)) : d = e ∧ e.work = .cut o := by
  unfold Entry.served at h
  split at h
  · rename_i c hc
    split at h
    · cases h
      exact ⟨rfl, hc⟩
    · cases h
  · cases h

/-- The serving order is the first entry that answers. -/
theorem OrderUnit.serving_eq_some_iff (u : OrderUnit) (e : Entry) (o : CutOrder) : u.serving = some (e, o) ↔
    ∃ front back, u.table = front ++ e :: back ∧ e.served = some (e, o) ∧ ∀ x ∈ front, x.served = none := by
  rw [OrderUnit.serving_eq, List.findSome?_eq_some_iff]
  constructor
  · rintro ⟨front, d, back, hsplit, hd, hfront⟩
    obtain ⟨rfl, -⟩ := Entry.eq_of_served hd
    exact ⟨front, back, hsplit, hd, hfront⟩
  · rintro ⟨front, back, hsplit, he, hfront⟩
    exact ⟨front, e, back, hsplit, he, hfront⟩

/-! ## The runway (R89) -/

/-- A standing order in force in QUEUED or CURRENT makes the runway UNBOUNDED. -/
theorem OrderUnit.runwayNow_of_standing (u : OrderUnit) (e : Entry) (o : CutOrder) (he : e ∈ u.table)
    (ho : e.work = .cut o) (hstanding : o.standing = true) (hsuperseded : o.superseded = false)
    (hstate : o.state ≠ .placed) : u.runwayNow = none := by
  have hmem : o ∈ u.cutOrders := List.mem_filterMap.2 ⟨e, he, (e.cut?_eq_some o).2 ho⟩
  have hany : u.cutOrders.any CutOrder.unbounded = true :=
    List.any_eq_true.2 ⟨o, hmem, by simp [CutOrder.unbounded, hstanding, hsuperseded, hstate]⟩
  exact if_pos hany

/-! ## A placement that is due (R99, R100) -/

theorem exec_placement_of_due (s : State) (c : Setup) (hp : s.pinHeld = false) (hc : s.setup = some c)
    (hrun : s.sts.state = .running)
    (hreach : (s.pos.p - (s.rpl.frontier + pu c.dGc - pu c.dCommit)).toNat < 2 ^ 31)
    (hroom : s.rpl.rows.length < 128) : exec .placement s = .next (s.completePlacement c (s.decide c)) := by
  have hdue : s.placementDue c = true := by
    simp only [State.placementDue, reaches, rowLimit, hrun, hreach, hroom, decide_true, Bool.and_self]
  have hplace : placement s = s.completePlacement c (s.decide c) := by
    unfold placement
    rw [hc]
    exact if_pos hdue
  exact (State.taken_free _ _ hp).trans (congrArg _ hplace)

theorem State.decide_of_serving (s : State) (c : Setup) (e : Entry) (o : CutOrder)
    (h : s.oru.serving = some (e, o)) : s.decide c = decideOrder c s e o := by
  unfold State.decide
  rw [h]

/-- A due placement answered with an order. -/
theorem exec_placement_of_serving (s : State) (c : Setup) (e : Entry) (o : CutOrder) (hp : s.pinHeld = false)
    (hc : s.setup = some c) (hrun : s.sts.state = .running)
    (hreach : (s.pos.p - (s.rpl.frontier + pu c.dGc - pu c.dCommit)).toNat < 2 ^ 31)
    (hroom : s.rpl.rows.length < 128) (hserving : s.oru.serving = some (e, o)) :
    exec .placement s = .next (s.completePlacement c (decideOrder c s e o)) :=
  s.decide_of_serving c e o hserving ▸ exec_placement_of_due s c hp hc hrun hreach hroom

@[simp] theorem State.completePlacement_rpl (c : Setup) (s : State) (d : Decision) :
    (s.completePlacement c d).rpl = d.rpl.place d.row := rfl
@[simp] theorem State.completePlacement_cgc (c : Setup) (s : State) (d : Decision) :
    (s.completePlacement c d).cgc = { s.cgc with armed := s.cgc.armed ++ [⟨d.row.t, d.row.id⟩] } := rfl
@[simp] theorem State.completePlacement_oru (c : Setup) (s : State) (d : Decision) :
    (s.completePlacement c d).oru = (d.oru.computeRunway s.setup).1 := rfl
@[simp] theorem State.completePlacement_phase (c : Setup) (s : State) (d : Decision) :
    (s.completePlacement c d).exu.phase = s.exu.phase := State.report_exu_phase _ _

section
variable (c : Setup) (s : State) (e : Entry) (o : CutOrder)

/-- The cut-outs of an order in a row so far: none where another order cut out last (R107). -/
def Planner.cutOutsOf (p : Planner) (take : Word) : Nat := if p.cutOutOrder = some take then p.cutOutCount else 0

/-- The decision to place the candidate as it stands (R107, R108). -/
theorem decideOrder_of_none (h : decideStrip c s.rpl.frontier (s.rpl.cutOutsOf e.take) o.rowPu
      (candidate s.grd s.rbm s.rpl.frontier o) = none) :
    (decideOrder c s e o).row = s.rpl.newRow .order (s.rpl.frontier + pu o.rowPu) (some (e.tag, e.take)) o.lanes
      s.stu.current.shiftId s.fas.yFin ((candidate s.grd s.rbm s.rpl.frontier o).results.map LaneResult.grade)
      (s.rpl.cutOutsOf e.take) ∧
    (decideOrder c s e o).rpl = { s.rpl with
      inFallback := false
      cutOutOrder := some e.take
      fallbackRows := if s.rpl.inFallback then 0 else s.rpl.fallbackRows
      cutOutCount := 0 } ∧
    (decideOrder c s e o).oru = s.oru.updateCut e.take CutOrder.orderRowPlaced := by
  unfold decideOrder
  unfold Planner.cutOutsOf at h
  dsimp only
  rw [h]
  exact ⟨rfl, rfl, rfl⟩

/-- The decision to cut out (R107, R108). -/
theorem decideOrder_of_some (len : Nat) (h : decideStrip c s.rpl.frontier (s.rpl.cutOutsOf e.take) o.rowPu
      (candidate s.grd s.rbm s.rpl.frontier o) = some len) :
    (decideOrder c s e o).row = s.rpl.newRow .strip (s.rpl.frontier + pu len) (some (e.tag, e.take)) []
      s.stu.current.shiftId s.fas.yFin ((candidate s.grd s.rbm s.rpl.frontier o).results.map LaneResult.grade)
      (s.rpl.cutOutsOf e.take + 1) ∧
    (decideOrder c s e o).rpl = { s.rpl with
      inFallback := false
      cutOutOrder := some e.take
      fallbackRows := if s.rpl.inFallback then 0 else s.rpl.fallbackRows
      cutOutCount := s.rpl.cutOutsOf e.take + 1 } ∧
    (decideOrder c s e o).oru = s.oru.updateCut e.take CutOrder.stripRowPlaced := by
  unfold decideOrder
  unfold Planner.cutOutsOf at h
  dsimp only
  rw [h]
  exact ⟨rfl, rfl, rfl⟩

end

/-- The pre-grades of a candidate: each lane's plate on the map as it stands (R103, R143). -/
theorem candidate_preGrades (g : Grader) (m : RibbonMap) (f : Pos) (o : CutOrder) :
    (candidate g m f o).results.map LaneResult.grade = o.lanes.map (fun l =>
      ((g.spec l.spec).grade ⟨l.xl, l.xr, f, f + pu o.rowPu⟩ (m.flawsIn f (f + pu o.rowPu))
        (m.unseenIn f (f + pu o.rowPu))).grade) := List.map_map

/-- Settles O27: the row, the planner and the order of a placement whose candidate stands. -/
theorem placementOrderRow : Obligations.PlacementOrderRow := by
  intro s c e o hp hc hrun hreach hroom hserving f count hnone
  obtain ⟨hrow, hrpl, horu⟩ := decideOrder_of_none c s e o hnone
  have hexec := exec_placement_of_serving s c e o hp hc hrun hreach hroom hserving
  have htable : (s.completePlacement c (decideOrder c s e o)).oru.table =
      (s.oru.updateCut e.take CutOrder.orderRowPlaced).table := by simp [horu]
  have htake : (s.completePlacement c (decideOrder c s e o)).oru.nextTake = s.oru.nextTake := by
    simp [horu, OrderUnit.updateCut]
  have hplanner := s.completePlacement_rpl c (decideOrder c s e o)
  have hcgc := s.completePlacement_cgc c (decideOrder c s e o)
  rw [hrpl, hrow] at hplanner
  rw [hrow] at hcgc
  refine ⟨_, _, hexec, congrArg Planner.rows hplanner, rfl, rfl, rfl, rfl, rfl, rfl, rfl, rfl, rfl, rfl, rfl, rfl, rfl,
    rfl, rfl, rfl, rfl, candidate_preGrades s.grd s.rbm s.rpl.frontier o, congrArg Planner.nextRow hplanner,
    congrArg Planner.frontier hplanner, congrArg Planner.cutOutCount hplanner, congrArg Planner.cutOutOrder hplanner,
    congrArg Planner.inFallback hplanner, hcgc, ?_, htake, ?_⟩
  · rw [htable]
    refine OrderUnit.updateCut_table_of_cases _ _ _ _ (fun x q hq => ?_) (fun x hx => ?_)
    · simp only [hq, CutOrder.orderRowPlaced_eq]
    · split
      · exact absurd ‹_› (hx _)
      · rfl
  · simp

/-! ## The offending item (R106) -/

/-- A position lies before another by their distances from a position within half the range of both (section 1.4). -/
theorem before_iff_of_half (base p q : Pos) (hp : (p - base).toNat < 2 ^ 31) (hq : (q - base).toNat < 2 ^ 31) :
    before p q = true ↔ (p - base).toNat < (q - base).toNat := by
  simp only [before, reaches, Bool.not_eq_true', decide_eq_false_iff_not]
  bv_omega

theorem distance_ne (base : Pos) {p q : Pos} (h : p ≠ q) : (p - base).toNat ≠ (q - base).toNat :=
  fun heq => h (sub_left_injective (BitVec.eq_of_toNat_eq heq))

/-- An item within half the position range of a position. -/
def Item.within (base : Pos) (i : Item) : Prop := (i.yTop - base).toNat < 2 ^ 31 ∧ (i.yBottom - base).toNat < 2 ^ 31

/-- Item i is named before item j or together with it, seen from a position: an earlier y_top, or the same y_top and no
earlier y_bottom. -/
def Item.precedes (base : Pos) (i j : Item) : Prop := (i.yTop - base).toNat < (j.yTop - base).toNat ∨
  (j.yTop = i.yTop ∧ (j.yBottom - base).toNat ≤ (i.yBottom - base).toNat)

theorem Item.precedes_refl (base : Pos) (i : Item) : i.precedes base i := .inr ⟨rfl, le_rfl⟩

theorem Item.precedes_trans {base : Pos} {i j k : Item} (hij : i.precedes base j) (hjk : j.precedes base k) :
    i.precedes base k := by
  rcases hij with hij | ⟨hij, hij'⟩ <;> rcases hjk with hjk | ⟨hjk, hjk'⟩
  · exact .inl (hij.trans hjk)
  · exact .inl (hjk ▸ hij)
  · exact .inl (hij ▸ hjk)
  · exact .inr ⟨hjk.trans hij, hjk'.trans hij'⟩

/-- The model's order of two items, seen from a position within half the range of both. -/
theorem Item.isBefore_iff (base : Pos) (a b : Item) (ha : a.within base) (hb : b.within base) :
    a.isBefore b = true ↔ ¬b.precedes base a := by
  obtain ⟨hatop, habottom⟩ := ha
  obtain ⟨hbtop, hbbottom⟩ := hb
  unfold Item.isBefore Item.precedes
  by_cases htop : a.yTop = b.yTop
  · rw [if_pos htop, before_iff_of_half base _ _ hbbottom habottom]
    simp [htop]
  · have hne := distance_ne base htop
    rw [if_neg htop, before_iff_of_half base _ _ hatop hbtop]
    simp only [htop, false_and, or_false]
    omega

theorem Item.precedes_total (base : Pos) (i j : Item) : i.precedes base j ∨ j.precedes base i := by
  unfold Item.precedes
  by_cases htop : i.yTop = j.yTop
  · rcases le_total (i.yBottom - base).toNat (j.yBottom - base).toNat with h | h
    · exact .inr (.inr ⟨htop, h⟩)
    · exact .inl (.inr ⟨htop.symm, h⟩)
  · exact (distance_ne base htop).lt_or_gt.imp .inl .inl

theorem offendingItem_of_none (a : Item) (rest : List Item) (h : offendingItem rest = none) :
    offendingItem (a :: rest) = some a := by
  rw [offendingItem, h]

theorem offendingItem_of_some (a b : Item) (rest : List Item) (h : offendingItem rest = some b) :
    offendingItem (a :: rest) = some (if b.isBefore a then b else a) := by
  rw [offendingItem, h]
  exact (apply_ite some _ _ _).symm

theorem offendingItem_eq_none_iff (l : List Item) : offendingItem l = none ↔ l = [] := by
  cases l with
  | nil => simp [offendingItem]
  | cons a rest =>
    cases h : offendingItem rest with
    | none => simp [offendingItem_of_none a rest h]
    | some b => simp [offendingItem_of_some a b rest h]

theorem offendingItem_mem {l : List Item} {i : Item} (h : offendingItem l = some i) : i ∈ l := by
  induction l generalizing i with
  | nil => exact nomatch h
  | cons a rest ih =>
    cases hrest : offendingItem rest with
    | none =>
      rw [offendingItem_of_none a rest hrest] at h
      exact Option.some.inj h ▸ List.mem_cons_self
    | some b =>
      rw [offendingItem_of_some a b rest hrest] at h
      obtain rfl := Option.some.inj h
      split
      · exact List.mem_cons_of_mem a (ih hrest)
      · exact List.mem_cons_self

/-- The offending item is named before all, when the items lie within half the position range of one position. -/
theorem offendingItem_precedes (base : Pos) {l : List Item} {i : Item} (h : offendingItem l = some i)
    (hall : ∀ j ∈ l, j.within base) : ∀ j ∈ l, i.precedes base j := by
  induction l generalizing i with
  | nil => exact nomatch h
  | cons a rest ih =>
    obtain ⟨ha, hwithin⟩ := List.forall_mem_cons.1 hall
    rw [List.forall_mem_cons]
    cases hrest : offendingItem rest with
    | none =>
      rw [offendingItem_of_none a rest hrest] at h
      obtain rfl := Option.some.inj h
      obtain rfl := (offendingItem_eq_none_iff rest).1 hrest
      exact ⟨a.precedes_refl base, fun j hj => nomatch hj⟩
    | some b =>
      have hfirst := ih hrest hwithin
      have hbefore := Item.isBefore_iff base b a (hwithin b (offendingItem_mem hrest)) ha
      rw [offendingItem_of_some a b rest hrest] at h
      obtain rfl := Option.some.inj h
      split
      · rename_i hba
        exact ⟨(Item.precedes_total base a b).resolve_left (hbefore.1 hba), hfirst⟩
      · rename_i hba
        have hab : a.precedes base b := not_not.1 (mt hbefore.2 hba)
        exact ⟨a.precedes_refl base, fun j hj => Item.precedes_trans hab (hfirst j hj)⟩

/-- The items of a lane plate on the answers of the map (R64, R65, R106). -/
theorem mem_laneItems_iff (q : Spec) (p : Plate) (m : RibbonMap) (i : Item) :
    i ∈ laneItems q p (m.flawsIn p.f p.t) (m.unseenIn p.f p.t) ↔
    (∃ w ∈ m.flaws, p.holds w = true ∧ w.yTop = i.yTop ∧ w.yBottom = i.yBottom ∧
      (0 < q.points p w ∨ q.b3 < w.size ∨ w.cls = 15 ∨ q.limit.getD w.cls 0 ≠ 0)) ∨
    (∃ v ∈ m.unseenIn p.f p.t, v.yStart = i.yTop ∧ v.yEnd = i.yBottom ∧ v.cause = .saturated ∧
      0 < p.overlapWidth v ∧ 0 < p.overlapY v) := by
  have hlies : ∀ w, p.holds w = true → liesIn w.yCenter p.f p.t = true := by
    intro w hw
    simp only [Plate.holds, Bool.and_eq_true] at hw
    exact hw.1.1
  have hoffends : ∀ w, q.offends p w = true ↔
      0 < q.points p w ∨ q.b3 < w.size ∨ w.cls = 15 ∨ q.limit.getD w.cls 0 ≠ 0 := by
    intro w
    simp [Spec.offends, Spec.oversize, Flaw.isDense, or_assoc]
  have hsaturated : ∀ v, p.saturatedBy v = true ↔ v.cause = .saturated ∧ 0 < p.overlapWidth v ∧ 0 < p.overlapY v := by
    intro v
    simp [Plate.saturatedBy, and_assoc]
  simp only [laneItems, List.mem_append, List.mem_map, List.mem_filter, RibbonMap.flawsIn, hoffends, hsaturated]
  refine or_congr (exists_congr fun w => ?_) (exists_congr fun v => ?_)
  · obtain ⟨top, bottom⟩ := i
    simp only [Item.mk.injEq]
    constructor
    · rintro ⟨⟨⟨⟨hw, -⟩, hholds⟩, hoff⟩, htop, hbottom⟩
      exact ⟨hw, hholds, htop, hbottom, hoff⟩
    · rintro ⟨hw, hholds, htop, hbottom, hoff⟩
      exact ⟨⟨⟨⟨hw, hlies w hholds⟩, hholds⟩, hoff⟩, htop, hbottom⟩
  · obtain ⟨top, bottom⟩ := i
    simp only [Item.mk.injEq]
    tauto

/-- The items of a candidate are those of its failing lanes (R105, R106). -/
theorem mem_candidate_items_iff (g : Grader) (m : RibbonMap) (f : Pos) (o : CutOrder) (i : Item) :
    i ∈ (candidate g m f o).items ↔ ∃ l ∈ o.lanes,
      Grade.fails ((g.spec l.spec).grade (l.plate f (f + pu o.rowPu)) (m.flawsIn f (f + pu o.rowPu))
        (m.unseenIn f (f + pu o.rowPu))).grade l.minGrade = true ∧
      i ∈ laneItems (g.spec l.spec) (l.plate f (f + pu o.rowPu)) (m.flawsIn f (f + pu o.rowPu))
        (m.unseenIn f (f + pu o.rowPu)) := by
  unfold candidate gradeLanes
  simp only [List.mem_flatMap, List.mem_map, List.mem_filter, ← List.map_prod_left_eq_zip]
  constructor
  · rintro ⟨_, ⟨_, ⟨⟨l, hl, rfl⟩, hfails⟩, rfl⟩, hi⟩
    exact ⟨l, hl, hfails, hi⟩
  · rintro ⟨l, hl, hfails, hi⟩
    exact ⟨l, ⟨_, ⟨⟨l, hl, rfl⟩, hfails⟩, rfl⟩, hi⟩

/-- A placement cuts out up to the offending item of a candidate, within the limits of R107. -/
theorem decideStrip_eq_some {c : Setup} {f : Pos} {count rowPu len : Nat} {k : Candidate}
    (h : decideStrip c f count rowPu k = some len) : count < c.maxCutouts ∧ len ≤ c.stripMax ∧ len ≤ rowPu ∧
    ∃ i, offendingItem k.items = some i ∧ len = max (i.yBottom + pu c.cutoutMargin - f).toNat c.stripMin := by
  unfold decideStrip at h
  split at h
  · rename_i hcut
    split at h
    · rename_i i hi
      unfold stripLength at h
      dsimp only at h
      split at h
      · rename_i hlen
        simp only [Bool.and_eq_true, decide_eq_true_eq] at hcut hlen
        cases h
        exact ⟨hcut.2, hlen.1, hlen.2, i, hi, rfl⟩
      · cases h
    · cases h
  · cases h

/-- Settles O28: the strip up to the offending item, and the row, the planner and the order of a placement that cuts
out. -/
theorem placementStripRow : Obligations.PlacementStripRow := by
  intro s c e o len hp hc hrun hreach hroom hserving f count hsome item
  obtain ⟨hcount, hmax, hrowPu, i, hi, hlen⟩ := decideStrip_eq_some hsome
  have hitem : ∀ a z, item a z ↔ ⟨a, z⟩ ∈ (candidate s.grd s.rbm f o).items := by
    intro a z
    simp only [item, mem_candidate_items_iff]
    exact exists_congr fun l => and_congr_right fun _ => and_congr_right fun _ =>
      (mem_laneItems_iff (s.grd.spec l.spec) (l.plate f (f + pu o.rowPu)) s.rbm ⟨a, z⟩).symm
  obtain ⟨hrow, hrpl, horu⟩ := decideOrder_of_some c s e o len hsome
  have hexec := exec_placement_of_serving s c e o hp hc hrun hreach hroom hserving
  have htable : (s.completePlacement c (decideOrder c s e o)).oru.table =
      (s.oru.updateCut e.take CutOrder.stripRowPlaced).table := by simp [horu]
  have hplanner := s.completePlacement_rpl c (decideOrder c s e o)
  have hcgc := s.completePlacement_cgc c (decideOrder c s e o)
  rw [hrpl, hrow] at hplanner
  rw [hrow] at hcgc
  refine ⟨hlen ▸ le_max_right _ _, hmax, hrowPu, hcount,
    ⟨i.yTop, i.yBottom, (hitem _ _).2 (offendingItem_mem hi), hlen, fun base hbase a z haz => ?_⟩,
    _, _, hexec, congrArg Planner.rows hplanner, rfl, rfl, rfl, rfl, rfl, rfl, rfl, rfl, rfl, rfl, rfl, rfl, rfl,
    congrArg Planner.nextRow hplanner, congrArg Planner.frontier hplanner, congrArg Planner.cutOutCount hplanner,
    congrArg Planner.cutOutOrder hplanner, congrArg Planner.inFallback hplanner, hcgc, ?_, ?_⟩
  · exact offendingItem_precedes base hi (fun j hj => hbase _ _ ((hitem _ _).2 hj)) ⟨a, z⟩ ((hitem a z).1 haz)
  · rw [htable]
    refine OrderUnit.updateCut_table_of_cases _ _ _ _ (fun x q hq => ?_) (fun x hx => ?_)
    · simp only [hq, CutOrder.stripRowPlaced]
    · split
      · exact absurd ‹_› (hx _)
      · rfl
  · simp

/-! ## Standing orders (R83, R89) -/

/-- Settles O30: the order that serves is reloaded in its place, so it serves again and keeps the runway UNBOUNDED. -/
theorem standingOrderReloads : Obligations.StandingOrderReloads := by
  constructor
  · intro s t c e o hp hc hrun hreach hroom hserving hnodup hnone hstanding hsuperseded hlast hcount hexec
    obtain ⟨-, ho⟩ := s.oru.serving_mem e o hserving
    obtain ⟨front, back, hsplit, -, hfront⟩ := (s.oru.serving_eq_some_iff e o).1 hserving
    obtain ⟨-, -, horu⟩ := decideOrder_of_none c s e o hnone
    obtain rfl := Host.Outcome.next.inj
      (hexec.symm.trans (exec_placement_of_serving s c e o hp hc hrun hreach hroom hserving))
    have hq := o.orderRowPlaced_of_standing hstanding hsuperseded hlast
    have htable : (decideOrder c s e o).oru.table = front ++ { e with work := .cut o.orderRowPlaced } :: back := by
      rw [horu]
      exact s.oru.updateCut_at _ front back e o hsplit (take_ne_of_nodup hsplit hnodup) ho
    have hserved : Entry.served { e with work := .cut o.orderRowPlaced } =
        some ({ e with work := .cut o.orderRowPlaced }, o.orderRowPlaced) := by
      rw [Entry.served_of_cut _ _ rfl, if_pos]
      simp [hq, CutOrder.servable, hcount]
    have hrunway : (decideOrder c s e o).oru.runwayNow = none :=
      OrderUnit.runwayNow_of_standing _ { e with work := .cut o.orderRowPlaced } o.orderRowPlaced
        (by simp [htable]) rfl (by simp [hq, hstanding]) (by simp [hq, hsuperseded]) (by simp [hq])
    have hserves := (OrderUnit.serving_eq_some_iff ((decideOrder c s e o).oru.computeRunway s.setup).1 _ _).2
      ⟨front, back, (OrderUnit.computeRunway_table _ _).trans htable, hserved, hfront⟩
    refine ⟨o.orderRowPlaced, hserves, ?_⟩
    rw [State.completePlacement_oru, OrderUnit.computeRunway_runway, hrunway, hq]
    exact ⟨rfl, rfl, rfl, rfl, hstanding, hsuperseded, rfl⟩
  · intro u setup e o he ho hstanding hsuperseded hstate
    rw [OrderUnit.computeRunway_runway]
    refine u.runwayNow_of_standing e o he ho hstanding hsuperseded fun hplaced => ?_
    rcases hstate with h | h <;> rw [h] at hplaced <;> cases hplaced

end Sys2Proof.Machine
end

/-! # The orders CUT and CANCEL (O38, O39) -/

section
-- One declaration after the other: a thread for each exceeds the memory that the check allows.
set_option Elab.async false
namespace Sys2Proof.Machine

/-! ## The taking of an order by its command -/

theorem exec_cut_of_order (s : State) (b : Block) (x : CutBody) (hp : s.pinHeld = false)
    (hl : s.sts.state.live = true) (hb : s.exu.phase = .order b) (hx : b.body = .cut x) :
    exec .cut s = .next (State.issue (takeCut b x (s.cursorTo b))) :=
  State.taken_order OrderBody.cut? takeCut s b x hp hl hb (by rw [hx]; rfl)

theorem exec_cancel_of_order (s : State) (b : Block) (target : Word) (hp : s.pinHeld = false)
    (hl : s.sts.state.live = true) (hb : s.exu.phase = .order b) (hx : b.body = .cancel target) :
    exec .cancel s = .next (State.issue (takeCancel b target (s.cursorTo b))) :=
  State.taken_order OrderBody.cancel? takeCancel s b target hp hl hb (by rw [hx]; rfl)

/-! ## CUT: the refusals in the order of R78 -/

theorem minGradeOf_eq_none_iff (n : Nat) : minGradeOf n = none ↔ n < 1 ∨ 3 < n := by
  rcases n with _ | _ | _ | _ | n <;> simp [minGradeOf]

/-- A value of a CUT order is out of its range (R78). -/
def CutBody.badValue (g : Grader) (x : CutBody) : Prop :=
  x.laneCount < 1 ∨ 4 < x.laneCount ∨ x.rowCount = 0 ∨
    ∃ l ∈ x.used, l.minGrade < 1 ∨ 3 < l.minGrade ∨ g.loaded l.spec = false

/-- The row length of a CUT order is outside that of the setup (R78). -/
def CutBody.badLength (c : Setup) (x : CutBody) : Prop := 100 * x.rowMm < c.rowMin ∨ c.rowMax < 100 * x.rowMm

/-- The lanes of a CUT order cannot be laid out (R78). -/
def CutBody.badLayout (c : Setup) (x : CutBody) : Prop :=
  (∃ l ∈ x.used, l.width = 0 ∨ 4 ≤ l.port ∨ c.ports.getLsbD l.port = false) ∨
    c.netWidth < (x.used.map LaneBody.width).sum ∨ ¬(x.used.map LaneBody.port).Nodup

open Classical in
/-- The refusal of a CUT order while a setup is held: the first of three that holds (R78). -/
theorem cutRefusal_of_setup (s : State) (c : Setup) (x : CutBody) (hs : s.setup = some c) : cutRefusal s x =
    if x.badValue s.grd then some .badValue else if x.badLength c then some .rowLength
    else if x.badLayout c then some .layout else none := by
  unfold cutRefusal
  rw [hs]
  dsimp only
  refine if_congr ?_ rfl (if_congr ?_ rfl (if_congr ?_ rfl rfl))
  · simp only [CutBody.badValue, Option.isNone_iff_eq_none, minGradeOf_eq_none_iff, Bool.or_eq_true, List.any_eq_true,
      decide_eq_true_eq, Bool.not_eq_true', gt_iff_lt, or_assoc, and_or_left, exists_or]
  · simp [CutBody.badLength, Nat.mul_comm]
  · simp only [CutBody.badLayout, Bool.or_eq_true, List.any_eq_true, decide_eq_true_eq, Bool.not_eq_true',
      Bool.and_eq_false_iff, decide_eq_false_iff_not, not_lt, and_or_left, exists_or, or_assoc]
    exact or_congr_right (or_left_comm.trans (or_congr_right or_left_comm))

theorem cutRefusal_of_no_setup (s : State) (x : CutBody) (hs : s.setup = none) : cutRefusal s x = some .noSetup := by
  unfold cutRefusal
  rw [hs]

/-- A refused CUT order writes its status and does nothing else. -/
theorem issue_takeCut_of_refusal (b : Block) (x : CutBody) (s : State) (r : Reason) (h : cutRefusal s x = some r) :
    State.issue (takeCut b x s) = s.writeStatus ⟨b.addr, b.notify, 3, r.code, []⟩ := by
  unfold takeCut
  rw [h]
  rfl

/-! ## CUT: its entry in the table (R79, R84) -/

/-- The order table with the standing orders superseded and a CUT order entered. -/
def OrderUnit.withCut (b : Block) (c : Setup) (x : CutBody) (u : OrderUnit) : OrderUnit :=
  u.supersede.enter b (.cut (x.order c))

/-- An accepted CUT order enters the table, the runway is computed, and TAKEN is written. -/
theorem issue_takeCut_of_accepted (b : Block) (c : Setup) (x : CutBody) (s : State) (hs : s.setup = some c)
    (h : cutRefusal s x = none) :
    State.issue (takeCut b x s) =
      (State.report ((s.oru.withCut b c x).computeRunway s.setup).2
        { s with oru := ((s.oru.withCut b c x).computeRunway s.setup).1 }).writeStatus
      ⟨b.addr, b.notify, 1, 0, [s.oru.nextTake.toNat]⟩ := by
  unfold takeCut
  rw [h]
  simp only [hs]
  rfl

/-- The runway is that of the table. -/
theorem OrderUnit.runwayNow_congr {u v : OrderUnit} (h : u.table = v.table) : u.runwayNow = v.runwayNow := by
  unfold OrderUnit.runwayNow OrderUnit.cutOrders
  rw [h]

theorem OrderUnit.computeRunway_runwayNow (u : OrderUnit) (setup : Option Setup) :
    (u.computeRunway setup).1.runway = (u.computeRunway setup).1.runwayNow :=
  (u.computeRunway_runway setup).trans (OrderUnit.runwayNow_congr (u.computeRunway_table setup).symm)

/-- TAKEN sets no cause (R188). -/
theorem State.writeStatus_exu_of_taken (s : State) (w : StatusWrite) (h : w.status = 1) :
    (s.writeStatus w).exu = s.exu := by
  simp [State.writeStatus, statusTaken, h]

theorem layLanes_head (start : Nat) (us : List LaneBody) : ∀ l ∈ (layLanes start us).head?, l.xl = start := by
  cases us with
  | nil => simp [layLanes]
  | cons u us => simp [layLanes]

/-- A lane as it is laid out: its slot's width, spec, port and minimum grade, and the next lane begins at its end
(R79). -/
theorem layLanes_getElem? (us : List LaneBody) (start i : Nat) (l : Lane) (u : LaneBody)
    (hl : (layLanes start us)[i]? = some l) (hu : us[i]? = some u) :
    l.width = u.width ∧ l.xr = l.xl + 100 * u.width ∧ l.spec = u.spec ∧ l.port = u.port ∧
    l.minGrade = (minGradeOf u.minGrade).getD .c ∧ ∀ n, (layLanes start us)[i + 1]? = some n → n.xl = l.xr := by
  induction us generalizing start i with
  | nil => simp at hu
  | cons v us ih =>
    cases i with
    | zero =>
      simp only [layLanes, List.getElem?_cons_zero, Option.some.injEq] at hl hu
      subst hl hu
      refine ⟨rfl, rfl, rfl, rfl, rfl, fun n hn => layLanes_head _ us n ?_⟩
      rw [layLanes, List.getElem?_cons_succ] at hn
      rwa [List.head?_eq_getElem?]
    | succ i =>
      simp only [layLanes, List.getElem?_cons_succ] at hl hu ⊢
      exact ih _ i hl hu

/-- Settles O38: the refusals in their order, and the entry of an order that none of them meets. -/
theorem cutOrderEntersTable : Obligations.CutOrderEntersTable := by
  intro s c b x hp hl hb hx refused badValue badLength badLayout
  rw [exec_cut_of_order s b x hp hl hb hx]
  have hrefused : ∀ r, cutRefusal (s.cursorTo b) x = some r →
      (.next (State.issue (takeCut b x (s.cursorTo b))) : Host.Outcome State Fault Refusal) = .next (refused r.code) :=
    fun r h => congrArg _ (issue_takeCut_of_refusal b x _ r h)
  have hfirst := cutRefusal_of_setup (s.cursorTo b) c x
  refine ⟨fun hs => hrefused .noSetup (cutRefusal_of_no_setup (s.cursorTo b) x hs), fun hs hbad => ?_,
    fun hs hvalue hbad => ?_, fun hs hvalue hlength hbad => ?_, fun hs hvalue hlength hlayout => ?_⟩
  · exact hrefused .badValue ((hfirst hs).trans (if_pos hbad))
  · exact hrefused .rowLength ((hfirst hs).trans ((if_neg hvalue).trans (if_pos hbad)))
  · exact hrefused .layout ((hfirst hs).trans ((if_neg hvalue).trans ((if_neg hlength).trans (if_pos hbad))))
  · have hnone : cutRefusal (s.cursorTo b) x = none :=
      (hfirst hs).trans ((if_neg hvalue).trans ((if_neg hlength).trans (if_neg hlayout)))
    have hissue := issue_takeCut_of_accepted b c x (s.cursorTo b) hs hnone
    refine ⟨_, x.order c, congrArg Host.Outcome.next hissue, ?_, ?_, rfl, rfl, rfl, rfl, rfl, Nat.mul_comm _ _, rfl, rfl,
      rfl, rfl, rfl, rfl, rfl, layLanes_length _ _, rfl, layLanes_head _ _, fun i l u hi hu => ?_, ?_, ?_, ?_, ?_, ?_⟩
    · rw [State.writeStatus_oru, State.report_oru]
      exact OrderUnit.computeRunway_table _ _
    · rw [State.writeStatus_oru, State.report_oru]
      exact OrderUnit.computeRunway_nextTake _ _
    · obtain ⟨hwidth, hxr, hspec, hport, hgrade, hnext⟩ := layLanes_getElem? x.used c.netLeft i l u hi hu
      refine ⟨hwidth, hxr, hspec, hport, fun h => ?_, fun h => ?_, fun h => ?_, hnext⟩ <;>
        rw [hgrade, h] <;> rfl
    · rw [State.writeStatus_oru, State.report_oru]
      exact OrderUnit.computeRunway_runwayNow _ _
    · rfl
    · rw [State.writeStatus_exu_of_taken _ _ rfl]
      simp
    · rw [State.writeStatus_exu_of_taken _ _ rfl]
      simp
    · simp

/-! ## CANCEL: its target (R87) -/

section
variable (u : OrderUnit) (tag : Word)

theorem OrderUnit.cancel_of_absent (h : ∀ e ∈ u.table, e.tag ≠ tag) : u.cancel tag = .inl .noSuchOrder := by
  have hfind : u.table.find? (fun e => e.tag = tag) = none := List.find?_eq_none.2 fun e he => by simpa using h e he
  unfold OrderUnit.cancel
  rw [hfind]

variable (front back : List Entry) (e : Entry) (hsplit : u.table = front ++ e :: back)
  (hfront : ∀ x ∈ front, x.tag ≠ tag) (he : e.tag = tag)
include hsplit hfront he

/-- The target of a CANCEL is the oldest entry with its tag. -/
theorem OrderUnit.find_target : u.table.find? (fun e => e.tag = tag) = some e := by
  rw [List.find?_eq_some_iff_append]
  exact ⟨by simpa using he, front, back, hsplit, fun x hx => by simpa using hfront x hx⟩

theorem OrderUnit.cancel_of_other (h : ∀ o, e.work ≠ .cut o) : u.cancel tag = .inl .notCancellable := by
  unfold OrderUnit.cancel
  rw [u.find_target tag front back e hsplit hfront he]
  dsimp only
  split
  · exact absurd ‹_› (h _)
  · rfl

variable (o : CutOrder) (ho : e.work = .cut o)
include ho

theorem OrderUnit.cancel_of_placed (h : o.state = .placed) : u.cancel tag = .inl .tooLate := by
  unfold OrderUnit.cancel
  rw [u.find_target tag front back e hsplit hfront he]
  simp only [ho, h]

variable (hno : ∀ x ∈ front ++ back, x.take ≠ e.take)
include hno

/-- A QUEUED target leaves the table. -/
theorem OrderUnit.cancel_of_queued (h : o.state = .queued) : u.cancel tag =
    .inr ({ u with table := front ++ back }, [⟨e.addr, e.notify, 4, 0, []⟩]) := by
  have hleft : u.table.filter (fun x => x.take ≠ e.take) = front ++ back := by
    have hkeep : (front ++ back).filter (fun x => x.take ≠ e.take) = front ++ back :=
      List.filter_eq_self.2 fun x hx => by simpa using hno x hx
    rw [List.filter_append] at hkeep
    rw [hsplit, List.filter_append, List.filter_cons_of_neg (by simp), hkeep]
  unfold OrderUnit.cancel
  rw [u.find_target tag front back e hsplit hfront he]
  simp only [ho, h]
  rw [← hleft]
  rfl

/-- A CURRENT target is cut short, and leaves the table when nothing is outstanding. -/
theorem OrderUnit.cancel_of_current (h : o.state = .current) : u.cancel tag =
    if o.outstanding = 0 then .inr ({ u with table := front ++ back }, [e.cutDone o.endShort])
    else .inr ({ u with table := front ++ { e with work := .cut o.endShort } :: back }, []) := by
  have hupdate := u.updateCut_at CutOrder.endShort front back e o hsplit hno ho
  have hcomplete := OrderUnit.completeCut_at _ front back { e with work := .cut o.endShort } hupdate hno
  unfold OrderUnit.cancel
  rw [u.find_target tag front back e hsplit hfront he]
  simp only [ho, h]
  refine (congrArg Sum.inr hcomplete).trans ?_
  have hdone := Entry.completion_of_cut { e with work := .cut o.endShort } o.endShort rfl
  by_cases hout : o.outstanding = 0
  · rw [hdone.trans (if_pos ⟨rfl, hout⟩), if_pos hout]
    rfl
  · rw [hdone.trans (if_neg fun hcomplete => hout hcomplete.2), if_neg hout]
    rfl

end

/-- A refused CANCEL writes its status and does nothing else. -/
theorem issue_takeCancel_of_refusal (b : Block) (tag : Word) (s : State) (r : Reason) (h : s.oru.cancel tag = .inl r) :
    State.issue (takeCancel b tag s) = s.writeStatus ⟨b.addr, b.notify, 3, r.code, []⟩ := by
  unfold takeCancel
  rw [h]
  rfl

/-- A CANCEL that acts leaves its target's table, computes the runway, and writes the target's statuses before its own
(log 29). -/
theorem issue_takeCancel_of_target (b : Block) (tag : Word) (s : State) (u : OrderUnit) (ws : List StatusWrite)
    (h : s.oru.cancel tag = .inr (u, ws)) : let t := State.issue (takeCancel b tag s)
    t.oru.table = u.table ∧ t.oru.runway = t.oru.runwayNow ∧
    t.host = (ws.foldl Memory.writeStatus s.host).writeStatus ⟨b.addr, b.notify, 2, 0, []⟩ ∧
    t.rpl = s.rpl ∧ t.rbm = s.rbm ∧ t.stu = s.stu ∧ t.cgc = s.cgc := by
  have htake : takeCancel b tag s = (State.report (u.computeRunway s.setup).2
      { s with oru := (u.computeRunway s.setup).1 }, ws ++ [b.done]) := by
    unfold takeCancel
    rw [h]
  intro t
  have horu : t.oru = (u.computeRunway s.setup).1 := by simp [t, State.issue, htake]
  have hhost : t.host = (ws ++ [b.done]).foldl Memory.writeStatus s.host := by
    simp only [t, State.issue, htake, State.writeStatuses_host, State.report_host]
  refine ⟨?_, ?_, ?_, ?_⟩
  · rw [horu, OrderUnit.computeRunway_table]
  · rw [horu, OrderUnit.computeRunway_runwayNow]
  · rw [hhost, List.foldl_append]
    rfl
  · simp [t, State.issue, htake]

/-- Settles O39: the target by its kind and state, and what each leaves in the table and in host memory. -/
theorem cancelByTargetState : Obligations.CancelByTargetState := by
  intro s b tag hp hl hb hx hnodup refused
  rw [exec_cancel_of_order s b tag hp hl hb hx]
  have hrefused : ∀ r, s.oru.cancel tag = .inl r →
      (.next (State.issue (takeCancel b tag (s.cursorTo b))) : Host.Outcome State Fault Refusal) =
        .next (refused r.code) :=
    fun r h => congrArg _ (issue_takeCancel_of_refusal b tag (s.cursorTo b) r h)
  refine ⟨fun hno => hrefused .noSuchOrder (s.oru.cancel_of_absent tag hno), fun front back e hsplit hfront he => ?_⟩
  have htakes := take_ne_of_nodup hsplit hnodup
  let t := State.issue (takeCancel b tag (s.cursorTo b))
  refine ⟨fun hother => ?_, fun o ho hplaced => ?_, fun o ho hqueued => ⟨t, rfl, ?_⟩,
    fun o ho hcurrent => ⟨t, rfl, ?_⟩⟩
  · exact hrefused .notCancellable (s.oru.cancel_of_other tag front back e hsplit hfront he hother)
  · exact hrefused .tooLate (s.oru.cancel_of_placed tag front back e hsplit hfront he o ho hplaced)
  · exact issue_takeCancel_of_target b tag (s.cursorTo b) _ _
      (s.oru.cancel_of_queued tag front back e hsplit hfront he o ho htakes hqueued)
  · have hcancel := s.oru.cancel_of_current tag front back e hsplit hfront he o ho htakes hcurrent
    by_cases hout : o.outstanding = 0
    · rw [if_pos hout] at hcancel
      simp only [if_pos hout, List.append_nil]
      exact issue_takeCancel_of_target b tag (s.cursorTo b) _ _ hcancel
    · rw [if_neg hout] at hcancel
      simp only [if_neg hout, List.append_assoc, List.singleton_append]
      exact issue_takeCancel_of_target b tag (s.cursorTo b) _ _ hcancel

end Sys2Proof.Machine
end

/-! # The poll (O49) -/

section
-- One declaration after the other: a thread for each exceeds the memory that the check allows.
set_option Elab.async false
namespace Sys2Proof.Machine

/-! ## A poll that begins (R183, R184) -/

/-- A poll falls due when its time is over and no detach waits. -/
theorem State.pollDue_of_elapsed (s : State) (htime : s.exu.expoll.toNat ≤ (s.pos.us - s.exu.pollTimer).toNat)
    (hdeferred : s.exu.detachDeferred = false) (hpending : s.sts.state = .idle → s.exu.detachPending = false) :
    s.pollDue = true := by
  have hwaits : s.detachWaits = false := by
    by_cases h : s.sts.state = .idle
    · simp [State.detachWaits, hdeferred, hpending h]
    · simp [State.detachWaits, hdeferred, h]
  rw [State.pollDue, hwaits]
  exact (Bool.and_true _).trans (decide_eq_true htime)

/-- A poll that is due and finds the marker goes on with the chain. -/
theorem poll_of_due (s : State) (hl : s.sts.state.live = true) (hphase : s.exu.phase = .idle) (hdue : s.pollDue = true)
    (hmarker : s.host.readWord s.exu.base = s.exu.marker) :
    poll s = State.chainStep { s with exu := { s.exu with pollTimer := s.pos.us } } := by
  unfold poll
  rw [if_pos hl, hphase]
  dsimp only
  rw [if_pos hdue]
  exact if_neg (not_not.2 hmarker)

/-! ## The chain (R185 to R187) -/

/-- A poll reads a block with room in the order table and a link that is not 0. -/
theorem State.readsChain_iff (s : State) : (s.oru.table.length < tableLimit && s.nextLink ≠ 0) = true ↔
    s.oru.table.length < 16 ∧ s.nextLink ≠ 0 := by
  rw [Bool.and_eq_true, decide_eq_true_eq, decide_eq_true_eq]
  rfl

theorem State.chainStep_of_order (s : State) (b : Block) (hroom : s.oru.table.length < 16) (hlink : s.nextLink ≠ 0)
    (hread : readBlock s.host (aligned8 s.nextLink) = .inl b) :
    s.chainStep = { s with exu := { s.exu with phase := .order b } } := by
  unfold State.chainStep
  rw [if_pos (s.readsChain_iff.2 ⟨hroom, hlink⟩), hread]

theorem State.chainStep_of_refused (s : State) (w : StatusWrite) (hroom : s.oru.table.length < 16)
    (hlink : s.nextLink ≠ 0) (hread : readBlock s.host (aligned8 s.nextLink) = .inr w) :
    s.chainStep =
      State.finishPoll (State.writeStatus { s with exu := { s.exu with cursor := some (aligned8 s.nextLink) } } w) := by
  unfold State.chainStep
  rw [if_pos (s.readsChain_iff.2 ⟨hroom, hlink⟩), hread]

theorem State.chainStep_of_end (s : State) (h : 16 ≤ s.oru.table.length ∨ s.nextLink = 0) :
    s.chainStep = s.finishPoll := by
  refine if_neg fun hgo => ?_
  obtain ⟨hroom, hlink⟩ := s.readsChain_iff.1 hgo
  exact h.elim (not_le.2 hroom) hlink

/-- EXU refuses a block itself for its kind or its length (R187). -/
theorem readBlock_refused {m : Memory} {a : Addr} {w : StatusWrite} (h : readBlock m a = .inr w) :
    w.status = 3 ∧ (w.reason = 1 ∨ w.reason = 2) := by
  unfold readBlock at h
  dsimp only at h
  split at h
  · cases h
    exact ⟨rfl, .inl rfl⟩
  · split at h
    · cases h
    · cases h
      exact ⟨rfl, .inr rfl⟩

/-! ## The end of a poll (R185, R191) -/

theorem State.pageFound_of_unsought (s : State)
    (h : s.exu.staging = [] ∨ s.exu.filling.isSome = true ∨ s.exu.stockAddr = 0) : s.pageFound = none := by
  refine if_neg fun hseek => ?_
  simp only [Bool.and_eq_true, decide_eq_true_eq, Bool.not_eq_true', List.isEmpty_eq_false_iff,
    Option.isNone_iff_eq_none] at hseek
  obtain ⟨⟨hfilling, hstaging⟩, hstock⟩ := hseek
  rcases h with h | h | h
  · exact hstaging h
  · simp [hfilling] at h
  · exact hstock h

/-- With no page to look for, a poll ends with the mirror words. -/
theorem State.finishPoll_of_unsought (s : State)
    (h : s.exu.staging = [] ∨ s.exu.filling.isSome = true ∨ s.exu.stockAddr = 0) : s.finishPoll =
    { s with
      host := s.host.writeBytes (s.exu.base + 0x24#64) s.mirrorBytes
      exu := { s.exu with phase := .idle } } := by
  have hpage : s.pageStep = s := by
    unfold State.pageStep
    rw [s.pageFound_of_unsought h]
  unfold State.finishPoll
  rw [hpage]
  unfold State.writeMirror
  rfl

/-- What the end of a poll leaves in EXU. -/
theorem State.finishPoll_exu (s : State) : s.finishPoll.exu.phase = .idle ∧ s.finishPoll.exu.cursor = s.exu.cursor ∧
    s.finishPoll.exu.pollTimer = s.exu.pollTimer ∧ s.finishPoll.exu.staging = s.exu.staging := by
  unfold State.finishPoll
  dsimp only
  rw [State.writeMirror_exu]
  unfold State.pageStep
  split <;> exact ⟨rfl, rfl, rfl, rfl⟩

/-- Settles O49: a poll that is due holds an order, passes over a block, or ends. -/
theorem pollReadsChain : Obligations.PollReadsChain := by
  intro s host hp hl hphase htime hdeferred hpending m link hmarker
  let u : State := { s with host := m, exu := { s.exu with pollTimer := s.pos.us } }
  have hdue := (s.hostWrites host).pollDue_of_elapsed htime hdeferred hpending
  have hexec : exec (.poll host) s = .next u.chainStep :=
    (State.taken_free (s.hostWrites host) _ hp).trans
      (congrArg _ (poll_of_due (s.hostWrites host) hl hphase hdue hmarker))
  rw [hexec]
  refine ⟨fun b hroom hlink hread => ?_, fun w hroom hlink hread => ⟨readBlock_refused hread, _, rfl, ?_⟩,
    fun hend hunsought => ?_⟩
  · exact congrArg _ (u.chainStep_of_order b hroom hlink hread)
  · rw [u.chainStep_of_refused w hroom hlink hread]
    obtain ⟨hidle, hcursor, htimer, hstaging⟩ := State.finishPoll_exu
      (State.writeStatus { u with exu := { u.exu with cursor := some (aligned8 u.nextLink) } } w)
    rw [State.writeStatus_exu_cursor] at hcursor
    rw [State.writeStatus_exu_pollTimer] at htimer
    rw [State.writeStatus_exu_staging] at hstaging
    refine ⟨hcursor, hidle, htimer, ?_, ?_, ?_, hstaging⟩ <;> simp [u]
  · rw [u.chainStep_of_end hend, u.finishPoll_of_unsought hunsought]
    rfl

end Sys2Proof.Machine
end

/-! # Placements answered NONE and the failing lane (O26, O29) -/

section
-- One declaration after the other: a thread for each exceeds the memory that the check allows.
set_option Elab.async false
namespace Sys2Proof.Machine

/-! ## A placement answered NONE (R100, R101, R109) -/

/-- A due placement with no order to serve. -/
theorem exec_placement_of_not_serving (s : State) (c : Setup) (hp : s.pinHeld = false) (hc : s.setup = some c)
    (hrun : s.sts.state = .running)
    (hreach : (s.pos.p - (s.rpl.frontier + pu c.dGc - pu c.dCommit)).toNat < 2 ^ 31)
    (hroom : s.rpl.rows.length < 128) (hserving : s.oru.serving = none) :
    exec .placement s = .next (s.completePlacement c (decideFallback c s)) := by
  have hdecide : s.decide c = decideFallback c s := by
    unfold State.decide
    rw [hserving]
  exact hdecide ▸ exec_placement_of_due s c hp hc hrun hreach hroom

/-- The RUNWAY record of the Row Planner, in a list of its own, empty where there is none (R101, R102). -/
def Decision.runwayRecord (d : Decision) (c : Setup) (o : OrderUnit) : List Report :=
  (d.fallback.map (fun k => runwayReport k.1 c o d.row.f k.2)).toList

/-- The reports and the units of a placement as it completes (R100, R109). -/
theorem State.completePlacement_eq (c : Setup) (s : State) (d : Decision) :
    s.completePlacement c d = State.report
      ((d.oru.computeRunway s.setup).2 ++ d.runwayRecord c (d.oru.computeRunway s.setup).1 ++ [d.row.record])
      { s with oru := (d.oru.computeRunway s.setup).1
               rpl := d.rpl.place d.row
               cgc := { s.cgc with armed := s.cgc.armed ++ [⟨d.row.t, d.row.id⟩] } } := by
  obtain ⟨row, rpl, oru, fallback⟩ := d
  cases fallback <;> rfl

/-- A FALLBACK row brings a FALLBACK_START record where fallback begins, and none where it goes on (R101). -/
theorem decideFallback_runwayRecord (c : Setup) (s : State) (o : OrderUnit) :
    (decideFallback c s).runwayRecord c o = if s.rpl.inFallback = true then [] else
      [.runway ⟨.fallbackStart, o.runway, c.runwayWarn, o.cutOrders.length, s.rpl.frontier, 0⟩] := by
  unfold Decision.runwayRecord decideFallback
  cases s.rpl.inFallback <;> rfl

/-- Settles O26: the decision for a FALLBACK row, completed; the runway is computed on the table as it stood. -/
theorem placementFallback : Obligations.PlacementFallback := by
  intro s c hp hc hrun hreach hroom hserving f t o row
  refine ⟨?_, OrderUnit.computeRunway_table s.setup s.oru⟩
  rw [exec_placement_of_not_serving s c hp hc hrun hreach hroom hserving, State.completePlacement_eq,
    decideFallback_runwayRecord]
  rfl

/-! ## The failing lane (R105) -/

@[simp] theorem Grade.fails_reject (m : Grade) : Grade.fails .reject m = true := rfl
@[simp] theorem Grade.fails_uninspected (m : Grade) : Grade.fails .uninspected m = false := rfl
@[simp] theorem Grade.fails_a (m : Grade) : Grade.fails .a m = false := decide_eq_false (Nat.not_lt_zero m.rank)

/-- Grade B is below A alone. -/
theorem Grade.fails_b_iff (m : Grade) : Grade.fails .b m = true ↔ m = .a := by
  cases m <;> decide

/-- Grade C is below A and B alone. -/
theorem Grade.fails_c_iff (m : Grade) : Grade.fails .c m = true ↔ m = .a ∨ m = .b := by
  cases m <;> decide

/-- A candidate fails when the pre-grade of one of its lanes fails. -/
theorem candidate_failing_iff (g : Grader) (m : RibbonMap) (f : Pos) (o : CutOrder) :
    (candidate g m f o).failing = true ↔
      ∃ l ∈ o.lanes, Grade.fails
        ((g.spec l.spec).grade (l.plate f (f + pu o.rowPu)) (m.flawsIn f (f + pu o.rowPu))
          (m.unseenIn f (f + pu o.rowPu))).grade l.minGrade = true := by
  unfold candidate gradeLanes
  simp [← List.map_prod_left_eq_zip]

/-- A candidate that does not fail is placed as it stands (R107). -/
theorem decideStrip_of_not_failing (c : Setup) (f : Pos) (count rowPu : Nat) (k : Candidate)
    (h : k.failing = false) : decideStrip c f count rowPu k = none := by
  unfold decideStrip
  rw [h]
  rfl

/-- Settles O29: a grade against a minimum, the failing candidate by its lanes, and the candidate that stands. -/
theorem failingLane : Obligations.FailingLane :=
  ⟨fun m _ => ⟨m.fails_reject, m.fails_uninspected, m.fails_a, m.fails_b_iff, m.fails_c_iff⟩,
    candidate_failing_iff, decideStrip_of_not_failing⟩

end Sys2Proof.Machine
end

/-! # CINH is read at the strobe alone (O36)

Every operation that an event other than the strobe is made of commutes with a change of CINH: no branch reads the
level, and each branch carries it along. One lemma for each operation that branches, in the order of the model; an
event's lemma uses those of the operations it calls. -/

section
namespace Sys2Proof.Machine

/-! ## A state with another level of CINH (R120) -/

/-- The same state with CINH at another level: the state that O36 speaks of. -/
def State.withCinh (b : Bool) (s : State) : State := { s with inputs := { s.inputs with cinh := b } }

section
variable (b : Bool) (s : State)

@[simp] theorem State.withCinh_pending : (s.withCinh b).pending = s.pending := rfl
@[simp] theorem State.withCinh_sts : (s.withCinh b).sts = s.sts := rfl
@[simp] theorem State.withCinh_pinHeld : (s.withCinh b).pinHeld = s.pinHeld := rfl
@[simp] theorem State.withCinh_setup : (s.withCinh b).setup = s.setup := rfl
@[simp] theorem State.withCinh_oru : (s.withCinh b).oru = s.oru := rfl
@[simp] theorem State.withCinh_rpl : (s.withCinh b).rpl = s.rpl := rfl
@[simp] theorem State.withCinh_cgc : (s.withCinh b).cgc = s.cgc := rfl
@[simp] theorem State.withCinh_stu : (s.withCinh b).stu = s.stu := rfl
@[simp] theorem State.withCinh_exu : (s.withCinh b).exu = s.exu := rfl
@[simp] theorem State.withCinh_host : (s.withCinh b).host = s.host := rfl
@[simp] theorem State.withCinh_free : (s.withCinh b).free = s.free := rfl

/-- An event whose effect does not read CINH is taken, or passed over, alike at either level. -/
theorem State.taken_withCinh {s t u v : State} (b : Bool) (h : s.taken t = .next u) (hv : v = t.withCinh b) :
    (s.withCinh b).taken v = .next (u.withCinh b) := by
  unfold State.taken at *
  cases hp : s.pinHeld <;> simp_all

/-! ## Staging, statuses and FAULT -/

theorem State.report_withCinh (rs : List Report) : State.report rs (s.withCinh b) = (s.report rs).withCinh b := rfl

theorem State.writeStatuses_withCinh (ws : List StatusWrite) :
    State.writeStatuses ws (s.withCinh b) = (s.writeStatuses ws).withCinh b := by
  induction ws generalizing s with
  | nil => rfl
  | cons w ws ih => exact ih (s.writeStatus w)

theorem State.issue_withCinh (e : State × List StatusWrite) :
    State.issue (e.map (State.withCinh b) id) = (State.issue e).withCinh b := e.1.writeStatuses_withCinh b e.2


theorem State.enterFault_withCinh (cause : FaultCause) :
    State.enterFault cause (s.withCinh b) = (s.enterFault cause).withCinh b := by
  simp only [State.enterFault, apply_ite (State.withCinh b)]
  rfl

/-! ## Events of POS and SLI -/

theorem forwardCount_withCinh : forwardCount (s.withCinh b) = (forwardCount s).withCinh b := by
  simp only [forwardCount, State.withCinh_setup]
  split <;> rfl

theorem reverseCount_withCinh : reverseCount (s.withCinh b) = (reverseCount s).withCinh b := by
  simp only [reverseCount, State.withCinh_setup]
  split
  · rfl
  · simp only [apply_ite (State.withCinh b)]
    rfl

theorem lineTrigger_withCinh : lineTrigger (s.withCinh b) = (lineTrigger s).withCinh b := by
  simp only [lineTrigger, State.withCinh_setup]
  split
  · rfl
  · simp only [apply_ite (State.withCinh b)]
    rfl

theorem overspeedTest_withCinh : overspeedTest (s.withCinh b) = (overspeedTest s).withCinh b := by
  simp only [overspeedTest, State.withCinh_setup]
  split
  · rfl
  · simp only [apply_ite (State.withCinh b)]
    rfl

theorem handSpeed_withCinh : handSpeed (s.withCinh b) = (handSpeed s).withCinh b := by
  simp only [handSpeed, apply_ite (State.withCinh b)]
  rfl

theorem speedWindowEnd_withCinh : speedWindowEnd (s.withCinh b) = (speedWindowEnd s).withCinh b := by
  have hwindow := overspeedTest_withCinh b { s with pos := s.pos.endWindow }
  simp only [speedWindowEnd, apply_ite (State.withCinh b), ← handSpeed_withCinh, ← hwindow]
  rfl

theorem channelFault_withCinh (k : Nat) (why : ChanFault) :
    channelFault k why (s.withCinh b) = (channelFault k why s).withCinh b := by
  simp only [channelFault, apply_ite (State.withCinh b)]
  rfl

theorem headStatus_withCinh (k : Nat) (code : Byte) :
    headStatus k code (s.withCinh b) = (headStatus k code s).withCinh b := by
  simp only [headStatus, apply_ite (State.withCinh b), channelFault_withCinh]

theorem queueWord_withCinh (k : Nat) (w : ScanWord) :
    queueWord k w (s.withCinh b) = (queueWord k w s).withCinh b := by
  simp only [queueWord, apply_ite (State.withCinh b)]
  rfl

theorem scanWord_withCinh (k : Nat) (w : ScanWord) :
    scanWord k w (s.withCinh b) = (scanWord k w s).withCinh b := by
  cases w with
  | headStatus code => exact headStatus_withCinh b s k code
  | lineStart l => exact queueWord_withCinh b s k _
  | run => exact queueWord_withCinh b s k _
  | lineEnd => exact queueWord_withCinh b s k _

/-! ## Lines, grades, placements, cuts, gates and retirements -/

theorem State.assemble_withCinh (c : Setup) : State.assemble c (s.withCinh b) = s.assemble c := rfl

theorem State.assembled_withCinh (c : Setup) :
    State.assembled c (s.withCinh b) = (s.assembled c).map (State.withCinh b) id := by
  simp only [State.assembled, State.assemble_withCinh]
  rfl

theorem lineAssembly_withCinh : lineAssembly (s.withCinh b) = (lineAssembly s).withCinh b := by
  simp only [lineAssembly, State.withCinh_setup]
  split
  · rfl
  · simp only [apply_ite (State.withCinh b), ← State.issue_withCinh, State.assembled_withCinh]
    rfl

theorem gradingEvent_withCinh : gradingEvent (s.withCinh b) = (gradingEvent s).withCinh b := by
  simp only [gradingEvent, State.withCinh_rpl]
  split
  · rfl
  · simp only [apply_ite (State.withCinh b)]
    rfl

theorem placement_withCinh : placement (s.withCinh b) = (placement s).withCinh b := by
  simp only [placement, State.withCinh_setup]
  split
  · rfl
  · simp only [apply_ite (State.withCinh b)]
    rfl

theorem State.resolveCut_withCinh (row : Word) (pos : Pos) (out : CutState) (why : InhibitCause) (time : Word) :
    State.resolveCut row pos out why time (s.withCinh b) = (s.resolveCut row pos out why time).withCinh b := by
  simp only [State.resolveCut, apply_ite (State.withCinh b)]
  rfl

theorem cdone_withCinh : cdone (s.withCinh b) = (cdone s).withCinh b := by
  simp only [cdone, State.withCinh_cgc, apply_ite (State.withCinh b)]
  congr 1
  split
  · rw [← State.resolveCut_withCinh]
    rfl
  · rfl

theorem confirmWindowExpiry_withCinh :
    confirmWindowExpiry (s.withCinh b) = (confirmWindowExpiry s).withCinh b := by
  simp only [confirmWindowExpiry, State.withCinh_cgc]
  split
  · simp only [apply_ite (State.withCinh b), ← State.resolveCut_withCinh]
    rfl
  · rfl

theorem gateEvent_withCinh : gateEvent (s.withCinh b) = (gateEvent s).withCinh b := by
  simp only [gateEvent, State.withCinh_setup, State.withCinh_rpl]
  split
  · simp only [apply_ite (State.withCinh b)]
    rfl
  · rfl

theorem State.retire_withCinh (c : Setup) (r : Row) (rest : List Row) :
    State.retire c r rest (s.withCinh b) = (s.retire c r rest).map (State.withCinh b) id := rfl

theorem rowRetirement_withCinh : rowRetirement (s.withCinh b) = (rowRetirement s).withCinh b := by
  simp only [rowRetirement, State.withCinh_setup, State.withCinh_rpl]
  split
  · simp only [apply_ite (State.withCinh b), ← State.issue_withCinh, State.retire_withCinh]
    rfl
  · rfl

/-! ## Pages, attach and detach -/

theorem State.closePage_withCinh : State.closePage (s.withCinh b) = s.closePage.withCinh b := by
  simp only [State.closePage, State.withCinh_exu]
  split <;> rfl

theorem State.recordWritten_withCinh (p : FillingPage) (r : Staged) (rest : List Staged) :
    State.recordWritten p r rest (s.withCinh b) = (s.recordWritten p r rest).withCinh b := by
  unfold State.recordWritten
  rfl

theorem State.writeRecord_withCinh (p : FillingPage) (r : Staged) (rest : List Staged) :
    State.writeRecord p r rest (s.withCinh b) = (s.writeRecord p r rest).withCinh b := by
  simp only [State.writeRecord, State.withCinh_host, State.withCinh_exu]
  generalize s.host.writeBytes p.next r.bytes = m
  have hwritten := State.recordWritten_withCinh b { s with host := m } p r rest
  simp only [apply_ite (State.withCinh b), ← State.closePage_withCinh, ← hwritten]
  rfl

theorem pageRecordWrite_withCinh : pageRecordWrite (s.withCinh b) = (pageRecordWrite s).withCinh b := by
  simp only [pageRecordWrite, State.withCinh_exu]
  split
  · simp only [apply_ite (State.withCinh b), ← State.writeRecord_withCinh]
    rfl
  · rfl

theorem State.pageFlushDue_withCinh : State.pageFlushDue (s.withCinh b) = s.pageFlushDue := rfl

theorem pageFlush_withCinh : pageFlush (s.withCinh b) = (pageFlush s).withCinh b := by
  simp only [pageFlush, apply_ite (State.withCinh b), State.closePage_withCinh, State.pageFlushDue_withCinh]

theorem State.reportInterrupted_withCinh :
    State.reportInterrupted (s.withCinh b) = s.reportInterrupted.withCinh b := by
  simp only [State.reportInterrupted, State.withCinh_stu]
  split
  · simp only [apply_ite (State.withCinh b)]
    rfl
  · rfl

theorem State.attach_withCinh (err : AccessError) :
    State.attach err (s.withCinh b) = (s.attach err).withCinh b := by
  simp only [State.attach, apply_ite (State.withCinh b), State.withCinh_host, State.withCinh_exu]
  congr 1
  split
  · rfl
  · simp only [apply_ite (State.withCinh b), ← State.reportInterrupted_withCinh]
    rfl

theorem State.attachWritten_withCinh (err : AccessError) :
    State.attachWritten err (s.withCinh b) = (s.attachWritten err).withCinh b := by
  simp only [State.attachWritten, apply_ite (State.withCinh b), State.attach_withCinh]
  rfl

theorem State.doDetach_withCinh : State.doDetach (s.withCinh b) = s.doDetach.withCinh b := by
  simp only [State.doDetach, State.closePage_withCinh]
  rfl

theorem State.detachWritten_withCinh : State.detachWritten (s.withCinh b) = s.detachWritten.withCinh b := by
  simp only [State.detachWritten, State.withCinh_sts]
  split
  · simp only [apply_ite (State.withCinh b), State.doDetach_withCinh]
    rfl
  all_goals rfl

theorem State.ienWritten_withCinh (v : Bool) :
    State.ienWritten v (s.withCinh b) = (s.ienWritten v).withCinh b := rfl

theorem State.hostWrites_withCinh (ws : List HostWrite) :
    State.hostWrites ws (s.withCinh b) = (s.hostWrites ws).withCinh b := rfl

theorem deferredDetach_withCinh : deferredDetach (s.withCinh b) = (deferredDetach s).withCinh b := by
  simp only [deferredDetach, apply_ite (State.withCinh b), State.withCinh_sts]
  congr 1
  split
  · exact s.doDetach_withCinh b
  all_goals rfl

theorem exbl_withCinh (v : Word) : exbl v (s.withCinh b) = (exbl v s).withCinh b := by
  simp only [exbl, apply_ite (State.withCinh b)]
  rfl

theorem exbh_withCinh (v : Word) : exbh v (s.withCinh b) = (exbh v s).withCinh b := by
  simp only [exbh, apply_ite (State.withCinh b)]
  rfl

/-! ## The poll -/

theorem State.pageStep_withCinh : State.pageStep (s.withCinh b) = s.pageStep.withCinh b := by
  have hfound : (s.withCinh b).pageFound = s.pageFound := rfl
  simp only [State.pageStep, hfound]
  split <;> rfl

theorem State.finishPoll_withCinh : State.finishPoll (s.withCinh b) = s.finishPoll.withCinh b := by
  simp only [State.finishPoll, State.pageStep_withCinh]
  rfl

theorem State.chainStep_withCinh : State.chainStep (s.withCinh b) = s.chainStep.withCinh b := by
  have hlink : (s.withCinh b).nextLink = s.nextLink := rfl
  simp only [State.chainStep, apply_ite (State.withCinh b), hlink, State.withCinh_oru, State.withCinh_host,
    State.finishPoll_withCinh]
  congr 1
  split
  · rfl
  · rw [← State.finishPoll_withCinh]
    rfl

theorem State.beginPoll_withCinh : State.beginPoll (s.withCinh b) = s.beginPoll.withCinh b := by
  simp only [State.beginPoll, apply_ite (State.withCinh b), ← State.enterFault_withCinh, ← State.chainStep_withCinh]
  rfl

theorem poll_withCinh : poll (s.withCinh b) = (poll s).withCinh b := by
  simp only [poll, apply_ite (State.withCinh b), State.withCinh_sts, State.withCinh_exu]
  congr 1
  split
  · simp only [apply_ite (State.withCinh b), State.beginPoll_withCinh]
    rfl
  · rfl
  · exact s.finishPoll_withCinh b

/-! ## The orders -/

theorem State.takeOrder_withCinh {α : Type} (pick : OrderBody → Option α)
    (act : Block → α → State → State × List StatusWrite)
    (h : ∀ blk x u, act blk x (State.withCinh b u) = (act blk x u).map (State.withCinh b) id) :
    State.takeOrder pick act (s.withCinh b) = (s.takeOrder pick act).withCinh b := by
  simp only [State.takeOrder, State.withCinh_exu]
  split
  · rename_i blk _
    have hact (x : α) : State.issue (act blk x (State.cursorTo blk (s.withCinh b))) =
        (State.issue (act blk x (s.cursorTo blk))).withCinh b := by
      rw [← State.issue_withCinh, ← h]
      rfl
    simp only [hact, State.withCinh_sts, apply_ite (State.withCinh b)]
    congr 1
    split <;> rfl
  · rfl

section
variable (blk : Block)

theorem takeSetup_withCinh (x : SetupBody) :
    takeSetup blk x (s.withCinh b) = (takeSetup blk x s).map (State.withCinh b) id := by
  have hrefusal : setupRefusal (s.withCinh b) x = setupRefusal s x := rfl
  simp only [takeSetup, hrefusal]
  split <;> rfl

theorem takeStart_withCinh : takeStart blk (s.withCinh b) = (takeStart blk s).map (State.withCinh b) id := by
  simp only [takeStart, apply_ite (Prod.map (State.withCinh b) id), State.withCinh_sts, State.withCinh_setup]
  congr 1
  split <;> rfl

theorem State.endDrain_withCinh : State.endDrain (s.withCinh b) = s.endDrain.map (State.withCinh b) id := rfl

theorem takeStop_withCinh : takeStop blk (s.withCinh b) = (takeStop blk s).map (State.withCinh b) id := by
  simp only [takeStop, apply_ite (Prod.map (State.withCinh b) id)]
  rfl

theorem takeCut_withCinh (x : CutBody) :
    takeCut blk x (s.withCinh b) = (takeCut blk x s).map (State.withCinh b) id := by
  have hrefusal : cutRefusal (s.withCinh b) x = cutRefusal s x := rfl
  simp only [takeCut, hrefusal, State.withCinh_setup]
  split <;> rfl

theorem takeCancel_withCinh (target : Word) :
    takeCancel blk target (s.withCinh b) = (takeCancel blk target s).map (State.withCinh b) id := by
  simp only [takeCancel, State.withCinh_oru]
  split <;> rfl

theorem takeDisable_withCinh (disable : BitVec 16) :
    takeDisable blk disable (s.withCinh b) = (takeDisable blk disable s).map (State.withCinh b) id := by
  simp only [takeDisable, apply_ite (Prod.map (State.withCinh b) id)]
  rfl

theorem takeChannel_withCinh (enable disable : BitVec 16) :
    takeChannel blk enable disable (s.withCinh b) =
      (takeChannel blk enable disable s).map (State.withCinh b) id := by
  simp only [takeChannel, apply_ite (Prod.map (State.withCinh b) id), ← takeDisable_withCinh]
  rfl

theorem takeLoadMask_withCinh (es : List MaskSpec) :
    takeLoadMask blk es (s.withCinh b) = (takeLoadMask blk es s).map (State.withCinh b) id := by
  simp only [takeLoadMask, apply_ite (Prod.map (State.withCinh b) id)]
  rfl

theorem takeLoadClasses_withCinh (es : List ClassEntry) :
    takeLoadClasses blk es (s.withCinh b) = (takeLoadClasses blk es s).map (State.withCinh b) id := by
  have hrefusal : classesRefusal (s.withCinh b) es = classesRefusal s es := rfl
  simp only [takeLoadClasses, hrefusal]
  split <;> rfl

theorem takeLoadSpec_withCinh (n : Nat) (q : Spec) :
    takeLoadSpec blk n q (s.withCinh b) = (takeLoadSpec blk n q s).map (State.withCinh b) id := by
  have hrefusal : specRefusal (s.withCinh b) n q = specRefusal s n q := rfl
  simp only [takeLoadSpec, hrefusal]
  split <;> rfl

theorem takeCloseShift_withCinh (newId : Word) :
    takeCloseShift blk newId (s.withCinh b) = (takeCloseShift blk newId s).map (State.withCinh b) id := by
  have hrefusal : closeShiftRefusal (s.withCinh b) newId = closeShiftRefusal s newId := rfl
  simp only [takeCloseShift, hrefusal]
  split
  · rfl
  · simp only [apply_ite (Prod.map (State.withCinh b) id)]
    rfl

end

/-! ## The end of a drain, and the resets -/

theorem State.pendingDetach_withCinh : State.pendingDetach (s.withCinh b) = s.pendingDetach.withCinh b := by
  simp only [State.pendingDetach, apply_ite (State.withCinh b), State.doDetach_withCinh]
  rfl

theorem endOfDrain_withCinh : endOfDrain (s.withCinh b) = (endOfDrain s).withCinh b := by
  simp only [endOfDrain, apply_ite (State.withCinh b), State.endDrain_withCinh, State.issue_withCinh,
    State.pendingDetach_withCinh]
  rfl

theorem softReset_withCinh : softReset (s.withCinh b) = (softReset s).withCinh b := rfl

theorem softResetWithKeep_withCinh : softResetWithKeep (s.withCinh b) = (softResetWithKeep s).withCinh b := rfl

theorem exctl_withCinh (v : Word) : exctl v (s.withCinh b) = (exctl v s).withCinh b := by
  simp only [exctl, apply_ite (State.withCinh b), softReset_withCinh, softResetWithKeep_withCinh,
    State.ienWritten_withCinh, State.attachWritten_withCinh, State.detachWritten_withCinh]

theorem registerWrite_withCinh (offset : Nat) (v : Word) :
    registerWrite offset v (s.withCinh b) = (registerWrite offset v s).withCinh b := by
  unfold registerWrite
  split
  · exact exbl_withCinh b s v
  · exact exbh_withCinh b s v
  · exact exctl_withCinh b s v
  all_goals rfl

/-! ## An access that fails within an event (R174, R178) -/

theorem State.attempt_withCinh : ∀ (n : Nat) (ops : List PortOp) (s : State),
    State.attempt n ops (s.withCinh b) = (s.attempt n ops).map (State.withCinh b) id
  | _, [], _ => rfl
  | n, .cause c :: ops, s => State.attempt_withCinh n ops { s with exu := s.exu.raise c }
  | 0, .write _ _ :: _, _ => rfl
  | n + 1, .write a bs :: ops, s => State.attempt_withCinh n ops { s with host := s.host.writeBytes a bs }

theorem State.cutAt_withCinh (n : Nat) (ops : List PortOp) :
    State.cutAt n ops (s.withCinh b) = (s.cutAt n ops).map (State.withCinh b) := by
  simp only [State.cutAt, State.attempt_withCinh]
  rcases s.attempt n ops with ⟨u, _ | k⟩ <;> rfl

theorem State.cutClose_withCinh (n : Nat) :
    State.cutClose n (s.withCinh b) = (s.cutClose n).map (State.withCinh b) := by
  simp only [State.cutClose, State.withCinh_exu]
  split
  · rfl
  · exact State.cutAt_withCinh b s n _

theorem State.cutRecord_withCinh (n : Nat) :
    State.cutRecord n (s.withCinh b) = (s.cutRecord n).map (State.withCinh b) := by
  simp only [State.cutRecord, State.withCinh_exu]
  split
  · rename_i p r rest _ _
    simp only [State.withCinh_sts, apply_ite (Option.map (State.withCinh b)), State.attempt_withCinh,
      State.cutClose_withCinh, Option.map_none]
    congr 2
    rcases s.attempt n (wordOps p.next r.bytes) with ⟨u, _ | k⟩
    · rfl
    · simp only [Prod.map, id_eq, apply_ite (Option.map (State.withCinh b)), ← State.cutClose_withCinh]
      rfl
  · rfl

theorem State.cutFlush_withCinh (n : Nat) :
    State.cutFlush n (s.withCinh b) = (s.cutFlush n).map (State.withCinh b) := by
  simp only [State.cutFlush, State.pageFlushDue_withCinh, State.cutClose_withCinh,
    apply_ite (Option.map (State.withCinh b)), Option.map_none]

theorem State.finishOps_withCinh : State.finishOps (s.withCinh b) = s.finishOps := rfl

theorem State.cutChain_withCinh (n : Nat) :
    State.cutChain n (s.withCinh b) = (s.cutChain n).map (State.withCinh b) := by
  have hlink : (s.withCinh b).nextLink = s.nextLink := rfl
  simp only [State.cutChain, hlink, State.withCinh_oru, State.withCinh_host, State.finishOps_withCinh,
    State.cutAt_withCinh, State.attempt_withCinh, apply_ite (Option.map (State.withCinh b))]
  congr 1
  split
  · rfl
  · rename_i w _
    rcases s.attempt n w.ops with ⟨u, _ | k⟩
    · rfl
    · exact State.cutAt_withCinh b { u with exu := { u.exu with cursor := some (aligned8 s.nextLink) } } k _

theorem State.cutBegin_withCinh (n : Nat) :
    State.cutBegin n (s.withCinh b) = (s.cutBegin n).map (State.withCinh b) := by
  simp only [State.cutBegin, apply_ite (Option.map (State.withCinh b)), ← State.cutChain_withCinh]
  rfl

theorem State.cutPoll_withCinh (n : Nat) : State.cutPoll n (s.withCinh b) = (s.cutPoll n).map (State.withCinh b) := by
  simp only [State.cutPoll, apply_ite (Option.map (State.withCinh b)), State.withCinh_sts, State.withCinh_exu]
  congr 1
  split
  · simp only [apply_ite (Option.map (State.withCinh b)), State.cutBegin_withCinh]
    rfl
  · rfl
  · exact State.cutAt_withCinh b s n _

theorem State.cutOrder_withCinh {α : Type} (pick : OrderBody → Option α)
    (act : Block → α → State → State × List StatusWrite)
    (h : ∀ blk x u, act blk x (State.withCinh b u) = (act blk x u).map (State.withCinh b) id) (n : Nat) :
    State.cutOrder pick act n (s.withCinh b) = (s.cutOrder pick act n).map (State.withCinh b) := by
  simp only [State.cutOrder, State.withCinh_exu]
  split
  · rename_i blk _
    have hact (x : α) : (act blk x (State.cursorTo blk (s.withCinh b))).2 = (act blk x (s.cursorTo blk)).2 := by
      change (act blk x (State.withCinh b (s.cursorTo blk))).2 = _
      rw [h]
      rfl
    simp only [hact, State.withCinh_sts, State.cutAt_withCinh, apply_ite (Option.map (State.withCinh b))]
    congr 1
    split <;> rfl
  · rfl

theorem State.cutStatuses_withCinh (n : Nat) (e : State × List StatusWrite) :
    State.cutStatuses n (e.map (State.withCinh b) id) = (State.cutStatuses n e).map (State.withCinh b) :=
  State.cutAt_withCinh b e.1 n _

theorem State.cutAssembly_withCinh (n : Nat) :
    State.cutAssembly n (s.withCinh b) = (s.cutAssembly n).map (State.withCinh b) := by
  simp only [State.cutAssembly, State.withCinh_setup]
  split
  · rfl
  · simp only [State.assembled_withCinh, State.cutStatuses_withCinh, apply_ite (Option.map (State.withCinh b))]
    rfl

theorem State.cutRetirement_withCinh (n : Nat) :
    State.cutRetirement n (s.withCinh b) = (s.cutRetirement n).map (State.withCinh b) := by
  simp only [State.cutRetirement, State.withCinh_setup, State.withCinh_rpl]
  split
  · simp only [State.retire_withCinh, State.cutStatuses_withCinh, apply_ite (Option.map (State.withCinh b))]
    rfl
  · rfl

theorem State.cutDrain_withCinh (n : Nat) :
    State.cutDrain n (s.withCinh b) = (s.cutDrain n).map (State.withCinh b) := by
  have hdue : (s.withCinh b).drainOver = s.drainOver := rfl
  simp only [State.cutDrain, hdue, State.endDrain_withCinh, Prod.map_fst, Prod.map_snd, id_eq, State.attempt_withCinh,
    apply_ite (Option.map (State.withCinh b))]
  congr 1
  rcases s.endDrain.1.attempt n (statusOps s.endDrain.2) with ⟨u, _ | k⟩
  · rfl
  · simp only [Prod.map, id_eq, apply_ite (Option.map (State.withCinh b)), State.cutClose_withCinh]
    rfl

theorem State.cutDetach_withCinh (ien : Bool) (n : Nat) :
    State.cutDetach ien n (s.withCinh b) = (s.cutDetach ien n).map (State.withCinh b) := by
  simp only [State.cutDetach, State.ienWritten_withCinh, State.cutClose_withCinh,
    apply_ite (Option.map (State.withCinh b))]
  rfl

theorem State.cutDeferred_withCinh (n : Nat) :
    State.cutDeferred n (s.withCinh b) = (s.cutDeferred n).map (State.withCinh b) := by
  simp only [State.cutDeferred, State.cutClose_withCinh, apply_ite (Option.map (State.withCinh b))]
  rfl

theorem State.cutWindow_withCinh (off : Nat) (v : Word) (n : Nat) :
    State.cutWindow off v n (s.withCinh b) = (s.cutWindow off v n).map (State.withCinh b) := by
  simp only [State.cutWindow, State.cutDetach_withCinh, apply_ite (Option.map (State.withCinh b))]
  rfl

/-- Where an access of a command's event fails is the same at either level of CINH. -/
theorem State.cutEvent_withCinh (c : Instr) (n : Nat) :
    State.cutEvent c n (s.withCinh b) = (s.cutEvent c n).map (State.withCinh b) := by
  cases c with
  | poll => exact s.cutPoll_withCinh b n
  | setup => exact s.cutOrder_withCinh b _ _ (fun blk x u => takeSetup_withCinh b u blk x) n
  | start => exact s.cutOrder_withCinh b _ _ (fun blk _ u => takeStart_withCinh b u blk) n
  | stop => exact s.cutOrder_withCinh b _ _ (fun blk _ u => takeStop_withCinh b u blk) n
  | cut => exact s.cutOrder_withCinh b _ _ (fun blk x u => takeCut_withCinh b u blk x) n
  | cancel => exact s.cutOrder_withCinh b _ _ (fun blk x u => takeCancel_withCinh b u blk x) n
  | channel => exact s.cutOrder_withCinh b _ _ (fun blk x u => takeChannel_withCinh b u blk x.1 x.2) n
  | loadMask => exact s.cutOrder_withCinh b _ _ (fun blk x u => takeLoadMask_withCinh b u blk x) n
  | loadClasses => exact s.cutOrder_withCinh b _ _ (fun blk x u => takeLoadClasses_withCinh b u blk x) n
  | loadSpec => exact s.cutOrder_withCinh b _ _ (fun blk x u => takeLoadSpec_withCinh b u blk x.1 x.2) n
  | closeShift => exact s.cutOrder_withCinh b _ _ (fun blk x u => takeCloseShift_withCinh b u blk x) n
  | lineAssembly => exact s.cutAssembly_withCinh b n
  | rowRetirement => exact s.cutRetirement_withCinh b n
  | endOfDrain => exact s.cutDrain_withCinh b n
  | pageRecordWrite => exact s.cutRecord_withCinh b n
  | pageFlush => exact s.cutFlush_withCinh b n
  | detach ien => exact s.cutDetach_withCinh b ien n
  | registerWrite off v => exact s.cutWindow_withCinh b off v n
  | deferredDetach => exact s.cutDeferred_withCinh b n
  | _ => rfl

theorem State.failing_withCinh : State.failing (s.withCinh b) = s.failing.withCinh b := by
  simp only [State.failing, State.withCinh_pending]
  split
  · rfl
  · rename_i c _ _
    rw [State.withCinh_free, State.cutEvent_withCinh]
    cases s.cutEvent c (Config.busWrites s.free) <;> rfl

theorem busError_withCinh : busError (s.withCinh b) = (busError s).withCinh b := by
  simp only [busError, State.failing_withCinh, State.enterFault_withCinh]

end

/-! ## Every other command -/

/-- Settles O36, command by command: no event but the strobe reads CINH. -/
theorem cinhReadOnlyAtStrobe : Obligations.CinhReadOnlyAtStrobe := by
  intro c b s t hstrobe hchange h
  change exec c (s.withCinh b) = .next (t.withCinh b)
  cases c with
  | cutStrobe => exact absurd rfl hstrobe
  | cinhChange a => exact absurd rfl (hchange a)
  | powerOnReset => cases h; rfl
  | pinReset => cases h; rfl
  | returnOfSignal => cases h; rfl
  | resetPinRelease => cases h; rfl
  | softReset => exact State.taken_withCinh b h rfl
  | softResetWithKeep => exact State.taken_withCinh b h rfl
  | attach ien host err =>
    refine State.taken_withCinh (s := s.hostWrites host) b h ?_
    rw [← State.attachWritten_withCinh]
    rfl
  | detach ien => exact State.taken_withCinh b h ((s.ienWritten ien).detachWritten_withCinh b)
  | deferredDetach => exact State.taken_withCinh b h (deferredDetach_withCinh b s)
  | ien v => exact State.taken_withCinh b h rfl
  | excause v => exact State.taken_withCinh b h rfl
  | expoll v => exact State.taken_withCinh b h rfl
  | exbl v => exact State.taken_withCinh b h (exbl_withCinh b s v)
  | exbh v => exact State.taken_withCinh b h (exbh_withCinh b s v)
  | registerWrite off v => exact State.taken_withCinh b h (registerWrite_withCinh b s off v)
  | forwardCount => exact State.taken_withCinh b h (forwardCount_withCinh b s)
  | reverseCount => exact State.taken_withCinh b h (reverseCount_withCinh b s)
  | lineTrigger => exact State.taken_withCinh b h (lineTrigger_withCinh b s)
  | speedWindowEnd => exact State.taken_withCinh b h (speedWindowEnd_withCinh b s)
  | scanWord ch w => exact State.taken_withCinh b h (scanWord_withCinh b s ch _)
  | headStatus ch code => exact State.taken_withCinh b h (headStatus_withCinh b s ch code)
  | lossOfSignal ch =>
    exact State.taken_withCinh (s := { s with inputs := s.inputs.setLost ch true }) b h
      (channelFault_withCinh b { s with inputs := s.inputs.setLost ch true } ch .linkLost)
  | lineAssembly => exact State.taken_withCinh b h (lineAssembly_withCinh b s)
  | gradingEvent => exact State.taken_withCinh b h (gradingEvent_withCinh b s)
  | placement => exact State.taken_withCinh b h (placement_withCinh b s)
  | cdone => exact State.taken_withCinh b h (cdone_withCinh b s)
  | confirmWindowExpiry => exact State.taken_withCinh b h (confirmWindowExpiry_withCinh b s)
  | gateEvent => exact State.taken_withCinh b h (gateEvent_withCinh b s)
  | rowRetirement => exact State.taken_withCinh b h (rowRetirement_withCinh b s)
  | endOfDrain => exact State.taken_withCinh b h (endOfDrain_withCinh b s)
  | poll host => exact State.taken_withCinh (s := s.hostWrites host) b h (poll_withCinh b (s.hostWrites host))
  | setup =>
    exact State.taken_withCinh b h (s.takeOrder_withCinh b _ _ fun blk x u => takeSetup_withCinh b u blk x)
  | start =>
    exact State.taken_withCinh b h (s.takeOrder_withCinh b _ _ fun blk _ u => takeStart_withCinh b u blk)
  | stop =>
    exact State.taken_withCinh b h (s.takeOrder_withCinh b _ _ fun blk _ u => takeStop_withCinh b u blk)
  | cut =>
    exact State.taken_withCinh b h (s.takeOrder_withCinh b _ _ fun blk x u => takeCut_withCinh b u blk x)
  | cancel =>
    exact State.taken_withCinh b h (s.takeOrder_withCinh b _ _ fun blk x u => takeCancel_withCinh b u blk x)
  | channel =>
    exact State.taken_withCinh b h (s.takeOrder_withCinh b _ _ fun blk x u => takeChannel_withCinh b u blk x.1 x.2)
  | loadMask =>
    exact State.taken_withCinh b h (s.takeOrder_withCinh b _ _ fun blk x u => takeLoadMask_withCinh b u blk x)
  | loadClasses =>
    exact State.taken_withCinh b h (s.takeOrder_withCinh b _ _ fun blk x u => takeLoadClasses_withCinh b u blk x)
  | loadSpec =>
    exact State.taken_withCinh b h (s.takeOrder_withCinh b _ _ fun blk x u => takeLoadSpec_withCinh b u blk x.1 x.2)
  | closeShift =>
    exact State.taken_withCinh b h (s.takeOrder_withCinh b _ _ fun blk x u => takeCloseShift_withCinh b u blk x)
  | pageRecordWrite => exact State.taken_withCinh b h (pageRecordWrite_withCinh b s)
  | pageFlush => exact State.taken_withCinh b h (pageFlush_withCinh b s)
  | busError => exact State.taken_withCinh b h (busError_withCinh b s)

end Sys2Proof.Machine
end

/-! # Strobes, confirmations and the resolution of a cut (O31 to O34) -/

section
namespace Sys2Proof.Machine

/-! ## The resolution of a cut (R124 to R126) -/

/-- A row with a cut's state written on its sides of the cut (R119, R124). -/
def Row.cutWritten (row : Word) (pos : Pos) (st : CutState) (r : Row) : Row :=
  { r with trail := if row ≠ 0 ∧ r.id = row then st else r.trail, lead := if r.f = pos then st else r.lead }

/-- A row after a failed cut: the outcome is written, and a row it bounds is merged (R124, R125). -/
def Row.failedCut (row : Word) (pos : Pos) (st : CutState) (r : Row) : Row :=
  if r.touchedBy row pos then (r.cutWritten row pos st).merge else r.cutWritten row pos st

/-- The rows whose merging by a failed cut is a gate fault (R126). -/
def Planner.faultedBy (row : Word) (pos : Pos) (p : Planner) : List Row := (p.mergedBy row pos).filter Row.faultsOnMerge

section
variable (row : Word) (pos : Pos) (st : CutState)

/-- The outcome alone touches no further row and causes no further gate fault. -/
@[simp] theorem Row.cutWritten_touchedBy (r : Row) :
    (r.cutWritten row pos st).touchedBy row pos = r.touchedBy row pos := rfl
@[simp] theorem Row.cutWritten_faultsOnMerge (r : Row) :
    (r.cutWritten row pos st).faultsOnMerge = r.faultsOnMerge := rfl
@[simp] theorem Row.cutWritten_id (r : Row) : (r.cutWritten row pos st).id = r.id := rfl
@[simp] theorem Row.cutWritten_merged (r : Row) : (r.cutWritten row pos st).merged = r.merged := rfl
@[simp] theorem Row.cutWritten_shiftTag (r : Row) : (r.cutWritten row pos st).shiftTag = r.shiftTag := rfl

theorem Planner.writeCut_eq (p : Planner) : p.writeCut row pos st = { p with
    headState := if row = 0 then st else p.headState, rows := p.rows.map (Row.cutWritten row pos st) } := by
  simp [Planner.writeCut, Row.cutWritten]

theorem Planner.mergedBy_writeCut (p : Planner) :
    (p.writeCut row pos st).mergedBy row pos = (p.mergedBy row pos).map (Row.cutWritten row pos st) := by
  rw [Planner.writeCut_eq]
  simp [Planner.mergedBy, List.filter_map, Function.comp_def]

theorem Planner.faultedBy_writeCut (p : Planner) :
    (p.writeCut row pos st).faultedBy row pos = (p.faultedBy row pos).map (Row.cutWritten row pos st) := by
  simp [Planner.faultedBy, Planner.mergedBy_writeCut, List.filter_map, Function.comp_def]

theorem Planner.mergeRows_writeCut (p : Planner) : (p.writeCut row pos st).mergeRows row pos = { p with
    headState := if row = 0 then st else p.headState, rows := p.rows.map (Row.failedCut row pos st) } := by
  rw [Planner.writeCut_eq, Planner.mergeRows, List.map_map]
  rfl

/-- A cut resolved CUT: its outcome and its record, and nothing else (R124, R129). -/
theorem State.resolveCut_of_cut (why : InhibitCause) (time : Word) (s : State) :
    s.resolveCut row pos .cut why time = State.report [.cut ⟨row, pos, .cut, why, time, []⟩]
      { s with rpl := s.rpl.writeCut row pos .cut } := rfl

/-- The records of a failed cut: the notices of the gate faults, then the CUT record (R126, R129; log 55). -/
def Planner.cutReports (why : InhibitCause) (time : Word) (p : Planner) : List Report :=
  (p.faultedBy row pos).map (fun r => .notice (.gateFault r.id pos row st)) ++
    [.cut ⟨row, pos, st, why, time, ((p.mergedBy row pos).filter (fun r => !r.merged)).map Row.id⟩]

/-- A MISSED or INHIBITED cut, in the rows as they stood before it (R124 to R126). -/
theorem State.resolveCut_of_failed (why : InhibitCause) (time : Word) (s : State) (h : st ≠ .cut) :
    s.resolveCut row pos st why time = State.report (s.rpl.cutReports row pos st why time)
      { s with
        rpl := { s.rpl with
          headState := if row = 0 then st else s.rpl.headState, rows := s.rpl.rows.map (Row.failedCut row pos st) }
        stu := (s.rpl.faultedBy row pos).foldl (fun u r => u.toTag r.shiftTag Tally.addGateFault) s.stu } := by
  have hfaulted := s.rpl.faultedBy_writeCut row pos st
  unfold Planner.faultedBy at hfaulted
  simp only [State.resolveCut, if_neg h, hfaulted, Planner.mergeRows_writeCut]
  simp [Planner.mergedBy_writeCut, Planner.cutReports, Planner.faultedBy, List.filter_map, List.foldl_map,
    Function.comp_def]

/-- What a failed cut leaves of a row and what it writes into it (R124 to R126). -/
theorem Row.failedCut_spec (r : Row) : let q := r.failedCut row pos st
    q.id = r.id ∧ q.f = r.f ∧ q.t = r.t ∧ q.gate = r.gate ∧ q.results = r.results ∧
    q.trail = (if row ≠ 0 ∧ r.id = row then st else r.trail) ∧ q.lead = (if r.f = pos then st else r.lead) ∧
    (r.touchedBy row pos = true → q.merged = true ∧
      q.gateFault = (r.gateFault || (decide (r.gate = .fired) && !r.merged))) ∧
    (r.touchedBy row pos = false → q.merged = r.merged ∧ q.gateFault = r.gateFault) := by
  cases h : r.touchedBy row pos
  · have hq : r.failedCut row pos st = r.cutWritten row pos st := if_neg (by simp [h])
    rw [hq]
    exact ⟨rfl, rfl, rfl, rfl, rfl, rfl, rfl, nofun, fun _ => ⟨rfl, rfl⟩⟩
  · have hq : r.failedCut row pos st = (r.cutWritten row pos st).merge := if_pos h
    rw [hq]
    exact ⟨rfl, rfl, rfl, rfl, rfl, rfl, rfl, fun _ => ⟨rfl, rfl⟩, nofun⟩

end

/-! ## Gate faults in the tallies (R126, R155) -/

/-- n gate faults (R155). -/
def Tally.addGateFaults (n : Nat) (t : Tally) : Tally := { t with gateFaults := satAdd t.gateFaults n }

@[simp] theorem Tally.addGateFaults_shiftId (n : Nat) (t : Tally) : (t.addGateFaults n).shiftId = t.shiftId := rfl

@[simp] theorem Tally.addGateFaults_zero (t : Tally) : t.addGateFaults 0 = t := by simp [Tally.addGateFaults]

/-- Gate faults of the rows of a list that carry a tally's id. -/
def Tally.faultsOf (rs : List Row) (t : Tally) : Tally :=
  t.addGateFaults (rs.filter (fun r => r.shiftTag = t.shiftId)).length

theorem Tally.faultsOf_cons (r : Row) (rs : List Row) (t : Tally) : t.faultsOf (r :: rs) =
    (if r.shiftTag = t.shiftId then t.addGateFault else t).faultsOf rs := by
  by_cases h : r.shiftTag = t.shiftId
  · simp [Tally.faultsOf, Tally.addGateFaults, Tally.addGateFault, h, satAdd_satAdd, Nat.add_comm]
  · simp [Tally.faultsOf, h]

/-- A contribution by tag, tally by tally: the closing tally takes it where the current one does not bear the tag. -/
theorem TallyUnit.toTag_eq (tag : Word) (f : Tally → Tally) (u : TallyUnit) : u.toTag tag f = { u with
    current := if tag = u.current.shiftId then f u.current else u.current
    closing := u.closing.map (fun t =>
      if t.shiftId = u.current.shiftId then t else if tag = t.shiftId then f t else t) } := by
  cases u with | mk now closing interrupted =>
  by_cases hnow : tag = now.shiftId
  · subst hnow
    cases closing with
    | none => simp [TallyUnit.toTag]
    | some t => simp +contextual [TallyUnit.toTag, eq_comm]
  · cases closing with
    | none => simp [TallyUnit.toTag, hnow, Ne.symm hnow]
    | some t =>
      by_cases ht : tag = t.shiftId
      · subst ht
        simp [TallyUnit.toTag, hnow, Ne.symm hnow]
      · simp [TallyUnit.toTag, hnow, Ne.symm hnow, ht, Ne.symm ht]

/-- Each gate fault is counted in the tally that the row's tag names: the current one, else the closing one (R152). -/
theorem TallyUnit.gateFaults_eq (rs : List Row) (u : TallyUnit) :
    rs.foldl (fun u r => u.toTag r.shiftTag Tally.addGateFault) u = { u with
      current := u.current.faultsOf rs
      closing := u.closing.map (fun t => if t.shiftId = u.current.shiftId then t else t.faultsOf rs) } := by
  induction rs generalizing u with
  | nil => cases u with | mk now closing interrupted => simp [Tally.faultsOf]
  | cons r rs ih =>
    have hid : (u.toTag r.shiftTag Tally.addGateFault).current.shiftId = u.current.shiftId := by
      rw [TallyUnit.toTag_eq]
      dsimp only
      split <;> rfl
    rw [List.foldl_cons, ih, hid, TallyUnit.toTag_eq, Tally.faultsOf_cons]
    simp only [Option.map_map, TallyUnit.mk.injEq, true_and, and_true]
    refine Option.map_congr fun t _ => ?_
    by_cases ht : t.shiftId = u.current.shiftId
    · simp [ht]
    · by_cases htag : r.shiftTag = t.shiftId <;> simp [ht, htag, Tally.faultsOf_cons, Tally.addGateFault]

/-- Settles O32: the two sides of the cut, the merged rows, the tallies and the records in their order. -/
theorem cutResolutionMergesRows : Obligations.CutResolutionMergesRows := by
  intro row pos why time s touched faulted faults
  have htouched : touched = Row.touchedBy row pos := by
    funext r
    simp [touched, Row.touchedBy]
  have hfaulted : faulted = s.rpl.faultedBy row pos := by
    simp only [faulted, htouched, Planner.faultedBy, Planner.mergedBy, List.filter_filter, Row.faultsOnMerge]
    exact List.filter_congr fun r _ => by rw [Bool.and_assoc, Bool.and_comm]
  refine ⟨fun out hout => ?_, ?_⟩
  · have hne : out ≠ .cut := by rcases hout with rfl | rfl <;> decide
    intro t
    have ht : t = _ := State.resolveCut_of_failed row pos out why time s hne
    have hrecords : s.rpl.cutReports row pos out why time =
        faulted.map (fun r => .notice (.gateFault r.id pos row out)) ++ [.cut ⟨row, pos, out, why, time,
          (s.rpl.rows.filter (fun r => touched r && !r.merged)).map Row.id⟩] := by
      simp [Planner.cutReports, Planner.mergedBy, hfaulted, htouched, List.filter_filter, Bool.and_comm]
    have hstu : t.stu = { s.stu with
        current := faults s.stu.current
        closing := s.stu.closing.map (fun u => if u.shiftId = s.stu.current.shiftId then u else faults u) } := by
      simp only [faults, hfaulted]
      exact (congrArg State.stu ht).trans (TallyUnit.gateFaults_eq _ _)
    have hrows : t.rpl.rows = s.rpl.rows.map (Row.failedCut row pos out) := by rw [ht]; rfl
    refine ⟨by rw [hrows, List.length_map], fun i r hr => ⟨r.failedCut row pos out, by simp [hrows, hr], ?_⟩, ?_,
      fun _ _ => rfl, by rw [hstu], by rw [hstu], fun hnone => by rw [hstu, hnone]; rfl,
      fun u hu hid => by simp [hstu, hu, hid], ?_⟩
    · rw [htouched]
      exact r.failedCut_spec row pos out
    · rw [← hrecords, ht]
      rfl
    · rw [ht]
      exact ⟨rfl, rfl, rfl, rfl, rfl, rfl, rfl, rfl, rfl, rfl, rfl, rfl⟩
  · rw [State.resolveCut_of_cut, Planner.writeCut_eq]
    rfl

/-! ## The strobe (R118 to R120) -/

/-- A strobe that is due is given to the oldest armed cut, which leaves the armed cuts (R119). -/
theorem exec_cutStrobe_of_due (s : State) (c : Setup) (a : ArmedCut) (rest : List ArmedCut) (hp : s.pinHeld = false)
    (hc : s.setup = some c) (hrun : s.sts.state.run = true) (harmed : s.cgc.armed = a :: rest)
    (hdue : reaches s.pos.p (a.pos + pu c.dGc - pu c.dLead) = true) :
    exec .cutStrobe s = .next (State.strobe c a { s with cgc := { s.cgc with armed := rest } }) := by
  have hstrobe : cutStrobe s = State.strobe c a { s with cgc := { s.cgc with armed := rest } } := by
    unfold cutStrobe
    simp only [hc, harmed]
    exact if_pos (by rw [State.strobeDue, hrun, hdue]; rfl)
  exact (State.taken_free _ _ hp).trans (congrArg _ hstrobe)

section
variable (c : Setup) (a : ArmedCut) (s : State)

theorem State.strobe_of_cinh (h : s.inputs.cinh = true) :
    s.strobe c a = s.resolveCut a.row a.pos .inhibited .cinh s.pos.us := if_pos h

theorem State.strobe_of_full (h : s.inputs.cinh = false) (hfull : 8 ≤ s.cgc.outstanding.length) :
    s.strobe c a = s.resolveCut a.row a.pos .inhibited .listFull s.pos.us :=
  (if_neg (by simp [h])).trans (if_pos hfull)

theorem State.strobe_of_room (h : s.inputs.cinh = false) (hroom : s.cgc.outstanding.length < 8) :
    s.strobe c a = { s with
      cgc := { s.cgc with
        cstb := s.cgc.cstb + 1
        outstanding := s.cgc.outstanding ++ [⟨a.pos, a.row, s.pos.us, a.pos + pu c.dGc + pu c.dConfirm⟩] }
      rpl := s.rpl.writeCut a.row a.pos .strobed } :=
  (if_neg (by simp [h])).trans (if_neg (Nat.not_le.2 hroom))

end

/-- Settles O31: CINH first, then the limit of 8, then the pulse. -/
theorem cutStrobeByCase : Obligations.CutStrobeByCase := by
  intro s c a rest hp hc hrun harmed hdue u
  rw [exec_cutStrobe_of_due s c a rest hp hc hrun harmed (decide_eq_true hdue)]
  refine ⟨fun h => ?_, fun h hfull => ?_, fun h hroom => ?_⟩
  · rw [State.strobe_of_cinh c a u h]
  · rw [State.strobe_of_full c a u h hfull]
  · rw [State.strobe_of_room c a u h hroom, Planner.writeCut_eq]
    rfl

/-! ## Confirmation (R121 to R123) -/

theorem exec_cdone_of_free (s : State) (hp : s.pinHeld = false) : exec .cdone s = .next (cdone s) :=
  State.taken_free _ _ hp

theorem exec_confirmWindowExpiry_of_free (s : State) (hp : s.pinHeld = false) :
    exec .confirmWindowExpiry s = .next (confirmWindowExpiry s) := State.taken_free _ _ hp

/-- Settles O33: a pulse by the outstanding list, and a pulse that the part discards. -/
theorem cdoneCreditsOldest : Obligations.CdoneCreditsOldest := by
  intro s hp
  rw [exec_cdone_of_free s hp]
  refine ⟨fun o rest hl hout => ?_, fun hl hout => ?_, fun hstate => ?_⟩
  · simp only [cdone, hl, hout, if_true]
  · simp only [cdone, hl, hout, if_true]
    rfl
  · rcases hstate with h | h <;> simp [cdone, h, PartState.live]

/-- Settles O34: the window end of the oldest outstanding cut, reached or not. -/
theorem windowExpiryMisses : Obligations.WindowExpiryMisses := by
  intro s o rest hp hout
  rw [exec_confirmWindowExpiry_of_free s hp, confirmWindowExpiry, hout]
  refine ⟨fun hrun hdue => congrArg _ (if_pos ?_), fun hearly => congrArg _ (if_neg ?_)⟩
  · rw [hrun, Bool.true_and]
    exact decide_eq_true hdue
  · rw [Bool.and_eq_true, reaches, decide_eq_true_eq]
    exact fun h => Nat.not_lt.2 hearly h.2

end Sys2Proof.Machine
end

/-! # The gate event (O35) -/

section
namespace Sys2Proof.Machine

/-! ## The row at the next-gate pointer (R127) -/

section
variable {p : Planner} {front back : List Row} {r : Row}

theorem Planner.nextGate_eq (hrows : p.rows = front ++ r :: back) (hfront : ∀ x ∈ front, x.gate ≠ .waiting)
    (hr : r.gate = .waiting) : p.nextGate = some r := by
  have hnone : front.find? (fun x => x.gate = .waiting) = none := by simpa using hfront
  simp [Planner.nextGate, hrows, hnone, hr]

/-- An update by id changes one row alone where no other row carries the id. -/
theorem Planner.updateRow_eq (f : Row → Row) (hrows : p.rows = front ++ r :: back)
    (hid : ∀ x ∈ front ++ back, x.id ≠ r.id) : p.updateRow r.id f = { p with rows := front ++ f r :: back } := by
  have hkept (l : List Row) (hl : ∀ x ∈ l, x.id ≠ r.id) : l.map (fun x => if x.id = r.id then f x else x) = l :=
    (List.map_congr_left fun x hx => if_neg (hl x hx)).trans (List.map_id' l)
  simp only [Planner.updateRow, hrows, List.map_append, List.map_cons, if_true,
    hkept front fun x hx => hid x (List.mem_append_left _ hx),
    hkept back fun x hx => hid x (List.mem_append_right _ hx)]

end

/-- A gate event that is due: the ports driven, the row gated, and LATE_GRADE where it is owed (R127, R128). -/
theorem exec_gateEvent_of_due (s : State) (c : Setup) (front back : List Row) (r : Row) (hp : s.pinHeld = false)
    (hc : s.setup = some c) (hrun : s.sts.state.run = true) (hrows : s.rpl.rows = front ++ r :: back)
    (hfront : ∀ x ∈ front, x.gate ≠ .waiting) (hr : r.gate = .waiting) (hid : ∀ x ∈ front ++ back, x.id ≠ r.id)
    (hdue : reaches s.pos.p (r.f + pu c.dGc + pu c.dCg) = true) :
    exec .gateEvent s = .next (State.report
      (if r.gatesLate then [.notice (.lateGrade r.id r.f r.t s.fas.yFin)] else [])
      { s with cgc := (r.drives c s.grd).foldl Cutter.drive s.cgc
               rpl := { s.rpl with rows := front ++ r.gated s.grd :: back } }) := by
  change s.taken (gateEvent s) = _
  rw [State.taken_free _ _ hp, gateEvent, hc, Planner.nextGate_eq hrows hfront hr]
  simp only [hrun, hdue, Bool.and_self, if_true, Planner.updateRow_eq _ hrows hid]

/-! ## The row by its kind (R127, R128) -/

section
variable (c : Setup) (g : Grader) (r : Row)

theorem Row.drives_of_merged (h : r.merged = true) : r.drives c g = [] := if_pos h

theorem Row.drives_of_order (h : r.merged = false) (hk : r.kind = .order) :
    r.drives c g = (r.lanes.map Lane.port).zip (r.laneCodes g) := by
  simp [Row.drives, h, hk]

theorem Row.drives_of_scrap (h : r.merged = false) (hk : r.kind ≠ .order) :
    r.drives c g = ((List.range 4).filter (fun k => c.ports.getLsbD k)).map (fun k => (k, c.scrapCode)) := by
  cases hkind : r.kind with
  | order => exact absurd hkind hk
  | strip => simp [Row.drives, h, hkind]
  | fallback => simp [Row.drives, h, hkind]

theorem Row.gatesLate_of_merged (h : r.merged = true) : r.gatesLate = false := by simp [Row.gatesLate, h]

theorem Row.gatesLate_of_scrap (hk : r.kind ≠ .order) : r.gatesLate = false := by simp [Row.gatesLate, hk]

theorem Row.gatesLate_of_order (h : r.merged = false) (hk : r.kind = .order) :
    r.gatesLate = decide (r.gradeState = .pending) := by
  simp [Row.gatesLate, h, hk]

theorem Row.gated_of_merged (h : r.merged = true) : r.gated g = { r with gate := .suppressed } := by
  simp [Row.gated, r.gatesLate_of_merged h, h]

theorem Row.gated_of_scrap (h : r.merged = false) (hk : r.kind ≠ .order) : r.gated g = { r with gate := .fired } := by
  simp [Row.gated, r.gatesLate_of_scrap hk, h, hk]

theorem Row.gated_of_order (h : r.merged = false) (hk : r.kind = .order) : r.gated g = { r with
    gate := .fired
    codes := r.laneCodes g
    gradeState := if r.gradeState = .pending then .late else r.gradeState } := by
  simp [Row.gated, r.gatesLate_of_order h hk, h, hk]

/-! ## The codes of the lanes (R128, R146) -/

theorem Row.laneCodes_of_graded (rs : List LaneResult) (h : r.gradeState = .graded) (hrs : r.results = some rs) :
    r.laneCodes g = (r.lanes.zip rs).map (fun p => (g.spec p.1.spec).code p.2.grade) := by
  simp [Row.laneCodes, h, hrs]

theorem Row.laneCodes_of_ungraded (h : r.gradeState ≠ .graded ∨ r.results = none) :
    r.laneCodes g = r.lanes.map (fun l => (g.spec l.spec).code .uninspected) := by
  unfold Row.laneCodes
  split
  · rename_i hgraded hrs
    simp [hgraded, hrs] at h
  · rfl

/-- A code for each lane, where a computed grade holds a result for each lane. -/
theorem Row.laneCodes_length (h : ∀ rs, r.results = some rs → rs.length = r.lanes.length) :
    (r.laneCodes g).length = r.lanes.length := by
  unfold Row.laneCodes
  split
  · rename_i rs _ hrs
    simp [h rs hrs]
  · exact List.length_map ..

end

/-! ## Driving ports (R127) -/

/-- Driving ports changes code lines and strobe counts alone. -/
theorem Cutter.drives_frame (ds : List (Nat × BitVec 3)) (g : Cutter) :
    { ds.foldl Cutter.drive g with ports := g.ports, gateStrobes := g.gateStrobes } = g := by
  induction ds generalizing g with
  | nil => rfl
  | cons d ds ih =>
    have h := ih (g.drive d)
    rw [Cutter.mk.injEq] at h ⊢
    obtain ⟨harmed, hout, -, hcstb, -⟩ := h
    exact ⟨harmed, hout, rfl, hcstb, rfl⟩

theorem Cutter.drive_port_of_ne (g : Cutter) {d : Nat × BitVec 3} {k : Nat} (h : d.1 ≠ k) :
    (g.drive d).ports.getD k 0 = g.ports.getD k 0 ∧ (g.drive d).gateStrobes.getD k 0 = g.gateStrobes.getD k 0 := by
  simp [Cutter.drive, modifyAt_getElem?, h, Ne.symm h]

theorem Cutter.drive_port (g : Cutter) {k : Nat} (v : BitVec 3) (hp : k < g.ports.length)
    (hs : k < g.gateStrobes.length) : (g.drive (k, v)).ports.getD k 0 = v ∧
      (g.drive (k, v)).gateStrobes.getD k 0 = g.gateStrobes.getD k 0 + 1 :=
  ⟨by simp [Cutter.drive, hp], modifyAt_getD _ k _ 0 hs⟩

/-- A port that is not driven keeps its code and its count. -/
theorem Cutter.drives_port_of_absent {k : Nat} (ds : List (Nat × BitVec 3)) (g : Cutter) (h : ∀ d ∈ ds, d.1 ≠ k) :
    (ds.foldl Cutter.drive g).ports.getD k 0 = g.ports.getD k 0 ∧
    (ds.foldl Cutter.drive g).gateStrobes.getD k 0 = g.gateStrobes.getD k 0 := by
  induction ds generalizing g with
  | nil => exact ⟨rfl, rfl⟩
  | cons d ds ih =>
    obtain ⟨hd, hds⟩ := List.forall_mem_cons.1 h
    obtain ⟨hport, hstrobe⟩ := ih (g.drive d) hds
    obtain ⟨hport', hstrobe'⟩ := g.drive_port_of_ne hd
    exact ⟨hport.trans hport', hstrobe.trans hstrobe'⟩

/-- A port that is driven once takes its code with one strobe. -/
theorem Cutter.drives_port_of_mem {k : Nat} {v : BitVec 3} (ds : List (Nat × BitVec 3)) (g : Cutter)
    (hnodup : (ds.map Prod.fst).Nodup) (hmem : (k, v) ∈ ds) (hp : k < g.ports.length)
    (hs : k < g.gateStrobes.length) : (ds.foldl Cutter.drive g).ports.getD k 0 = v ∧
      (ds.foldl Cutter.drive g).gateStrobes.getD k 0 = g.gateStrobes.getD k 0 + 1 := by
  induction ds generalizing g with
  | nil => exact absurd hmem List.not_mem_nil
  | cons d ds ih =>
    obtain ⟨hd, hds⟩ := List.nodup_cons.1 hnodup
    rcases List.mem_cons.1 hmem with rfl | htail
    · obtain ⟨hport, hstrobe⟩ := Cutter.drives_port_of_absent ds (g.drive (k, v))
        fun e he hek => hd (List.mem_map.2 ⟨e, he, hek⟩)
      obtain ⟨hport', hstrobe'⟩ := g.drive_port v hp hs
      exact ⟨hport.trans hport', hstrobe.trans hstrobe'⟩
    · have hne : d.1 ≠ k := fun hdk => hd (List.mem_map.2 ⟨(k, v), htail, hdk.symm⟩)
      obtain ⟨hport, hstrobe⟩ := ih (g.drive d) hds htail (by simpa [Cutter.drive] using hp)
        (by simpa [Cutter.drive] using hs)
      exact ⟨hport, hstrobe.trans (congrArg (· + 1) (g.drive_port_of_ne hne).2)⟩

/-- The ports of a STRIP or FALLBACK row: every installed one, with scrap_code (R127). -/
theorem Cutter.drives_scrap (c : Setup) (g : Cutter) (hp : g.ports.length = 4) (hs : g.gateStrobes.length = 4)
    {k : Nat} (hk : k < 4) :
    let t := (((List.range 4).filter (fun k => c.ports.getLsbD k)).map (fun k => (k, c.scrapCode))).foldl
      Cutter.drive g
    t.ports.getD k 0 = (if c.ports.getLsbD k = true then c.scrapCode else g.ports.getD k 0) ∧
    t.gateStrobes.getD k 0 = g.gateStrobes.getD k 0 + (if c.ports.getLsbD k = true then 1 else 0) := by
  cases hport : c.ports.getLsbD k
  · exact Cutter.drives_port_of_absent _ g fun d hd hdk => by
      obtain ⟨j, hj, rfl⟩ := List.mem_map.1 hd
      obtain rfl : j = k := hdk
      simp [hport] at hj
  · have hfst : (((List.range 4).filter (fun k => c.ports.getLsbD k)).map (fun k => (k, c.scrapCode))).map Prod.fst =
        (List.range 4).filter (fun k => c.ports.getLsbD k) := by simp [Function.comp_def]
    exact Cutter.drives_port_of_mem _ g (by rw [hfst]; exact List.nodup_range.filter _) (by simp [hk, hport])
      (hp ▸ hk) (hs ▸ hk)

/-- The ports of an ORDER row: each lane's own, with the lane's code (R127). -/
theorem Cutter.drives_lanes (g : Cutter) (lanes : List Lane) (codes : List (BitVec 3))
    (hlen : codes.length = lanes.length) (hnodup : (lanes.map Lane.port).Nodup) (hports : ∀ l ∈ lanes, l.port < 4)
    (hp : g.ports.length = 4) (hs : g.gateStrobes.length = 4) :
    let t := ((lanes.map Lane.port).zip codes).foldl Cutter.drive g
    (∀ (i : Nat) (l : Lane), lanes[i]? = some l → some (t.ports.getD l.port 0) = codes[i]? ∧
      t.gateStrobes.getD l.port 0 = g.gateStrobes.getD l.port 0 + 1) ∧
    ∀ k, (∀ l ∈ lanes, l.port ≠ k) → t.ports.getD k 0 = g.ports.getD k 0 ∧
      t.gateStrobes.getD k 0 = g.gateStrobes.getD k 0 := by
  refine ⟨fun i l hl => ?_, fun k hk => ?_⟩
  · obtain ⟨hi, rfl⟩ := List.getElem?_eq_some_iff.1 hl
    have hfst : ((lanes.map Lane.port).zip codes).map Prod.fst = lanes.map Lane.port :=
      List.map_fst_zip (by simp [hlen])
    have hmem : (lanes[i].port, codes[i]) ∈ (lanes.map Lane.port).zip codes :=
      List.mem_iff_getElem.2 ⟨i, by simp [hlen, hi], by simp⟩
    have hport := hports _ (List.getElem_mem hi)
    obtain ⟨hcode, hstrobe⟩ := Cutter.drives_port_of_mem _ g (hfst.symm ▸ hnodup) hmem (hp ▸ hport) (hs ▸ hport)
    exact ⟨by rw [hcode, List.getElem?_eq_getElem], hstrobe⟩
  · refine Cutter.drives_port_of_absent _ g fun d hd => ?_
    obtain ⟨l, hl, hport⟩ := List.mem_map.1 (List.of_mem_zip hd).1
    exact hport ▸ hk l hl

/-- Settles O35: the row that is MERGED, the row without lanes, and the ORDER row with its lanes. -/
theorem gateEventDrivesPorts : Obligations.GateEventDrivesPorts := by
  intro s c front back r hp hc hrun hrows hfront hr hid hdue hports hstrobes codeOf
  rw [exec_gateEvent_of_due s c front back r hp hc hrun hrows hfront hr hid (decide_eq_true hdue)]
  refine ⟨fun hm => ?_, fun hm hk => ?_, fun hm hk hnodup hlanes hlen => ?_⟩
  · rw [r.gatesLate_of_merged hm, r.drives_of_merged c s.grd hm, r.gated_of_merged s.grd hm]
    rfl
  · rw [r.gatesLate_of_scrap hk, r.drives_of_scrap c s.grd hm hk, r.gated_of_scrap s.grd hm hk]
    exact ⟨_, rfl, Cutter.drives_frame _ _, fun k hlt => Cutter.drives_scrap c s.cgc hports hstrobes hlt⟩
  · have hcodes := r.laneCodes_length s.grd hlen
    obtain ⟨hdriven, hkept⟩ := s.cgc.drives_lanes r.lanes _ hcodes hnodup hlanes hports hstrobes
    rw [r.gatesLate_of_order hm hk, r.drives_of_order c s.grd hm hk, r.gated_of_order s.grd hm hk]
    refine ⟨_, _, by simp only [decide_eq_true_eq], Cutter.drives_frame _ _, hcodes,
      fun rs hgraded hrs i l x hl hx => ?_, fun h => ?_, hdriven, fun k _ hk => hkept k hk⟩
    · have hzip : (r.lanes.zip rs)[i]? = some (l, x) := List.getElem?_zip_eq_some.2 ⟨hl, hx⟩
      rw [r.laneCodes_of_graded s.grd rs hgraded hrs, List.getElem?_map, hzip]
      rfl
    · exact r.laneCodes_of_ungraded s.grd h

end Sys2Proof.Machine
end

/-! # Plate grading (O24, O25) -/

section
namespace Sys2Proof.Machine

/-! ## The tests of a plate (R137, R140, R141) -/

section
variable {q : Spec} {p : Plate} {ws : List Flaw} {is : List Interval}

theorem Spec.any_oversize_eq_false : ws.any q.oversize = false ↔ ∀ w ∈ ws, w.size ≤ q.b3 := by
  simp [Spec.oversize]

theorem any_isDense_eq_false : ws.any Flaw.isDense = false ↔ ∀ w ∈ ws, w.cls ≠ 15 := by
  simp [Flaw.isDense]

theorem Plate.any_saturatedBy_eq_false : is.any p.saturatedBy = false ↔
    ∀ i ∈ is, i.cause = .saturated → p.overlapWidth i = 0 ∨ p.overlapY i = 0 := by
  simp [Plate.saturatedBy, or_iff_not_imp_left, Nat.pos_iff_ne_zero]

theorem Spec.limitReached_eq_false : q.limitReached ws = false ↔
    ∀ k < 16, q.limit.getD k 0 = 0 ∨ (ws.filter (fun w => w.cls = k)).length < q.limit.getD k 0 := by
  simp [Spec.limitReached, or_iff_not_imp_left]

/-- U is held at A, so the share is held at one; a plate without area has share 0 (R140). -/
theorem Plate.unseenShare_le : p.unseenShare is ≤ 1000 :=
  Nat.div_le_of_le_mul (Nat.mul_le_mul_right 1000 (Nat.min_le_right ..))

theorem Spec.score_le : q.score p ws ≤ 65535 := Nat.min_le_right ..

/-- A plate is graded A, B or C only where no test before the score stops it, and it takes no cause (R141). -/
theorem Spec.judge_good (h : (q.judge p ws is).1 = .a ∨ (q.judge p ws is).1 = .b ∨ (q.judge p ws is).1 = .c) :
    ws.any q.oversize = false ∧ ws.any Flaw.isDense = false ∧ is.any p.saturatedBy = false ∧
    q.limitReached ws = false ∧ p.unseenShare is ≤ q.u ∧ (q.judge p ws is).2 = .none := by
  have hover : ws.any q.oversize = false :=
    eq_false_of_ne_true fun hstop => by simp [Spec.judge, hstop] at h
  have hdense : ws.any Flaw.isDense = false :=
    eq_false_of_ne_true fun hstop => by simp [Spec.judge, hover, hstop] at h
  have hsat : is.any p.saturatedBy = false :=
    eq_false_of_ne_true fun hstop => by simp [Spec.judge, hover, hdense, hstop] at h
  have hlimit : q.limitReached ws = false :=
    eq_false_of_ne_true fun hstop => by simp [Spec.judge, hover, hdense, hsat, hstop] at h
  have hunseen : ¬q.u < p.unseenShare is := fun hstop => by
    simp [Spec.judge, hover, hdense, hsat, hlimit, hstop] at h
  refine ⟨hover, hdense, hsat, hlimit, Nat.le_of_not_lt hunseen, ?_⟩
  simp only [Spec.judge, hover, hdense, hsat, hlimit, hunseen, Bool.false_eq_true, if_false] at h ⊢
  split_ifs at h ⊢ with ha hb hc
  · rfl
  · rfl
  · rfl
  · simp at h

end

/-- Settles O24: share and score are held at their bounds, and a good grade comes after every other test of R141. -/
theorem goodGradeIsClean : Obligations.GoodGradeIsClean := by
  intro q p flaws is r mine
  refine ⟨Plate.unseenShare_le, Spec.score_le, fun hgood => ?_⟩
  obtain ⟨hover, hdense, hsat, hlimit, hunseen, hcause⟩ := Spec.judge_good hgood
  exact ⟨fun w hw => ⟨Spec.any_oversize_eq_false.1 hover w hw, any_isDense_eq_false.1 hdense w hw⟩,
    Plate.any_saturatedBy_eq_false.1 hsat, Spec.limitReached_eq_false.1 hlimit, hunseen, hcause⟩

/-! ## The grading event (R144, R145) -/

theorem Row.ungraded_iff (r : Row) : r.ungraded = true ↔ r.kind = .order ∧ r.results = none := by
  simp [Row.ungraded]

theorem Planner.nextGrade_eq {p : Planner} {before after : List Row} {r : Row} (hrows : p.rows = before ++ r :: after)
    (hbefore : ∀ x ∈ before, ¬(x.kind = .order ∧ x.results = none)) (hr : r.kind = .order ∧ r.results = none) :
    p.nextGrade = some r := by
  have hnone : before.find? Row.ungraded = none :=
    List.find?_eq_none.2 fun x hx => mt x.ungraded_iff.1 (hbefore x hx)
  simp [Planner.nextGrade, hrows, hnone, r.ungraded_iff.2 hr]

theorem gradingEvent_of_due (s : State) (r : Row) (hnext : s.rpl.nextGrade = some r) (hrun : s.sts.state.run = true)
    (hdue : reaches s.fas.yFin r.t = true) :
    gradingEvent s = { s with rpl := s.rpl.updateRow r.id (Row.graded s.grd s.rbm) } := by
  simp [gradingEvent, hnext, hrun, hdue]

/-- Settles O25: the row is the one at the next-grade pointer, and its id is its own. -/
theorem gradingEventGradesRow : Obligations.GradingEventGradesRow := by
  intro s before after r hp hrun hrows hbefore hk hres hid hdue
  have hnext : s.rpl.nextGrade = some r := Planner.nextGrade_eq hrows hbefore ⟨hk, hres⟩
  change s.taken (gradingEvent s) = _
  rw [State.taken_free _ _ hp, gradingEvent_of_due s r hnext hrun (decide_eq_true hdue),
    Planner.updateRow_eq _ hrows hid]
  rfl

end Sys2Proof.Machine
end

/-! # The order CLOSE SHIFT (O40) -/

section
-- One declaration after the other: a thread for each exceeds the memory that the check allows.
set_option Elab.async false
namespace Sys2Proof.Machine

/-! ## The refusals of CLOSE SHIFT (R157) -/

theorem exec_closeShift_of_order (s : State) (b : Block) (n : Word) (hp : s.pinHeld = false)
    (hl : s.sts.state.live = true) (hb : s.exu.phase = .order b) (hx : b.body = .closeShift n) :
    exec .closeShift s = .next (State.issue (takeCloseShift b n (s.cursorTo b))) :=
  State.taken_order OrderBody.closeShift? takeCloseShift s b n hp hl hb (by rw [hx]; rfl)

theorem closeShiftRefusal_of_closing (s : State) (n : Word) (h : s.stu.closing.isSome = true) :
    closeShiftRefusal s n = some .shiftBusy := if_pos h

/-- With no closing tally the id decides. -/
theorem closeShiftRefusal_of_no_closing (s : State) (n : Word) (h : s.stu.closing = none) :
    closeShiftRefusal s n = if n = s.stu.current.shiftId then some .badValue else none := by
  simp [closeShiftRefusal, h]

/-- A refused CLOSE SHIFT writes its status and does nothing else. -/
theorem issue_takeCloseShift_of_refusal (b : Block) (n : Word) (s : State) (r : Reason)
    (h : closeShiftRefusal s n = some r) :
    State.issue (takeCloseShift b n s) = s.writeStatus ⟨b.addr, b.notify, 3, r.code, []⟩ := by
  unfold takeCloseShift; rw [h]; rfl

/-! ## CLOSE SHIFT accepted (R158, R159) -/

/-- The current tally, closed at the frontier F (R158). -/
def State.closedTally (s : State) : Tally :=
  { s.stu.current with endBoundary := some s.rpl.frontier, endTime := some s.pos.us }

/-- STU with the current tally closed at F and a new one opened there (R158). -/
theorem State.stu_close (s : State) (n : Word) : s.stu.close n s.rpl.frontier s.pos.us =
    ⟨Tally.opened n s.rpl.frontier s.pos.us, some s.closedTally, s.stu.interrupted⟩ := rfl

/-- When no row carries the old id, the order is DONE with the SHIFT record of the tally it closed (R159). -/
theorem issue_takeCloseShift_of_complete (b : Block) (n : Word) (s : State) (h : closeShiftRefusal s n = none)
    (hrows : ∀ r ∈ s.rpl.rows, r.shiftTag ≠ s.stu.current.shiftId) :
    State.issue (takeCloseShift b n s) = State.writeStatus (State.report [.shift s.closedTally s.stu.interrupted]
      { s with stu := ⟨Tally.opened n s.rpl.frontier s.pos.us, none, false⟩ }) ⟨b.addr, b.notify, 2, 0, []⟩ := by
  have hfinish := TallyUnit.finish_of_complete s.rpl.rows (s.stu.close n s.rpl.frontier s.pos.us) s.closedTally rfl hrows
  simp only [takeCloseShift, h, hfinish]
  rfl

/-- While a row carries the old id, the tally waits in closing, and the order in the table (R159). -/
theorem issue_takeCloseShift_of_waiting (b : Block) (n : Word) (s : State) (h : closeShiftRefusal s n = none)
    (hrow : ∃ r ∈ s.rpl.rows, r.shiftTag = s.stu.current.shiftId) :
    State.issue (takeCloseShift b n s) = State.writeStatus
      { s with
        stu := ⟨Tally.opened n s.rpl.frontier s.pos.us, some s.closedTally, s.stu.interrupted⟩
        oru := s.oru.enter b .closeShift } ⟨b.addr, b.notify, 1, 0, [s.oru.nextTake.toNat]⟩ := by
  have hfinish := TallyUnit.finish_of_waiting s.rpl.rows (s.stu.close n s.rpl.frontier s.pos.us) fun t ht => by
    rw [State.stu_close, Option.some_inj] at ht; exact ht ▸ hrow
  simp only [takeCloseShift, h, hfinish]
  rfl

/-- Settles O40: the two refusals, then what becomes of the tally that closes. -/
theorem closeShiftClosesTally : Obligations.CloseShiftClosesTally := by
  intro s b n hp hl hb hx u closed opened
  rw [exec_closeShift_of_order s b n hp hl hb hx]
  have accepted (hc : s.stu.closing = none) (hn : n ≠ s.stu.current.shiftId) : closeShiftRefusal u n = none :=
    (closeShiftRefusal_of_no_closing u n hc).trans (if_neg hn)
  refine ⟨fun hc => ?_, fun hc hn => ?_, fun hc hn hrows => ?_, fun hc hn hrow => ?_⟩
  · rw [issue_takeCloseShift_of_refusal b n _ .shiftBusy (closeShiftRefusal_of_closing u n hc)]
    rfl
  · rw [issue_takeCloseShift_of_refusal b n _ .badValue ((closeShiftRefusal_of_no_closing u n hc).trans (if_pos hn))]
    rfl
  · rw [issue_takeCloseShift_of_complete b n u (accepted hc hn) hrows]
    rfl
  · rw [issue_takeCloseShift_of_waiting b n u (accepted hc hn) hrow]
    rfl

end Sys2Proof.Machine
end

/-! # An attach that enters IDLE (O11) -/

section
-- One declaration after the other: a thread for each exceeds the memory that the check allows.
set_option Elab.async false
namespace Sys2Proof.Machine

/-! ## The checks of the header (R182) -/

/-- A header with the marker, the version, and a page count and size in range passes every check. -/
theorem headerError_eq_none {m : Memory} {base : Addr} (hmarker : m.readWord base = 0x7460C0A5#32)
    (hversion : m.readWord (base + 4#64) = 1#32) (hmin : 1 ≤ (m.readWord (base + 0x18#64)).toNat)
    (hmax : (m.readWord (base + 0x18#64)).toNat ≤ 32)
    (hsize : (m.readWord (base + 0x1C#64)).toNat = 4096 ∨ (m.readWord (base + 0x1C#64)).toNat = 16384) :
    headerError m base = none := by
  have hpages : ¬((m.readWord (base + 0x18#64)).toNat < 1 || (m.readWord (base + 0x18#64)).toNat > 32 ||
      ((m.readWord (base + 0x1C#64)).toNat ≠ 4096 && (m.readWord (base + 0x1C#64)).toNat ≠ 16384)) = true := by
    simp only [Bool.or_eq_true, Bool.and_eq_true, decide_eq_true_eq]
    omega
  exact (if_neg (not_not_intro hmarker)).trans ((if_neg (not_not_intro hversion)).trans (if_neg hpages))

/-! ## What EXU keeps of the header (R182) -/

/-- The base that an attach takes from EXBL and EXBH (R182). -/
def Exchange.newBase (e : Exchange) : Addr := e.exbh ++ e.exbl

/-- The part in IDLE with what EXU keeps of the header (R182). -/
def State.enteredIdle (s : State) : State := { s with
  sts := { s.sts with state := .idle, attachError := .none }
  exu := { ({ s.exu with base := s.exu.newBase } : Exchange).attached s.host with pollTimer := s.pos.us } }

/-- IEN as the attach takes it (R193). -/
theorem Exchange.setIen_eq (v : Bool) (e : Exchange) : e.setIen v = { e with
    ien := v
    messages := e.messages + (if v = true ∧ e.ien = false ∧ e.causes ≠ 0 then 1 else 0) } := by
  simp [Exchange.setIen, bit, and_assoc]

/-- What EXU keeps of a header with the marker, IEN taken as written (R182). -/
theorem Exchange.attached_setIen (v : Bool) (m : Memory) (e : Exchange) (base : Addr)
    (h : m.readWord base = 0x7460C0A5#32) :
    ({ e.setIen v with base := base } : Exchange).attached m = { e with
      base := base
      marker := 0x7460C0A5#32
      stockAddr := m.readAddr (base + 0x10#64) &&& ~~~7#64
      pageCount := (m.readWord (base + 0x18#64)).toNat
      pageSize := (m.readWord (base + 0x1C#64)).toNat
      cursor := none
      pageSeq := 0
      dropDroppable := 0
      dropEssential := 0
      lossReported := false
      lossPending := false
      detachPending := false
      detachDeferred := false
      ien := v
      messages := e.messages + (if v = true ∧ e.ien = false ∧ e.causes ≠ 0 then 1 else 0) } := by
  simp only [Exchange.setIen_eq, Exchange.attached, h, aligned8]

/-! ## The writes of an attach (R181) -/

/-- Host memory with the part id and then the mirror words written (R181). -/
def State.headerWritten (s : State) : Memory :=
  (s.host.writeBytes (s.exu.base + 0x20#64) (leBytes 4 0x7460)).writeBytes (s.exu.base + 0x24#64) s.mirrorBytes

theorem State.writeMirror_partId (s : State) :
    State.writeMirror { s with host := s.host.writeWord (s.exu.base + 0x20#64) partId } =
      { s with host := s.headerWritten } := by
  unfold State.writeMirror State.headerWritten State.mirrorBytes
  rfl

@[simp] theorem State.mirrorBytes_length (s : State) : s.mirrorBytes.length = 60 := by simp [State.mirrorBytes]

/-- The mirror words of a part in IDLE whose chain cursor is at the head (Table 12-2). -/
theorem State.mirrorBytes_of_idle (s : State) (h : s.sts.state = .idle) (hc : s.exu.cursor = none) :
    s.mirrorBytes = leBytes 4 1 ++ leBytes 4 s.pos.p.toNat ++ leBytes 4 s.pos.lastSpeed.toNat ++
      leBytes 4 s.sli.la.toNat ++ leBytes 4 s.fas.yFin.toNat ++ leBytes 4 s.rpl.rows.length ++
      leBytes 4 s.rbm.flaws.length ++ leBytes 4 s.rbm.unseen.length ++ leBytes 4 s.fas.smallDiscarded.toNat ++
      leBytes 8 0 ++ leBytes 4 s.pos.us.toNat ++ leBytes 12 0 := by
  simp [State.mirrorBytes, h, hc, PartState.code]

/-- A write within a range of offsets from a base leaves every byte outside that range. -/
theorem Memory.read_writeBytes_of_range {m : Memory} {base b : Addr} {lo hi : Nat} (h : m.wf)
    (hb : ∀ i, lo ≤ i → i < hi → b ≠ base + BitVec.ofNat 64 i) (off : Nat) (bs : List Byte) (hlo : lo ≤ off)
    (hhi : off + bs.length ≤ hi) : (m.writeBytes (base + BitVec.ofNat 64 off) bs).read b = m.read b :=
  m.read_writeBytes_outside bs _ b h fun i hi' => by
    rw [BitVec.add_assoc, ← BitVec.ofNat_add]; exact hb (off + i) (by omega) (by omega)

/-- An attach writes from 20H to 5FH of the header and nowhere else. -/
theorem State.headerWritten_outside (s : State) (h : s.host.wf) {b : Addr}
    (hb : ∀ i, 0x20 ≤ i → i < 0x60 → b ≠ s.exu.base + BitVec.ofNat 64 i) : s.headerWritten.read b = s.host.read b := by
  unfold State.headerWritten
  rw [Memory.read_writeBytes_of_range (Memory.writeBytes_wf _ _ _ h) hb 0x24 _ (by omega) (by simp),
    Memory.read_writeBytes_of_range h hb 0x20 _ (le_refl _) (by simp)]

/-! ## The closing tally that a reset interrupted (R164) -/

/-- What staging makes of EXU depends on EXU and the microsecond counter alone (R11, R189). -/
theorem State.report_exu_congr (rs : List Report) {s t : State} (he : s.exu = t.exu) (hp : s.pos = t.pos) :
    (s.report rs).exu = (t.report rs).exu := by
  simp only [State.report, he, hp]

theorem State.report_of_stu (rs : List Report) (s : State) (u : TallyUnit) :
    State.report rs { s with stu := u } = { s with stu := u, exu := (s.report rs).exu } := rfl

theorem State.reportInterrupted_of_absent (s : State) (h : s.stu.interrupted = false ∨ s.stu.closing = none) :
    s.reportInterrupted = s := by
  unfold State.reportInterrupted
  rcases h with h | h
  · rw [h]; split <;> rfl
  · rw [h]

theorem State.reportInterrupted_of_interrupted (s : State) (t : Tally) (hi : s.stu.interrupted = true)
    (hc : s.stu.closing = some t) : s.reportInterrupted =
      State.report [.shift t true] { s with stu := { s.stu with closing := none, interrupted := false } } := by
  unfold State.reportInterrupted
  rw [hc]
  exact if_pos hi

/-- The interrupted tally is staged and leaves STU; without one nothing changes, and nothing outside STU and EXU changes
in either case (R164). -/
theorem State.reportInterrupted_spec (s : State) : ∃ (u : TallyUnit) (e : Exchange),
    s.reportInterrupted = { s with stu := u, exu := e } ∧
    (s.stu.interrupted = false ∨ s.stu.closing = none → u = s.stu ∧ e = s.exu) ∧
    (∀ t, s.stu.interrupted = true → s.stu.closing = some t →
      u = { s.stu with closing := none, interrupted := false } ∧ e = (s.report [.shift t true]).exu) := by
  by_cases h : s.stu.interrupted = false ∨ s.stu.closing = none
  · refine ⟨s.stu, s.exu, s.reportInterrupted_of_absent h, fun _ => ⟨rfl, rfl⟩, fun t hi hc => ?_⟩
    simp [hi, hc] at h
  · obtain ⟨hi, hc⟩ := not_or.1 h
    obtain ⟨t, ht⟩ := Option.ne_none_iff_exists'.1 hc
    refine ⟨{ s.stu with closing := none, interrupted := false }, (s.report [.shift t true]).exu,
      (s.reportInterrupted_of_interrupted t (by simpa using hi) ht).trans (State.report_of_stu _ s _),
      fun hn => absurd hn h, fun w _ hw => ?_⟩
    obtain rfl : t = w := Option.some_inj.1 (ht.symm.trans hw)
    exact ⟨rfl, rfl⟩

/-! ## The attach (R180, R182) -/

theorem exec_attach_of_detached (ien : Bool) (host : List HostWrite) (err : AccessError) (s : State)
    (hp : s.pinHeld = false) (hd : s.sts.state = .detached) :
    exec (.attach ien host err) s = .next (((s.hostWrites host).ienWritten ien).attach err) := by
  have hwritten : ((s.hostWrites host).ienWritten ien).attachWritten err =
      ((s.hostWrites host).ienWritten ien).attach err := if_pos hd
  exact (State.taken_free (s.hostWrites host) _ hp).trans (congrArg _ hwritten)

theorem State.attach_of_passed (s : State) (h : headerError s.host s.exu.newBase = none) :
    s.attach .ok = State.reportInterrupted { s.enteredIdle with host := s.enteredIdle.headerWritten } := by
  rw [← State.writeMirror_partId]
  unfold Exchange.newBase at h
  simp only [State.attach, h, reduceCtorEq, if_false]
  rfl

/-- An attach in DETACHED whose header passes every check. -/
theorem exec_attach_of_passed (ien : Bool) (host : List HostWrite) (s idle : State) (hp : s.pinHeld = false)
    (hd : s.sts.state = .detached) (h : headerError (s.host.hostWrites host) s.exu.newBase = none)
    (hidle : ((s.hostWrites host).ienWritten ien).enteredIdle = idle) :
    exec (.attach ien host .ok) s = .next (State.reportInterrupted { idle with host := idle.headerWritten }) := by
  rw [exec_attach_of_detached ien host .ok s hp hd,
    State.attach_of_passed ((s.hostWrites host).ienWritten ien) h, hidle]

/-- Settles O11: the checks pass, the part enters IDLE, and STU's interrupted tally goes. -/
theorem attachEntersIdle : Obligations.AttachEntersIdle := by
  intro ien host s hp hd m base mirror kept hmarker hversion hmin hmax hsize
  let idle : State := { s with sts := { s.sts with state := .idle, attachError := .none }, exu := kept, host := m }
  have hidle : ((s.hostWrites host).ienWritten ien).enteredIdle = idle := by
    have hexu := Exchange.attached_setIen ien m s.exu base hmarker
    exact congrArg (fun e : Exchange => { idle with exu := { e with pollTimer := s.pos.us } }) hexu
  have hattach := exec_attach_of_passed ien host s idle hp hd (headerError_eq_none hmarker hversion hmin hmax hsize)
    hidle
  have hmirror : idle.mirrorBytes = mirror := idle.mirrorBytes_of_idle rfl rfl
  have hhost : idle.headerWritten =
      (m.writeBytes (base + 0x20#64) (leBytes 4 0x7460)).writeBytes (base + 0x24#64) mirror := by
    rw [State.headerWritten, hmirror]
  have houtside : m.wf → ∀ a : Addr, (∀ i, 0x20 ≤ i → i < 0x60 → a ≠ base + BitVec.ofNat 64 i) →
      idle.headerWritten.read a = m.read a := fun hwf _ ha => idle.headerWritten_outside hwf ha
  -- The memory stays a variable from here, so that no write of it is carried out.
  generalize idle.headerWritten = written at hattach hhost houtside
  obtain ⟨u, e, heq, hplain, hint⟩ := State.reportInterrupted_spec { idle with host := written }
  rw [heq] at hattach
  refine ⟨{ idle with host := written, stu := u, exu := e }, hattach, rfl, hhost,
    hplain, fun t hi hc => ?_, rfl, rfl, rfl, rfl, rfl, rfl, rfl, rfl, rfl, rfl, hp, rfl, houtside⟩
  obtain ⟨hstu, hexu⟩ := hint t hi hc
  exact ⟨hstu, hexu.trans (State.report_exu_congr _ rfl rfl)⟩

end Sys2Proof.Machine
end

/-! # The part state, the queue of commands, and FAULT (O3, O54, O55) -/

section
-- One declaration after the other: a thread for each exceeds the memory that the check allows.
set_option Elab.async false
namespace Sys2Proof.Machine

/-! ## What an event may do to the queue, the part state and a part in FAULT -/

/-- An event that leaves the queue of commands and the part state as they are. -/
structure State.Stays (s t : State) : Prop where
  pending : t.pending = s.pending := by simp
  state : t.sts.state = s.sts.state := by simp

/-- What may change in FAULT: of POS all but the triggers, of EXU its registers, and what lies outside the part
(R175). -/
structure State.Frozen (s t : State) : Prop where
  blocks : { t with pos := s.pos, exu := s.exu, inputs := s.inputs, pinHeld := s.pinHeld } = s := by rfl
  lt : t.pos.lt = s.pos.lt := by rfl
  ltrigCount : t.pos.ltrigCount = s.pos.ltrigCount := by rfl
  staging : t.exu.staging = s.exu.staging := by rfl
  filling : t.exu.filling = s.exu.filling := by rfl
  cursor : t.exu.cursor = s.exu.cursor := by rfl

/-- An event of one block: it leaves the queue and the part state, and in FAULT everything that is frozen (R175). -/
structure State.Steady (s t : State) : Prop extends s.Stays t where
  fault : s.sts.state = .fault → s.Frozen t

theorem State.Stays.refl (s : State) : s.Stays s where

theorem State.Stays.trans {s t u : State} (h : s.Stays t) (k : t.Stays u) : s.Stays u :=
  ⟨k.pending.trans h.pending, k.state.trans h.state⟩

theorem State.Stays.issue {s : State} {e : State × List StatusWrite} (h : s.Stays e.1) : s.Stays (State.issue e) :=
  h.trans (t := e.1) { pending := by simp [State.issue], state := by simp [State.issue] }

theorem State.Frozen.refl (s : State) : s.Frozen s where

theorem PartState.live_of_run {a : PartState} (h : a.run = true) : a.live = true := by
  revert h; cases a <;> decide

/-- An event that an attached part takes, and a part in FAULT does not (R165, R175). -/
theorem State.Stays.steady {s t : State} (h : s.Stays t) (hlive : s.sts.state.live = true) : s.Steady t :=
  ⟨h, fun hfault => by rw [hfault] at hlive; cases hlive⟩

/-- An event of a run. -/
theorem State.Stays.steady_of_run {s t : State} (h : s.Stays t) (hrun : s.sts.state.run = true) : s.Steady t :=
  h.steady (PartState.live_of_run hrun)

theorem State.Frozen.steady {s t : State} (h : s.Frozen t) : s.Steady t where
  pending := (congrArg State.pending h.blocks :)
  state := (congrArg (fun u : State => u.sts.state) h.blocks :)
  fault := fun _ => h

theorem State.Steady.refl (s : State) : s.Steady s := (State.Frozen.refl s).steady

theorem State.Frozen.trans {s t u : State} (h : s.Frozen t) (k : t.Frozen u) : s.Frozen u where
  blocks := (congrArg (fun x : State => { x with pos := s.pos, exu := s.exu, inputs := s.inputs, pinHeld := s.pinHeld })
    k.blocks).trans h.blocks
  lt := k.lt.trans h.lt
  ltrigCount := k.ltrigCount.trans h.ltrigCount
  staging := k.staging.trans h.staging
  filling := k.filling.trans h.filling
  cursor := k.cursor.trans h.cursor

theorem State.Steady.trans {s t u : State} (h : s.Steady t) (k : t.Steady u) : s.Steady u where
  toStays := h.toStays.trans k.toStays
  fault := fun hs => (h.fault hs).trans (k.fault (h.state.trans hs))

/-! ## POS -/

theorem Position.forward_lt (scale : Word) (pos : Position) :
    (pos.forward scale).lt = pos.lt ∧ (pos.forward scale).ltrigCount = pos.ltrigCount := by
  unfold Position.forward
  split <;> exact ⟨rfl, rfl⟩

theorem forwardCount_frozen (s : State) : s.Frozen (forwardCount s) := by
  cases hs : s.setup with
  | none => rw [forwardCount_of_none s hs]; exact .refl s
  | some c =>
    rw [forwardCount_of_some s c hs]
    exact { lt := (s.pos.forward_lt c.scale).1, ltrigCount := (s.pos.forward_lt c.scale).2 }

theorem reverseCount_steady (s : State) : s.Steady (reverseCount s) := by
  unfold reverseCount
  split
  · exact .refl s
  · split
    · exact State.Frozen.steady {}
    · split
      · rename_i h
        exact State.Stays.steady {} (Bool.and_eq_true_iff.1 h).1
      · exact .refl s

theorem State.triggersRun_run (s : State) (h : s.triggersRun = true) : s.sts.state.run = true := by
  rcases s.triggersRun_iff.1 h with hr | ⟨hd, _⟩
  · rw [hr]; rfl
  · rw [hd]; rfl

theorem lineTrigger_steady (s : State) : s.Steady (lineTrigger s) := by
  unfold lineTrigger
  split
  · exact .refl s
  · split
    · rename_i h
      exact State.Stays.steady_of_run {} (s.triggersRun_run (Bool.and_eq_true_iff.1 h).1)
    · exact .refl s

/-- The overspeed test stages its notice in an attached part only (R13). -/
theorem overspeedTest_spec (s : State) :
    (overspeedTest s).pending = s.pending ∧ (overspeedTest s).sts = s.sts ∧
      (s.sts.state.live = false → ∃ b, overspeedTest s = { s with pos := { s.pos with overLimit := b } }) := by
  rcases Option.eq_none_or_eq_some s.setup with hs | ⟨c, hs⟩
  · have hsame : overspeedTest s = s := by unfold overspeedTest; rw [hs]
    exact ⟨by rw [hsame], by rw [hsame], fun _ => ⟨s.pos.overLimit, hsame⟩⟩
  · have htest := overspeedTest_of_some s c hs
    refine ⟨by rw [htest]; rfl, by rw [htest]; rfl, fun hlive => ⟨decide (c.maxSpeed < s.pos.lastSpeed.toNat), ?_⟩⟩
    rw [htest, if_neg (by simp [hlive])]
    rfl

theorem speedWindowEnd_steady (s : State) : s.Steady (speedWindowEnd s) := by
  unfold speedWindowEnd
  split
  · obtain ⟨hpending, hsts, hfault⟩ := overspeedTest_spec { s with pos := s.pos.endWindow }
    refine ⟨⟨?_, ?_⟩, fun hs => ?_⟩
    · rw [handSpeed_eq]; exact hpending
    · rw [handSpeed_eq]; exact congrArg Status.state hsts
    · obtain ⟨_, heq⟩ := hfault (by simp [hs, PartState.live])
      have hnorun : s.sts.state.run = false := by simp [hs, PartState.run]
      rw [heq, handSpeed, if_neg (by simp [hnorun])]
      exact {}
  · exact .refl s

/-! ## SLI, FAS and RBM -/

theorem channelFault_steady (k : Nat) (why : ChanFault) (s : State) : s.Steady (channelFault k why s) := by
  by_cases h : s.sts.state.live = true ∧ (s.sli.chan k).state.takesWords = true
  · rw [channelFault_of_takes k why s h]
    exact State.Stays.steady {} h.1
  · rw [channelFault_of_not_takes k why s h]
    exact .refl s

theorem headStatus_steady (k : Nat) (code : Byte) (s : State) : s.Steady (headStatus k code s) := by
  unfold headStatus
  split
  · exact .refl s
  · exact channelFault_steady k _ s

theorem queueWord_steady (k : Nat) (w : ScanWord) (s : State) : s.Steady (queueWord k w s) := by
  unfold queueWord
  dsimp only
  split
  · rename_i h
    exact State.Stays.steady_of_run {} (Bool.and_eq_true_iff.1 h).1
  · exact .refl s

theorem scanWord_steady (k : Nat) (w : ScanWord) (s : State) : s.Steady (scanWord k w s) := by
  unfold scanWord
  split
  · exact headStatus_steady k _ s
  · exact queueWord_steady k _ s

theorem State.assembled_stays (c : Setup) (s : State) : s.Stays (s.assembled c).1 where

theorem lineAssembly_steady (s : State) : s.Steady (lineAssembly s) := by
  unfold lineAssembly
  split
  · exact .refl s
  · rename_i c _
    split
    · rename_i h
      exact (s.assembled_stays c).issue.steady_of_run (s.gateReady_run c h)
    · exact .refl s

/-! ## GRD, RPL, CGC and STU -/

theorem gradingEvent_steady (s : State) : s.Steady (gradingEvent s) := by
  unfold gradingEvent
  split
  · exact .refl s
  · split
    · rename_i h
      exact State.Stays.steady_of_run {} (Bool.and_eq_true_iff.1 h).1
    · exact .refl s

theorem placement_steady (s : State) : s.Steady (placement s) := by
  unfold placement
  split
  · exact .refl s
  · rename_i c _
    split
    · rename_i h
      simp only [State.placementDue, Bool.and_eq_true, decide_eq_true_eq] at h
      exact State.Stays.steady_of_run {} (by rw [h.1.1]; rfl)
    · exact .refl s

theorem State.strobe_stays (c : Setup) (a : ArmedCut) (s : State) : s.Stays (s.strobe c a) := by
  unfold State.strobe
  split
  · exact {}
  · split
    · exact {}
    · exact {}

theorem cutStrobe_steady (s : State) : s.Steady (cutStrobe s) := by
  unfold cutStrobe
  split
  · rename_i c a rest _ _
    split
    · rename_i h
      have hstrobe := State.strobe_stays c a { s with cgc := { s.cgc with armed := rest } }
      exact State.Stays.steady_of_run ⟨hstrobe.pending, hstrobe.state⟩ (Bool.and_eq_true_iff.1 h).1
    · exact .refl s
  · exact .refl s

theorem cdone_steady (s : State) : s.Steady (cdone s) := by
  unfold cdone
  split
  · rename_i hlive
    split
    · exact State.Stays.steady {} hlive
    · exact State.Stays.steady {} hlive
  · exact .refl s

theorem confirmWindowExpiry_steady (s : State) : s.Steady (confirmWindowExpiry s) := by
  unfold confirmWindowExpiry
  split
  · split
    · rename_i h
      exact State.Stays.steady_of_run {} (Bool.and_eq_true_iff.1 h).1
    · exact .refl s
  · exact .refl s

theorem gateEvent_steady (s : State) : s.Steady (gateEvent s) := by
  unfold gateEvent
  split
  · split
    · rename_i h
      exact State.Stays.steady_of_run {} (Bool.and_eq_true_iff.1 h).1
    · exact .refl s
  · exact .refl s

theorem State.retire_stays (c : Setup) (r : Row) (rest : List Row) (s : State) : s.Stays (s.retire c r rest).1 where

theorem rowRetirement_steady (s : State) : s.Steady (rowRetirement s) := by
  unfold rowRetirement
  split
  · rename_i c r rest _ _
    split
    · rename_i h
      exact (s.retire_stays c r rest).issue.steady_of_run (Bool.and_eq_true_iff.1 h).1
    · exact .refl s
  · exact .refl s

/-! ## EXU: pages and registers -/

theorem State.closePage_stays (s : State) : s.Stays s.closePage where

theorem State.writeRecord_stays (p : FillingPage) (r : Staged) (rest : List Staged) (s : State) :
    s.Stays (s.writeRecord p r rest) := by
  unfold State.writeRecord
  split
  · dsimp only
    split
    · exact {}
    · exact {}
  · exact s.closePage_stays

theorem pageRecordWrite_steady (s : State) : s.Steady (pageRecordWrite s) := by
  unfold pageRecordWrite
  split
  · rename_i p r rest _ _
    split
    · rename_i hlive; exact (s.writeRecord_stays p r rest).steady hlive
    · exact .refl s
  · exact .refl s

theorem State.pageFlushDue_live (s : State) (h : s.pageFlushDue = true) : s.sts.state.live = true := by
  unfold State.pageFlushDue at h
  split at h
  · exact (Bool.and_eq_true_iff.1 h).1
  · cases h

theorem pageFlush_steady (s : State) : s.Steady (pageFlush s) := by
  unfold pageFlush
  split
  · rename_i h; exact s.closePage_stays.steady (s.pageFlushDue_live h)
  · exact .refl s

theorem State.ienWritten_frozen (v : Bool) (s : State) : s.Frozen (s.ienWritten v) where

theorem excause_frozen (v : Word) (s : State) : s.Frozen (excause v s) where

theorem expoll_frozen (v : Word) (s : State) : s.Frozen (expoll v s) where

theorem exbl_frozen (v : Word) (s : State) : s.Frozen (exbl v s) := by
  unfold exbl
  split
  · exact {}
  · exact .refl s

theorem exbh_frozen (v : Word) (s : State) : s.Frozen (exbh v s) := by
  unfold exbh
  split
  · exact {}
  · exact .refl s

end Sys2Proof.Machine
end

section
-- One declaration after the other: a thread for each exceeds the memory that the check allows.
set_option Elab.async false
namespace Sys2Proof.Machine

/-! ## The events that move the part (R165, Table 10-7) -/

/-- ATTACH written 0: from IDLE to DETACHED at once, and nothing else at once (R180, R183). -/
theorem State.detachWritten_cases (s : State) :
    (s.sts.state = .idle ∧ s.detachWritten.pending = s.pending ∧ s.detachWritten.sts.state = .detached) ∨
    s.Steady s.detachWritten := by
  unfold State.detachWritten
  split
  · rename_i hidle
    have hlive : s.sts.state.live = true := by rw [hidle]; rfl
    split
    · exact .inr (State.Stays.steady {} hlive)
    · exact .inl ⟨hidle, by simp, by simp [s.doDetach_spec.1]⟩
  · rename_i h; exact .inr (State.Stays.steady {} (by rw [h]; rfl))
  · rename_i h; exact .inr (State.Stays.steady {} (by rw [h]; rfl))
  · exact .inr (.refl s)
  · exact .inr (.refl s)

/-- A detach that waited: from IDLE to DETACHED (R183). -/
theorem deferredDetach_cases (s : State) :
    (s.sts.state = .idle ∧ (deferredDetach s).pending = s.pending ∧ (deferredDetach s).sts.state = .detached) ∨
    s.Steady (deferredDetach s) := by
  unfold deferredDetach
  split
  · split
    · rename_i hidle; exact .inl ⟨hidle, by simp, by simp [s.doDetach_spec.1]⟩
    · rename_i h; exact .inr (State.Stays.steady {} (by rw [h]; rfl))
    · rename_i h; exact .inr (State.Stays.steady {} (by rw [h]; rfl))
    · exact .inr (.refl s)
    · exact .inr (.refl s)
  · exact .inr (.refl s)

theorem State.reportInterrupted_stays (s : State) : s.Stays s.reportInterrupted := by
  unfold State.reportInterrupted
  split
  · split
    · exact {}
    · exact .refl s
  · exact .refl s

/-- An attach: the part stays as it is where a check or an access fails, and is IDLE where all pass (R182). -/
theorem State.attach_cases (err : AccessError) (s : State) :
    (s.attach err).pending = s.pending ∧
      ((s.attach err).sts.state = s.sts.state ∨ err = .ok ∧ (s.attach err).sts.state = .idle) := by
  unfold State.attach
  dsimp only
  split
  · exact ⟨rfl, .inl rfl⟩
  · split
    · exact ⟨rfl, .inl rfl⟩
    · split
      · exact ⟨rfl, .inl rfl⟩
      · have hstays := State.reportInterrupted_stays (State.writeMirror { s with
          sts := { s.sts with state := .idle, attachError := .none }
          exu := { Exchange.attached s.host { s.exu with base := s.exu.exbh ++ s.exu.exbl } with pollTimer := s.pos.us }
          host := s.host.writeWord ((s.exu.exbh ++ s.exu.exbl) + 0x20#64) partId })
        refine ⟨hstays.pending, .inr ⟨?_, hstays.state⟩⟩
        cases err
        · rfl
        · contradiction
        · contradiction

/-- ATTACH written 1: from DETACHED to IDLE, and nothing else but detach pending (R180). -/
theorem State.attachWritten_cases (err : AccessError) (s : State) :
    (s.sts.state = .detached ∧ err = .ok ∧ (s.attachWritten err).pending = s.pending ∧
      (s.attachWritten err).sts.state = .idle) ∨
    s.Steady (s.attachWritten err) := by
  unfold State.attachWritten
  split
  · rename_i h
    obtain ⟨hpending, hstate⟩ := s.attach_cases err
    rcases hstate with hstate | ⟨herr, hstate⟩
    · exact .inr ⟨⟨hpending, hstate⟩, fun hfault => by rw [h] at hfault; cases hfault⟩
    · exact .inl ⟨h, herr, hpending, hstate⟩
  · exact .inr (State.Frozen.steady {})

/-- FAULT is entered from an attached part (R174). -/
theorem State.enterFault_state (k : FaultCause) (s : State) (h : s.sts.state.live = true) :
    (s.enterFault k).sts.state = .fault := by
  unfold State.enterFault
  rw [if_pos h]

theorem State.finishPoll_stays (s : State) : s.Stays s.finishPoll where

theorem State.chainStep_stays (s : State) : s.Stays s.chainStep := by
  unfold State.chainStep
  split
  · split
    · exact {}
    · exact {}
  · exact s.finishPoll_stays

/-- A poll enters FAULT where it finds another marker, and moves the part nowhere else (R184, R185). -/
theorem poll_cases (s : State) :
    (s.sts.state.live = true ∧ (poll s).pending = s.pending ∧ (poll s).sts.state = .fault) ∨ s.Steady (poll s) := by
  unfold poll
  split
  · rename_i hlive
    split
    · split
      · unfold State.beginPoll
        dsimp only
        split
        · exact .inl ⟨hlive, by simp, State.enterFault_state _ _ hlive⟩
        · have hchain := State.chainStep_stays { s with exu := { s.exu with pollTimer := s.pos.us } }
          exact .inr (State.Stays.steady ⟨hchain.pending, hchain.state⟩ hlive)
      · exact .inr (.refl s)
    · exact .inr (.refl s)
    · exact .inr (s.finishPoll_stays.steady hlive)
  · exact .inr (.refl s)

/-- The end of a drain: from DRAINING to IDLE, or to DETACHED where a detach is pending (R173). -/
theorem endOfDrain_cases (s : State) :
    (s.sts.state = .draining ∧ (endOfDrain s).pending = s.pending ∧
      ((endOfDrain s).sts.state = .idle ∨ (endOfDrain s).sts.state = .detached)) ∨ endOfDrain s = s := by
  unfold endOfDrain
  split
  · rename_i h
    simp only [State.drainOver, Bool.and_eq_true, decide_eq_true_eq] at h
    unfold State.pendingDetach
    split
    · exact .inl ⟨h.1, by simp [State.issue, State.endDrain], .inr (by simp [State.doDetach_spec])⟩
    · exact .inl ⟨h.1, by simp [State.issue, State.endDrain], .inl (by simp [State.issue, State.endDrain])⟩
  · exact .inr rfl

/-! ## Orders -/

/-- The taking of an order moves the part as its act does (R165, R185). -/
theorem State.takeOrder_moves {α : Type} (pick : OrderBody → Option α)
    (act : Block → α → State → State × List StatusWrite) (s : State) :
    (∃ b x, s.sts.state.live = true ∧ (act b x (s.cursorTo b)).1.Stays (s.takeOrder pick act)) ∨
      s.takeOrder pick act = s := by
  rcases s.takeOrder_cases pick act with ⟨b, x, _, hlive, _, heq⟩ | heq
  · rw [heq]; exact .inl ⟨b, x, hlive, (State.Stays.refl _).issue⟩
  · exact .inr heq

theorem State.takeOrder_steady {α : Type} (pick : OrderBody → Option α)
    (act : Block → α → State → State × List StatusWrite) (s : State) (h : ∀ b x t, State.Stays t (act b x t).1) :
    s.Steady (s.takeOrder pick act) := by
  rcases s.takeOrder_moves pick act with ⟨b, x, hlive, hact⟩ | heq
  · have hcursor : s.Stays (s.cursorTo b) := {}
    exact ((hcursor.trans (h b x _)).trans hact).steady hlive
  · rw [heq]; exact .refl s

section
variable (b : Block) (s : State)

theorem takeSetup_stays (x : SetupBody) : s.Stays (takeSetup b x s).1 := by
  unfold takeSetup
  split
  · exact .refl s
  · exact {}

theorem takeCut_stays (x : CutBody) : s.Stays (takeCut b x s).1 := by
  unfold takeCut
  split
  · exact .refl s
  · exact .refl s
  · exact {}

theorem takeCancel_stays (target : Word) : s.Stays (takeCancel b target s).1 := by
  unfold takeCancel
  split
  · exact .refl s
  · exact {}

theorem takeDisable_stays (disable : BitVec 16) : s.Stays (takeDisable b disable s).1 := by
  unfold takeDisable
  split
  · exact .refl s
  · split
    · exact {}
    · exact {}

theorem takeChannel_stays (enable disable : BitVec 16) : s.Stays (takeChannel b enable disable s).1 := by
  unfold takeChannel
  split
  · exact .refl s
  · dsimp only
    generalize enableFrom _ _ _ _ _ _ = on
    have hon : s.Stays (State.report on.2 { s with sli := { s.sli with chans := on.1 } }) := {}
    exact hon.trans (takeDisable_stays b _ disable)

theorem takeLoadMask_stays (es : List MaskSpec) : s.Stays (takeLoadMask b es s).1 := by
  unfold takeLoadMask
  split
  · exact .refl s
  · exact {}

theorem takeLoadClasses_stays (es : List ClassEntry) : s.Stays (takeLoadClasses b es s).1 := by
  unfold takeLoadClasses
  split
  · exact .refl s
  · exact {}

theorem takeLoadSpec_stays (id : Nat) (q : Spec) : s.Stays (takeLoadSpec b id q s).1 := by
  unfold takeLoadSpec
  split
  · exact .refl s
  · exact {}

theorem takeCloseShift_stays (newId : Word) : s.Stays (takeCloseShift b newId s).1 := by
  unfold takeCloseShift
  split
  · exact .refl s
  · dsimp only
    split
    · exact {}
    · exact {}

/-- START moves the part from IDLE to RUNNING (R170). -/
theorem takeStart_cases : s.Stays (takeStart b s).1 ∨
    (s.sts.state = .idle ∧ (takeStart b s).1.pending = s.pending ∧ (takeStart b s).1.sts.state = .running) := by
  unfold takeStart
  split
  · exact .inl (.refl s)
  · rename_i hidle
    split
    · exact .inl (.refl s)
    · exact .inr ⟨of_not_not hidle, rfl, rfl⟩

/-- STOP moves the part from RUNNING to DRAINING, or to IDLE where nothing is left to drain (R171). -/
theorem takeStop_cases : s.Stays (takeStop b s).1 ∨
    (s.sts.state = .running ∧ (takeStop b s).1.pending = s.pending ∧
      ((takeStop b s).1.sts.state = .draining ∨ (takeStop b s).1.sts.state = .idle)) := by
  unfold takeStop
  split
  · exact .inl (.refl s)
  · rename_i hrun
    dsimp only
    split
    · exact .inr ⟨of_not_not hrun, rfl, .inr rfl⟩
    · exact .inr ⟨of_not_not hrun, rfl, .inl rfl⟩

end

end Sys2Proof.Machine
end

/-! # Events cut short by a bus error (R174, R178) -/

section
-- One declaration after the other: a thread for each exceeds the memory that the check allows.
set_option Elab.async false
namespace Sys2Proof.Machine

/-! ## What stands of an event cut short -/

/-- What an event cut short by a bus error changes at most: the blocks that its statuses are about, EXU and host memory,
and of the part state that a drain has ended (R173, R174). -/
structure State.CutShort (s t : State) : Prop where
  frame : { t with sts := s.sts, sli := s.sli, fas := s.fas, rbm := s.rbm, oru := s.oru, rpl := s.rpl, stu := s.stu
                   exu := s.exu, host := s.host } = s := by rfl
  sts : t.sts = s.sts ∨ (s.sts.state = .draining ∧ t.sts = { s.sts with state := .idle }) := by exact .inl rfl

theorem State.CutShort.refl (s : State) : s.CutShort s where

theorem State.CutShort.trans {s t u : State} (h : s.CutShort t) (k : t.CutShort u) : s.CutShort u where
  frame := (congrArg (fun x : State => { x with
      sts := s.sts, sli := s.sli, fas := s.fas, rbm := s.rbm, oru := s.oru, rpl := s.rpl, stu := s.stu
      exu := s.exu, host := s.host }) k.frame).trans h.frame
  sts := by
    rcases h.sts with hs | ⟨hs, ht⟩
    · rw [← hs]; exact k.sts
    · rcases k.sts with hu | ⟨hdrain, _⟩
      · exact .inr ⟨hs, hu.trans ht⟩
      · rw [ht] at hdrain; cases hdrain

theorem State.attempt_cutShort (n : Nat) (ops : List PortOp) (s : State) : s.CutShort (s.attempt n ops).1 where
  frame := (congrArg (fun x : State => { x with
      sts := s.sts, sli := s.sli, fas := s.fas, rbm := s.rbm, oru := s.oru, rpl := s.rpl, stu := s.stu
      exu := s.exu, host := s.host }) (State.attempt_spec n ops s).1 :)
  sts := .inl (congrArg State.sts (State.attempt_spec n ops s).1 :)

theorem State.cutAt_eq_some {n : Nat} {ops : List PortOp} {s t : State} (h : s.cutAt n ops = some t) :
    s.attempt n ops = (t, none) := by
  unfold State.cutAt at h
  split at h
  · rename_i heq; cases h; exact heq
  · cases h

theorem State.cutAt_cutShort {n : Nat} {ops : List PortOp} {s t : State} (h : s.cutAt n ops = some t) :
    s.CutShort t := by
  have hcut := s.attempt_cutShort n ops
  rwa [State.cutAt_eq_some h] at hcut

theorem State.cutClose_cutShort {n : Nat} {s t : State} (h : s.cutClose n = some t) : s.CutShort t := by
  unfold State.cutClose at h
  split at h
  · cases h
  · exact State.cutAt_cutShort h

/-- Within accesses, or in what follows them. -/
theorem State.CutShort.of_attempt {s t : State} {n : Nat} {ops : List PortOp} {next : State → Nat → Option State}
    (h : (match s.attempt n ops with
      | (u, none) => some u
      | (u, some k) => next u k) = some t)
    (hnext : ∀ u k, next u k = some t → u.CutShort t) : s.CutShort t := by
  have hcut := s.attempt_cutShort n ops
  split at h
  · rename_i heq; cases h; rwa [heq] at hcut
  · rename_i heq; rw [heq] at hcut; exact hcut.trans (hnext _ _ h)

theorem State.cutRecord_cutShort {n : Nat} {s t : State} (h : s.cutRecord n = some t) : s.CutShort t := by
  unfold State.cutRecord at h
  split at h
  · rename_i p r rest _ _
    split at h
    · split at h
      · refine .of_attempt h fun u k hk => ?_
        split at hk
        · exact State.CutShort.trans (t := u.recordWritten p r rest) {} (State.cutClose_cutShort hk)
        · cases hk
      · exact State.cutClose_cutShort h
    · cases h
  · cases h

theorem State.cutChain_cutShort {n : Nat} {s t : State} (h : s.cutChain n = some t) : s.CutShort t := by
  unfold State.cutChain at h
  split at h
  · split at h
    · cases h
    · refine .of_attempt h fun u k hk => ?_
      have hcursor : u.CutShort { u with exu := { u.exu with cursor := some (aligned8 s.nextLink) } } := {}
      exact hcursor.trans (State.cutAt_cutShort hk)
  · exact State.cutAt_cutShort h

theorem State.cutPoll_cutShort {n : Nat} {s t : State} (h : s.cutPoll n = some t) : s.CutShort t := by
  have htimer : s.CutShort { s with exu := { s.exu with pollTimer := s.pos.us } } := {}
  unfold State.cutPoll at h
  split at h
  · split at h
    · split at h
      · unfold State.cutBegin at h
        dsimp only at h
        split at h
        · cases h; exact htimer
        · split at h
          · cases h
          · exact htimer.trans (State.cutChain_cutShort h)
      · cases h
    · cases h
    · exact State.cutAt_cutShort h
  · cases h

theorem State.cutOrder_cutShort {α : Type} {pick : OrderBody → Option α}
    {act : Block → α → State → State × List StatusWrite} {n : Nat} {s t : State}
    (h : s.cutOrder pick act n = some t) : s.CutShort t := by
  unfold State.cutOrder at h
  split at h
  · split at h
    · split at h
      · exact State.cutAt_cutShort h
      · cases h
    · cases h
  · cases h

theorem State.cutAssembly_cutShort {n : Nat} {s t : State} (h : s.cutAssembly n = some t) : s.CutShort t := by
  unfold State.cutAssembly at h
  split at h
  · cases h
  · rename_i c _
    split at h
    · exact State.CutShort.trans (t := (s.assembled c).1) {} (State.cutAt_cutShort h)
    · cases h

theorem State.cutRetirement_cutShort {n : Nat} {s t : State} (h : s.cutRetirement n = some t) : s.CutShort t := by
  unfold State.cutRetirement at h
  split at h
  · rename_i c r rest _ _
    split at h
    · exact State.CutShort.trans (t := (s.retire c r rest).1) {} (State.cutAt_cutShort h)
    · cases h
  · cases h

/-- Within the end of a drain the drain has ended (R173). -/
theorem State.cutDrain_cutShort {n : Nat} {s t : State} (h : s.cutDrain n = some t) : s.CutShort t := by
  unfold State.cutDrain at h
  split at h
  · rename_i hover
    simp only [State.drainOver, Bool.and_eq_true, decide_eq_true_eq] at hover
    have hended : s.CutShort s.endDrain.1 := { sts := .inr ⟨hover.1, rfl⟩ }
    refine hended.trans (.of_attempt h fun u k hk => ?_)
    split at hk
    · exact State.cutClose_cutShort hk
    · cases hk
  · cases h

theorem State.cutDetach_cutShort {ien : Bool} {n : Nat} {s t : State} (h : s.cutDetach ien n = some t) :
    s.CutShort t := by
  unfold State.cutDetach at h
  split at h
  · exact State.CutShort.trans (t := s.ienWritten ien) {} (State.cutClose_cutShort h)
  · cases h

theorem State.cutEvent_cutShort {c : Instr} {n : Nat} {s t : State} (h : s.cutEvent c n = some t) : s.CutShort t := by
  unfold State.cutEvent at h
  cases c with
  | poll _ => exact State.cutPoll_cutShort h
  | setup | start | stop | cut | cancel | channel | loadMask | loadClasses | loadSpec | closeShift =>
    exact State.cutOrder_cutShort h
  | lineAssembly => exact State.cutAssembly_cutShort h
  | rowRetirement => exact State.cutRetirement_cutShort h
  | endOfDrain => exact State.cutDrain_cutShort h
  | pageRecordWrite => exact State.cutRecord_cutShort h
  | pageFlush =>
    simp only [State.cutFlush] at h
    split at h
    · exact State.cutClose_cutShort h
    · cases h
  | detach ien => exact State.cutDetach_cutShort h
  | registerWrite off v =>
    simp only [State.cutWindow] at h
    split at h
    · exact State.cutDetach_cutShort h
    · cases h
  | deferredDetach =>
    simp only [State.cutDeferred] at h
    split at h
    · exact State.cutClose_cutShort h
    · cases h
  | _ => cases h

/-- The state in which an access fails, but for the free value that an event cut short takes (log 8). -/
theorem State.failing_cutShort (s : State) :
    s.CutShort { s.failing with free := s.free } ∧ (s.failing.free = s.free ∨ s.failing.free = s.free + 1) := by
  unfold State.failing
  split
  · exact ⟨.refl s, .inl rfl⟩
  · split
    · rename_i t h
      have hcut := State.cutEvent_cutShort h
      have hfree : t.free = s.free := (congrArg State.free hcut.frame :)
      exact ⟨⟨by rw [← hfree]; exact hcut.frame, hcut.sts⟩, .inr rfl⟩
    · exact ⟨.refl s, .inl rfl⟩

/-- A bus error moves an attached part to FAULT, and does nothing in DETACHED and FAULT (R174). -/
theorem busError_cases (s : State) :
    (s.sts.state.live = true ∧ (busError s).pending = s.pending ∧ (busError s).sts.state = .fault) ∨
      busError s = s := by
  cases hlive : s.sts.state.live with
  | false =>
    refine .inr ?_
    unfold busError State.enterFault
    rw [s.failing_of_not_live hlive, if_neg (by simp [hlive])]
  | true =>
    have hcut := s.failing_cutShort.1
    have hpending : s.failing.pending = s.pending := (congrArg State.pending hcut.frame :)
    have hfailing : s.failing.sts.state.live = true := by
      rcases hcut.sts with h | ⟨_, h⟩
      · exact (congrArg (fun x : Status => x.state.live) h).trans hlive
      · exact (congrArg (fun x : Status => x.state.live) h :)
    refine .inl ⟨rfl, ?_, State.enterFault_state _ _ hfailing⟩
    rw [busError, State.enterFault_pending, hpending]

end Sys2Proof.Machine
end

/-! # The whole machine (O3, O54, O55) -/

section
-- One declaration after the other: a thread for each exceeds the memory that the check allows.
set_option Elab.async false
namespace Sys2Proof.Machine

/-! ## Every command -/

/-! The rows of Table 10-7, each a move that `stateMove` allows. -/

theorem stateMove_of_reset {c : Instr} {a b : PartState} (hc : isReset c = true) (hb : b = .detached) :
    stateMove c a b := .inr (.inl ⟨hc, hb⟩)

theorem stateMove_of_attach {c : Instr} {a b : PartState} (ha : a = .detached) (hb : b = .idle)
    (hc : (∃ ien host, c = .attach ien host .ok) ∨ ∃ v, c = .registerWrite 8 v) : stateMove c a b :=
  .inr (.inr (.inl ⟨ha, hb, hc⟩))

theorem stateMove_of_detach {c : Instr} {a b : PartState} (ha : a = .idle) (hb : b = .detached)
    (hc : (∃ ien, c = .detach ien) ∨ c = .deferredDetach ∨ ∃ v, c = .registerWrite 8 v) : stateMove c a b :=
  .inr (.inr (.inr (.inl ⟨ha, hb, hc⟩)))

theorem stateMove_of_start {a b : PartState} (ha : a = .idle) (hb : b = .running) : stateMove .start a b :=
  .inr (.inr (.inr (.inr (.inl ⟨ha, hb, rfl⟩))))

theorem stateMove_of_stop {a b : PartState} (ha : a = .running) (hb : b = .draining ∨ b = .idle) :
    stateMove .stop a b := .inr (.inr (.inr (.inr (.inr (.inl ⟨ha, hb, rfl⟩)))))

theorem stateMove_of_endOfDrain {a b : PartState} (ha : a = .draining) (hb : b = .idle ∨ b = .detached) :
    stateMove .endOfDrain a b := .inr (.inr (.inr (.inr (.inr (.inr (.inl ⟨ha, hb, rfl⟩))))))

theorem stateMove_of_fault {c : Instr} {a b : PartState} (ha : a.live = true) (hb : b = .fault)
    (hc : (∃ host, c = .poll host) ∨ c = .busError) : stateMove c a b := by
  have hfrom : a = .idle ∨ a = .running ∨ a = .draining := by
    revert ha; cases a <;> simp [PartState.live]
  exact .inr (.inr (.inr (.inr (.inr (.inr (.inr ⟨hfrom, hb, hc⟩))))))

/-- What the host writes to its memory with a command (log 4). -/
def hostBytesOf : Instr → List HostWrite
  | .attach _ host _ => host
  | .poll host => host
  | _ => []

/-- What a command does to the queue and the part state, and to a part in FAULT but for what the host itself writes
(R165, R175). -/
structure State.Obeys (c : Instr) (s t : State) : Prop where
  pending : t.pending = s.pending
  move : stateMove c s.sts.state t.sts.state
  fault : s.sts.state = .fault → isReset c = false → (s.hostWrites (hostBytesOf c)).Frozen t

/-- A command that moves the part leaves FAULT alone, or is a reset. -/
theorem State.Obeys.of_move {c : Instr} {s t : State} (hpending : t.pending = s.pending)
    (hmove : stateMove c s.sts.state t.sts.state) (hfault : s.sts.state ≠ .fault ∨ isReset c = true) : s.Obeys c t where
  pending := hpending
  move := hmove
  fault := fun h hc => by
    rcases hfault with hne | hreset
    · exact absurd h hne
    · rw [hreset] at hc; cases hc

/-- An event of one block that follows the host's writes of its command. -/
theorem State.Steady.obeys_written {c : Instr} {s t : State} (h : (s.hostWrites (hostBytesOf c)).Steady t) :
    s.Obeys c t where
  pending := h.pending
  move := .inl h.state
  fault := fun hfault _ => h.fault hfault

theorem State.Steady.obeys {c : Instr} {s t : State} (h : s.Steady t) (hc : hostBytesOf c = [] := by rfl) :
    s.Obeys c t := State.Steady.obeys_written (by rw [hc]; exact h)

/-- A command that is taken, after the host's writes, unless the pin is held (R176). -/
theorem State.Obeys.taken_written {c : Instr} {s u t : State} (h : s.Obeys c u)
    (ht : (s.hostWrites (hostBytesOf c)).taken u = .next t) : s.Obeys c t := by
  rcases State.taken_cases _ u t ht with ⟨_, rfl⟩ | ⟨_, rfl⟩
  · exact h
  · exact (State.Steady.refl _).obeys_written

theorem State.Obeys.taken {c : Instr} {s u t : State} (h : s.Obeys c u) (ht : s.taken u = .next t)
    (hc : hostBytesOf c = [] := by rfl) : s.Obeys c t := h.taken_written (by rw [hc]; exact ht)

/-- FAULT is entered from IDLE, RUNNING and DRAINING, by a poll or a bus error (R174). -/
theorem State.Obeys.of_fault_entry {c : Instr} {s t : State} (hlive : s.sts.state.live = true)
    (hpending : t.pending = s.pending) (hfault : t.sts.state = .fault) (hc : (∃ host, c = .poll host) ∨ c = .busError) :
    s.Obeys c t := by
  refine .of_move hpending (stateMove_of_fault hlive hfault hc) (.inl fun h => ?_)
  rw [h] at hlive
  cases hlive

theorem State.obeys_of_reset {c : Instr} {s t : State} (hc : isReset c = true) (hpending : t.pending = s.pending)
    (hstate : t.sts.state = .detached) : s.Obeys c t :=
  .of_move hpending (stateMove_of_reset hc hstate) (.inr hc)

/-- ATTACH written 1, in a state after the IEN bit and the host's writes (R180). -/
theorem State.attachWritten_obeys {c : Instr} {s u : State} (err : AccessError)
    (hu : (s.hostWrites (hostBytesOf c)).Frozen u)
    (hc : err = .ok → (∃ ien host, c = .attach ien host .ok) ∨ ∃ v, c = .registerWrite 8 v) :
    s.Obeys c (u.attachWritten err) := by
  rcases u.attachWritten_cases err with ⟨hdetached, herr, hpending, hidle⟩ | h
  · have hs : s.sts.state = .detached := hu.steady.state.symm.trans hdetached
    exact .of_move (hpending.trans hu.steady.pending) (stateMove_of_attach hs hidle (hc herr)) (.inl (by simp [hs]))
  · exact (hu.steady.trans h).obeys_written

/-- ATTACH written 0, in a state after the IEN bit (R180, R183). -/
theorem State.detachWritten_obeys {c : Instr} {s u : State} (hu : s.Frozen u)
    (hc : (∃ ien, c = .detach ien) ∨ c = .deferredDetach ∨ ∃ v, c = .registerWrite 8 v)
    (hbytes : hostBytesOf c = []) : s.Obeys c u.detachWritten := by
  rcases u.detachWritten_cases with ⟨hidle, hpending, hdetached⟩ | h
  · have hs : s.sts.state = .idle := hu.steady.state.symm.trans hidle
    exact .of_move (hpending.trans hu.steady.pending) (stateMove_of_detach hs hdetached hc) (.inl (by simp [hs]))
  · exact (hu.steady.trans h).obeys hbytes

theorem exctl_obeys (v : Word) (s : State) : s.Obeys (.registerWrite 8 v) (exctl v s) := by
  unfold exctl
  split
  · rename_i hreset
    split
    · exact State.obeys_of_reset hreset rfl rfl
    · exact State.obeys_of_reset hreset rfl rfl
  · have hien := s.ienWritten_frozen (v.getLsbD 1)
    dsimp only
    split
    · exact State.attachWritten_obeys .ok hien fun _ => .inr ⟨v, rfl⟩
    · exact State.detachWritten_obeys hien (.inr (.inr ⟨v, rfl⟩)) rfl

theorem registerWrite_obeys (off : Nat) (v : Word) (s : State) :
    s.Obeys (.registerWrite off v) (registerWrite off v s) := by
  unfold registerWrite
  split
  · exact (exbl_frozen v s).steady.obeys
  · exact (exbh_frozen v s).steady.obeys
  · exact exctl_obeys v s
  · exact (excause_frozen v s).steady.obeys
  · exact (expoll_frozen v s).steady.obeys
  · exact (State.Steady.refl s).obeys

theorem softReset_obeys (s : State) : s.Obeys .softReset (softReset s) := State.obeys_of_reset rfl rfl rfl

theorem softResetWithKeep_obeys (s : State) : s.Obeys .softResetWithKeep (softResetWithKeep s) :=
  State.obeys_of_reset rfl rfl rfl

theorem deferredDetach_obeys (s : State) : s.Obeys .deferredDetach (deferredDetach s) := by
  rcases deferredDetach_cases s with ⟨hs, hpending, hdetached⟩ | h
  · exact .of_move hpending (stateMove_of_detach hs hdetached (.inr (.inl rfl))) (.inl (by simp [hs]))
  · exact h.obeys

theorem lossOfSignal_obeys (ch : Ch) (s t : State) (h : exec (.lossOfSignal ch) s = .next t) :
    s.Obeys (.lossOfSignal ch) t := by
  have hlevel : s.Frozen { s with inputs := s.inputs.setLost ch true } := {}
  rcases State.taken_cases _ _ t h with ⟨_, rfl⟩ | ⟨_, rfl⟩
  · exact (hlevel.steady.trans (channelFault_steady ch .linkLost _)).obeys
  · exact hlevel.steady.obeys

theorem endOfDrain_obeys (s : State) : s.Obeys .endOfDrain (endOfDrain s) := by
  rcases endOfDrain_cases s with ⟨hs, hpending, hstate⟩ | heq
  · exact .of_move hpending (stateMove_of_endOfDrain hs hstate) (.inl (by simp [hs]))
  · rw [heq]; exact (State.Steady.refl s).obeys

theorem poll_obeys (host : List HostWrite) (s : State) : s.Obeys (.poll host) (poll (s.hostWrites host)) := by
  rcases poll_cases (s.hostWrites host) with ⟨hlive, hpending, hfault⟩ | h
  · exact .of_fault_entry hlive hpending hfault (.inl ⟨host, rfl⟩)
  · exact State.Steady.obeys_written (c := .poll host) h

theorem start_obeys (s : State) : s.Obeys .start (s.takeOrder OrderBody.start? (fun b _ => takeStart b)) := by
  rcases s.takeOrder_moves OrderBody.start? (fun b _ => takeStart b) with ⟨b, _, hlive, hact⟩ | heq
  · have hcursor : s.Stays (s.cursorTo b) := {}
    rcases takeStart_cases b (s.cursorTo b) with hstays | ⟨hidle, hpending, hrun⟩
    · exact (((hcursor.trans hstays).trans hact).steady hlive).obeys
    · have hs : s.sts.state = .idle := hidle
      exact .of_move (hact.pending.trans hpending) (stateMove_of_start hs (hact.state.trans hrun)) (.inl (by simp [hs]))
  · rw [heq]; exact (State.Steady.refl s).obeys

theorem stop_obeys (s : State) : s.Obeys .stop (s.takeOrder OrderBody.stop? (fun b _ => takeStop b)) := by
  rcases s.takeOrder_moves OrderBody.stop? (fun b _ => takeStop b) with ⟨b, _, hlive, hact⟩ | heq
  · have hcursor : s.Stays (s.cursorTo b) := {}
    rcases takeStop_cases b (s.cursorTo b) with hstays | ⟨hrun, hpending, hstate⟩
    · exact (((hcursor.trans hstays).trans hact).steady hlive).obeys
    · have hs : s.sts.state = .running := hrun
      rw [← hact.state] at hstate
      exact .of_move (hact.pending.trans hpending) (stateMove_of_stop hs hstate) (.inl (by simp [hs]))
  · rw [heq]; exact (State.Steady.refl s).obeys

theorem busError_obeys (s : State) : s.Obeys .busError (busError s) := by
  rcases busError_cases s with ⟨hlive, hpending, hfault⟩ | heq
  · exact .of_fault_entry hlive hpending hfault (.inr rfl)
  · rw [heq]; exact (State.Steady.refl s).obeys

/-- Each command does to the queue and the part state what it may (R165, R175, Table 10-7). -/
theorem exec_obeys (c : Instr) (s t : State) (h : exec c s = .next t) : s.Obeys c t := by
  cases c with
  | powerOnReset => cases h; exact State.obeys_of_reset rfl rfl rfl
  | pinReset => cases h; exact State.obeys_of_reset rfl rfl rfl
  | softReset => exact (softReset_obeys s).taken h
  | softResetWithKeep => exact (softResetWithKeep_obeys s).taken h
  | attach ien host err =>
    exact State.Obeys.taken_written (State.attachWritten_obeys err ((s.hostWrites host).ienWritten_frozen ien)
      fun herr => .inl ⟨ien, host, herr ▸ rfl⟩) h
  | detach ien => exact (State.detachWritten_obeys (s.ienWritten_frozen ien) (.inl ⟨ien, rfl⟩) rfl).taken h
  | deferredDetach => exact (deferredDetach_obeys s).taken h
  | ien v => exact (s.ienWritten_frozen v).steady.obeys.taken h
  | excause v => exact (excause_frozen v s).steady.obeys.taken h
  | expoll v => exact (expoll_frozen v s).steady.obeys.taken h
  | exbl v => exact (exbl_frozen v s).steady.obeys.taken h
  | exbh v => exact (exbh_frozen v s).steady.obeys.taken h
  | registerWrite off v => exact (registerWrite_obeys off v s).taken h
  | forwardCount => exact (forwardCount_frozen s).steady.obeys.taken h
  | reverseCount => exact (reverseCount_steady s).obeys.taken h
  | lineTrigger => exact (lineTrigger_steady s).obeys.taken h
  | speedWindowEnd => exact (speedWindowEnd_steady s).obeys.taken h
  | scanWord ch w => exact (scanWord_steady ch _ s).obeys.taken h
  | headStatus ch code => exact (headStatus_steady ch code s).obeys.taken h
  | lossOfSignal ch => exact lossOfSignal_obeys ch s t h
  | returnOfSignal ch => cases h; exact (State.Frozen.steady {}).obeys
  | lineAssembly => exact (lineAssembly_steady s).obeys.taken h
  | gradingEvent => exact (gradingEvent_steady s).obeys.taken h
  | placement => exact (placement_steady s).obeys.taken h
  | cutStrobe => exact (cutStrobe_steady s).obeys.taken h
  | cinhChange a => cases h; exact (State.Frozen.steady {}).obeys
  | cdone => exact (cdone_steady s).obeys.taken h
  | confirmWindowExpiry => exact (confirmWindowExpiry_steady s).obeys.taken h
  | gateEvent => exact (gateEvent_steady s).obeys.taken h
  | rowRetirement => exact (rowRetirement_steady s).obeys.taken h
  | endOfDrain => exact (endOfDrain_obeys s).taken h
  | poll host => exact (poll_obeys host s).taken_written h
  | setup => exact (s.takeOrder_steady _ _ fun b x t => takeSetup_stays b t x).obeys.taken h
  | start => exact (start_obeys s).taken h
  | stop => exact (stop_obeys s).taken h
  | cut => exact (s.takeOrder_steady _ _ fun b x t => takeCut_stays b t x).obeys.taken h
  | cancel => exact (s.takeOrder_steady _ _ fun b x t => takeCancel_stays b t x).obeys.taken h
  | channel =>
    exact (s.takeOrder_steady OrderBody.channel? _ fun b x t => takeChannel_stays b t x.1 x.2).obeys.taken h
  | loadMask => exact (s.takeOrder_steady _ _ fun b x t => takeLoadMask_stays b t x).obeys.taken h
  | loadClasses => exact (s.takeOrder_steady _ _ fun b x t => takeLoadClasses_stays b t x).obeys.taken h
  | loadSpec =>
    exact (s.takeOrder_steady OrderBody.loadSpec? _ fun b x t => takeLoadSpec_stays b t x.1 x.2).obeys.taken h
  | closeShift => exact (s.takeOrder_steady _ _ fun b x t => takeCloseShift_stays b t x).obeys.taken h
  | pageRecordWrite => exact (pageRecordWrite_steady s).obeys.taken h
  | pageFlush => exact (pageFlush_steady s).obeys.taken h
  | busError => exact (busError_obeys s).taken h
  | resetPinRelease => cases h; exact (State.Frozen.steady {}).obeys

/-! ## The statements -/

/-- No command faults the model or is refused. -/
theorem exec_answers (c : Instr) (s : State) : ∃ t, exec c s = .next t := by
  cases c <;> exact ⟨_, rfl⟩

/-- Settles O3. -/
theorem everyCommandKeepsQueue : Obligations.EveryCommandKeepsQueue := by
  intro c s
  obtain ⟨t, h⟩ := exec_answers c s
  exact ⟨t, h, (exec_obeys c s t h).pending⟩

/-- Settles O54, by the cases of `exec_obeys`. -/
theorem partStateTransitions : Obligations.PartStateTransitions := fun c s t h => (exec_obeys c s t h).move

theorem hostBytesOf_eq_nil {c : Instr} (hattach : ∀ ien host err, c ≠ .attach ien host err)
    (hpoll : ∀ host, c ≠ .poll host) : hostBytesOf c = [] := by
  unfold hostBytesOf
  split
  · exact absurd rfl (hattach _ _ _)
  · exact absurd rfl (hpoll _)
  · rfl

/-- Settles O55, by the cases of `exec_obeys`. -/
theorem faultFreezesPart : Obligations.FaultFreezesPart := by
  intro c s t hfault hc h
  have hfrozen := (exec_obeys c s t h).fault hfault hc
  have hhost : t.host = s.host.hostWrites (hostBytesOf c) := (congrArg State.host hfrozen.blocks :)
  refine ⟨(congrArg State.sts hfrozen.blocks :), (congrArg State.setup hfrozen.blocks :),
    (congrArg State.sli hfrozen.blocks :), (congrArg State.fas hfrozen.blocks :), (congrArg State.rbm hfrozen.blocks :),
    (congrArg State.oru hfrozen.blocks :), (congrArg State.rpl hfrozen.blocks :), (congrArg State.cgc hfrozen.blocks :),
    (congrArg State.grd hfrozen.blocks :), (congrArg State.stu hfrozen.blocks :), hfrozen.staging, hfrozen.filling,
    hfrozen.cursor, hfrozen.lt, hfrozen.ltrigCount, fun hattach hpoll => ?_, ?_, ?_⟩
  · rw [hhost, hostBytesOf_eq_nil hattach hpoll]; rfl
  · rintro ien host err rfl; exact hhost
  · rintro host rfl; exact hhost

end Sys2Proof.Machine
end

/-! # A held reset pin, a soft reset, and the state after reset (O4, O7, O60) -/

section
-- One declaration after the other: a thread for each exceeds the memory that the check allows.
set_option Elab.async false
namespace Sys2Proof.Machine

theorem State.taken_held (s t : State) (h : s.pinHeld = true) : s.taken t = .next s :=
  congrArg _ (if_pos h)

/-- What a command changes while the pin is held: host memory and the inputs, each by its own commands (R176). -/
structure State.Outside (c : Instr) (s t : State) : Prop where
  part : { t with inputs := s.inputs, host := s.host } = s := by rfl
  host : (∀ ien host err, c ≠ .attach ien host err) → (∀ host, c ≠ .poll host) → t.host = s.host := by
    intros; rfl
  inputs : (∀ ch, c ≠ .lossOfSignal ch) → (∀ ch, c ≠ .returnOfSignal ch) → (∀ a, c ≠ .cinhChange a) →
    t.inputs = s.inputs := by intros; rfl

/-- A command that is taken answers, while the pin is held, what lies outside the part (R176). -/
theorem exec_of_held (c : Instr) (s : State) (h : s.pinHeld = true) (hpower : c ≠ .powerOnReset) (hpin : c ≠ .pinReset)
    (hrelease : c ≠ .resetPinRelease) : ∃ t, exec c s = .next t ∧ s.Outside c t := by
  cases c with
  | powerOnReset => exact absurd rfl hpower
  | pinReset => exact absurd rfl hpin
  | resetPinRelease => exact absurd rfl hrelease
  | attach ien host err =>
    exact ⟨s.hostWrites host, State.taken_held _ _ h, { host := fun hattach _ => absurd rfl (hattach ien host err) }⟩
  | poll host => exact ⟨s.hostWrites host, State.taken_held _ _ h, { host := fun _ hpoll => absurd rfl (hpoll host) }⟩
  | lossOfSignal ch =>
    exact ⟨{ s with inputs := s.inputs.setLost ch true }, State.taken_held _ _ h,
      { inputs := fun hloss _ _ => absurd rfl (hloss ch) }⟩
  | returnOfSignal ch => exact ⟨_, rfl, { inputs := fun _ hreturn _ => absurd rfl (hreturn ch) }⟩
  | cinhChange a => exact ⟨_, rfl, { inputs := fun _ _ hcinh => absurd rfl (hcinh a) }⟩
  | _ => exact ⟨s, State.taken_held s _ h, {}⟩

/-- Settles O4, by the cases of `exec_of_held`. -/
theorem heldPinStopsEvents : Obligations.HeldPinStopsEvents := by
  intro c s h hpower hpin hrelease
  obtain ⟨t, hexec, ht⟩ := exec_of_held c s h hpower hpin hrelease
  exact ⟨t, hexec, ht.part, ht.host, ht.inputs⟩

theorem exec_softReset (s : State) : exec .softReset s = s.taken (softReset s) := rfl

/-- Settles O7: both resets clear the part alike, but for the cause and the three registers that EXU keeps. -/
theorem softResetKeepsRegisters : Obligations.SoftResetKeepsRegisters := by
  intro s h
  refine ⟨softReset s, powerOnReset s, (exec_softReset s).trans (State.taken_free _ _ h), exec_powerOnReset s, rfl,
    rfl, rfl, rfl, ?_, rfl, rfl, rfl⟩
  exact registerRead_exctl_of_detached (softReset s) rfl rfl

/-- The bounds of every list and of EXPOLL hold after reset, and no block is in hand (O58). -/
theorem reset_planBounds : State.reset.planBounds :=
  ⟨by decide, fun _ h => (nomatch h), by decide, by decide, by decide, by decide, by decide, by decide, by decide,
    by decide⟩

theorem reset_talliesAgree : State.reset.talliesAgree :=
  ⟨Tally.opened_countsAgree 0 0 0, fun _ h => (nomatch h), fun _ h => (nomatch h), rfl, fun _ _ h => (nomatch h)⟩

theorem reset_feedBounds : State.reset.feedBounds :=
  ⟨rfl, fun c hc => by simp [Intake.reset_queues c hc], rfl, by decide, by decide, by decide⟩

theorem reset_rowsSound : State.reset.rowsSound :=
  ⟨trivial, fun _ h => (nomatch h), fun _ h => (nomatch h)⟩

theorem reset_atRest : State.reset.atRest := fun _ => ⟨rfl, rfl, rfl, rfl, rfl, Intake.reset_queues⟩

/-- Settles O60, invariant by invariant. -/
theorem resetMeetsInvariants : Obligations.ResetMeetsInvariants :=
  ⟨reset_memory_wf, reset_atRest, reset_rowsSound, reset_feedBounds, reset_planBounds, reset_talliesAgree⟩

end Sys2Proof.Machine
end

/-! # The ways into FAULT (O53) -/

section
-- One declaration after the other: a thread for each exceeds the memory that the check allows.
set_option Elab.async false
namespace Sys2Proof.Machine

/-! ## The entry into FAULT (R174, R193) -/

/-- EXU as FAULT is entered: the poll and the filling page are abandoned, and the FAULT cause is set (R174). -/
def Exchange.faulted (e : Exchange) : Exchange := { e with
  phase := .idle, filling := none, detachDeferred := false
  causes := e.causes ||| 8#4
  messages := e.messages + (if e.ien = true ∧ e.causes.getLsbD 3 = false then 1 else 0) }

theorem Exchange.raise_causeFault (e : Exchange) : e.raise causeFault = { e with
    causes := e.causes ||| 8#4
    messages := e.messages + (if e.ien = true ∧ e.causes.getLsbD 3 = false then 1 else 0) } := by
  have hset : ∀ x : BitVec 4, x.getLsbD 3 = true → x ||| 8#4 = x := by decide
  unfold Exchange.raise causeFault
  cases h : e.causes.getLsbD 3 with
  | true => simp [hset _ h]
  | false => simp [bit]

theorem State.enterFault_of_live (k : FaultCause) (s : State) (h : s.sts.state.live = true) :
    s.enterFault k = { s with sts := { s.sts with state := .fault, faultCause := k }, exu := s.exu.faulted } := by
  unfold State.enterFault
  rw [if_pos h, Exchange.raise_causeFault]
  rfl

theorem Exchange.faulted_causes (e : Exchange) : e.faulted.causes.getLsbD 3 = true := by
  simp [Exchange.faulted]

/-- The part after a bus error between two events (log 8). -/
def State.faultedBetween (s : State) : State :=
  { s with sts := { s.sts with state := .fault, faultCause := .bus }, exu := s.exu.faulted }

theorem exec_busError (s : State) (hp : s.pinHeld = false) : exec .busError s = .next (busError s) :=
  State.taken_free s _ hp

theorem exec_busError_of_not_live (s : State) (hp : s.pinHeld = false) (h : s.sts.state.live = false) :
    exec .busError s = .next s := by
  rw [exec_busError s hp, busError, s.failing_of_not_live h, State.enterFault, if_neg (by simp [h])]

/-- A bus error between two events. -/
theorem exec_busError_of_none (s : State) (hp : s.pinHeld = false) (h : s.sts.state.live = true)
    (hcut : ∀ c ∈ s.pending.head?, s.cutEvent c (Config.busWrites s.free) = none) :
    exec .busError s = .next s.faultedBetween := by
  rw [exec_busError s hp, busError, s.failing_of_none hcut, s.enterFault_of_live .bus h]
  rfl

/-- A bus error within the event of the command that waits next. -/
theorem exec_busError_of_some (s t : State) (c : Instr) (rest : List Instr) (hp : s.pinHeld = false)
    (hc : s.pending = c :: rest) (hcut : s.cutEvent c (Config.busWrites s.free) = some t)
    (h : t.sts.state.live = true) : exec .busError s = .next { t.faultedBetween with free := s.free + 1 } := by
  have hfault := State.enterFault_of_live .bus { t with free := s.free + 1 } h
  rw [exec_busError s hp, busError, State.failing_of_some c rest s t hc hcut, hfault]
  rfl

/-- A bus error within an event of which nothing stands but some of its writes, or after them. -/
theorem exec_busError_of_writes (s : State) (c : Instr) (rest : List Instr) (hp : s.pinHeld = false)
    (h : s.sts.state.live = true) (hc : s.pending = c :: rest) {short : Prop} [Decidable short] {m : Memory}
    (hcut : s.cutEvent c (Config.busWrites s.free) = if short then some { s with host := m } else none) :
    exec .busError s = .next
      (if short then { s.faultedBetween with host := m, free := s.free + 1 } else s.faultedBetween) := by
  split at hcut
  · rename_i hshort
    rw [exec_busError_of_some s _ c rest hp hc hcut h, if_pos hshort]
    rfl
  · rename_i hshort
    rw [if_neg hshort]
    exact exec_busError_of_none s hp h (by simpa [hc] using hcut)

/-- What every bus error of an attached part leaves (R174). -/
theorem exec_busError_spec (s : State) (hp : s.pinHeld = false) (h : s.sts.state.live = true) :
    ∃ t, exec .busError s = .next t ∧ t.sts = { s.sts with state := .fault, faultCause := .bus } ∧
      (∃ e : Exchange, t.exu = e.faulted) ∧ t.pos = s.pos ∧ t.setup = s.setup ∧ t.cgc = s.cgc ∧ t.grd = s.grd ∧
      t.inputs = s.inputs ∧ (t.free = s.free ∨ t.free = s.free + 1) := by
  obtain ⟨⟨hframe, hsts⟩, hfree⟩ := s.failing_cutShort
  have hlive : s.failing.sts.state.live = true ∧ { s.failing.sts with state := .fault, faultCause := .bus } =
      { s.sts with state := .fault, faultCause := .bus } := by
    rcases hsts with hs | ⟨_, hs⟩
    · have hs : s.failing.sts = s.sts := hs
      rw [hs]; exact ⟨h, rfl⟩
    · have hs : s.failing.sts = { s.sts with state := .idle } := hs
      rw [hs]; exact ⟨rfl, rfl⟩
  refine ⟨s.failing.faultedBetween, ?_, hlive.2, ⟨s.failing.exu, rfl⟩, (congrArg State.pos hframe :),
    (congrArg State.setup hframe :), (congrArg State.cgc hframe :), (congrArg State.grd hframe :),
    (congrArg State.inputs hframe :), hfree⟩
  rw [exec_busError s hp, busError, State.enterFault_of_live .bus _ hlive.1]
  rfl

/-! ## Within the close of a page and the writing of a record (R183, R192) -/

/-- The head of a page is 8 words; FILLED is the ninth write. -/
theorem State.cutClose_of_filling (n : Nat) (s : State) (p : FillingPage) (h : s.exu.filling = some p) :
    s.cutClose n = if n ≤ 8 then
      some { s with host := s.host.writeBytes p.addr ((s.exu.pageHead p (s.firstRecord p)).take (4 * n)) }
      else none := by
  have hlen : (s.exu.pageHead p (s.firstRecord p)).length = 4 * 8 := by simp [Exchange.pageHead]
  unfold State.cutClose State.cutAt State.closeOps
  simp only [h, State.attempt_append, State.attempt_words 8 n _ _ s hlen]
  by_cases hn : n < 8
  · rw [if_pos hn, if_pos (by omega)]
  · rw [if_neg hn]
    by_cases h8 : n = 8
    · subst h8; rfl
    · obtain ⟨k, hk⟩ : ∃ k, n - 8 = k + 1 := ⟨n - 9, by omega⟩
      rw [if_neg (by omega), hk]
      rfl

theorem Exchange.setIen_self (e : Exchange) : e.setIen e.ien = e := by
  have hnone : bit (e.ien && !e.ien && e.causes ≠ 0) = 0 := by cases e.ien <;> rfl
  unfold Exchange.setIen
  rw [hnone]
  rfl

theorem State.ienWritten_self (s : State) : s.ienWritten s.exu.ien = s := by
  unfold State.ienWritten
  rw [Exchange.setIen_self]

theorem State.cutEvent_pageFlush (n : Nat) (s : State) (p : FillingPage) (u : Word) (hlive : s.sts.state.live = true)
    (hp : s.exu.filling = some p) (hu : p.firstTime = some u) (hdue : p.flushMs * 1000 ≤ (s.pos.us - u).toNat) :
    s.cutEvent .pageFlush n = s.cutClose n := by
  have hflush : p.flushDue s.pos.us = true := by
    unfold FillingPage.flushDue
    rw [hu]
    exact decide_eq_true hdue
  have h : s.pageFlushDue = true := by simp [State.pageFlushDue, hp, hlive, hflush]
  exact if_pos h

theorem State.cutEvent_detach (n : Nat) (s : State) (hidle : s.sts.state = .idle) (hphase : s.exu.phase = .idle) :
    s.cutEvent (.detach s.exu.ien) n = s.cutClose n := by
  have h : s.cutEvent (.detach s.exu.ien) n = (s.ienWritten s.exu.ien).cutClose n :=
    if_pos (by simp [hidle, Exchange.polling, hphase])
  rw [h, State.ienWritten_self]

theorem State.cutEvent_deferredDetach (n : Nat) (s : State) (hidle : s.sts.state = .idle)
    (hphase : s.exu.phase = .idle) (hwaits : s.exu.detachDeferred = true) :
    s.cutEvent .deferredDetach n = s.cutClose n :=
  if_pos (by simp [hidle, Exchange.polling, hphase, State.detachWaits, hwaits])

/-- A record that fits in the page and does not close it is written word by word (R192). -/
theorem State.cutEvent_pageRecordWrite (n : Nat) (s : State) (p : FillingPage) (r : Staged) (more : List Staged)
    (hlive : s.sts.state.live = true) (hp : s.exu.filling = some p) (hr : s.exu.staging = r :: more)
    (hfits : p.written + r.body.size ≤ s.exu.pageSize) (hcloses : r.body.closesPage = false)
    (hwords : r.bytes.length % 4 = 0) :
    s.cutEvent .pageRecordWrite n = if 4 * n < r.bytes.length then
      some { s with host := s.host.writeBytes (p.addr + BitVec.ofNat 64 p.written) (r.bytes.take (4 * n)) }
      else none := by
  obtain ⟨k, hk⟩ : ∃ k, r.bytes.length = 4 * k := ⟨r.bytes.length / 4, by omega⟩
  have hshort : n < k ↔ 4 * n < r.bytes.length := by omega
  simp only [State.cutEvent, State.cutRecord, hp, hr, hlive, hfits, if_true, State.attempt_words k n _ _ s hk, hshort,
    hcloses]
  by_cases h : 4 * n < r.bytes.length
  · simp only [if_pos h]; rfl
  · simp [h]

/-! ## Within a status (R188, R197; log 58) -/

/-- A status without result words is five words of 0 at 14H, then the word at 10H: an error among its writes leaves some
of those five. -/
theorem State.attempt_plain_status (n : Nat) (w : StatusWrite) (s : State) (hw : w.words = []) (hn : n ≤ 5) :
    s.attempt n w.ops =
      ({ s with host := s.host.writeBytes (w.addr + 0x14#64) (List.replicate (4 * n) 0) }, none) := by
  have hwords : (List.range 5).flatMap (fun i => leBytes 4 (w.words.getD i 0)) = List.replicate (4 * 5) 0 := by
    rw [hw]; rfl
  have htake : (List.replicate (4 * 5) (0 : Byte)).take (4 * n) = List.replicate (4 * n) 0 := by
    rw [List.take_replicate, Nat.min_eq_left (by omega)]
  unfold StatusWrite.ops
  rw [hwords, List.append_assoc, State.attempt_append, State.attempt_words 5 n _ _ s (by simp), htake]
  generalize s.host.writeBytes (w.addr + 0x14#64) (List.replicate (4 * n) 0) = m
  by_cases h5 : n = 5
  · rw [if_neg (by omega), h5]
    rfl
  · rw [if_pos (by omega)]

theorem statusOps_singleton (w : StatusWrite) : statusOps [w] = w.ops := by simp [statusOps]

theorem State.cutAt_plain_status (n : Nat) (w : StatusWrite) (s : State) (hw : w.words = []) :
    s.cutAt n (statusOps [w]) = if n ≤ 5 then
      some { s with host := s.host.writeBytes (w.addr + 0x14#64) (List.replicate (4 * n) 0) } else none := by
  unfold State.cutAt
  by_cases hn : n ≤ 5
  · rw [statusOps_singleton, s.attempt_plain_status n w hw hn, if_pos hn]
  · obtain ⟨k, rfl⟩ : ∃ k, n = k + 6 * [w].length := ⟨n - 6, by simp; omega⟩
    rw [State.attempt_statuses, if_neg hn]

/-- Within the status of an accepted START (R170). -/
theorem State.cutEvent_start (n : Nat) (s : State) (b : Block) (hidle : s.sts.state = .idle)
    (hphase : s.exu.phase = .order b) (hbody : b.body = .start) (hsetup : s.setup.isSome = true) :
    s.cutEvent .start n = if n ≤ 5 then
      some { s with host := s.host.writeBytes (b.addr + 0x14#64) (List.replicate (4 * n) 0) } else none := by
  obtain ⟨c, hc⟩ := Option.isSome_iff_exists.1 hsetup
  have hstatus : (takeStart b (s.cursorTo b)).2 = [b.done] := by
    rw [takeStart_of_setup b (s.cursorTo b) c hidle hc]
  have hlive : s.sts.state.live = true := by rw [hidle]; rfl
  simp only [State.cutEvent, State.cutOrder, hphase, hlive, if_true, hbody, OrderBody.start?, hstatus]
  exact s.cutAt_plain_status n b.done rfl

/-- The commands that take an order (R185). -/
def takesOrder (c : Instr) : Prop :=
  c = .setup ∨ c = .start ∨ c = .stop ∨ c = .cut ∨ c = .cancel ∨ c = .channel ∨ c = .loadMask ∨ c = .loadClasses ∨
    c = .loadSpec ∨ c = .closeShift

/-- Within statuses nothing stands but writes and causes. -/
theorem State.cutAt_spec {n : Nat} {ops : List PortOp} {s t : State} (h : s.cutAt n ops = some t) :
    { t with host := s.host, exu := s.exu } = s ∧
      { t.exu with causes := s.exu.causes, messages := s.exu.messages } = s.exu := by
  have hspec := State.attempt_spec n ops s
  rwa [State.cutAt_eq_some h] at hspec

theorem State.cutOrder_spec {α : Type} {pick : OrderBody → Option α}
    {act : Block → α → State → State × List StatusWrite} {n : Nat} {s t : State} (h : s.cutOrder pick act n = some t) :
    { t with host := s.host, exu := s.exu } = s ∧
      { t.exu with causes := s.exu.causes, messages := s.exu.messages } = s.exu := by
  unfold State.cutOrder at h
  split at h
  · split at h
    · split at h
      · exact State.cutAt_spec h
      · cases h
    · cases h
  · cases h

theorem State.cutEvent_of_takesOrder {c : Instr} {n : Nat} {s t : State} (hc : takesOrder c)
    (h : s.cutEvent c n = some t) : { t with host := s.host, exu := s.exu } = s ∧
      { t.exu with causes := s.exu.causes, messages := s.exu.messages } = s.exu := by
  rcases hc with rfl | rfl | rfl | rfl | rfl | rfl | rfl | rfl | rfl | rfl <;> exact State.cutOrder_spec h

/-- A bus error that falls within the taking of an order, or before it: the cursor and the order's blocks stay. -/
theorem exec_busError_of_takesOrder (s : State) (c : Instr) (rest : List Instr) (hp : s.pinHeld = false)
    (hlive : s.sts.state.live = true) (hpending : s.pending = c :: rest) (hc : takesOrder c) :
    ∃ t, exec .busError s = .next t ∧ t.exu.cursor = s.exu.cursor ∧ t.exu.staging = s.exu.staging ∧
      { t with sts := s.sts, exu := s.exu, host := s.host, free := s.free } = s := by
  cases hcut : s.cutEvent c (Config.busWrites s.free) with
  | none =>
    exact ⟨_, exec_busError_of_none s hp hlive (by simpa [hpending] using hcut), rfl, rfl, rfl⟩
  | some u =>
    obtain ⟨hpart, hexu⟩ := State.cutEvent_of_takesOrder hc hcut
    have hsts : u.sts = s.sts := (congrArg State.sts hpart :)
    refine ⟨_, exec_busError_of_some s u c rest hp hpending hcut (by rw [hsts]; exact hlive),
      (congrArg Exchange.cursor hexu :), (congrArg Exchange.staging hexu :), ?_⟩
    exact (congrArg (fun x : State => { x with sts := s.sts, exu := s.exu, host := s.host, free := s.free }) hpart :)

/-! ## Within the end of a drain (R173, R183) -/

section
variable (s : State) (e : Entry) (hdrain : s.sts.state = .draining) (hrows : s.rpl.rows = [])
  (hover : (s.fas.yFin - s.rpl.drainEnd).toNat < 2 ^ 31) (htable : s.oru.table = [e]) (hwork : e.work = .stop)

include hdrain hrows hover htable hwork

/-- The end of a drain whose table holds the STOP alone is due, and writes its one status. -/
theorem State.drainOver_of_lone_stop : s.drainOver = true ∧ statusOps s.endDrain.2 = e.done.ops := by
  have hstatuses : s.endDrain.2 = [e.done] := s.drainStatuses_of_lone_stop e htable hwork
  rw [hstatuses, statusOps_singleton]
  exact ⟨by simp [State.drainOver, hdrain, s.drainEnded_iff.2 ⟨hover, hrows⟩], rfl⟩

theorem State.cutDrain_in_status (n : Nat) (hn : n ≤ 5) : s.cutDrain n = some { s.endDrain.1 with
    host := s.host.writeBytes (e.addr + 0x14#64) (List.replicate (4 * n) 0) } := by
  obtain ⟨hdue, hops⟩ := s.drainOver_of_lone_stop e hdrain hrows hover htable hwork
  unfold State.cutDrain
  rw [if_pos hdue, hops, State.attempt_plain_status n e.done _ rfl hn]
  rfl

/-- Past the status the drain has ended, and the close of the page by the detach begins (R173, R183). -/
theorem State.cutDrain_past_status (hphase : s.exu.phase = .idle) (hpending : s.exu.detachPending = true) (k : Nat) :
    s.cutDrain (k + 6) = (s.endDrain.1.writeStatus e.done).cutClose k := by
  obtain ⟨hdue, hops⟩ := s.drainOver_of_lone_stop e hdrain hrows hover htable hwork
  have hdetach : (s.endDrain.1.writeStatus e.done).detachDue = true := by
    simp [State.detachDue, Exchange.polling, hphase, hpending, State.endDrain]
  unfold State.cutDrain
  rw [if_pos hdue, hops, State.attempt_status]
  exact if_pos hdetach

end

/-! ## A poll that finds another marker (R184, R185) -/

theorem exec_poll (host : List HostWrite) (s : State) : exec (.poll host) s = (s.hostWrites host).taken
    (poll (s.hostWrites host)) := rfl

/-- A due poll that finds another marker than at attach (R185). -/
theorem poll_of_other_marker (s : State) (hlive : s.sts.state.live = true) (hphase : s.exu.phase = .idle)
    (hdue : s.pollDue = true) (hmarker : s.host.readWord s.exu.base ≠ s.exu.marker) :
    poll s = { s with sts := { s.sts with state := .fault, faultCause := .header }
                      exu := Exchange.faulted { s.exu with pollTimer := s.pos.us } } := by
  have hbegin : poll s = s.beginPoll := by
    unfold poll
    rw [if_pos hlive, hphase]
    exact if_pos hdue
  have hfault : s.beginPoll = State.enterFault .header { s with exu := { s.exu with pollTimer := s.pos.us } } :=
    if_pos hmarker
  rw [hbegin, hfault, State.enterFault_of_live .header { s with exu := { s.exu with pollTimer := s.pos.us } } hlive]

theorem State.pollDue_of_not_waiting (s : State) (htimer : s.exu.expoll.toNat ≤ (s.pos.us - s.exu.pollTimer).toNat)
    (hdeferred : s.exu.detachDeferred = false) (hpending : s.sts.state = .idle → s.exu.detachPending = false) :
    s.pollDue = true := by
  have hwaits : s.detachWaits = false := by
    unfold State.detachWaits
    by_cases hidle : s.sts.state = .idle
    · simp [hdeferred, hpending hidle]
    · simp [hdeferred, hidle]
  unfold State.pollDue
  rw [hwaits, decide_eq_true htimer]
  rfl

/-! ## FAULT within the end of a drain -/

/-- What the end of a drain leaves of the fields that a bus error within it shows (R173). -/
structure State.Drained (s d : State) : Prop where
  sts : d.sts = { s.sts with state := .idle }
  free : d.free = s.free
  table : d.oru.table = []
  flaws : d.rbm.flaws = []
  blobs : d.fas.blobs = []
  filling : d.exu.filling = s.exu.filling
  detachPending : d.exu.detachPending = s.exu.detachPending
  pageSeq : d.exu.pageSeq = s.exu.pageSeq

theorem State.endDrain_drained (s : State) (e : Entry) (htable : s.oru.table = [e]) (hwork : e.work = .stop) :
    s.Drained s.endDrain.1 where
  sts := rfl
  free := rfl
  table := by
    obtain ⟨-, -, -, -, -, -, horu, -⟩ := s.endDrain_fields
    simp [horu, htable, e.isStop_iff.2 hwork]
  flaws := rfl
  blobs := rfl
  filling := by simp [State.endDrain]
  detachPending := by simp [State.endDrain]
  pageSeq := by simp [State.endDrain]

/-- A bus error within the end of a drain leaves the drain ended and FAULT entered with cause BUS (R173, R174). -/
theorem State.Drained.faulted {s d : State} (h : s.Drained d) (m : Memory) (k : Nat) :
    let t : State := { d.faultedBetween with host := m, free := k }
    t.sts = { s.sts with state := .fault, faultCause := .bus } ∧ t.exu.detachPending = s.exu.detachPending ∧
      t.exu.pageSeq = s.exu.pageSeq ∧ t.oru.table = [] ∧ t.rbm.flaws = [] ∧ t.fas.blobs = [] :=
  ⟨congrArg (fun x : Status => { x with state := .fault, faultCause := .bus }) h.sts, h.detachPending, h.pageSeq,
    h.table, h.flaws, h.blobs⟩

theorem State.Drained.writeStatus {s d : State} (h : s.Drained d) (w : StatusWrite) :
    s.Drained (d.writeStatus w) where
  sts := by simp [h.sts]
  free := by simp [h.free]
  table := by simp [h.table]
  flaws := by simp [h.flaws]
  blobs := by simp [h.blobs]
  filling := by simp [h.filling]
  detachPending := by simp [h.detachPending]
  pageSeq := by simp [h.pageSeq]

section
variable (s : State) (rest : List Instr) (p : FillingPage) (e : Entry) (hp : s.pinHeld = false)
  (hdrain : s.sts.state = .draining) (hqueue : s.pending = .endOfDrain :: rest) (hphase : s.exu.phase = .idle)
  (hpending : s.exu.detachPending = true) (hfilling : s.exu.filling = some p) (hrows : s.rpl.rows = [])
  (hover : (s.fas.yFin - s.rpl.drainEnd).toNat < 2 ^ 31) (htable : s.oru.table = [e]) (hwork : e.work = .stop)

include hp hdrain hqueue hrows hover htable hwork

/-- A bus error within the status of the STOP that a drain ends. -/
theorem exec_busError_in_drain_status (hn : Config.busWrites s.free ≤ 5) :
    exec .busError s = .next { s.endDrain.1.faultedBetween with
      host := s.host.writeBytes (e.addr + 0x14#64) (List.replicate (4 * Config.busWrites s.free) 0)
      free := s.free + 1 } := by
  have hcut := s.cutDrain_in_status e hdrain hrows hover htable hwork _ hn
  have hsts := (s.endDrain_drained e htable hwork).sts
  generalize s.endDrain.1 = d at hcut hsts ⊢
  exact exec_busError_of_some s _ _ rest hp hqueue hcut (by simp [hsts, PartState.live])

include hphase hpending hfilling

/-- A bus error within the close of the page that the detach at the end of a drain begins. -/
theorem exec_busError_in_drain_close (k : Nat) (hk : Config.busWrites s.free = k + 6) (hn : k ≤ 8) :
    ∃ d, s.Drained d ∧ exec .busError s = .next { d.faultedBetween with
      host := (s.host.writeStatus e.done).writeBytes p.addr ((d.exu.pageHead p (s.firstRecord p)).take (4 * k))
      free := s.free + 1 } := by
  have hcut := s.cutDrain_past_status e hdrain hrows hover htable hwork hphase hpending k
  have hd := (s.endDrain_drained e htable hwork).writeStatus e.done
  have hhost : (s.endDrain.1.writeStatus e.done).host = s.host.writeStatus e.done := rfl
  generalize s.endDrain.1.writeStatus e.done = d at hcut hd hhost
  have hfirst : d.firstRecord p = s.firstRecord p := by
    unfold State.firstRecord; rw [hd.free]
  rw [d.cutClose_of_filling k p (hd.filling.trans hfilling), if_pos hn, ← hk, hhost, hfirst] at hcut
  exact ⟨d, hd, exec_busError_of_some s _ _ rest hp hqueue hcut (by simp [hd.sts, PartState.live])⟩

/-- A bus error after every write of the end of a drain falls between two events. -/
theorem exec_busError_past_drain (k : Nat) (hk : Config.busWrites s.free = k + 6) (hn : 8 < k) :
    exec .busError s = .next s.faultedBetween := by
  have hcut := s.cutDrain_past_status e hdrain hrows hover htable hwork hphase hpending k
  have hclosing : (s.endDrain.1.writeStatus e.done).exu.filling = some p := by
    rw [State.writeStatus_exu_filling, (s.endDrain_drained e htable hwork).filling, hfilling]
  rw [State.cutClose_of_filling k _ p hclosing, if_neg (by omega), ← hk] at hcut
  have hnone : s.cutEvent .endOfDrain (Config.busWrites s.free) = none := hcut
  exact exec_busError_of_none s hp (by rw [hdrain]; rfl) (by simpa [hqueue] using hnone)

end

/-! ## The statement -/

/-- Settles O53: the entry into FAULT, and what stands of each event within which an access fails. -/
theorem faultIsEntered : Obligations.FaultIsEntered := by
  intro s hp bus n faulted between
  refine ⟨fun hlive => ?_, fun hlive hnone => ?_, exec_busError_of_not_live s hp,
    fun c rest p hlive hqueue hfilling hc => ?_,
    fun rest p r more hlive hqueue hfilling hstaging hfits hcloses hwords => ?_,
    fun c rest b hlive hqueue _ hc => exec_busError_of_takesOrder s c rest hp hlive hqueue hc,
    fun rest b hidle hqueue hphase hbody hsetup => ?_,
    fun rest p e hdrain hqueue hphase hpending hfilling hrows hover htable hwork => ?_,
    fun host hlive hphase htimer hdeferred hpending hmarker => ?_⟩
  · obtain ⟨t, hexec, hsts, ⟨e, hexu⟩, hpos, hsetup, hcgc, hgrd, hinputs, hfree⟩ := exec_busError_spec s hp hlive
    refine ⟨t, hexec, hsts, ?_, ?_, ?_, ?_, hpos, hsetup, hcgc, hgrd, hinputs, hfree⟩
    · rw [hexu]; rfl
    · rw [hexu]; rfl
    · rw [hexu]; rfl
    · rw [hexu]; exact e.faulted_causes
  · exact exec_busError_of_none s hp hlive (by simp [hnone])
  · have hclose : s.cutEvent c n = s.cutClose n := by
      rcases hc with ⟨rfl, u, hu, hdue⟩ | ⟨rfl, hidle, hphase⟩ | ⟨rfl, hidle, hphase, hwaits⟩
      · exact s.cutEvent_pageFlush n p u hlive hfilling hu hdue
      · exact s.cutEvent_detach n hidle hphase
      · exact s.cutEvent_deferredDetach n hidle hphase hwaits
    exact exec_busError_of_writes s c rest hp hlive hqueue (hclose.trans (s.cutClose_of_filling n p hfilling))
  · exact exec_busError_of_writes s _ rest hp hlive hqueue
      (s.cutEvent_pageRecordWrite n p r more hlive hfilling hstaging hfits hcloses hwords)
  · exact exec_busError_of_writes s _ rest hp (by rw [hidle]; rfl) hqueue
      (s.cutEvent_start n b hidle hphase hbody hsetup)
  · by_cases h5 : n ≤ 5
    · have hexec := exec_busError_in_drain_status s rest e hp hdrain hqueue hrows hover htable hwork h5
      obtain ⟨hsts, hdetach, hseq, hnone, hflaws, hblobs⟩ := (s.endDrain_drained e htable hwork).faulted
        (s.host.writeBytes (e.addr + 0x14#64) (List.replicate (4 * n) 0)) (s.free + 1)
      have h14 : n ≤ 14 := by omega
      simp only [if_pos h5, if_pos h14]
      exact ⟨_, hexec, hsts, hdetach.trans hpending, hseq, hnone, hflaws, hblobs, rfl, rfl⟩
    · obtain ⟨k, hk⟩ : ∃ k, n = k + 6 := ⟨n - 6, by omega⟩
      by_cases h14 : n ≤ 14
      · obtain ⟨d, hd, hexec⟩ := exec_busError_in_drain_close s rest p e hp hdrain hqueue hphase hpending hfilling hrows
          hover htable hwork k hk (by omega)
        obtain ⟨hsts, hdetach, hseq, hnone, hflaws, hblobs⟩ := hd.faulted ((s.host.writeStatus e.done).writeBytes p.addr
          ((d.exu.pageHead p (s.firstRecord p)).take (4 * k))) (s.free + 1)
        simp only [if_neg h5, if_pos h14]
        refine ⟨_, hexec, hsts, hdetach.trans hpending, hseq, hnone, hflaws, hblobs, rfl, ?_⟩
        rw [show n - 6 = k by omega, ← hd.pageSeq]
        rfl
      · have hexec := exec_busError_past_drain s rest p e hp hdrain hqueue hphase hpending hfilling hrows hover htable
          hwork k hk (by omega)
        simp only [if_neg h5, if_neg h14]
        exact ⟨_, hexec, rfl, hpending, rfl, htable, rfl, rfl, rfl, rfl⟩
  · have hdue := State.pollDue_of_not_waiting (s.hostWrites host) htimer hdeferred hpending
    have hpoll := poll_of_other_marker (s.hostWrites host) hlive hphase hdue hmarker
    refine ⟨_, (exec_poll host s).trans ((State.taken_free (s.hostWrites host) _ hp).trans (congrArg _ hpoll)), ?_⟩
    exact ⟨rfl, Exchange.faulted_causes _, rfl, rfl, rfl, rfl, rfl, rfl, rfl, rfl⟩

end Sys2Proof.Machine
end

/-! # Host memory keeps its canonical form (O56) -/

section
-- One declaration after the other: a thread for each exceeds the memory that the check allows.
set_option Elab.async false
namespace Sys2Proof.Machine

/-! ## An event that keeps the form -/

/-- An event that leaves host memory in canonical form where it finds it so (log 5). -/
structure State.KeepsForm (s t : State) : Prop where
  form : s.host.wf → t.host.wf

theorem State.KeepsForm.of_same {s t : State} (h : t.host = s.host := by rfl) : s.KeepsForm t :=
  ⟨fun hs => h ▸ hs⟩

theorem State.KeepsForm.refl (s : State) : s.KeepsForm s := ⟨id⟩

theorem State.KeepsForm.trans {s t u : State} (h : s.KeepsForm t) (k : t.KeepsForm u) : s.KeepsForm u :=
  ⟨k.form ∘ h.form⟩

/-- Statuses are written after everything else that an event does (R188). -/
theorem State.KeepsForm.issue {s : State} {e : State × List StatusWrite} (h : s.KeepsForm e.1) :
    s.KeepsForm (State.issue e) := ⟨fun hs => State.writeStatuses_wf e.2 e.1 (h.form hs)⟩

theorem State.KeepsForm.taken {s u t : State} (h : s.KeepsForm u) (ht : s.taken u = .next t) : s.KeepsForm t := by
  rcases State.taken_cases s u t ht with ⟨_, rfl⟩ | ⟨_, rfl⟩
  · exact h
  · exact .refl _

theorem State.hostWrites_keepsForm (ws : List HostWrite) (s : State) : s.KeepsForm (s.hostWrites ws) :=
  ⟨s.host.hostWrites_wf ws⟩

/-! ## Events that make no access -/

@[simp] theorem forwardCount_host (s : State) : (forwardCount s).host = s.host :=
  (congrArg State.host (forwardCount_frozen s).blocks :)

@[simp] theorem reverseCount_host (s : State) : (reverseCount s).host = s.host := by
  unfold reverseCount
  split
  · rfl
  · split
    · rfl
    · split <;> rfl

@[simp] theorem lineTrigger_host (s : State) : (lineTrigger s).host = s.host := by
  unfold lineTrigger
  split
  · rfl
  · split <;> rfl

@[simp] theorem overspeedTest_host (s : State) : (overspeedTest s).host = s.host := by
  cases hs : s.setup with
  | none => unfold overspeedTest; rw [hs]
  | some c => rw [overspeedTest_of_some s c hs]; rfl

@[simp] theorem speedWindowEnd_host (s : State) : (speedWindowEnd s).host = s.host := by
  unfold speedWindowEnd
  split
  · rw [handSpeed_eq]; exact overspeedTest_host _
  · rfl

@[simp] theorem channelFault_host (k : Nat) (why : ChanFault) (s : State) :
    (channelFault k why s).host = s.host := by
  unfold channelFault
  dsimp only
  split <;> rfl

@[simp] theorem headStatus_host (k : Nat) (code : Byte) (s : State) : (headStatus k code s).host = s.host := by
  unfold headStatus
  split
  · rfl
  · exact channelFault_host k _ s

@[simp] theorem queueWord_host (k : Nat) (w : ScanWord) (s : State) : (queueWord k w s).host = s.host := by
  unfold queueWord
  dsimp only
  split <;> rfl

@[simp] theorem scanWord_host (k : Nat) (w : ScanWord) (s : State) : (scanWord k w s).host = s.host := by
  unfold scanWord
  split
  · exact headStatus_host k _ s
  · exact queueWord_host k _ s

@[simp] theorem gradingEvent_host (s : State) : (gradingEvent s).host = s.host := by
  unfold gradingEvent
  split
  · rfl
  · split <;> rfl

@[simp] theorem placement_host (s : State) : (placement s).host = s.host := by
  unfold placement
  split
  · rfl
  · split
    · exact State.completePlacement_host _ s _
    · rfl

@[simp] theorem State.strobe_host (c : Setup) (a : ArmedCut) (s : State) : (s.strobe c a).host = s.host := by
  unfold State.strobe
  split
  · exact State.resolveCut_host ..
  · split
    · exact State.resolveCut_host ..
    · rfl

@[simp] theorem cutStrobe_host (s : State) : (cutStrobe s).host = s.host := by
  unfold cutStrobe
  split
  · split
    · exact State.strobe_host ..
    · rfl
  · rfl

@[simp] theorem cdone_host (s : State) : (cdone s).host = s.host := by
  unfold cdone
  split
  · split
    · exact State.resolveCut_host ..
    · rfl
  · rfl

@[simp] theorem confirmWindowExpiry_host (s : State) : (confirmWindowExpiry s).host = s.host := by
  unfold confirmWindowExpiry
  split
  · split
    · exact State.resolveCut_host ..
    · rfl
  · rfl

@[simp] theorem gateEvent_host (s : State) : (gateEvent s).host = s.host := by
  unfold gateEvent
  split
  · split <;> rfl
  · rfl

@[simp] theorem exbl_host (v : Word) (s : State) : (exbl v s).host = s.host :=
  (congrArg State.host (exbl_frozen v s).blocks :)

@[simp] theorem exbh_host (v : Word) (s : State) : (exbh v s).host = s.host :=
  (congrArg State.host (exbh_frozen v s).blocks :)

/-! ## Pages and the detach (R183, R192) -/

theorem State.closePage_keepsForm (s : State) : s.KeepsForm s.closePage := ⟨s.closePage_wf⟩

theorem State.doDetach_keepsForm (s : State) : s.KeepsForm s.doDetach := ⟨s.closePage_wf⟩

/-- A record is written, then its page closes where it is the last of it. -/
theorem State.writeRecord_keepsForm (p : FillingPage) (r : Staged) (rest : List Staged) (s : State) :
    s.KeepsForm (s.writeRecord p r rest) := by
  have hwritten : s.KeepsForm (State.recordWritten p r rest { s with host := s.host.writeBytes p.next r.bytes }) :=
    ⟨s.host.writeBytes_wf r.bytes p.next⟩
  unfold State.writeRecord
  split
  · dsimp only
    split
    · exact hwritten.trans (State.closePage_keepsForm _)
    · exact hwritten
  · exact s.closePage_keepsForm

theorem pageRecordWrite_keepsForm (s : State) : s.KeepsForm (pageRecordWrite s) := by
  unfold pageRecordWrite
  split
  · split
    · exact s.writeRecord_keepsForm _ _ _
    · exact .refl s
  · exact .refl s

theorem pageFlush_keepsForm (s : State) : s.KeepsForm (pageFlush s) := by
  unfold pageFlush
  split
  · exact s.closePage_keepsForm
  · exact .refl s

theorem State.detachWritten_keepsForm (s : State) : s.KeepsForm s.detachWritten := by
  unfold State.detachWritten
  split
  · split
    · exact .of_same
    · exact s.doDetach_keepsForm
  · exact .of_same
  · exact .of_same
  · exact .refl s
  · exact .refl s

theorem deferredDetach_keepsForm (s : State) : s.KeepsForm (deferredDetach s) := by
  unfold deferredDetach
  split
  · split
    · exact s.doDetach_keepsForm
    · exact .of_same
    · exact .of_same
    · exact .refl s
    · exact .refl s
  · exact .refl s

/-! ## The attach and the memory window (R178, R182) -/

theorem State.writeMirror_keepsForm (s : State) : s.KeepsForm s.writeMirror := ⟨s.host.writeBytes_wf _ _⟩

theorem State.reportInterrupted_keepsForm (s : State) : s.KeepsForm s.reportInterrupted := by
  obtain ⟨u, e, heq, _⟩ := s.reportInterrupted_spec
  rw [heq]
  exact .of_same

/-- An attach writes the part id and the mirror words, when every check passes. -/
theorem State.attach_keepsForm (err : AccessError) (s : State) : s.KeepsForm (s.attach err) := by
  unfold State.attach
  dsimp only
  split
  · exact .of_same
  · split
    · exact .of_same
    · split
      · exact .of_same
      · refine State.KeepsForm.trans ?_ (State.reportInterrupted_keepsForm _)
        exact State.KeepsForm.trans ⟨s.host.writeWord_wf _ _⟩ (State.writeMirror_keepsForm _)

theorem State.attachWritten_keepsForm (err : AccessError) (s : State) : s.KeepsForm (s.attachWritten err) := by
  unfold State.attachWritten
  split
  · exact s.attach_keepsForm err
  · exact .of_same

theorem exctl_keepsForm (v : Word) (s : State) : s.KeepsForm (exctl v s) := by
  have hien : s.KeepsForm (s.ienWritten (v.getLsbD 1)) := .of_same
  unfold exctl
  split
  · split <;> exact .of_same
  · dsimp only
    split
    · exact hien.trans (State.attachWritten_keepsForm .ok _)
    · exact hien.trans (State.detachWritten_keepsForm _)

theorem registerWrite_keepsForm (off : Nat) (v : Word) (s : State) : s.KeepsForm (registerWrite off v s) := by
  unfold registerWrite
  split
  · exact .of_same (exbl_host v s)
  · exact .of_same (exbh_host v s)
  · exact exctl_keepsForm v s
  · exact .of_same
  · exact .of_same
  · exact .refl s

/-! ## The poll (R185) -/

theorem State.pageStep_keepsForm (s : State) : s.KeepsForm s.pageStep := by
  unfold State.pageStep
  split
  · exact ⟨s.host.writeWord_wf _ _⟩
  · exact .refl s

theorem State.finishPoll_keepsForm (s : State) : s.KeepsForm s.finishPoll :=
  s.pageStep_keepsForm.trans ⟨(State.writeMirror_keepsForm _).form⟩

theorem State.writeStatus_keepsForm (w : StatusWrite) (s : State) : s.KeepsForm (s.writeStatus w) :=
  ⟨s.host.writeStatus_wf w⟩

theorem State.chainStep_keepsForm (s : State) : s.KeepsForm s.chainStep := by
  unfold State.chainStep
  split
  · split
    · exact .of_same
    · have hcursor : s.KeepsForm { s with exu := { s.exu with cursor := some (aligned8 s.nextLink) } } := .of_same
      exact (hcursor.trans (State.writeStatus_keepsForm _ _)).trans (State.finishPoll_keepsForm _)
  · exact s.finishPoll_keepsForm

theorem poll_keepsForm (s : State) : s.KeepsForm (poll s) := by
  unfold poll
  split
  · split
    · split
      · unfold State.beginPoll
        dsimp only
        split
        · exact .of_same (State.enterFault_host _ _)
        · exact State.KeepsForm.trans .of_same (State.chainStep_keepsForm _)
      · exact .refl s
    · exact .refl s
    · exact s.finishPoll_keepsForm
  · exact .refl s

/-! ## Events of other blocks with statuses (R188) -/

theorem lineAssembly_keepsForm (s : State) : s.KeepsForm (lineAssembly s) := by
  unfold lineAssembly
  split
  · exact .refl s
  · split
    · exact State.KeepsForm.issue .of_same
    · exact .refl s

theorem rowRetirement_keepsForm (s : State) : s.KeepsForm (rowRetirement s) := by
  unfold rowRetirement
  split
  · split
    · exact State.KeepsForm.issue .of_same
    · exact .refl s
  · exact .refl s

theorem State.pendingDetach_keepsForm (s : State) : s.KeepsForm s.pendingDetach := by
  unfold State.pendingDetach
  split
  · exact s.doDetach_keepsForm
  · exact .refl s

theorem endOfDrain_keepsForm (s : State) : s.KeepsForm (endOfDrain s) := by
  have hended : s.KeepsForm s.endDrain.1 := .of_same
  unfold endOfDrain
  split
  · exact hended.issue.trans (State.pendingDetach_keepsForm _)
  · exact .refl s

/-! ## Orders (R185): the act of each makes no access of its own -/

/-- The taking of an order writes the statuses that its act answers. -/
theorem State.takeOrder_keepsForm {α : Type} (pick : OrderBody → Option α)
    (act : Block → α → State → State × List StatusWrite) (s : State) (h : ∀ b x t, (act b x t).1.host = t.host) :
    s.KeepsForm (s.takeOrder pick act) := by
  rcases s.takeOrder_cases pick act with ⟨b, x, _, _, _, heq⟩ | heq
  · rw [heq]; exact State.KeepsForm.issue (.of_same (h b x (s.cursorTo b)))
  · rw [heq]; exact .refl s

section
variable (b : Block) (s : State)

theorem takeSetup_host (x : SetupBody) : (takeSetup b x s).1.host = s.host := by
  unfold takeSetup
  split
  · rfl
  · exact State.applySetup_host x s

theorem takeStart_host : (takeStart b s).1.host = s.host := by
  unfold takeStart
  split
  · rfl
  · split <;> rfl

theorem takeStop_host : (takeStop b s).1.host = s.host := by
  unfold takeStop
  split
  · rfl
  · dsimp only
    split <;> rfl

theorem takeCut_host (x : CutBody) : (takeCut b x s).1.host = s.host := by
  unfold takeCut
  split <;> rfl

theorem takeCancel_host (target : Word) : (takeCancel b target s).1.host = s.host := by
  unfold takeCancel
  split <;> rfl

theorem takeDisable_host (disable : BitVec 16) : (takeDisable b disable s).1.host = s.host := by
  unfold takeDisable
  split
  · rfl
  · split <;> rfl

theorem takeChannel_host (enable disable : BitVec 16) : (takeChannel b enable disable s).1.host = s.host := by
  unfold takeChannel
  split
  · rfl
  · exact takeDisable_host b _ disable

theorem takeLoadMask_host (es : List MaskSpec) : (takeLoadMask b es s).1.host = s.host := by
  unfold takeLoadMask
  split <;> rfl

theorem takeLoadClasses_host (es : List ClassEntry) : (takeLoadClasses b es s).1.host = s.host := by
  unfold takeLoadClasses
  split <;> rfl

theorem takeLoadSpec_host (id : Nat) (q : Spec) : (takeLoadSpec b id q s).1.host = s.host := by
  unfold takeLoadSpec
  split <;> rfl

theorem takeCloseShift_host (newId : Word) : (takeCloseShift b newId s).1.host = s.host := by
  unfold takeCloseShift
  split
  · rfl
  · dsimp only
    split <;> rfl

end

/-! ## Events cut short by a bus error (R174, R178) -/

theorem State.attempt_keepsForm (n : Nat) (ops : List PortOp) (s : State) : s.KeepsForm (s.attempt n ops).1 :=
  ⟨State.attempt_wf n ops s⟩

theorem State.cutAt_keepsForm {n : Nat} {ops : List PortOp} {s t : State} (h : s.cutAt n ops = some t) :
    s.KeepsForm t := by
  have hkeeps := s.attempt_keepsForm n ops
  rwa [State.cutAt_eq_some h] at hkeeps

theorem State.cutClose_keepsForm {n : Nat} {s t : State} (h : s.cutClose n = some t) : s.KeepsForm t := by
  unfold State.cutClose at h
  split at h
  · cases h
  · exact State.cutAt_keepsForm h

/-- Within accesses, or in what follows them. -/
theorem State.KeepsForm.of_attempt {s t : State} {n : Nat} {ops : List PortOp} {next : State → Nat → Option State}
    (h : (match s.attempt n ops with
      | (u, none) => some u
      | (u, some k) => next u k) = some t)
    (hnext : ∀ u k, next u k = some t → u.KeepsForm t) : s.KeepsForm t := by
  have hkeeps := s.attempt_keepsForm n ops
  split at h
  · rename_i heq; cases h; rwa [heq] at hkeeps
  · rename_i heq; rw [heq] at hkeeps; exact hkeeps.trans (hnext _ _ h)

theorem State.cutRecord_keepsForm {n : Nat} {s t : State} (h : s.cutRecord n = some t) : s.KeepsForm t := by
  unfold State.cutRecord at h
  split at h
  · rename_i p r rest _ _
    split at h
    · split at h
      · refine .of_attempt h fun u k hk => ?_
        split at hk
        · exact State.KeepsForm.trans (t := u.recordWritten p r rest) .of_same (State.cutClose_keepsForm hk)
        · cases hk
      · exact State.cutClose_keepsForm h
    · cases h
  · cases h

theorem State.cutChain_keepsForm {n : Nat} {s t : State} (h : s.cutChain n = some t) : s.KeepsForm t := by
  unfold State.cutChain at h
  split at h
  · split at h
    · cases h
    · refine .of_attempt h fun u k hk => ?_
      exact State.KeepsForm.trans (s := u) .of_same (State.cutAt_keepsForm hk)
  · exact State.cutAt_keepsForm h

theorem State.cutPoll_keepsForm {n : Nat} {s t : State} (h : s.cutPoll n = some t) : s.KeepsForm t := by
  have htimer : s.KeepsForm { s with exu := { s.exu with pollTimer := s.pos.us } } := .of_same
  unfold State.cutPoll at h
  split at h
  · split at h
    · split at h
      · unfold State.cutBegin at h
        dsimp only at h
        split at h
        · cases h; exact htimer
        · split at h
          · cases h
          · exact htimer.trans (State.cutChain_keepsForm h)
      · cases h
    · cases h
    · exact State.cutAt_keepsForm h
  · cases h

theorem State.cutOrder_keepsForm {α : Type} {pick : OrderBody → Option α}
    {act : Block → α → State → State × List StatusWrite} {n : Nat} {s t : State}
    (h : s.cutOrder pick act n = some t) : s.KeepsForm t := by
  unfold State.cutOrder at h
  split at h
  · split at h
    · split at h
      · exact State.cutAt_keepsForm h
      · cases h
    · cases h
  · cases h

/-- Within the statuses of an event that makes no access before them. -/
theorem State.cutStatuses_keepsForm {n : Nat} {s t : State} {e : State × List StatusWrite} (he : e.1.host = s.host)
    (h : State.cutStatuses n e = some t) : s.KeepsForm t :=
  State.KeepsForm.trans (.of_same he) (State.cutAt_keepsForm h)

theorem State.cutAssembly_keepsForm {n : Nat} {s t : State} (h : s.cutAssembly n = some t) : s.KeepsForm t := by
  unfold State.cutAssembly at h
  split at h
  · cases h
  · split at h
    · exact State.cutStatuses_keepsForm rfl h
    · cases h

theorem State.cutRetirement_keepsForm {n : Nat} {s t : State} (h : s.cutRetirement n = some t) : s.KeepsForm t := by
  unfold State.cutRetirement at h
  split at h
  · split at h
    · exact State.cutStatuses_keepsForm rfl h
    · cases h
  · cases h

theorem State.cutDrain_keepsForm {n : Nat} {s t : State} (h : s.cutDrain n = some t) : s.KeepsForm t := by
  have hended : s.KeepsForm s.endDrain.1 := .of_same
  unfold State.cutDrain at h
  split at h
  · refine hended.trans (.of_attempt h fun u k hk => ?_)
    split at hk
    · exact State.cutClose_keepsForm hk
    · cases hk
  · cases h

theorem State.cutDetach_keepsForm {ien : Bool} {n : Nat} {s t : State} (h : s.cutDetach ien n = some t) :
    s.KeepsForm t := by
  unfold State.cutDetach at h
  split at h
  · exact State.KeepsForm.trans (t := s.ienWritten ien) .of_same (State.cutClose_keepsForm h)
  · cases h

/-- Within whatever event an access fails, the form is kept. -/
theorem State.cutEvent_keepsForm {c : Instr} {n : Nat} {s t : State} (h : s.cutEvent c n = some t) :
    s.KeepsForm t := by
  unfold State.cutEvent at h
  cases c with
  | poll _ => exact State.cutPoll_keepsForm h
  | setup | start | stop | cut | cancel | channel | loadMask | loadClasses | loadSpec | closeShift =>
    exact State.cutOrder_keepsForm h
  | lineAssembly => exact State.cutAssembly_keepsForm h
  | rowRetirement => exact State.cutRetirement_keepsForm h
  | endOfDrain => exact State.cutDrain_keepsForm h
  | pageRecordWrite => exact State.cutRecord_keepsForm h
  | pageFlush =>
    simp only [State.cutFlush] at h
    split at h
    · exact State.cutClose_keepsForm h
    · cases h
  | detach ien => exact State.cutDetach_keepsForm h
  | registerWrite off v =>
    simp only [State.cutWindow] at h
    split at h
    · exact State.cutDetach_keepsForm h
    · cases h
  | deferredDetach =>
    simp only [State.cutDeferred] at h
    split at h
    · exact State.cutClose_keepsForm h
    · cases h
  | _ => cases h

theorem State.failing_keepsForm (s : State) : s.KeepsForm s.failing := by
  unfold State.failing
  split
  · exact .refl s
  · split
    · rename_i h; exact ⟨(State.cutEvent_keepsForm h).form⟩
    · exact .refl s

theorem busError_keepsForm (s : State) : s.KeepsForm (busError s) :=
  s.failing_keepsForm.trans (.of_same (State.enterFault_host _ _))

/-! ## Every command -/

/-- Every command keeps the form of host memory. -/
theorem exec_keepsForm (c : Instr) (s t : State) (h : exec c s = .next t) : s.KeepsForm t := by
  cases c with
  | powerOnReset | pinReset | resetPinRelease | returnOfSignal _ | cinhChange _ => cases h; exact .of_same
  | softReset | softResetWithKeep => exact State.KeepsForm.taken .of_same h
  | ien v | excause v | expoll v => exact State.KeepsForm.taken .of_same h
  | attach ien host err =>
    have hien : (s.hostWrites host).KeepsForm ((s.hostWrites host).ienWritten ien) := .of_same
    exact (s.hostWrites_keepsForm host).trans ((hien.trans (State.attachWritten_keepsForm err _)).taken h)
  | detach ien =>
    have hien : s.KeepsForm (s.ienWritten ien) := .of_same
    exact (hien.trans (State.detachWritten_keepsForm _)).taken h
  | deferredDetach => exact (deferredDetach_keepsForm s).taken h
  | exbl v => exact State.KeepsForm.taken (.of_same (exbl_host v s)) h
  | exbh v => exact State.KeepsForm.taken (.of_same (exbh_host v s)) h
  | registerWrite off v => exact (registerWrite_keepsForm off v s).taken h
  | forwardCount => exact State.KeepsForm.taken (.of_same (forwardCount_host s)) h
  | reverseCount => exact State.KeepsForm.taken (.of_same (reverseCount_host s)) h
  | lineTrigger => exact State.KeepsForm.taken (.of_same (lineTrigger_host s)) h
  | speedWindowEnd => exact State.KeepsForm.taken (.of_same (speedWindowEnd_host s)) h
  | scanWord ch w => exact State.KeepsForm.taken (.of_same (scanWord_host ch _ s)) h
  | headStatus ch code => exact State.KeepsForm.taken (.of_same (headStatus_host ch code s)) h
  | lossOfSignal ch =>
    have hlevel : s.KeepsForm { s with inputs := s.inputs.setLost ch true } := .of_same
    exact hlevel.trans (State.KeepsForm.taken (.of_same (channelFault_host ch .linkLost _)) h)
  | lineAssembly => exact (lineAssembly_keepsForm s).taken h
  | gradingEvent => exact State.KeepsForm.taken (.of_same (gradingEvent_host s)) h
  | placement => exact State.KeepsForm.taken (.of_same (placement_host s)) h
  | cutStrobe => exact State.KeepsForm.taken (.of_same (cutStrobe_host s)) h
  | cdone => exact State.KeepsForm.taken (.of_same (cdone_host s)) h
  | confirmWindowExpiry => exact State.KeepsForm.taken (.of_same (confirmWindowExpiry_host s)) h
  | gateEvent => exact State.KeepsForm.taken (.of_same (gateEvent_host s)) h
  | rowRetirement => exact (rowRetirement_keepsForm s).taken h
  | endOfDrain => exact (endOfDrain_keepsForm s).taken h
  | poll host => exact (s.hostWrites_keepsForm host).trans ((poll_keepsForm _).taken h)
  | setup => exact (s.takeOrder_keepsForm _ _ fun b x t => takeSetup_host b t x).taken h
  | start => exact (s.takeOrder_keepsForm _ _ fun b _ t => takeStart_host b t).taken h
  | stop => exact (s.takeOrder_keepsForm _ _ fun b _ t => takeStop_host b t).taken h
  | cut => exact (s.takeOrder_keepsForm _ _ fun b x t => takeCut_host b t x).taken h
  | cancel => exact (s.takeOrder_keepsForm _ _ fun b x t => takeCancel_host b t x).taken h
  | channel => exact (s.takeOrder_keepsForm OrderBody.channel? _ fun b x t => takeChannel_host b t x.1 x.2).taken h
  | loadMask => exact (s.takeOrder_keepsForm _ _ fun b x t => takeLoadMask_host b t x).taken h
  | loadClasses => exact (s.takeOrder_keepsForm _ _ fun b x t => takeLoadClasses_host b t x).taken h
  | loadSpec => exact (s.takeOrder_keepsForm OrderBody.loadSpec? _ fun b x t => takeLoadSpec_host b t x.1 x.2).taken h
  | closeShift => exact (s.takeOrder_keepsForm _ _ fun b x t => takeCloseShift_host b t x).taken h
  | pageRecordWrite => exact (pageRecordWrite_keepsForm s).taken h
  | pageFlush => exact (pageFlush_keepsForm s).taken h
  | busError => exact (busError_keepsForm s).taken h

@[simp] theorem State.tick_host (s : State) : s.tick.host = s.host := by
  unfold State.tick
  split <;> rfl

/-- Settles O56, by the cases of `exec_keepsForm`. -/
theorem memoryStaysCanonical : Obligations.MemoryStaysCanonical := by
  intro s t hwf h
  cases hq : s.pending with
  | nil =>
    rw [step_nil s hq] at h
    cases h
    rwa [s.tick_host]
  | cons c rest =>
    rw [step_cons c rest s hq] at h
    exact (exec_keepsForm c { s with pending := rest } t h).form hwf

end Sys2Proof.Machine
end

/-! # The register writes and the memory window (O9, O10) -/

section
-- One declaration after the other: a thread for each exceeds the memory that the check allows.
set_option Elab.async false
namespace Sys2Proof.Machine

/-! ## The arms of `exec` -/

theorem exec_excause (v : Word) (s : State) : exec (.excause v) s = s.taken (excause v s) := rfl
theorem exec_expoll (v : Word) (s : State) : exec (.expoll v) s = s.taken (expoll v s) := rfl
theorem exec_exbl (v : Word) (s : State) : exec (.exbl v) s = s.taken (exbl v s) := rfl
theorem exec_exbh (v : Word) (s : State) : exec (.exbh v) s = s.taken (exbh v s) := rfl
theorem exec_ien (b : Bool) (s : State) : exec (.ien b) s = s.taken (s.ienWritten b) := rfl
theorem exec_registerWrite (off : Nat) (v : Word) (s : State) :
    exec (.registerWrite off v) s = s.taken (registerWrite off v s) := rfl
theorem exec_attach (ien : Bool) (host : List HostWrite) (err : AccessError) (s : State) :
    exec (.attach ien host err) s =
      (s.hostWrites host).taken (((s.hostWrites host).ienWritten ien).attachWritten err) := rfl
theorem exec_detach (ien : Bool) (s : State) : exec (.detach ien) s = s.taken (s.ienWritten ien).detachWritten := rfl
theorem exec_deferredDetach (s : State) : exec .deferredDetach s = s.taken (deferredDetach s) := rfl
theorem exec_pageRecordWrite (s : State) : exec .pageRecordWrite s = s.taken (pageRecordWrite s) := rfl
theorem exec_pageFlush (s : State) : exec .pageFlush s = s.taken (pageFlush s) := rfl

@[simp] theorem State.hostWrites_nil (s : State) : s.hostWrites [] = s := rfl

/-! ## What each register takes (R179) -/

/-- EXCAUSE keeps the causes that are not written as 1. -/
theorem getLsbD_causes_cleared (causes : BitVec 4) (v : Word) {k : Nat} (hk : k < 4) :
    (causes &&& ~~~(v.extractLsb' 0 4)).getLsbD k = (causes.getLsbD k && !v.getLsbD k) := by
  simp [hk]

/-- EXPOLL is clamped to 50 to 10,000 (log 48). -/
theorem clampedPoll_cases (v : Word) :
    (v.toNat < 50 → BitVec.ofNat 32 (max 50 (min 10000 v.toNat)) = 50) ∧
    (10000 < v.toNat → BitVec.ofNat 32 (max 50 (min 10000 v.toNat)) = 10000) ∧
    (50 ≤ v.toNat → v.toNat ≤ 10000 → BitVec.ofNat 32 (max 50 (min 10000 v.toNat)) = v) := by
  refine ⟨fun hlow => ?_, fun hhigh => ?_, fun hmin hmax => ?_⟩
  · rw [show max 50 (min 10000 v.toNat) = 50 by omega]; rfl
  · rw [show max 50 (min 10000 v.toNat) = 10000 by omega]; rfl
  · rw [show max 50 (min 10000 v.toNat) = v.toNat by omega, BitVec.ofNat_toNat, BitVec.setWidth_eq]

/-- EXBL is taken without its low 12 bits. -/
theorem getLsbD_pageAligned (v : Word) {k : Nat} (hk : k < 32) :
    (v &&& 0xFFFFF000#32).getLsbD k = (v.getLsbD k && decide (12 ≤ k)) := by
  have hmask : ∀ k < 32, (0xFFFFF000#32).getLsbD k = decide (12 ≤ k) := by decide
  rw [BitVec.getLsbD_and, hmask k hk]

theorem exbl_of_attached (v : Word) (s : State) (h : s.sts.state ≠ .detached) : exbl v s = s := if_neg h

theorem exbh_of_attached (v : Word) (s : State) (h : s.sts.state ≠ .detached) : exbh v s = s := if_neg h

/-- Settles O9, register by register. -/
theorem registerWritesTakeEffect : Obligations.RegisterWritesTakeEffect := by
  intro v s hp
  refine ⟨⟨_, (exec_excause v s).trans (State.taken_free s _ hp), fun k hk => getLsbD_causes_cleared _ v hk⟩,
    ⟨_, (exec_expoll v s).trans (State.taken_free s _ hp), clampedPoll_cases v⟩,
    fun hdetached => ⟨⟨v &&& 0xFFFFF000#32, ?_, fun k hk => ?_⟩, ?_⟩, fun hattached => ⟨?_, ?_⟩, fun b => ?_⟩
  · rw [exec_exbl, State.taken_free s _ hp, exbl, if_pos hdetached]
  · exact getLsbD_pageAligned v hk
  · rw [exec_exbh, State.taken_free s _ hp, exbh, if_pos hdetached]
  · rw [exec_exbl, exbl_of_attached v s hattached, State.taken_self]
  · rw [exec_exbh, exbh_of_attached v s hattached, State.taken_self]
  · rw [exec_ien, State.taken_free s _ hp, State.ienWritten, Exchange.setIen_eq]

/-! ## The memory window (R178) -/

/-- An offset that no register has is ignored; so is EXSTS, at 0CH (R179). -/
theorem registerWrite_of_no_register (off : Nat) (v : Word) (s : State) (hexbl : off ≠ 0x00) (hexbh : off ≠ 0x04)
    (hexctl : off ≠ 0x08) (hexcause : off ≠ 0x10) (hexpoll : off ≠ 0x14) : registerWrite off v s = s := by
  unfold registerWrite
  split
  · exact absurd rfl hexbl
  · exact absurd rfl hexbh
  · exact absurd rfl hexctl
  · exact absurd rfl hexcause
  · exact absurd rfl hexpoll
  · rfl

/-- A write of EXCTL does what the command of its bits does, RESET first (R180). -/
theorem exec_registerWrite_exctl (v : Word) (s : State) : exec (.registerWrite 0x08 v) s =
    (if v.getLsbD 2 = true then (if v.getLsbD 3 = true then exec .softResetWithKeep s else exec .softReset s)
     else if v.getLsbD 0 = true then exec (.attach (v.getLsbD 1) [] .ok) s
     else exec (.detach (v.getLsbD 1)) s) := by
  have hexctl : exec (.registerWrite 0x08 v) s = s.taken (exctl v s) := rfl
  rw [hexctl, exec_softResetWithKeep, exec_softReset, exec_attach, exec_detach, s.hostWrites_nil]
  unfold exctl
  simp only [apply_ite s.taken]

/-- Settles O10, offset by offset. -/
theorem registerWindow : Obligations.RegisterWindow := by
  intro v s
  refine ⟨fun off hexbl hexbh hexctl hexcause hexpoll => ?_, rfl, rfl, rfl, rfl, exec_registerWrite_exctl v s⟩
  rw [exec_registerWrite, registerWrite_of_no_register off v s hexbl hexbh hexctl hexcause hexpoll, State.taken_self]

end Sys2Proof.Machine
end

/-! # Failed attaches, detaches and detaches that waited (O12, O13, O14) -/

section
-- One declaration after the other: a thread for each exceeds the memory that the check allows.
set_option Elab.async false
namespace Sys2Proof.Machine

/-! ## The first check of the header that fails (R182) -/

section
variable {m : Memory} {base : Addr}

theorem headerError_of_marker (hmarker : m.readWord base ≠ 0x7460C0A5#32) : headerError m base = some .badMarker :=
  if_pos hmarker

theorem headerError_of_version (hmarker : m.readWord base = 0x7460C0A5#32)
    (hversion : m.readWord (base + 4#64) ≠ 1#32) :
    headerError m base = some .badVersion := (if_neg (not_not_intro hmarker)).trans (if_pos hversion)

theorem headerError_of_pages (hmarker : m.readWord base = 0x7460C0A5#32) (hversion : m.readWord (base + 4#64) = 1#32)
    (hpages : (m.readWord (base + 0x18#64)).toNat < 1 ∨ 32 < (m.readWord (base + 0x18#64)).toNat ∨
      ((m.readWord (base + 0x1C#64)).toNat ≠ 4096 ∧ (m.readWord (base + 0x1C#64)).toNat ≠ 16384)) :
    headerError m base = some .badPages := by
  have hbad : ((m.readWord (base + 0x18#64)).toNat < 1 || (m.readWord (base + 0x18#64)).toNat > 32 ||
      ((m.readWord (base + 0x1C#64)).toNat ≠ 4096 && (m.readWord (base + 0x1C#64)).toNat ≠ 16384)) = true := by
    simp only [Bool.or_eq_true, Bool.and_eq_true, decide_eq_true_eq, or_assoc]
    exact hpages
  exact (if_neg (not_not_intro hmarker)).trans ((if_neg (not_not_intro hversion)).trans (if_pos hbad))

end

/-! ## An attach that fails (R182) -/

/-- An attach that fails shows an error, and changes nothing else outside EXU and nothing in staging. -/
structure State.AttachFailed (s : State) (e : AttachError) (t : State) : Prop where
  sts : t.sts = { s.sts with attachError := e }
  frame : { t with sts := s.sts, exu := s.exu } = s
  staging : t.exu.staging = s.exu.staging

theorem State.attach_of_read (s : State) : s.AttachFailed .bus (s.attach .read) := ⟨rfl, rfl, rfl⟩

theorem State.attach_of_headerError (s : State) (err : AccessError) (e : AttachError) (hread : err ≠ .read)
    (h : headerError s.host s.exu.newBase = some e) : s.AttachFailed e (s.attach err) := by
  unfold Exchange.newBase at h
  unfold State.attach
  simp only [if_neg hread, h]
  exact ⟨rfl, rfl, rfl⟩

theorem State.attach_of_write (s : State) (h : headerError s.host s.exu.newBase = none) :
    s.AttachFailed .bus (s.attach .write) := by
  unfold Exchange.newBase at h
  unfold State.attach
  simp only [h, reduceCtorEq, if_false, if_true]
  exact ⟨rfl, rfl, rfl⟩

/-- An attach of which no check and no access fails enters IDLE. -/
theorem State.attach_of_ok_state (s : State) (h : headerError s.host s.exu.newBase = none) :
    (s.attach .ok).sts.state = .idle := by
  rw [s.attach_of_passed h]
  exact (State.reportInterrupted_stays _).state

/-- Every attach fails or enters IDLE. -/
theorem State.attach_failed_or_idle (err : AccessError) (s : State) :
    (∃ e, s.AttachFailed e (s.attach err)) ∨ (s.attach err).sts.state = .idle := by
  cases hheader : headerError s.host s.exu.newBase with
  | some e =>
    by_cases hread : err = .read
    · rw [hread]; exact .inl ⟨_, s.attach_of_read⟩
    · exact .inl ⟨_, s.attach_of_headerError err e hread hheader⟩
  | none =>
    cases err with
    | ok => exact .inr (s.attach_of_ok_state hheader)
    | read => exact .inl ⟨_, s.attach_of_read⟩
    | write => exact .inl ⟨_, s.attach_of_write hheader⟩

/-- Settles O12: the checks of the header one after another, between the errors of its reads and of its writes. -/
theorem attachErrorsInOrder : Obligations.AttachErrorsInOrder := by
  intro ien host err s hp hdetached m base badPages
  let u : State := (s.hostWrites host).ienWritten ien
  refine ⟨u.attach err, exec_attach_of_detached ien host err s hp hdetached, ?_, fun hread hmarker => ?_,
    fun hread hmarker hversion => ?_, fun hread hmarker hversion hpages => ?_, ?_, fun hstate => ?_⟩
  · rintro rfl
    exact u.attach_of_read.sts
  · exact (u.attach_of_headerError err _ hread (headerError_of_marker hmarker)).sts
  · exact (u.attach_of_headerError err _ hread (headerError_of_version hmarker hversion)).sts
  · exact (u.attach_of_headerError err _ hread (headerError_of_pages hmarker hversion hpages)).sts
  · rintro rfl hmarker hversion hpages
    obtain ⟨hmin, hmax, hsize⟩ : ¬ (m.readWord (base + 0x18#64)).toNat < 1 ∧
        ¬ 32 < (m.readWord (base + 0x18#64)).toNat ∧ ((m.readWord (base + 0x1C#64)).toNat = 4096 ∨
          (m.readWord (base + 0x1C#64)).toNat = 16384) := by
      simpa only [badPages, not_or, not_and_or, not_not] using hpages
    exact (u.attach_of_write
      (headerError_eq_none hmarker hversion (Nat.le_of_not_lt hmin) (Nat.le_of_not_lt hmax) hsize)).sts
  · rcases u.attach_failed_or_idle err with ⟨e, hfailed⟩ | hidle
    · exact ⟨(congrArg State.host hfailed.frame :), (congrArg State.stu hfailed.frame :), hfailed.staging,
        (congrArg State.setup hfailed.frame :), (congrArg State.pos hfailed.frame :),
        (congrArg State.oru hfailed.frame :), (congrArg State.rpl hfailed.frame :)⟩
    · rw [hidle] at hstate; cases hstate

/-! ## ATTACH written 0 or 1 (R180, R183) -/

theorem exec_detach_same_ien (s : State) (hp : s.pinHeld = false) :
    exec (.detach s.exu.ien) s = .next s.detachWritten := by
  rw [exec_detach, s.ienWritten_self, State.taken_free s _ hp]

@[simp] theorem State.closePage_of_none (s : State) (h : s.exu.filling = none) : s.closePage = s := by
  unfold State.closePage
  rw [h]

section
variable (s : State)

theorem State.detachWritten_of_idle (hidle : s.sts.state = .idle) (hphase : s.exu.phase = .idle) :
    s.detachWritten = s.doDetach := by
  unfold State.detachWritten Exchange.polling
  simp [hidle, hphase]

theorem State.detachWritten_of_polling (hidle : s.sts.state = .idle) (hphase : s.exu.phase ≠ .idle) :
    s.detachWritten = { s with exu := { s.exu with detachDeferred := true } } := by
  unfold State.detachWritten Exchange.polling
  simp [hidle, hphase]

theorem State.detachWritten_of_run (hrun : s.sts.state = .running ∨ s.sts.state = .draining) :
    s.detachWritten = { s with exu := { s.exu with detachPending := true } } := by
  unfold State.detachWritten
  rcases hrun with h | h <;> rw [h]

theorem State.detachWritten_of_not_live (h : s.sts.state = .detached ∨ s.sts.state = .fault) :
    s.detachWritten = s := by
  unfold State.detachWritten
  rcases h with h | h <;> rw [h]

/-- Outside DETACHED an ATTACH takes IEN and clears detach pending (R180). -/
theorem exec_attach_of_attached (ien : Bool) (err : AccessError) (hp : s.pinHeld = false)
    (h : s.sts.state ≠ .detached) : exec (.attach ien [] err) s =
      .next { s with exu := { s.exu.setIen ien with detachPending := false } } := by
  rw [exec_attach, s.hostWrites_nil, State.taken_free s _ hp, State.attachWritten, State.ienWritten_sts, if_neg h]
  rfl

end

/-- Settles O13, part state by part state. -/
theorem detachByPartState : Obligations.DetachByPartState := by
  intro s hp
  rw [exec_detach_same_ien s hp]
  refine ⟨fun hidle hphase hnone => ?_, fun hidle hphase => ?_, fun hrun => ?_, fun h => ?_, fun ien err h => ?_⟩
  · rw [s.detachWritten_of_idle hidle hphase, State.doDetach, s.closePage_of_none hnone]
  · rw [s.detachWritten_of_polling hidle hphase]
  · rw [s.detachWritten_of_run hrun]
  · rw [s.detachWritten_of_not_live h]
  · exact ⟨_, exec_attach_of_attached s ien err hp h, rfl, rfl, rfl, rfl⟩

/-! ## A detach that waited for a poll (R183) -/

section
variable (s : State) (hphase : s.exu.phase = .idle) (hwaits : s.exu.detachDeferred = true)
include hphase hwaits

theorem State.waitingDetach_due : (!s.exu.polling && s.detachWaits) = true := by
  simp [Exchange.polling, State.detachWaits, hphase, hwaits]

theorem deferredDetach_of_idle (hidle : s.sts.state = .idle) : deferredDetach s = s.doDetach := by
  rw [deferredDetach, if_pos (s.waitingDetach_due hphase hwaits), hidle]

/-- An order of the poll has made the part RUNNING, or more. -/
theorem deferredDetach_of_run (hrun : s.sts.state = .running ∨ s.sts.state = .draining) :
    deferredDetach s = { s with exu := { s.exu with detachPending := true, detachDeferred := false } } := by
  rw [deferredDetach, if_pos (s.waitingDetach_due hphase hwaits)]
  rcases hrun with h | h <;> rw [h]

end

/-- The close of a page leaves the chain cursor, and the page sequence rises where there is a page (R192). -/
theorem State.closePage_cursor (s : State) : s.closePage.exu.cursor = s.exu.cursor := by
  unfold State.closePage
  split <;> simp

theorem State.closePage_pageSeq (s : State) : s.closePage.exu.pageSeq =
    if s.exu.filling.isSome then s.exu.pageSeq + 1#32 else s.exu.pageSeq := by
  unfold State.closePage
  split
  · rename_i h; simp [h]
  · rename_i h; simp [h]

/-- Settles O14: in IDLE the detach, whose page closes first; in a run, detach pending. -/
theorem deferredDetachTaken : Obligations.DeferredDetachTaken := by
  intro s hp hphase hwaits
  rw [exec_deferredDetach, State.taken_free s _ hp]
  refine ⟨fun hidle => ?_, fun hrun => ?_⟩
  · rw [deferredDetach_of_idle s hphase hwaits hidle]
    obtain ⟨hsts, hpending, hfilling, hstaging, -⟩ := s.doDetach_spec
    have hhost : s.exu.filling = none → s.doDetach.host = s.host := fun hnone => by
      rw [State.doDetach, s.closePage_of_none hnone]
    exact ⟨_, rfl, hsts, hpending, rfl, hfilling, s.closePage_cursor, hstaging, s.closePage_pageSeq, hhost,
      s.doDetach_setup, s.doDetach_pos, s.doDetach_sli, s.doDetach_oru, s.doDetach_stu⟩
  · rw [deferredDetach_of_run s hphase hwaits hrun]

end Sys2Proof.Machine
end

/-! # The end of a poll that takes a page (O50) -/

section
-- One declaration after the other: a thread for each exceeds the memory that the check allows.
set_option Elab.async false
namespace Sys2Proof.Machine

/-! ## The search for a page (R191) -/

/-- Descriptor i is EMPTY and has a page address other than 0 (R191). -/
def Exchange.pageFree (m : Memory) (e : Exchange) (i : Nat) : Prop :=
  m.readWord (e.descriptor i) = 0#32 ∧ aligned8 (m.readAddr (e.descriptor i + 8#64)) ≠ 0

theorem Exchange.pageFree_iff (m : Memory) (e : Exchange) (i : Nat) :
    (m.readWord (e.descriptor i) = BitVec.ofNat 32 ownerEmpty &&
      aligned8 (m.readAddr (e.descriptor i + 8#64)) ≠ 0) = true ↔ e.pageFree m i := by
  rw [Bool.and_eq_true, decide_eq_true_eq, decide_eq_true_eq]
  rfl

theorem findPage_succ_of_free {m : Memory} {e : Exchange} {i : Nat} (n : Nat) (h : e.pageFree m i) :
    findPage m e i (n + 1) = some (i, aligned8 (m.readAddr (e.descriptor i + 8#64))) :=
  if_pos ((e.pageFree_iff m i).2 h)

theorem findPage_succ_of_not_free {m : Memory} {e : Exchange} {i : Nat} (n : Nat) (h : ¬e.pageFree m i) :
    findPage m e i (n + 1) = findPage m e (i + 1) n :=
  if_neg fun hfree => h ((e.pageFree_iff m i).1 hfree)

/-- The first free descriptor at or after i is found. -/
theorem findPage_of_first {m : Memory} {e : Exchange} {j : Nat} (hfree : e.pageFree m j) (n i : Nat) (hij : i ≤ j)
    (hjn : j < i + n) (hbefore : ∀ k, i ≤ k → k < j → ¬e.pageFree m k) :
    findPage m e i n = some (j, aligned8 (m.readAddr (e.descriptor j + 8#64))) := by
  induction n generalizing i with
  | zero => omega
  | succ n ih =>
    rcases Nat.eq_or_lt_of_le hij with rfl | hlt
    · exact findPage_succ_of_free n hfree
    · rw [findPage_succ_of_not_free n (hbefore i (le_refl i) hlt)]
      exact ih (i + 1) hlt (by omega) fun k hk => hbefore k (by omega)

theorem findPage_of_none_free {m : Memory} {e : Exchange} (n i : Nat)
    (h : ∀ k, i ≤ k → k < i + n → ¬e.pageFree m k) : findPage m e i n = none := by
  induction n generalizing i with
  | zero => rfl
  | succ n ih =>
    rw [findPage_succ_of_not_free n (h i (le_refl i) (by omega))]
    exact ih (i + 1) fun k hk hkn => h k (by omega) (by omega)

/-! ## Steps 3 and 4 (R185) -/

theorem State.pageFound_of_sought (s : State) (hstaging : s.exu.staging ≠ []) (hfilling : s.exu.filling = none)
    (hstock : s.exu.stockAddr ≠ 0) : s.pageFound = findPage s.host s.exu 0 s.exu.pageCount := by
  refine if_pos ?_
  simp only [hfilling, Option.isNone_none, Bool.true_and, Bool.and_eq_true, Bool.not_eq_true', decide_eq_true_eq,
    List.isEmpty_eq_false_iff]
  exact ⟨hstaging, hstock⟩

/-- With no page found, a poll ends with the mirror words. -/
theorem State.finishPoll_of_no_page (s : State) (h : s.pageFound = none) : s.finishPoll = { s with
    host := s.host.writeBytes (s.exu.base + 0x24#64) s.mirrorBytes
    exu := { s.exu with phase := .idle } } := by
  have hpage : s.pageStep = s := by
    unfold State.pageStep
    rw [h]
  unfold State.finishPoll
  rw [hpage]
  unfold State.writeMirror
  rfl

/-- The page found is marked FILLING before the mirror words are written. -/
theorem State.finishPoll_of_page (s : State) (i : Nat) (page : Addr) (h : s.pageFound = some (i, page)) :
    s.finishPoll = { s with
      host := (s.host.writeWord (s.exu.descriptor i) 1).writeBytes (s.exu.base + 0x24#64) s.mirrorBytes
      exu := { s.exu with phase := .idle, filling := some ⟨i, page, 32, 0, none, s.flushTime⟩ } } := by
  have hpage : s.pageStep = { s with
      host := s.host.writeWord (s.exu.descriptor i) 1
      exu := { s.exu with filling := some ⟨i, page, 32, 0, none, s.flushTime⟩ } } := by
    unfold State.pageStep
    rw [h]
    rfl
  unfold State.finishPoll
  rw [hpage]
  unfold State.writeMirror
  rfl

/-- A POLL while the order of the poll has been taken is the end of it (log 6). -/
theorem exec_poll_of_finishing (host : List HostWrite) (s : State) (hp : s.pinHeld = false)
    (hlive : s.sts.state.live = true) (hphase : s.exu.phase = .finishing) :
    exec (.poll host) s = .next (s.hostWrites host).finishPoll := by
  have hpoll : poll (s.hostWrites host) = (s.hostWrites host).finishPoll := by
    have hlive : (s.hostWrites host).sts.state.live = true := hlive
    unfold poll
    rw [if_pos hlive, State.hostWrites_exu, hphase]
  exact (exec_poll host s).trans ((State.taken_free (s.hostWrites host) _ hp).trans (congrArg _ hpoll))

/-- Settles O50, by the search for the first free descriptor. -/
theorem pollTakesPage : Obligations.PollTakesPage := by
  intro s host hp hlive hphase m free page looks
  rw [exec_poll_of_finishing host s hp hlive hphase]
  refine ⟨fun i hlooks hi hfree hbefore => ?_, fun hnone => ?_, fun i => rfl⟩
  · obtain ⟨hstaging, hfilling, hstock⟩ := hlooks
    have hfound := ((s.hostWrites host).pageFound_of_sought hstaging hfilling hstock).trans
      (findPage_of_first hfree s.exu.pageCount 0 (Nat.zero_le i) (by omega) fun k _ => hbefore k)
    rw [State.finishPoll_of_page _ i _ hfound]
    rfl
  · have hfound : (s.hostWrites host).pageFound = none := by
      by_cases hlooks : looks
      · have hall := hnone.resolve_left (not_not_intro hlooks)
        obtain ⟨hstaging, hfilling, hstock⟩ := hlooks
        rw [(s.hostWrites host).pageFound_of_sought hstaging hfilling hstock]
        exact findPage_of_none_free _ 0 fun k _ hk => hall k (by simpa using hk)
      · have hunsought : s.exu.staging = [] ∨ s.exu.filling.isSome = true ∨ s.exu.stockAddr = 0 := by
          simpa only [looks, not_and_or, not_not, ← Option.isSome_iff_ne_none] using hlooks
        exact State.pageFound_of_unsought (s.hostWrites host) hunsought
    rw [State.finishPoll_of_no_page _ hfound]
    rfl

end Sys2Proof.Machine
end

/-! # Pages and staging (O51, O52) -/

section
-- One declaration after the other: a thread for each exceeds the memory that the check allows.
set_option Elab.async false
namespace Sys2Proof.Machine

/-! ## Raising a cause (R193) -/

/-- A cause bit is set, and a message is sent where it was 0 and IEN is set. -/
theorem Exchange.raise_eq (c : Nat) (e : Exchange) : e.raise c = { e with
    causes := e.causes ||| 1#4 <<< c
    messages := e.messages + (if e.ien = true ∧ e.causes.getLsbD c = false then 1 else 0) } := by
  have hset : ∀ c < 4, ∀ x : BitVec 4, x.getLsbD c = true → x ||| 1#4 <<< c = x := by decide
  unfold Exchange.raise
  cases h : e.causes.getLsbD c with
  | true => simp [hset c (BitVec.lt_of_getLsbD h) _ h]
  | false => simp [bit]

/-! ## The close of a page (R192) -/

/-- EXU once a page has been closed: the page sequence rises, the drop counts go to 0, the PAGE cause is set. -/
def Exchange.paged (e : Exchange) : Exchange := { e with
  pageSeq := e.pageSeq + 1#32, dropDroppable := 0, dropEssential := 0, filling := none
  causes := e.causes ||| 1#4
  messages := e.messages + (if e.ien = true ∧ e.causes.getLsbD 0 = false then 1 else 0) }

/-- The head at the start of the page, then FILLED in its descriptor. -/
def State.pageFilled (p : FillingPage) (s : State) : Memory :=
  (s.host.writeBytes p.addr (s.exu.pageHead p (s.firstRecord p))).writeBytes (s.exu.descriptor p.index) (leBytes 4 2)

theorem State.closePage_of_some (s : State) (p : FillingPage) (h : s.exu.filling = some p) : s.closePage = { s with
    host := s.pageFilled p
    exu := s.exu.paged
    free := if p.firstTime = none then s.free + 1 else s.free } := by
  unfold State.closePage
  simp only [h, Exchange.raise_eq, Option.isNone_iff_eq_none]
  rfl

/-- A page that holds a record takes no free value (log 28). -/
theorem State.closePage_of_record (s : State) (p : FillingPage) (u : Word) (h : s.exu.filling = some p)
    (hu : p.firstTime = some u) : s.closePage = { s with host := s.pageFilled p, exu := s.exu.paged } := by
  rw [s.closePage_of_some p h, if_neg (by simp [hu])]

/-- Settles O52: the flush is due once flush_time has passed since the first record. -/
theorem pageFlushCloses : Obligations.PageFlushCloses := by
  intro s p hp hlive hfilling
  have hdue : s.pageFlushDue = p.flushDue s.pos.us := by simp [State.pageFlushDue, hfilling, hlive]
  have hleft : p.flushDue s.pos.us = false → exec .pageFlush s = .next s := fun h => by
    rw [exec_pageFlush, pageFlush, hdue, h, if_neg Bool.false_ne_true, State.taken_self]
  refine ⟨fun u hu hover => ?_, fun hnone => hleft ?_, fun u hu hearly => hleft ?_⟩
  · have hflush : p.flushDue s.pos.us = true := by simpa [FillingPage.flushDue, hu] using hover
    rw [exec_pageFlush, State.taken_free s _ hp, pageFlush, hdue, hflush, if_pos rfl,
      s.closePage_of_record p u hfilling hu]
    refine ⟨_, rfl, ?_, rfl, rfl, rfl, rfl, rfl, rfl, rfl, rfl⟩
    rw [show u = s.firstRecord p by simp [State.firstRecord, hu]]
    rfl
  · simp [FillingPage.flushDue, hnone]
  · simpa [FillingPage.flushDue, hu] using hearly

/-! ## What an eviction takes (R189) -/

/-- An essential record (Table 11-4). -/
def Staged.essential (r : Staged) : Bool := !r.body.droppable

/-- Of the records staged, an eviction of m bytes takes the n oldest droppable ones, and no more than it needs. -/
structure Evicted (m : Nat) (l kept : List Staged) (n : Nat) : Prop where
  sublist : kept.Sublist l
  essentials : kept.filter Staged.essential = l.filter Staged.essential
  droppables : kept.filter (fun x => !x.essential) = (l.filter (fun x => !x.essential)).drop n
  count : n ≤ (l.filter (fun x => !x.essential)).length
  needed : ∀ i < n, stagedBytes ((l.filter (fun x => !x.essential)).take i) < m

theorem Evicted.none (m : Nat) (l : List Staged) : Evicted m l l 0 where
  sublist := List.Sublist.refl l
  essentials := rfl
  droppables := rfl
  count := Nat.zero_le _
  needed := fun _ h => absurd h (Nat.not_lt_zero _)

theorem Evicted.essential {m n : Nat} {r : Staged} {rs kept : List Staged} (hr : r.essential = true)
    (h : Evicted m rs kept n) : Evicted m (r :: rs) (r :: kept) n where
  sublist := h.sublist.cons_cons r
  essentials := by simp [hr, h.essentials]
  droppables := by simpa [hr] using h.droppables
  count := by simpa [hr] using h.count
  needed := by simpa [hr] using h.needed

theorem Evicted.droppable {m n : Nat} {r : Staged} {rs kept : List Staged} (hr : r.essential = false) (hm : 0 < m)
    (h : Evicted (m - r.body.size) rs kept n) : Evicted m (r :: rs) kept (n + 1) where
  sublist := h.sublist.cons r
  essentials := by simp [hr, h.essentials]
  droppables := by simpa [hr] using h.droppables
  count := by simpa [hr] using h.count
  needed := by
    intro i hi
    cases i with
    | zero => simpa [stagedBytes] using hm
    | succ i =>
      have := h.needed i (by omega)
      simp only [hr, Bool.not_false, List.filter_cons_of_pos, List.take_succ_cons, stagedBytes]
      omega

theorem evict_evicted : ∀ (m : Nat) (l : List Staged), Evicted m l (evict m l).1 (evict m l).2
  | m, [] => .none m []
  | m, r :: rs => by
    unfold evict
    split
    · exact .none m _
    · rename_i hm
      split
      · rename_i hr
        exact (evict_evicted _ rs).droppable (by simp [Staged.essential, hr]) (Nat.pos_of_ne_zero hm)
      · rename_i hr
        exact (evict_evicted m rs).essential (by simp [Staged.essential, hr])

/-- More than every droppable record holds: they all go. -/
theorem evict_all : ∀ (m : Nat) (l : List Staged), stagedBytes l < essentialBytes l + m →
    evict m l = (l.filter Staged.essential, (l.filter (fun x => !x.essential)).length)
  | m, [], _ => rfl
  | m, r :: rs, h => by
    have hle := essentialBytes_le rs
    simp only [stagedBytes, essentialBytes] at h
    unfold evict
    cases hr : r.body.droppable with
    | true =>
      simp only [hr, if_true] at h
      rw [if_neg (by omega), if_pos rfl, evict_all (m - r.body.size) rs (by omega)]
      simp [Staged.essential, hr]
    | false =>
      simp only [hr, Bool.false_eq_true, if_false] at h
      rw [if_neg (by omega), if_neg Bool.false_ne_true, evict_all m rs (by omega)]
      simp [Staged.essential, hr]

theorem essentialBytes_filter (l : List Staged) :
    stagedBytes (l.filter Staged.essential) = essentialBytes l ∧
      essentialBytes (l.filter Staged.essential) = essentialBytes l := by
  induction l with
  | nil => exact ⟨rfl, rfl⟩
  | cons r rs ih =>
    obtain ⟨hstaged, hessential⟩ := ih
    cases hr : r.body.droppable with
    | true => simpa [Staged.essential, hr, essentialBytes] using And.intro hstaged hessential
    | false => simpa [Staged.essential, hr, stagedBytes, essentialBytes] using And.intro hstaged hessential

/-! ## Staging one record (R189, R190) -/

section
variable (us : Word) (r : Report) (e : Exchange)

theorem Exchange.fitsEssential_iff (n : Nat) : e.fitsEssential n = true ↔ essentialBytes e.staging + n ≤ 16384 :=
  decide_eq_true_iff

/-- An essential record that fits takes no more room than it needs. -/
theorem Exchange.appendEssential_eq (n : Nat) (kept : List Staged)
    (h : evict (stagedBytes e.staging + r.size - 16384) e.staging = (kept, n)) :
    e.appendEssential us r = { e with
      staging := kept ++ [⟨us, r⟩], dropDroppable := satAdd e.dropDroppable n } := by
  unfold Exchange.appendEssential stagingLimit
  rw [h]

theorem Exchange.tryLoss_of_not_pending (h : e.lossPending = false) : e.tryLoss us = e :=
  if_neg (by simp [h])

theorem Exchange.tryLoss_of_full (h : 16384 < essentialBytes e.staging + 24) : e.tryLoss us = e := by
  have hfull : ¬e.fitsEssential (Report.notice (.reportLoss e.dropEssential)).size = true := fun hfits =>
    Nat.not_le.2 h ((e.fitsEssential_iff 24).1 hfits)
  exact if_neg (by simp [hfull])

/-- A REPORT_LOSS that waits is staged when it fits, droppable records evicted for it (R190, log 45). -/
theorem Exchange.tryLoss_of_fits (n : Nat) (kept : List Staged) (hpending : e.lossPending = true)
    (hfits : essentialBytes e.staging + 24 ≤ 16384)
    (h : evict (stagedBytes e.staging + 24 - 16384) e.staging = (kept, n)) : e.tryLoss us = { e with
      staging := kept ++ [⟨us, .notice (.reportLoss e.dropEssential)⟩]
      dropDroppable := satAdd e.dropDroppable n
      lossPending := false
      lossReported := true } := by
  have hroom : e.fitsEssential (Report.notice (.reportLoss e.dropEssential)).size = true :=
    (e.fitsEssential_iff 24).2 hfits
  have happend := e.appendEssential_eq us (.notice (.reportLoss e.dropEssential)) n kept h
  unfold Exchange.tryLoss
  rw [if_pos (by simp [hpending, hroom]), happend]

@[simp] theorem Exchange.tryLoss_causes : (e.tryLoss us).causes = e.causes := by
  unfold Exchange.tryLoss Exchange.appendEssential; split <;> rfl

@[simp] theorem Exchange.tryLoss_messages : (e.tryLoss us).messages = e.messages := by
  unfold Exchange.tryLoss Exchange.appendEssential; split <;> rfl

/-- A record raises ALERT whether or not it is dropped (R189, R193). -/
def Exchange.alerted (e : Exchange) : Exchange := if r.alerts = true ∧ e.causes.getLsbD 2 = false then
    { e with causes := e.causes ||| 4#4, messages := e.messages + (if e.ien = true then 1 else 0) }
  else e

theorem Exchange.stage_eq : e.stage us r = Exchange.alerted r (e.put us r) := by
  unfold Exchange.stage Exchange.alerted
  generalize e.put us r = u
  cases r.alerts with
  | false => rfl
  | true =>
    rw [if_pos rfl, Exchange.raise, causeAlert]
    cases h : u.causes.getLsbD 2 with
    | true => rfl
    | false => rfl

theorem Exchange.put_of_droppable (hr : r.droppable = true) (h : stagedBytes e.staging + r.size ≤ 12288) :
    e.put us r = { e with staging := e.staging ++ [⟨us, r⟩] } := (if_pos hr).trans (if_pos h)

theorem Exchange.put_of_dropped (hr : r.droppable = true) (h : 12288 < stagedBytes e.staging + r.size) :
    e.put us r = { e with dropDroppable := satAdd e.dropDroppable 1 } :=
  (if_pos hr).trans (if_neg (Nat.not_le.2 h))

theorem Exchange.put_of_essential (n : Nat) (kept : List Staged) (hr : r.droppable = false)
    (hfits : essentialBytes e.staging + r.size ≤ 16384)
    (h : evict (stagedBytes e.staging + r.size - 16384) e.staging = (kept, n)) : e.put us r = { e with
      staging := kept ++ [⟨us, r⟩], dropDroppable := satAdd e.dropDroppable n } := by
  unfold Exchange.put
  rw [if_neg (by simp [hr]), if_pos ((e.fitsEssential_iff r.size).2 hfits)]
  exact e.appendEssential_eq us r n kept h

/-- An essential record that finds no room is dropped with every droppable one, and REPORT_LOSS is tried (R190). -/
theorem Exchange.put_of_essential_dropped (hr : r.droppable = false)
    (hfull : 16384 < essentialBytes e.staging + r.size) : e.put us r = Exchange.tryLoss us { e with
      staging := e.staging.filter Staged.essential
      dropDroppable := satAdd e.dropDroppable (e.staging.filter (fun x => !x.essential)).length
      dropEssential := satAdd e.dropEssential 1
      lossPending := e.lossPending || !e.lossReported } := by
  have hle := essentialBytes_le e.staging
  have hevict := evict_all (stagedBytes e.staging + r.size - 16384) e.staging (by omega)
  unfold Exchange.put stagingLimit
  rw [if_neg (by simp [hr]), if_neg (fun hfits => Nat.not_le.2 hfull ((e.fitsEssential_iff r.size).1 hfits)), hevict]

end

/-! ## Staging, case by case (R189, R190) -/

theorem State.report_singleton (r : Report) (s : State) :
    s.report [r] = { s with exu := Exchange.alerted r (s.exu.put s.pos.us r) } :=
  congrArg (fun e : Exchange => { s with exu := e }) (Exchange.stage_eq s.pos.us r s.exu)

/-- An essential record that fits with nothing evicted. -/
theorem Exchange.put_of_room (us : Word) (r : Report) (e : Exchange) (hr : r.droppable = false)
    (h : stagedBytes e.staging + r.size ≤ 16384) : e.put us r = { e with staging := e.staging ++ [⟨us, r⟩] } := by
  have hle := essentialBytes_le e.staging
  have hevict : evict (stagedBytes e.staging + r.size - 16384) e.staging = (e.staging, 0) := by
    rw [Nat.sub_eq_zero_of_le h, evict_zero]
  rw [e.put_of_essential us r 0 e.staging hr (by omega) hevict, satAdd_zero]

/-- What an eviction keeps, with the record it makes room for, stands within the limit where the essential ones do. -/
theorem stagedBytes_evict_le {l kept : List Staged} {n size : Nat} (hfits : essentialBytes l + size ≤ 16384)
    (h : evict (stagedBytes l + size - 16384) l = (kept, n)) : stagedBytes kept + size ≤ 16384 := by
  obtain ⟨-, hfreed, hle⟩ := evict_spec (stagedBytes l + size - 16384) l
  rw [h] at hfreed hle
  dsimp only at hfreed hle
  omega

section
variable (us : Word) (r : Report) (e : Exchange) (hr : r.droppable = false)
  (hfull : 16384 < essentialBytes e.staging + r.size)
include hr hfull

/-- The first essential drop stages REPORT_LOSS at once where it fits (R190). -/
theorem Exchange.put_of_loss_reported (hpending : e.lossPending = true ∨ e.lossReported = false)
    (hfits : stagedBytes (e.staging.filter Staged.essential) + 24 ≤ 16384) : e.put us r = { e with
      staging := e.staging.filter Staged.essential ++ [⟨us, .notice (.reportLoss (satAdd e.dropEssential 1))⟩]
      dropDroppable := satAdd e.dropDroppable (e.staging.filter (fun x => !x.essential)).length
      dropEssential := satAdd e.dropEssential 1, lossPending := false, lossReported := true } := by
  have hwaits : (e.lossPending || !e.lossReported) = true := by simpa using hpending
  obtain ⟨hstaged, hessential⟩ := essentialBytes_filter e.staging
  rw [e.put_of_essential_dropped us r hr hfull]
  refine (Exchange.tryLoss_of_fits us _ 0 (e.staging.filter Staged.essential) hwaits ?_ ?_).trans ?_
  · dsimp only; omega
  · dsimp only; rw [Nat.sub_eq_zero_of_le hfits, evict_zero]
  · dsimp only; rw [satAdd_zero]

/-- It waits where it does not fit (R190). -/
theorem Exchange.put_of_loss_waiting (hpending : e.lossPending = true ∨ e.lossReported = false)
    (hover : 16384 < stagedBytes (e.staging.filter Staged.essential) + 24) : e.put us r = { e with
      staging := e.staging.filter Staged.essential
      dropDroppable := satAdd e.dropDroppable (e.staging.filter (fun x => !x.essential)).length
      dropEssential := satAdd e.dropEssential 1, lossPending := true } := by
  have hwaits : (e.lossPending || !e.lossReported) = true := by simpa using hpending
  obtain ⟨hstaged, hessential⟩ := essentialBytes_filter e.staging
  rw [e.put_of_essential_dropped us r hr hfull, Exchange.tryLoss_of_full us _ (by dsimp only; omega), hwaits]

/-- A loss that has been reported is not reported again. -/
theorem Exchange.put_of_loss_known (hknown : ¬(e.lossPending = true ∨ e.lossReported = false)) : e.put us r = { e with
      staging := e.staging.filter Staged.essential
      dropDroppable := satAdd e.dropDroppable (e.staging.filter (fun x => !x.essential)).length
      dropEssential := satAdd e.dropEssential 1 } := by
  obtain ⟨hpending, hreported⟩ : e.lossPending = false ∧ e.lossReported = true := by simpa using hknown
  have hwaits : (e.lossPending || !e.lossReported) = false := by simp [hpending, hreported]
  rw [e.put_of_essential_dropped us r hr hfull, hwaits, Exchange.tryLoss_of_not_pending us _ rfl]
  simp only [hpending]

end

/-! ## The writing of one record (R192) -/

section
variable (s : State) (p : FillingPage) (r : Staged) (rest : List Staged)

theorem exec_pageRecordWrite_of_filling (hp : s.pinHeld = false) (hlive : s.sts.state.live = true)
    (hfilling : s.exu.filling = some p) (hstaging : s.exu.staging = r :: rest) :
    exec .pageRecordWrite s = .next (s.writeRecord p r rest) := by
  have hwrite : pageRecordWrite s = s.writeRecord p r rest := by
    unfold pageRecordWrite
    rw [hfilling, hstaging]
    exact if_pos hlive
  rw [exec_pageRecordWrite, State.taken_free s _ hp, hwrite]

theorem State.writeRecord_of_over (hover : s.exu.pageSize < p.written + r.body.size) :
    s.writeRecord p r rest = s.closePage := if_neg (Nat.not_le.2 hover)

/-- EXU once a record has left staging for the page. -/
def Exchange.recordLeft (us : Word) (e : Exchange) : Exchange :=
  { e with staging := rest, filling := some (p.add us r.body.size) }

/-- `u` is EXU as the record left it, a loss that waits tried again (log 45). -/
structure Exchange.Stored (us : Word) (e u : Exchange) : Prop where
  tried : (e.recordLeft p r rest us).tryLoss us = u

variable {p r rest}

/-- A loss tried again changes nothing that the close of a page reads but the drop counts. -/
theorem Exchange.Stored.paging {us : Word} {e u : Exchange} (h : e.Stored p r rest us u) :
    u.filling = some (p.add us r.body.size) ∧ u.pageSeq = e.pageSeq ∧ u.stockAddr = e.stockAddr ∧
      u.causes = e.causes ∧ u.messages = e.messages ∧ u.ien = e.ien := by
  rw [← h.tried]
  simp [Exchange.recordLeft]

variable {u : Exchange} (hfits : p.written + r.body.size ≤ s.exu.pageSize) (hu : s.exu.Stored p r rest s.pos.us u)
include hfits hu

theorem State.writeRecord_of_fits : s.writeRecord p r rest =
    let t := { s with host := s.host.writeBytes p.next r.bytes, exu := u }
    if r.body.closesPage = true then t.closePage else t := by
  have hstored : State.recordWritten p r rest { s with host := s.host.writeBytes p.next r.bytes } =
      { s with host := s.host.writeBytes p.next r.bytes, exu := u } := by
    rw [← hu.tried]
    dsimp only [State.recordWritten, Exchange.recordLeft]
  unfold State.writeRecord
  rw [if_pos hfits]
  dsimp only
  rw [hstored]

theorem State.writeRecord_of_open (hopen : r.body.closesPage = false) :
    s.writeRecord p r rest = { s with host := s.host.writeBytes p.next r.bytes, exu := u } :=
  (s.writeRecord_of_fits hfits hu).trans (if_neg (by simp [hopen]))

/-- A record that closes its page is counted in the head of that page. -/
theorem State.writeRecord_of_closing (hcloses : r.body.closesPage = true) : s.writeRecord p r rest = { s with
    host := ((s.host.writeBytes p.next r.bytes).writeBytes p.addr
      (leBytes 4 (s.exu.pageSeq + 1#32).toNat ++ leBytes 4 (p.count + 1) ++ leBytes 4 (p.written + r.body.size) ++
        leBytes 4 u.dropDroppable.toNat ++ leBytes 4 u.dropEssential.toNat ++
        leBytes 4 (p.firstTime.getD s.pos.us).toNat ++ leBytes 8 0)).writeBytes
      (s.exu.stockAddr + BitVec.ofNat 64 (16 * p.index)) (leBytes 4 2)
    exu := { u with
      pageSeq := s.exu.pageSeq + 1#32, dropDroppable := 0, dropEssential := 0, filling := none
      causes := s.exu.causes ||| 1#4
      messages := s.exu.messages + (if s.exu.ien = true ∧ s.exu.causes.getLsbD 0 = false then 1 else 0) } } := by
  obtain ⟨hfilling, hseq, hstock, hcauses, hmessages, hien⟩ := hu.paging
  rw [s.writeRecord_of_fits hfits hu]
  dsimp only
  rw [if_pos hcloses, State.closePage_of_record _ (p.add s.pos.us r.body.size) (p.firstTime.getD s.pos.us) hfilling rfl]
  simp only [State.pageFilled, Exchange.pageHead, Exchange.descriptor, Exchange.paged, hseq, hstock, hcauses, hmessages,
    hien]
  rfl

end

/-- What a loss that waits becomes once a record has left staging (R190, log 45). -/
theorem Exchange.tryLoss_of_pending (us : Word) (e : Exchange) (hpending : e.lossPending = true) :
    (16384 < essentialBytes e.staging + 24 → e.tryLoss us = e) ∧
    (essentialBytes e.staging + 24 ≤ 16384 → ∃ (kept : List Staged) (n : Nat), e.tryLoss us = { e with
        staging := kept ++ [⟨us, .notice (.reportLoss e.dropEssential)⟩]
        dropDroppable := satAdd e.dropDroppable n
        lossPending := false
        lossReported := true } ∧
      stagedBytes kept + 24 ≤ 16384 ∧ (stagedBytes e.staging + 24 ≤ 16384 → kept = e.staging)) := by
  refine ⟨fun hfull => e.tryLoss_of_full us hfull, fun hfits => ?_⟩
  obtain ⟨⟨kept, n⟩, hevict⟩ : ∃ k, evict (stagedBytes e.staging + 24 - 16384) e.staging = k := ⟨_, rfl⟩
  refine ⟨kept, n, e.tryLoss_of_fits us n kept hpending hfits hevict, stagedBytes_evict_le hfits hevict,
    fun hroom => ?_⟩
  rw [Nat.sub_eq_zero_of_le hroom, evict_zero] at hevict
  exact (congrArg Prod.fst hevict).symm

/-- Settles O51: the record and the close of its page, and the staging of a record case by case. -/
theorem pageRecordWritten : Obligations.PageRecordWritten := by
  constructor
  · intro s p r rest hp hlive hfilling hstaging head filled record next paged left
    rw [exec_pageRecordWrite_of_filling s p r rest hp hlive hfilling hstaging]
    have hsame (hloss : s.exu.lossPending = false) : s.exu.Stored p r rest s.pos.us left :=
      ⟨Exchange.tryLoss_of_not_pending _ _ hloss⟩
    have htried : s.exu.Stored p r rest s.pos.us (left.tryLoss s.pos.us) := ⟨rfl⟩
    refine ⟨fun hloss hfits hopen => congrArg _ (s.writeRecord_of_open hfits (hsame hloss) hopen),
      fun hloss hfits hcloses => congrArg _ (s.writeRecord_of_closing hfits (hsame hloss) hcloses),
      fun hloss hfits => ?_, fun hover => ?_⟩
    · obtain ⟨hfull, hroom⟩ := left.tryLoss_of_pending s.pos.us hloss
      generalize left.tryLoss s.pos.us = e at htried hfull hroom
      exact ⟨e, _, rfl, s.writeRecord_of_open hfits htried, s.writeRecord_of_closing hfits htried, hfull, hroom⟩
    · rw [s.writeRecord_of_over p r rest hover, s.closePage_of_some p hfilling]
      rfl
  · intro s r held dry raised
    rw [s.report_singleton r]
    refine ⟨fun hr hfits => ?_, fun hr hover => ?_, fun hr hfits => ?_, fun hr hover => ?_⟩
    · rw [s.exu.put_of_droppable _ r hr hfits]; rfl
    · rw [s.exu.put_of_dropped _ r hr hover]; rfl
    · rw [s.exu.put_of_room _ r hr hfits]; rfl
    · obtain ⟨⟨kept, n⟩, hevict⟩ : ∃ k, evict (held + r.size - 16384) s.exu.staging = k := ⟨_, rfl⟩
      have hevicted := evict_evicted (held + r.size - 16384) s.exu.staging
      rw [hevict] at hevicted
      refine ⟨kept, n, hevicted.sublist, hevicted.essentials, hevicted.droppables, hevicted.count,
        fun i hi => ?_, fun hfits => ⟨stagedBytes_evict_le hfits hevict, ?_⟩, fun hfull => ?_⟩
      · exact Nat.lt_sub_of_add_lt (Nat.add_lt_of_lt_sub' (hevicted.needed i hi))
      · rw [s.exu.put_of_essential _ r n kept hr hfits hevict]; rfl
      · have hle := essentialBytes_le s.exu.staging
        rw [evict_all _ _ (by omega)] at hevict
        obtain ⟨hkept, hn⟩ := Prod.mk.inj hevict
        subst hkept hn
        refine ⟨rfl, rfl, fun hpending hfits => ?_, fun hpending hover => ?_, fun hknown => ?_⟩
        · rw [s.exu.put_of_loss_reported _ r hr hfull hpending hfits]; rfl
        · rw [s.exu.put_of_loss_waiting _ r hr hfull hpending hover]; rfl
        · rw [s.exu.put_of_loss_known _ r hr hfull hknown]; rfl

end Sys2Proof.Machine
end

section
/-! ## The step -/

namespace Sys2Proof.Machine

/-- Settles O1, by the law of a step on a queue that is not empty (`step_cons`). -/
theorem stepRunsFrontCommand : Obligations.StepRunsFrontCommand := by
  intro c rest s
  exact step_cons c rest { s with pending := c :: rest } rfl

end Sys2Proof.Machine
end
